-- ==== Sys2Proof/Word.lean ====
section
/-! DEFINITION. The word types of the decoder: bytes, 32-bit registers, and binary32 values held as their bit patterns. -/

namespace Sys2Proof

/-- One byte of space `PKT` (20_memory.md R60). -/
abbrev Byte := BitVec 8

/-- A 32-bit register or command word. -/
abbrev Word32 := BitVec 32

/-- A `FLOAT` of 00_scope.md R7: an IEEE 754 binary32 value, held as its bit pattern. The operations on it are in
Machine/Float32.lean. -/
abbrev F32 := BitVec 32

/-- A codeword as a bit string in read order (41_codebook.md R185): the head is the first bit read. -/
abbrev Codeword := List Bool

end Sys2Proof
end

