-- ==== Sys2Proof/Machine/Bits.lean ====
section
/-! DEFINITION. The integer primitives of 00_scope.md R9 and R10 and the list helpers the operations share. -/

namespace Sys2Proof.Machine

/-- `ilog(v)`: the number of bits needed to write `v` (00_scope.md R10). -/
def ilog (v : Nat) : Nat := if v = 0 then 0 else Nat.log2 v + 1

/-- `icount(v)` for an 8-bit value: the number of its set bits (00_scope.md R10). -/
def icount (v : Nat) : Nat := ((List.range 8).filter v.testBit).length

/-- `sext_32(v)`: the 32-bit value read as two's complement (00_scope.md R9). -/
def sext32 (v : Nat) : Int := (BitVec.ofNat 32 v).toInt

/-- `l` with `v` at index `i`, missing places before it being absent: how an indexed field of `cfg` or `tab` is
loaded. -/
def putAt {α : Type} : List (Option α) → Nat → α → List (Option α)
  | [], 0, v => [some v]
  | [], i + 1, v => none :: putAt [] i v
  | _ :: l, 0, v => some v :: l
  | x :: l, i + 1, v => x :: putAt l i v

/-- The field loaded at index `i`, if any. -/
def fieldAt {α : Type} (l : List (Option α)) (i : Nat) : Option α := (l[i]?).join

/-- `l` with its first `n` entries (those it has) replaced by `v`. -/
def fillFirst {α : Type} (n : Nat) (v : α) (l : List α) : List α :=
  List.replicate (min n l.length) v ++ l.drop n

/-- One bit as a number. -/
def bitValue (b : Bool) : Nat := if b then 1 else 0

/-- `l` with its first words replaced by those of `new`, as many as `l` has. -/
def overwrite {α : Type} (new l : List α) : List α := new.take l.length ++ l.drop new.length

end Sys2Proof.Machine
end

