-- ==== Sys2Proof/Config.lean ====
section
/-! DEFINITION. What an implementation of the decoder fixes (00_scope.md R7) and the values the spec leaves open. -/

namespace Sys2Proof

/-- The parameter `EOF_IN_RESIDUE` (44_residue.md R270, D7): what a residue decode that meets the end of the payload, an
unassigned codeword or an unmapped phrase entry does to the block. -/
inductive EofInResidue where
  /-- The default: what was added stays and the mapping goes on. -/
  | stopAndKeep
  /-- Every channel of the block is silenced. -/
  | silenceBlock
  /-- The packet fails with `Eof`. -/
  | failPacket
  deriving DecidableEq, Repr

/-- The binary32 operations whose invalid cases or NaN operands give a NaN the spec does not choose (U20). -/
inductive FloatOp where
  | add | mul | div
  deriving DecidableEq, Repr

/-- The functional parameters of 00_scope.md R7. Every operation that needs one takes a `Params`, so it is defined for
every choice; `exec` runs with the spec's defaults (`Sys2Proof.Machine.defaultParams`, log 7). -/
structure Params where
  /-- `f32(cos(pi * p / q))`, through `MATH` (46_mdct.md R301). -/
  cosPi : Nat → Nat → F32
  /-- `f32(sin(pi * p / q))`, through `MATH` (46_mdct.md R301). -/
  sinPi : Nat → Nat → F32
  /-- The entry `linearmap[i]` for `rate`, `n`, `ln`, `i`, through `MATH` (42_floor0.md R212). -/
  barkEntry : Nat → Nat → Nat → Nat → Nat
  /-- `MDCT_SCALE(n)` (46_mdct.md R308). -/
  mdctScale : Nat → F32
  /-- `FLOOR1_DB[i]` (43_floor1.md R238). -/
  floor1Db : Nat → F32
  /-- `F0_CURVE(lsp, m, amp, ampdB, k, ln)` (42_floor0.md R216). -/
  f0Curve : List F32 → Nat → F32 → Nat → Nat → Nat → F32
  /-- `WINDOW_SHAPE`: `slope(i, L)` (47_block.md R329). -/
  slope : Nat → Nat → F32

/-- FREE VALUE (log 5). The bits of the NaN that a binary32 operation gives on these operands: 93_implementation_defined.md
U20 leaves it "any value among NaNs". Only `f32NaN` of Machine/Float32.lean reads it, and forces the result to be a NaN. -/
opaque Config.nanBits : FloatOp → F32 → F32 → F32

/-- FREE VALUE (log 8). The default floor-0 curve where its formula has no value: `p + q = 0`
(93_implementation_defined.md U6), or a coefficient or amplitude that is not finite. -/
opaque Config.f0CurveOpen : List F32 → Nat → F32 → Nat → Nat → Nat → F32

/-- FREE VALUE (log 2). The byte that a payload placed against 20_memory.md R61 has at an address at or above `2^32`, where
space `PKT` has none. It may depend on what `PKT` holds. -/
opaque Config.byteBeyond : List (Nat × Byte) → Nat → Byte

end Sys2Proof
end

