-- ==== Sys2Proof/Machine/Float32.lean ====
section
/-! DEFINITION. Binary32 arithmetic (00_scope.md R11, 92_eei_decisions.md D8): every operation computes the exact result
on integers and rounds it once to nearest even; subnormals are kept, overflow gives an infinity, and an invalid operation
or a NaN operand gives a NaN whose bits are free (U20, log 5). Nothing raises (60_exceptions.md R378). -/

namespace Sys2Proof.Machine

/-- A binary32 value as a NaN, a signed infinity, or `(-1)^neg * m * 2^e`. -/
inductive F32Class where
  | nan
  | inf (neg : Bool)
  | fin (neg : Bool) (m : Nat) (e : Int)
  deriving DecidableEq, Repr

/-- The class of a bit pattern: sign in bit 31, exponent in 30:23, fraction in 22:0. -/
def f32Class (x : F32) : F32Class :=
  let neg := x.getLsbD 31
  let ex := (x.extractLsb' 23 8).toNat
  let fr := (x.extractLsb' 0 23).toNat
  if ex = 255 then (if fr = 0 then .inf neg else .nan)
  else if ex = 0 then .fin neg fr (-149)
  else .fin neg (fr + 8388608) ((ex : Int) - 150)

/-- The sign bit set or clear over a magnitude pattern below `2^31`. -/
def f32Signed (neg : Bool) (magnitude : Nat) : F32 :=
  BitVec.ofNat 32 (if neg then magnitude + 2147483648 else magnitude)

/-- A signed infinity. -/
def f32Inf (neg : Bool) : F32 := f32Signed neg 0x7F800000

/-- A signed zero. -/
def f32Zero (neg : Bool) : F32 := f32Signed neg 0

/-- `m / 2^d` rounded to the nearest integer, ties to even. -/
def roundShift (m d : Nat) : Nat :=
  let q := m >>> d
  let r := m % 2 ^ d
  if 2 ^ d < 2 * r then q + 1
  else if 2 * r = 2 ^ d ∧ q % 2 = 1 then q + 1
  else q

/-- `f32((-1)^neg * m * 2^e)`: one rounding to nearest even (00_scope.md R11). The unit of the last place is
`2^max(E - 23, -149)` where `2^E` is the leading bit; a magnitude at or above `2^128` after rounding is an infinity. -/
def f32Round (neg : Bool) (m : Nat) (e : Int) : F32 :=
  if m = 0 then f32Zero neg
  else
    let lead : Int := (Nat.log2 m : Int) + e
    let ulp : Int := max (lead - 23) (-149)
    let mant : Nat := if ulp ≤ e then m <<< (e - ulp).toNat else roundShift m (ulp - e).toNat
    if 127 < lead then f32Inf neg
    else f32Signed neg (min (((ulp + 149).toNat <<< 23) + mant) 0x7F800000)

/-- `f32(v)` of a natural number. -/
def f32OfNat (v : Nat) : F32 := f32Round false v 0

/-- The NaN of an invalid operation or a NaN operand: the free bits of `Config.nanBits` made into a NaN pattern. -/
def f32NaN (op : FloatOp) (a b : F32) : F32 :=
  let raw := Config.nanBits op a b
  if raw.extractLsb' 0 23 = 0 then raw ||| 0x7FC00000 else raw ||| 0x7F800000

/-- The value is a NaN. -/
def f32IsNaN (x : F32) : Bool := f32Class x == .nan

/-- The value is neither a NaN nor an infinity. -/
def f32IsFinite (x : F32) : Bool := (x.extractLsb' 23 8).toNat != 255

/-- Exact sign inversion (46_mdct.md R303). -/
def f32Neg (x : F32) : F32 := x ^^^ 0x80000000

/-- `x > 0`: the ordered comparison of 00_scope.md R11, false for NaN and for either zero. -/
def f32Gt0 (x : F32) : Bool := 0 < x.toNat && x.toNat ≤ 0x7F800000

/-- The signed integer `(-1)^neg * m`. -/
def signedNat (neg : Bool) (m : Nat) : Int := if neg then -(m : Int) else m

/-- `a +f b`. An exact zero sum is `+0.0` unless both operands are negative zeros. -/
def f32Add (a b : F32) : F32 :=
  match f32Class a, f32Class b with
  | .nan, _ => f32NaN .add a b
  | .inf _, .nan => f32NaN .add a b
  | .fin _ _ _, .nan => f32NaN .add a b
  | .inf na, .inf nb => if na = nb then a else f32NaN .add a b
  | .inf _, .fin _ _ _ => a
  | .fin _ _ _, .inf _ => b
  | .fin na ma ea, .fin nb mb eb =>
    let e := min ea eb
    let sum := signedNat na (ma <<< (ea - e).toNat) + signedNat nb (mb <<< (eb - e).toNat)
    if sum = 0 then f32Zero (na && nb) else f32Round (sum < 0) sum.natAbs e

/-- `a -f b`: `a` plus the exactly negated `b`. -/
def f32Sub (a b : F32) : F32 := f32Add a (f32Neg b)

/-- `a *f b`. -/
def f32Mul (a b : F32) : F32 :=
  match f32Class a, f32Class b with
  | .nan, _ => f32NaN .mul a b
  | .inf _, .nan => f32NaN .mul a b
  | .fin _ _ _, .nan => f32NaN .mul a b
  | .inf na, .inf nb => f32Inf (na != nb)
  | .inf na, .fin nb mb _ => if mb = 0 then f32NaN .mul a b else f32Inf (na != nb)
  | .fin na ma _, .inf nb => if ma = 0 then f32NaN .mul a b else f32Inf (na != nb)
  | .fin na ma ea, .fin nb mb eb => f32Round (na != nb) (ma * mb) (ea + eb)

/-- `a /f b`: the quotient to 64 extra bits with a sticky bit below it, rounded once. -/
def f32Div (a b : F32) : F32 :=
  match f32Class a, f32Class b with
  | .nan, _ => f32NaN .div a b
  | .inf _, .nan => f32NaN .div a b
  | .fin _ _ _, .nan => f32NaN .div a b
  | .inf _, .inf _ => f32NaN .div a b
  | .inf na, .fin nb _ _ => f32Inf (na != nb)
  | .fin na _ _, .inf nb => f32Zero (na != nb)
  | .fin na ma ea, .fin nb mb eb =>
    if mb = 0 then (if ma = 0 then f32NaN .div a b else f32Inf (na != nb))
    else
      let q := (ma <<< 64) / mb
      let sticky := if (ma <<< 64) % mb = 0 then 0 else 1
      f32Round (na != nb) (2 * q + sticky) (ea - eb - 65)

end Sys2Proof.Machine
end

