-- ==== Sys2Proof/Machine/State.lean ====
section
/-! DEFINITION. The state of one decoder (10_state.md R20 to R54), its reasons to stop, and the state after reset
(70_reset_and_hazards.md R401). -/

namespace Sys2Proof.Machine

/-- Why the machine stops: there is no reason, so the type has no constructor and no step answers with a fault. The spec has
no traps and its memory accesses raise nothing (60_exceptions.md R370, R379): every failure is a next state with a status. -/
inductive Fault where
  deriving DecidableEq, Repr

/-- Why an instruction has no meaning. -/
inductive Refusal where
  /-- Raised by an arm of `exec` that is not modelled. SAFE: nothing is claimed of it. No arm of this model uses it. -/
  | notModelled (mnemonic : String)
  deriving DecidableEq, Repr

/-- The configuration phase, register `PHASE` (10_state.md R28, 48_header.md R350). -/
inductive Phase where
  | needId | needComment | needSetup | ready
  deriving DecidableEq, Repr

/-- The block state, register `BSTATE` (10_state.md R28, R30; 47_block.md R327). -/
inductive BState where
  | await | parsed | dispatched | emitted | failed
  deriving DecidableEq, Repr

/-- Who issues the next operation: the host through `CMD`, or the sequencer while it runs a command (30_encoding.md R90,
60_exceptions.md R374). The MODEL's own field (log 11). -/
inductive Issuer where
  | host | sequencer
  deriving DecidableEq, Repr

/-- A present `MEMO[c]` (10_state.md R26): what floor pass 1 hands to pass 2, with the floor number that wrote it. -/
inductive Memo where
  /-- A floor-0 memo: the coefficients and the amplitude. -/
  | floor0 (f : Nat) (lsp : List F32) (amp : F32)
  /-- A floor-1 memo: `y[0..posts)` and `used[0..posts)`. -/
  | floor1 (f : Nat) (y : List Int) (used : List Bool)
  deriving DecidableEq, Repr

/-- The quantisation fields of a codebook, present when `maptype` is 1 or 2 (10_state.md R36). -/
structure Quant where
  qMin : BitVec 32
  qDelta : BitVec 32
  qQuant : Nat
  qSequencep : Bool
  quantlist : List Nat
  deriving DecidableEq, Repr

/-- `cfg.book[b]` (10_state.md R36). -/
structure Book where
  dim : Nat
  entries : Nat
  lengthlist : List Nat
  maptype : Nat
  quant : Option Quant
  deriving DecidableEq, Repr

/-- The floor-0 record of `cfg.floor[f]` (10_state.md R39). -/
structure Floor0 where
  order : Nat
  rate : Nat
  barkmap : Nat
  ampbits : Nat
  ampdB : Nat
  numbooks : Nat
  books : List Nat
  deriving DecidableEq, Repr

/-- One class of a floor-1 record (10_state.md R40): `book` is present when `subs > 0`, and a subclass book of −1 is
`none`. -/
structure FloorClass where
  dim : Nat
  subs : Nat
  book : Option Nat
  subbook : List (Option Nat)
  deriving DecidableEq, Repr

/-- The floor-1 record of `cfg.floor[f]` (10_state.md R40). -/
structure Floor1 where
  partitions : Nat
  partitionclass : List Nat
  classes : List FloorClass
  mult : Nat
  rangebits : Nat
  postlist : List Nat
  deriving DecidableEq, Repr

/-- `cfg.floor[f]`: one of the two records (10_state.md R38). -/
inductive Floor where
  | type0 (r : Floor0)
  | type1 (r : Floor1)
  deriving DecidableEq, Repr

/-- `cfg.residue[r]` (10_state.md R41); `rangeBegin` and `rangeEnd` are the fields `begin` and `end`. -/
structure Residue where
  rangeBegin : Nat
  rangeEnd : Nat
  grouping : Nat
  partitions : Nat
  groupbook : Nat
  secondstages : List Nat
  booklist : List Nat
  deriving DecidableEq, Repr

/-- `cfg.map[m]` (10_state.md R42); `coupling` lists the pairs (`coupling_mag[i]`, `coupling_ang[i]`), so
`coupling_steps` is its length. -/
structure Mapping where
  submaps : Nat
  coupling : List (Nat × Nat)
  chmuxlist : List Nat
  timesubmap : List Nat
  floorsubmap : List Nat
  residuesubmap : List Nat
  deriving DecidableEq, Repr

/-- `cfg.mode[k]` (10_state.md R43). -/
structure Mode where
  blockflag : Bool
  windowtype : Nat
  transformtype : Nat
  mapping : Nat
  deriving DecidableEq, Repr

/-- The configuration `cfg` (10_state.md R34 to R43); `none` is the spec's `absent`. -/
structure Cfg where
  version : Option Nat
  channels : Option Nat
  rate : Option Nat
  bitrateUpper : Option Int
  bitrateNominal : Option Int
  bitrateLower : Option Int
  blocksize0 : Option Nat
  blocksize1 : Option Nat
  books : Option Nat
  times : Option Nat
  floors : Option Nat
  residues : Option Nat
  maps : Option Nat
  modes : Option Nat
  book : List (Option Book)
  timeType : List (Option Nat)
  floorType : List (Option Nat)
  floor : List (Option Floor)
  residueType : List (Option Nat)
  residue : List (Option Residue)
  mapType : List (Option Nat)
  map : List (Option Mapping)
  mode : List (Option Mode)
  deriving DecidableEq, Repr

/-- `cfg` with every field absent (R34). -/
def Cfg.absent : Cfg where
  version := none
  channels := none
  rate := none
  bitrateUpper := none
  bitrateNominal := none
  bitrateLower := none
  blocksize0 := none
  blocksize1 := none
  books := none
  times := none
  floors := none
  residues := none
  maps := none
  modes := none
  book := []
  timeType := []
  floorType := []
  floor := []
  residueType := []
  residue := []
  mapType := []
  map := []
  mode := []

/-- `tab.floor0[f][w]` (10_state.md R47, 42_floor0.md R212). -/
structure Floor0Table where
  n : Nat
  ln : Nat
  m : Nat
  linearmap : List Nat
  deriving DecidableEq, Repr

/-- `tab.floor1[f]` (10_state.md R48, 43_floor1.md R232). -/
structure Floor1Table where
  posts : Nat
  n : Nat
  quantQ : Nat
  forwardIndex : List Nat
  loneighbor : List Nat
  hineighbor : List Nat
  deriving DecidableEq, Repr

/-- `tab.res[r]` (10_state.md R49, 44_residue.md R262). -/
structure ResTable where
  stages : Nat
  partbooks : List (List (Option Nat))
  partvals : Nat
  decodemap : List (List Nat)
  deriving DecidableEq, Repr

/-- `tab.mdct[w]` (10_state.md R50, 46_mdct.md R301). -/
structure MdctTable where
  n : Nat
  log2n : Nat
  trig : List F32
  bitrev : List Nat
  scale : F32
  deriving DecidableEq, Repr

/-- The derived tables `tab` (10_state.md R45 to R51); `none` is the spec's `absent`. `winABC` is `win[A][B][C]`, one
for each of the five triples a packet can select (47_block.md R328). -/
structure Tab where
  bookWords : List (Option (List (Option Codeword)))
  bookValues : List (Option (List F32))
  floor0Short : List (Option Floor0Table)
  floor0Long : List (Option Floor0Table)
  floor1 : List (Option Floor1Table)
  res : List (Option ResTable)
  mdct0 : Option MdctTable
  mdct1 : Option MdctTable
  win000 : Option (List F32)
  win100 : Option (List F32)
  win101 : Option (List F32)
  win110 : Option (List F32)
  win111 : Option (List F32)
  modebits : Option Nat
  deriving DecidableEq, Repr

/-- `tab` with every table absent (R45). -/
def Tab.absent : Tab where
  bookWords := []
  bookValues := []
  floor0Short := []
  floor0Long := []
  floor1 := []
  res := []
  mdct0 := none
  mdct1 := none
  win000 := none
  win100 := none
  win101 := none
  win110 := none
  win111 := none
  modebits := none

/-- Space `PKT` (20_memory.md R60, R61): bytes by address, addresses strictly rising, no byte equal to what an unlisted
address reads as (`Memory.unlistedByte` of Machine/Ops.lean). -/
abbrev Memory := List Host.Cell

/-- The state of one decoder (10_state.md R20). -/
structure State where
  /-- `BASE` (R22): address in `PKT` of payload byte 0. -/
  base : BitVec 32
  /-- `LEN` (R22): payload length in bytes. -/
  len : BitVec 32
  /-- `POS` (R22, R23): the bit cursor, this hardware's program counter, as an unbounded natural (log 12). -/
  pos : Nat
  /-- `EOFF` (R22, R32): a consuming read asked for bits past the end. -/
  eoff : Bool
  /-- `MODE` (R25). -/
  mode : BitVec 6
  /-- `W` (R25): current block-size flag. -/
  w : Bool
  /-- `LW` (R25): previous block-size flag. -/
  lw : Bool
  /-- `NW` (R25): next block-size flag. -/
  nw : Bool
  /-- `PCMEND` (R25): valid words per channel. -/
  pcmend : BitVec 16
  /-- `GRANULE` (R25). -/
  granule : BitVec 64
  /-- `EOS` (R25). -/
  eos : Bool
  /-- `BOS` (R25). -/
  bos : Bool
  /-- `NONZERO[c]` (R26, R33), one entry for each channel number 0 to 254 (log 18). -/
  nonzero : List Bool
  /-- `MEMO[c]` (R26), one entry for each channel number 0 to 254 (log 18). -/
  memo : List (Option Memo)
  /-- The scratch `LSP[0..255]` (R27). -/
  lsp : List F32
  /-- `PHASE` (R28). -/
  phase : Phase
  /-- `BSTATE` (R28, R30). -/
  bstate : BState
  /-- `STATUS` (R28, R371). -/
  status : BitVec 8
  /-- `CAUSE` (R28, R373, R374). -/
  cause : BitVec 16
  /-- `RES` (R28). -/
  res : BitVec 32
  /-- `SAMPLES` (R28). -/
  samples : BitVec 16
  /-- `TRUNC` (R28). -/
  trunc : Bool
  /-- `ARG0` (R28, R93). -/
  arg0 : BitVec 32
  /-- `ARG1`. -/
  arg1 : BitVec 32
  /-- `ARG2`. -/
  arg2 : BitVec 32
  /-- `ARG3`. -/
  arg3 : BitVec 32
  /-- `CMD` (R28, R91): the word the host wrote and the decoder has not run yet; `none` when idle (log 10). -/
  cmd : Option (BitVec 32)
  /-- Space `CFG`: the configuration (R34 to R43). -/
  cfg : Cfg
  /-- Space `TAB`: the derived tables (R45 to R51). -/
  tab : Tab
  /-- Space `PKT` (20_memory.md R60, R61). -/
  pkt : Memory
  /-- Space `PCM` (20_memory.md R62): the valid words, row `c` holding `pcm[c][0 .. PCMEND)` (log 3). -/
  pcm : List (List F32)
  /-- The MODEL's own field: who issues the next operation (log 11). -/
  issuer : Issuer
  /-- The MODEL's own field: the parameter `EOF_IN_RESIDUE` of this decoder, never written (log 9). -/
  eofInResidue : EofInResidue
  deriving DecidableEq, Repr

/-- The state after power-on reset (70_reset_and_hazards.md R401). The values the spec does not give are named in logs 1
(`PKT`), 3 (`PCM`), 4 (`LSP`), 9, 10 (`CMD`) and 11. -/
def State.reset : State where
  base := 0
  len := 0
  pos := 0
  eoff := false
  mode := 0
  w := false
  lw := false
  nw := false
  pcmend := 0
  granule := 0
  eos := false
  bos := false
  nonzero := List.replicate 255 false
  memo := List.replicate 255 none
  lsp := List.replicate 256 0
  phase := .needId
  bstate := .await
  status := 0
  cause := 0
  res := 0
  samples := 0
  trunc := false
  arg0 := 0
  arg1 := 0
  arg2 := 0
  arg3 := 0
  cmd := none
  cfg := Cfg.absent
  tab := Tab.absent
  pkt := []
  pcm := []
  issuer := .host
  eofInResidue := .stopAndKeep

end Sys2Proof.Machine
end

