-- ==== Sys2Proof/Machine/Ops.lean ====
section
/-! DEFINITION. The named operations over memory and registers, the statuses of 60_exceptions.md, and the end of a command:
the one place where `STATUS`, `CAUSE` and `RES` are written. -/

namespace Sys2Proof.Machine

/-! ## Space `PKT` (20_memory.md R60, R61) -/

/-- What an unlisted `PKT` address reads as. DESIGN CHOICE, unsafe: the spec gives no contents after power-on (log 1). -/
def Memory.unlistedByte : Byte := 0

/-- The byte at an address. -/
def Memory.read : Memory → Nat → Byte
  | [], _ => Memory.unlistedByte
  | (k, v) :: m, a => if k = a then v else Memory.read m a

/-- `MemRead(PKT: a, 1)` (40_bit_cursor.md R161). No address at or above `2^32` exists (20_memory.md R60) and no memory access
raises anything (60_exceptions.md R379): what a payload placed there reads as is free (log 2). -/
def Memory.byteAt (m : Memory) (a : Nat) : Byte := if a < 2 ^ 32 then m.read a else Config.byteBeyond m a

/-- Store a byte, keeping the canonical form. -/
def Memory.write : Memory → Nat → Byte → Memory
  | [], a, v => if v = Memory.unlistedByte then [] else [(a, v)]
  | (k, x) :: m, a, v =>
    if a < k then (if v = Memory.unlistedByte then (k, x) :: m else (a, v) :: (k, x) :: m)
    else if a = k then (if v = Memory.unlistedByte then m else (k, v) :: m)
    else (k, x) :: Memory.write m a v

/-- Every listed address is above `lo`, addresses strictly rise, and no listed byte equals an unlisted one. -/
def Memory.wfAbove : Nat → Memory → Bool
  | _, [] => true
  | lo, (k, v) :: m => decide (lo ≤ k) && v != Memory.unlistedByte && Memory.wfAbove (k + 1) m

/-- The canonical form holds. -/
def Memory.wf (m : Memory) : Bool := Memory.wfAbove 0 m

/-! ## Statuses (60_exceptions.md R371 to R374) -/

/-- The causes of `BadHeader` (60_exceptions.md R373). -/
inductive HeaderCause where
  | short | magic | type | order | version | channels | rate | blocksize | framing
  | bookSync | bookShape | bookLength | bookMaptype | bookOverpop
  | timeType | floorType | floor0 | floor1 | residueType | residue
  | mapType | mapCoupling | mapReserved | mapMux | mode | xref | bookNovalues
  deriving DecidableEq, Repr

/-- The cause codes of R373. -/
def HeaderCause.code : HeaderCause → BitVec 16
  | .short => 1
  | .magic => 2
  | .type => 3
  | .order => 4
  | .version => 5
  | .channels => 6
  | .rate => 7
  | .blocksize => 8
  | .framing => 9
  | .bookSync => 10
  | .bookShape => 11
  | .bookLength => 12
  | .bookMaptype => 13
  | .bookOverpop => 14
  | .timeType => 15
  | .floorType => 16
  | .floor0 => 17
  | .floor1 => 18
  | .residueType => 19
  | .residue => 20
  | .mapType => 21
  | .mapCoupling => 22
  | .mapReserved => 23
  | .mapMux => 24
  | .mode => 25
  | .xref => 26
  | .bookNovalues => 27

/-- The causes of `Illegal` (60_exceptions.md R374): codes 1 to 4. -/
inductive IllegalCause where
  | reservedOpcode | internalOperation | badOperand | noValues
  deriving DecidableEq, Repr

/-- The cause codes of R374. -/
def IllegalCause.code : IllegalCause → BitVec 16
  | .reservedOpcode => 1
  | .internalOperation => 2
  | .badOperand => 3
  | .noValues => 4

/-- The number of a phase (10_state.md R28). -/
def Phase.code : Phase → BitVec 16
  | .needId => 0
  | .needComment => 1
  | .needSetup => 2
  | .ready => 3

/-- The number of a block state (10_state.md R28). -/
def BState.code : BState → BitVec 32
  | .await => 0
  | .parsed => 1
  | .dispatched => 2
  | .emitted => 3
  | .failed => 4

/-- The failure statuses with their causes (60_exceptions.md R371). -/
inductive Failure where
  | eof
  | badType
  | badMode (m : Nat)
  | badHeader (k : HeaderCause)
  | notReady (p : Phase)
  | illegal (k : IllegalCause)
  | badCode
  deriving DecidableEq, Repr

/-- The status code (R371). -/
def Failure.code : Failure → BitVec 8
  | .eof => 1
  | .badType => 2
  | .badMode _ => 3
  | .badHeader _ => 4
  | .notReady _ => 5
  | .illegal _ => 6
  | .badCode => 7

/-- What `CAUSE` holds (R371). -/
def Failure.cause : Failure → BitVec 16
  | .eof => 0
  | .badType => 0
  | .badMode m => BitVec.ofNat 16 m
  | .badHeader k => k.code
  | .notReady p => p.code
  | .illegal k => k.code
  | .badCode => 0

/-- An operation (00_scope.md R14): it returns a value with status `OK` or raises; what it wrote before stays either
way (60_exceptions.md R372). -/
abbrev Op (α : Type) := EStateM Failure State α

/-- `raise S(info)` (00_scope.md R14). -/
def raise {α : Type} (f : Failure) : Op α := throw f

/-- The clause `on Eof, BadCode: handler` (00_scope.md R14, 60_exceptions.md R375). -/
def absorb {α : Type} (op handler : Op α) : Op α := fun s =>
  match op s with
  | .error .eof t => handler t
  | .error .badCode t => handler t
  | r => r

/-- An operation that needs an absent field of `cfg` or `tab` raises `NotReady` (10_state.md R34; log 15). -/
def need {α : Type} (o : Option α) : Op α := fun s =>
  match o with
  | some v => .ok v s
  | none => .error (.notReady s.phase) s

/-- `for x in list: body`. -/
def forEach {β : Type} : List β → (β → Op Unit) → Op Unit
  | [], _ => pure ()
  | x :: xs, body => do
    body x
    forEach xs body

/-- `for x in list: ret[..] <- body`, collecting what the body returns. -/
def collect {α β : Type} : List β → (β → Op α) → Op (List α)
  | [], _ => pure []
  | x :: xs, body => do
    let v ← body x
    let vs ← collect xs body
    pure (v :: vs)

/-! ## Named state updates -/


/-- The registers of `BC.INIT` (40_bit_cursor.md R162). -/
def State.initCursor (base len : BitVec 32) (s : State) : State :=
  { s with base := base, len := len, pos := 0, eoff := false }

/-- `x[POS] <- x[POS] + n` (R163, R165). -/
def State.advance (n : Nat) (s : State) : State := { s with pos := s.pos + n }

/-- `x[EOFF] <- 1` (R163). -/
def State.setEoff (s : State) : State := { s with eoff := true }

/-- The latched packet data (47_block.md R322, 48_header.md R340). -/
def State.latch (granule : BitVec 64) (eos bos : Bool) (s : State) : State :=
  { s with granule := granule, eos := eos, bos := bos }

/-- The five registers `SYNTHESIS` commits together (47_block.md R322). -/
def State.setHead (mode : BitVec 6) (w lw nw : Bool) (pcmend : BitVec 16) (s : State) : State :=
  { s with mode := mode, w := w, lw := lw, nw := nw, pcmend := pcmend }

/-- `x[NONZERO][c] <- b`. -/
def State.setNonzero (c : Nat) (b : Bool) (s : State) : State := { s with nonzero := s.nonzero.set c b }

/-- `x[MEMO][c] <- m`. -/
def State.setMemo (c : Nat) (m : Option Memo) (s : State) : State := { s with memo := s.memo.set c m }

/-- `NONZERO` and `MEMO` of the first `n` channels cleared (47_block.md R322). -/
def State.clearChannels (n : Nat) (s : State) : State :=
  { s with nonzero := fillFirst n false s.nonzero, memo := fillFirst n none s.memo }

/-- The whole scratch `LSP`. -/
def State.setLsp (l : List F32) (s : State) : State := { s with lsp := l }

/-- `x[PHASE] <- p`. -/
def State.setPhase (p : Phase) (s : State) : State := { s with phase := p }

/-- `x[BSTATE] <- b`. -/
def State.setBState (b : BState) (s : State) : State := { s with bstate := b }

/-- `x[SAMPLES] <- n`. -/
def State.setSamples (n : BitVec 16) (s : State) : State := { s with samples := n }

/-- `x[TRUNC] <- b`. -/
def State.setTrunc (b : Bool) (s : State) : State := { s with trunc := b }

/-- The configuration. -/
def State.setCfg (c : Cfg) (s : State) : State := { s with cfg := c }

/-- The derived tables. -/
def State.setTab (t : Tab) (s : State) : State := { s with tab := t }

/-- The valid `PCM` words. -/
def State.setPcm (p : List (List F32)) (s : State) : State := { s with pcm := p }

/-- A command ends `OK` with result `v` (60_exceptions.md R370, R371); the decoder is idle again. -/
def State.completeOk (v : BitVec 32) (s : State) : State :=
  { s with status := 0, cause := 0, res := v, cmd := none }

/-- A command ends with a failure (60_exceptions.md R371, R372); the decoder is idle again. -/
def State.completeFail (f : Failure) (s : State) : State :=
  { s with status := f.code, cause := f.cause, res := 0xFFFFFFFF, cmd := none }

/-- What `RESET` leaves (70_reset_and_hazards.md R401, R402): `ARG0` to `ARG3` and `PKT` stay, and so do the model's own
two fields. -/
def State.cleared (s : State) : State :=
  { State.reset with
    arg0 := s.arg0, arg1 := s.arg1, arg2 := s.arg2, arg3 := s.arg3, pkt := s.pkt,
    issuer := s.issuer, eofInResidue := s.eofInResidue }

/-- What `teardown` of a failing `HEADERIN` leaves (48_header.md R341): as `RESET`, but the cursor registers and
`GRANULE`, `EOS`, `BOS` stay. -/
def State.tornDown (s : State) : State :=
  { s.cleared with
    base := s.base, len := s.len, pos := s.pos, eoff := s.eoff,
    granule := s.granule, eos := s.eos, bos := s.bos }

/-! ## Space `PCM` and the scratch `LSP` -/

/-- `pcm[c][i]` when read. No rule reads a word outside the block (20_memory.md R71); one there reads `+0.0` (log 21). -/
def State.pcmLoad (c i : Nat) (s : State) : F32 := (s.pcm.getD c []).getD i 0

/-- `pcm[c][i] <- f pcm[c][i]`, dropped when `i >= x[PCMEND]` or `c >= cfg.channels` (20_memory.md R71). -/
def State.pcmModify (c i : Nat) (f : F32 → F32) (s : State) : State :=
  if i < s.pcmend.toNat ∧ c < s.cfg.channels.getD 0 then
    s.setPcm (s.pcm.modify c (fun row => row.modify i f))
  else s

/-- Row `c` of `PCM`. -/
def State.pcmRow (c : Nat) (s : State) : List F32 := s.pcm.getD c []

/-- Row `c` of `PCM` replaced. -/
def State.setPcmRow (c : Nat) (row : List F32) (s : State) : State := s.setPcm (s.pcm.set c row)

/-- `pcm[c][i] <- words[i]` for the words listed, as far as the block goes. -/
def State.storeRow (c : Nat) (words : List F32) (s : State) : State :=
  s.setPcmRow c (overwrite words (s.pcmRow c))

/-- `pcm[c][i] <- pcm[c][i] *f factors[i]` for the factors listed, as far as the block goes. -/
def State.scaleRow (c : Nat) (factors : List F32) (s : State) : State :=
  s.setPcmRow c (List.zipWith f32Mul (s.pcmRow c) factors ++ (s.pcmRow c).drop factors.length)

/-- `x[LSP][i] <- f x[LSP][i]`, dropped when `i >= 256` (41_codebook.md R193). -/
def State.lspModify (i : Nat) (f : F32 → F32) (s : State) : State :=
  if i < 256 then s.setLsp (s.lsp.modify i f) else s

/-- `cfg.blocksize[w]`. -/
def State.blocksize (w : Bool) (s : State) : Option Nat :=
  if w then s.cfg.blocksize1 else s.cfg.blocksize0

/-- `cfg.blocksize[w]` for an operand `w`; only 0 and 1 name a block size. -/
def State.blocksizeAt (w : Nat) (s : State) : Option Nat :=
  match w with
  | 0 => s.cfg.blocksize0
  | 1 => s.cfg.blocksize1
  | _ => none


/-- How floor pass 1 ended (45_mapping.md R284): a memo, silence the packet asked for, or silence because the payload or a
codeword ran out. -/
inductive PassOne where
  | memo | silent | starved
  deriving DecidableEq, Repr

/-- The result of floor pass 1 (42_floor0.md R214, 43_floor1.md R234): 1 when a memo is present. -/
def PassOne.present : PassOne → Bool
  | .memo => true
  | .silent => false
  | .starved => false

/-! ## Taking and leaving an operation -/

/-- The end of an operation that was issued (60_exceptions.md R370 to R372): this is all that taking an exception means in
this hardware, and the next command is all that returning from one means. -/
def finish : EStateM.Result Failure State (BitVec 32) → Host.Outcome State Fault Refusal
  | .ok v s => .next (s.completeOk v)
  | .error f s => .next (s.completeFail f)

/-- Judge an operation the host issues (rows 2 to 6 of 60_exceptions.md R374), then run it. The sequencer's operations are
never judged. A word turned away changes `STATUS`, `CAUSE` and `RES` only (R372). -/
def issue (judge : State → Except Failure Unit) (op : Op (BitVec 32)) (s : State) : Host.Outcome State Fault Refusal :=
  match s.issuer with
  | .sequencer => finish (op s)
  | .host =>
    match judge s with
    | .ok _ => finish (op s)
    | .error f => .next (s.completeFail f)

end Sys2Proof.Machine
end

