-- ==== Sys2Proof/Syntax.lean ====
section
/-! DEFINITION. The operations of the decoder: one constructor per row of spec/opcode_table.json (30_encoding.md R94). -/

namespace Sys2Proof

/-- The destination selector `dst` (30_encoding.md R92): values 0 to 254 of field `B` select a channel's `PCM` array,
255 selects the scratch `LSP`. -/
inductive Dst where
  /-- `pcm[c][..]`; legal for `c` up to 254. -/
  | pcm (c : BitVec 8)
  /-- `x[LSP][..]`. -/
  | lsp
  deriving DecidableEq, Repr

/-- The combine mode in field `C` (30_encoding.md R92): 0 declare, 1 add, 2 multiply. -/
inductive CombineMode where
  | declare | add | multiply
  deriving DecidableEq, Repr

/-- The operations of 30_encoding.md R94, with the operands of their command words. -/
inductive Instr where
  | reset
  | headerin (eos bos : Bool)
  | synthesis (eos bos : Bool)
  | bcInit
  | bcRead (n : BitVec 6)
  | bcLook (n : BitVec 6)
  | bcAdv (n : BitVec 6)
  | bcRead1
  | cbUnquantize (b : BitVec 8)
  | cbMakeWords (b : BitVec 8)
  | cbMakeTree (b : BitVec 8)
  | cbDecode (b : BitVec 8)
  | cbDecodeSet (b : BitVec 8) (dst : Dst)
  | cbDecodeAdd (b : BitVec 8) (dst : Dst)
  | cbDecodeVvAdd (b first count : BitVec 8)
  | cbDecodeVs (b : BitVec 8) (dst : Dst) (mode : CombineMode)
  | f0Unpack (f : BitVec 8)
  | f0Look (f w : BitVec 8)
  | f0Inverse1 (f c : BitVec 8)
  | f0Inverse2 (f c : BitVec 8)
  | f1Unpack (f : BitVec 8)
  | f1Look (f : BitVec 8)
  | f1Inverse1 (f c : BitVec 8)
  | f1Inverse2 (f c : BitVec 8)
  | resUnpack (r : BitVec 8)
  | resLook (r : BitVec 8)
  | res0Inverse (r first count : BitVec 8)
  | res1Inverse (r first count : BitVec 8)
  | res2Inverse (r first count : BitVec 8)
  | map0Unpack (m : BitVec 8)
  | map0Look (m : BitVec 8)
  | map0Inverse
  | mdctInit (w : BitVec 8)
  | mdctBackward (w c : BitVec 8)
  | winInit
  | winApply (c : BitVec 8)
  | hdrIdent
  | hdrComment
  | hdrSetup
  | hdrBook (b : BitVec 8)
  | hdrTime (t : BitVec 8)
  | hdrMode (k : BitVec 8)
  deriving DecidableEq, Repr

end Sys2Proof
end

