-- ==== Sys2Proof/Machine/Operands.lean ====
section
/-! DEFINITION. The operand forms of 30_encoding.md R92 and R93, and the judging of a host-issued operation by rows 2 to 6
of 60_exceptions.md R374. A judge only reads the state. -/

namespace Sys2Proof.Machine

/-- Row 2 of R374: the host may not issue an internal operation. -/
def judgeInternal (_ : State) : Except Failure Unit := .error (.illegal .internalOperation)

/-- No row of R374 applies. -/
def judgeNone (_ : State) : Except Failure Unit := .ok ()

/-- Row 4 of R374: the operation needs a complete configuration. -/
def judgeReady (s : State) : Except Failure Unit :=
  if s.phase = .ready then .ok () else .error (.notReady s.phase)

/-- `Illegal(3)` unless the condition holds. -/
def judgeThat (p : Bool) : Except Failure Unit :=
  if p then .ok () else .error (.illegal .badOperand)

/-- A field that a judge needs: absent, `NotReady` (10_state.md R34; log 15). -/
def judgeField {α : Type} (s : State) (o : Option α) : Except Failure α :=
  match o with
  | some v => .ok v
  | none => .error (.notReady s.phase)

/-- Rows 3 and 5 of R374: a bit count is at most 32 (log 14). -/
def judgeCount (n : BitVec 6) (_ : State) : Except Failure Unit := judgeThat (n.toNat ≤ 32)

/-- Row 5 of R374: an index is below its table size. -/
def judgeIndex (i : Nat) (size : State → Option Nat) (s : State) : Except Failure Unit := do
  let n ← judgeField s (size s)
  judgeThat (i < n)

/-- Row 5 of R374: a channel is below `cfg.channels`. -/
def judgeChannel (c : Nat) (s : State) : Except Failure Unit := judgeIndex c (fun s => s.cfg.channels) s

/-- Row 5 of R374: `count >= 1` and `first + count <= cfg.channels` (44_residue.md R271, 41_codebook.md R195; log 14). -/
def judgeBundle (first count : Nat) (s : State) : Except Failure Unit := do
  let n ← judgeField s s.cfg.channels
  judgeThat (1 ≤ count && first + count ≤ n)

/-- Row 5 of R374 for a destination selector (log 14). -/
def judgeDst (dst : Dst) (s : State) : Except Failure Unit :=
  match dst with
  | .pcm c => judgeChannel c.toNat s
  | .lsp => .ok ()

/-- Row 5 of R374: a codebook index. -/
def judgeBook (b : Nat) (s : State) : Except Failure Unit := judgeIndex b (fun s => s.cfg.books) s

/-- Row 6 of R374: a vector operation needs `maptype` 1 or 2 (41_codebook.md R193). -/
def judgeValues (b : Nat) (s : State) : Except Failure Unit := do
  let book ← judgeField s (fieldAt s.cfg.book b)
  if book.maptype = 0 then .error (.illegal .noValues) else .ok ()

/-- The destination of a vector operation: a channel's `PCM` array or the scratch `LSP` (30_encoding.md R92). -/
inductive Target where
  | pcm (c : Nat)
  | lsp
  deriving DecidableEq, Repr

/-- The destination a selector names. -/
def targetOf : Dst → Target
  | .pcm c => .pcm c.toNat
  | .lsp => .lsp

/-- `dst[i] <- f dst[i]` (41_codebook.md R193). -/
def targetModify (d : Target) (i : Nat) (f : F32 → F32) (s : State) : State :=
  match d with
  | .pcm c => s.pcmModify c i f
  | .lsp => s.lspModify i f

/-- The combine modes (41_codebook.md R196): what `dst[a]` becomes, from its value and the codebook value `v`. -/
def combine (m : CombineMode) (v old : F32) : F32 :=
  match m with
  | .declare => v
  | .add => f32Add old v
  | .multiply => f32Mul old v

/-- The channels `first .. first + count - 1` (41_codebook.md R195, 44_residue.md R271). -/
def channelRun (first count : Nat) : List Nat := (List.range count).map (first + ·)

/-- `granule_pos` = `ARG3 ++ ARG2` (30_encoding.md R93). -/
def State.granuleOperand (s : State) : BitVec 64 := s.arg3 ++ s.arg2

/-- The result value of an operation, for `RES`. -/
def result (v : Nat) : Op (BitVec 32) := pure (BitVec.ofNat 32 v)

end Sys2Proof.Machine
end

