-- ==== Sys2Proof/Machine/Flags.lean ====
section
/-! DEFINITION. The flags of 10_state.md R31: `EOFF`, `NONZERO[c]`, `TRUNC`, `EOS`, `BOS`. There are no condition codes, and
no operation writes a flag other than as these definitions say. -/

namespace Sys2Proof.Machine

/-- The command flag byte of a packet (30_encoding.md R92, 47_block.md R321): `EOS`, `BOS` and `GRANULE` latched. -/
def latchPacket (eos bos : Bool) : Op Unit :=
  modify fun s => s.latch s.granuleOperand eos bos

/-- `x[EOFF] <- 1` (10_state.md R32). -/
def markEof : Op Unit := modify State.setEoff

/-- `x[TRUNC] <- 1` (45_mapping.md R284). -/
def markTruncated : Op Unit := modify (State.setTrunc true)

/-- `x[NONZERO][c]` (10_state.md R33). -/
def State.isNonzero (c : Nat) (s : State) : Bool := s.nonzero.getD c false

/-- Step 1b for one coupling pair (45_mapping.md R285): if either channel is not silent, both are marked not silent. -/
def State.widenPair (pair : Nat × Nat) (s : State) : State :=
  if s.isNonzero pair.1 || s.isNonzero pair.2 then (s.setNonzero pair.1 true).setNonzero pair.2 true else s

/-- Every channel marked silent (44_residue.md R270, `silence_block`). -/
def State.silenceAll (channels : Nat) (s : State) : State :=
  { s with nonzero := fillFirst channels false s.nonzero }

end Sys2Proof.Machine
end

