-- ==== Sys2Proof/Machine/Cursor.lean ====
section
/-! DEFINITION. The bit cursor (40_bit_cursor.md R160 to R173): the only operations that read `PKT` and write `POS`. -/

namespace Sys2Proof.Machine

/-- `bit(p)`: bit `p mod 8` of the byte at `base + p / 8` (40_bit_cursor.md R161, 20_memory.md R65). -/
def payloadBit (m : Memory) (base p : Nat) : Bool := (m.byteAt (base + p / 8)).getLsbD (p % 8)

/-- The `n`-bit field that starts at bit `p`: the first bit is the least significant (R161). -/
def payloadField (m : Memory) (base : Nat) : Nat → Nat → Nat
  | _, 0 => 0
  | p, n + 1 => bitValue (payloadBit m base p) + 2 * payloadField m base (p + 1) n

/-- `avail(n)`: all `n` bits exist (R161). -/
def State.avail (n : Nat) (s : State) : Bool := s.pos + n ≤ 8 * s.len.toNat

/-- `field(n)` at the cursor (R161). -/
def State.cursorField (n : Nat) (s : State) : Nat := payloadField s.pkt s.base.toNat s.pos n

/-- `BC.LOOK n` (R164): nothing changes. -/
def lookBits (n : Nat) : Op Nat := fun s =>
  if s.avail n then .ok (s.cursorField n) s else .error .eof s

/-- `BC.READ n` (R163): a failing read still moves `POS` by `n`, and sets `EOFF`. -/
def readBits (n : Nat) : Op Nat := fun s =>
  if s.avail n then .ok (s.cursorField n) (s.advance n) else .error .eof (s.advance n).setEoff

/-- `BC.READ 1` as a bit. -/
def readBit : Op Bool := do
  let v ← readBits 1
  pure (v == 1)

/-- `BC.ADV n` (R165), and `skip` of 48_header.md R343. -/
def advanceBits (n : Nat) : Op Unit := modify (State.advance n)

/-- `BC.INIT base, len` (R162). -/
def initCursor (base len : BitVec 32) : Op Unit := modify (State.initCursor base len)

/-- `BC.READ n` inside a header: `Eof` is `BadHeader(H_SHORT)` (31_header_layouts.md R138). -/
def headerRead (n : Nat) : Op Nat := fun s =>
  match readBits n s with
  | .error .eof t => .error (.badHeader .short) t
  | r => r

/-- A header check: `BadHeader(k)` unless the condition holds (48_header.md R360). -/
def headerCheck (p : Bool) (k : HeaderCause) : Op Unit :=
  if p then pure () else raise (.badHeader k)

/-- `BC.INIT`: `ARG0` = base, `ARG1` = len (30_encoding.md R94). -/
def execBcInit (s : State) : Host.Outcome State Fault Refusal :=
  issue judgeNone (do
    initCursor s.arg0 s.arg1
    result 0) s

/-- `BC.READ n` (R163). -/
def execBcRead (n : BitVec 6) (s : State) : Host.Outcome State Fault Refusal :=
  issue (judgeCount n) (do
    let v ← readBits n.toNat
    result v) s

/-- `BC.LOOK n` (R164). -/
def execBcLook (n : BitVec 6) (s : State) : Host.Outcome State Fault Refusal :=
  issue (judgeCount n) (do
    let v ← lookBits n.toNat
    result v) s

/-- `BC.ADV n` (R165). -/
def execBcAdv (n : BitVec 6) (s : State) : Host.Outcome State Fault Refusal :=
  issue (judgeCount n) (do
    advanceBits n.toNat
    result 0) s

/-- `BC.READ1`: `BC.READ 1` in every respect (R166). -/
def execBcRead1 (s : State) : Host.Outcome State Fault Refusal :=
  issue judgeNone (do
    let v ← readBits 1
    result v) s

end Sys2Proof.Machine
end

