-- ==== Sys2Proof/Machine/Codebook.lean ====
section
/-! DEFINITION. The codebook decoder (41_codebook.md): dequantisation, codeword assignment, scalar and vector decode. -/

namespace Sys2Proof.Machine

/-! ## Dequantisation -/

/-- `unpack(raw)`, the packed float of R182: `mant = raw[20:0]`, `exp = raw[30:21]`, sign in bit 31. -/
def unpackFloat (raw : BitVec 32) : F32 :=
  let mant := (raw.extractLsb' 0 21).toNat
  let ex := (raw.extractLsb' 21 10).toNat
  f32Round (raw.getLsbD 31 && mant != 0) mant ((ex : Int) - 788)

/-- `min (base ^ n) (cap + 1)` for `base >= 1`, by multiplication that never grows past the cap (31_header_layouts.md
R133). -/
def cappedPow (base cap : Nat) : Nat → Nat
  | 0 => min 1 (cap + 1)
  | n + 1 => min (base * cappedPow base cap n) (cap + 1)

/-- The largest `q < 2^bits` above `low` that keeps `q ^ dim <= entries`, bit by bit from the top. -/
def latticeDescend (dim entries : Nat) : Nat → Nat → Nat
  | 0, low => low
  | bits + 1, low =>
    let q := low + 2 ^ bits
    latticeDescend dim entries bits (if cappedPow q entries dim ≤ entries then q else low)

/-- `quantvals` for `maptype = 1`: the largest integer `q >= 1` with `q^dim <= entries` (R183). -/
def latticeSide (dim entries : Nat) : Nat := latticeDescend dim entries (ilog entries) 0

/-- `quantvals` (R183). -/
def quantvals (maptype dim entries : Nat) : Nat :=
  if maptype = 1 then latticeSide dim entries
  else if maptype = 2 then entries * dim
  else 0

/-- The parameters of one dequantisation. -/
structure Dequant where
  lattice : Bool
  dim : Nat
  side : Nat
  mindel : F32
  delta : F32
  sequencep : Bool
  quantlist : List Nat
  deriving DecidableEq, Repr

/-- The values `k, k + 1, ...` of entry `e` (the inner loop of R184), with the running sum and `indexdiv` so far. -/
def entryValues (d : Dequant) (e : Nat) : Nat → Nat → F32 → Nat → List F32
  | 0, _, _, _ => []
  | left + 1, k, last, indexdiv =>
    let index := if d.lattice then (e / indexdiv) % d.side else e * d.dim + k
    let val := f32Add (f32Add (f32Mul (f32OfNat (d.quantlist.getD index 0)) d.delta) d.mindel) last
    val :: entryValues d e left (k + 1) (if d.sequencep then val else last)
      (if d.lattice then indexdiv * d.side else indexdiv)

/-- `tab.book[b].values[0 .. entries*dim)` (R184); none when `maptype = 0`. -/
def bookValues (book : Book) : Option (List F32) :=
  match book.quant with
  | none => none
  | some q =>
    let d : Dequant :=
      { lattice := book.maptype = 1, dim := book.dim, side := latticeSide book.dim book.entries,
        mindel := unpackFloat q.qMin, delta := unpackFloat q.qDelta, sequencep := q.qSequencep,
        quantlist := q.quantlist }
    some ((List.range book.entries).flatMap fun e => entryValues d e book.dim 0 0 1)

/-- `CB.UNQUANTIZE b` (R184). -/
def cbUnquantize (b : Nat) : Op Unit := do
  let book ← need (fieldAt (← get).cfg.book b)
  match bookValues book with
  | none => pure ()
  | some vs => modify fun s => s.setTab { s.tab with bookValues := putAt s.tab.bookValues b vs }

/-! ## Codeword assignment -/

/-- The assigned codewords that begin with `bit`, without it. -/
def codewordsUnder (bit : Bool) (assigned : List Codeword) : List Codeword :=
  assigned.filterMap fun w =>
    match w with
    | [] => none
    | x :: rest => if x = bit then some rest else none

/-- The numerically smallest string of the given length that is not a prefix of, and has no prefix among, the codewords
already assigned (R185). -/
def firstFree : Nat → List Codeword → Option Codeword
  | 0, assigned => if assigned = [] then some [] else none
  | len + 1, assigned =>
    if [] ∈ assigned then none
    else
      match firstFree len (codewordsUnder false assigned) with
      | some w => some (false :: w)
      | none => (firstFree len (codewordsUnder true assigned)).map (true :: ·)

/-- The codewords of the entries whose lengths are listed, in index order; none when the tree is overpopulated (R185). -/
def assignCodewords : List Nat → List Codeword → Option (List (Option Codeword))
  | [], _ => some []
  | len :: rest, assigned =>
    if len = 0 then (assignCodewords rest assigned).map (none :: ·)
    else
      match firstFree len assigned with
      | none => none
      | some w => (assignCodewords rest (w :: assigned)).map (some w :: ·)

/-- `words[e]` for every entry (R185). -/
def makeWords (lengthlist : List Nat) : Option (List (Option Codeword)) := assignCodewords lengthlist []

/-- `CB.MAKE_WORDS b` (R185). -/
def cbMakeWords (b : Nat) : Op Unit := do
  let book ← need (fieldAt (← get).cfg.book b)
  match makeWords book.lengthlist with
  | none => raise (.badHeader .bookOverpop)
  | some ws => modify fun s => s.setTab { s.tab with bookWords := putAt s.tab.bookWords b ws }

/-! ## Scalar decode -/

/-- `w` is a proper prefix of some used entry's codeword. -/
def extendable (words : List (Option Codeword)) (w : Codeword) : Bool :=
  words.any fun x =>
    match x with
    | some u => w.isPrefixOf u && w != u
    | none => false

/-- The loop of R190, from the bits `w` read so far; it ends within 32 iterations. -/
def decodeFrom (words : List (Option Codeword)) : Nat → Codeword → Op Nat
  | 0, _ => raise .badCode
  | fuel + 1, w => do
    let bit ← readBit
    let w := w ++ [bit]
    match words.findIdx? (· == some w) with
    | some e => pure e
    | none => if extendable words w then decodeFrom words fuel w else raise .badCode

/-- `CB.DECODE b` (R190). -/
def cbDecode (b : Nat) : Op Nat := do
  let words ← need (fieldAt (← get).tab.bookWords b)
  decodeFrom words 32 []

/-! ## Vector decode -/

/-- Decode one codeword and give the entry with its `dim` values (R193). -/
def decodeValues (b : Nat) : Op (Nat × List F32) := do
  let book ← need (fieldAt (← get).cfg.book b)
  let values ← need (fieldAt (← get).tab.bookValues b)
  let e ← cbDecode b
  pure (e, (List.range book.dim).map fun j => values.getD (e * book.dim + j) 0)

/-- `dst[at + j*step] <- values[j]` combined in the given mode, in order (R193, R194, R196, R197). -/
def storeRun (d : Target) (mode : CombineMode) (step : Nat) : Nat → List F32 → State → State
  | _, [], s => s
  | i, v :: vs, s => storeRun d mode step (i + step) vs (targetModify d i (combine mode v) s)

/-- The loop of R193 and R194 from position `i`. Each codeword advances `i` by `dim >= 1`, so `n` rounds are enough. -/
def decodeFill (b : Nat) (d : Target) (mode : CombineMode) (offset n : Nat) : Nat → Nat → Op Unit
  | 0, _ => pure ()
  | fuel + 1, i =>
    if i < n then do
      let (_, vs) ← decodeValues b
      modify (storeRun d mode 1 (offset + i) vs)
      decodeFill b d mode offset n fuel (i + vs.length)
    else pure ()

/-- `CB.DECODE_SET b, dst, offset, n` (R193). -/
def cbDecodeSet (b : Nat) (d : Target) (offset n : Nat) : Op Unit := decodeFill b d .declare offset n n 0

/-- `CB.DECODE_ADD b, dst, offset, n` (R194). -/
def cbDecodeAdd (b : Nat) (d : Target) (offset n : Nat) : Op Unit := decodeFill b d .add offset n n 0

/-- One codeword's values added across the bundle from interleaved position `p`: position `p` is channel
`chlist[p mod ch]`, index `p / ch` (R195). -/
def addInterleaved (chlist : List Nat) : Nat → List F32 → State → State
  | _, [], s => s
  | p, v :: vs, s =>
    addInterleaved chlist (p + 1) vs
      (s.pcmModify (chlist.getD (p % chlist.length) 0) (p / chlist.length) (combine .add v))

/-- The loop of R195 from interleaved position `p` to `stop` (a multiple of `ch`): it goes on while `p / ch < stop / ch`,
which is `p < stop`. -/
def decodeInterleaved (b : Nat) (chlist : List Nat) (stop : Nat) : Nat → Nat → Op Unit
  | 0, _ => pure ()
  | fuel + 1, p =>
    if p < stop then do
      let (_, vs) ← decodeValues b
      modify (addInterleaved chlist p vs)
      decodeInterleaved b chlist stop fuel (p + vs.length)
    else pure ()

/-- `CB.DECODE_VV_ADD b, chlist, offset, n` (R195): from index `offset / ch`, at the first channel of the list, to index
`(offset + n) / ch`. -/
def cbDecodeVvAdd (b : Nat) (chlist : List Nat) (offset n : Nat) : Op Unit :=
  let ch := chlist.length
  let start := offset / ch * ch
  let stop := (offset + n) / ch * ch
  decodeInterleaved b chlist stop (stop - start) start

/-- `CB.DECODE_VS b, dst, mode, index, step` (R196): one codeword, stepped. -/
def cbDecodeVs (b : Nat) (d : Target) (mode : CombineMode) (index step : Nat) : Op Nat := do
  let (e, vs) ← decodeValues b
  modify (storeRun d mode step index vs)
  pure e

/-! ## Operations -/

/-- `CB.UNQUANTIZE b` (internal). -/
def execCbUnquantize (b : BitVec 8) (s : State) : Host.Outcome State Fault Refusal :=
  issue judgeInternal (do
    cbUnquantize b.toNat
    result 0) s

/-- `CB.MAKE_WORDS b` (internal). -/
def execCbMakeWords (b : BitVec 8) (s : State) : Host.Outcome State Fault Refusal :=
  issue judgeInternal (do
    cbMakeWords b.toNat
    result 0) s

/-- `CB.MAKE_TREE b` (internal): the trie and the lookup table are hidden state; no architectural effect (R189). -/
def execCbMakeTree (_b : BitVec 8) (s : State) : Host.Outcome State Fault Refusal :=
  issue judgeInternal (result 0) s

/-- Rows 4 and 5 of R374 for a scalar decode. -/
def judgeScalar (b : Nat) (s : State) : Except Failure Unit := do
  judgeReady s
  judgeBook b s

/-- Rows 4 to 6 of R374 for a vector decode into one array. -/
def judgeVector (b : Nat) (dst : Dst) (s : State) : Except Failure Unit := do
  judgeReady s
  judgeBook b s
  judgeDst dst s
  judgeValues b s

/-- Rows 4 to 6 of R374 for a vector decode across a bundle. -/
def judgeVectorBundle (b first count : Nat) (s : State) : Except Failure Unit := do
  judgeReady s
  judgeBook b s
  judgeBundle first count s
  judgeValues b s

/-- `CB.DECODE b` (R190): `RES` is the entry. -/
def execCbDecode (b : BitVec 8) (s : State) : Host.Outcome State Fault Refusal :=
  issue (judgeScalar b.toNat) (do
    let e ← cbDecode b.toNat
    result e) s

/-- `CB.DECODE_SET b, dst` with `ARG0` = offset, `ARG1` = n (R193). -/
def execCbDecodeSet (b : BitVec 8) (dst : Dst) (s : State) : Host.Outcome State Fault Refusal :=
  issue (judgeVector b.toNat dst) (do
    cbDecodeSet b.toNat (targetOf dst) s.arg0.toNat s.arg1.toNat
    result 0) s

/-- `CB.DECODE_ADD b, dst` with `ARG0` = offset, `ARG1` = n (R194). -/
def execCbDecodeAdd (b : BitVec 8) (dst : Dst) (s : State) : Host.Outcome State Fault Refusal :=
  issue (judgeVector b.toNat dst) (do
    cbDecodeAdd b.toNat (targetOf dst) s.arg0.toNat s.arg1.toNat
    result 0) s

/-- `CB.DECODE_VV_ADD b, first channel, channel count` with `ARG0` = offset, `ARG1` = n (R195). -/
def execCbDecodeVvAdd (b first count : BitVec 8) (s : State) : Host.Outcome State Fault Refusal :=
  issue (judgeVectorBundle b.toNat first.toNat count.toNat) (do
    cbDecodeVvAdd b.toNat (channelRun first.toNat count.toNat) s.arg0.toNat s.arg1.toNat
    result 0) s

/-- `CB.DECODE_VS b, dst, mode` with `ARG0` = index, `ARG1` = step (R196): `RES` is the entry. -/
def execCbDecodeVs (b : BitVec 8) (dst : Dst) (mode : CombineMode) (s : State) : Host.Outcome State Fault Refusal :=
  issue (judgeVector b.toNat dst) (do
    let e ← cbDecodeVs b.toNat (targetOf dst) mode s.arg0.toNat s.arg1.toNat
    result e) s

end Sys2Proof.Machine
end

