-- ==== Sys2Proof/Machine/RealMath.lean ====
section
/-! DEFINITION. Real arithmetic for the tables: 00_scope.md R7 gives the default of `MATH` as the real value of a rule's
expression rounded once to binary32. Here the real value is computed in fixed point with 640 fraction bits (errors far
below `2^-500`) and then rounded by `f32Round`; exact multiples of a quarter turn, `exp 0` and `atan 0` come out exact
(log 6, DEDUCED). Fixed-point values are written `v` for the real number `v / 2^640`. -/

namespace Sys2Proof.Machine

/-- The number of fraction bits of a fixed-point value. -/
def fracBits : Nat := 640

/-- The fixed-point 1. -/
def fixOne : Nat := 2 ^ 640

/-- `floor(pi * 2^640)`. -/
def fixPi : Nat :=
  14333329926761567455775730701799299831126131522901418329710873694248203755857903894978459978948837038337184470360789102305252273090192709030764248428292776480232102476327552185579501988876367276

/-- `floor(ln 2 * 2^640)`. -/
def fixLn2 : Nat :=
  3162442850577000144542819255265044123884198300717798677536341180773118696995660441338367561063358767323571958122307070903190084685977847936741854327993944726832264493303953239866611699627604094

/-- The product of two fixed-point values. -/
def fixMul (a b : Nat) : Nat := (a * b) >>> 640

/-- `f32` of a signed fixed-point value: one rounding (00_scope.md R11). -/
def f32OfFix (v : Int) : F32 := f32Round (v < 0) v.natAbs (-640)

/-- The alternating series behind `cos` (`d = 1`) and `sin` (`d = 2`): `term` is the last term added, `k` its number. -/
def trigSeries (x2 d : Nat) : Nat → Nat → Nat → Int → Int
  | 0, _, _, acc => acc
  | fuel + 1, k, term, acc =>
    let next := fixMul term x2 / ((2 * k + d) * (2 * k + d + 1))
    trigSeries x2 d fuel (k + 1) next (if k % 2 = 0 then acc - next else acc + next)

/-- `cos x` for `0 <= x <= pi/2`. -/
def fixCos (x : Nat) : Int := trigSeries (fixMul x x) 1 80 0 fixOne fixOne

/-- `sin x` for `0 <= x <= pi/2`. -/
def fixSin (x : Nat) : Int := trigSeries (fixMul x x) 2 80 0 x x

/-- `cos(pi * p / q)`, by reduction to a quarter turn, exactly 0 at odd multiples of it. -/
def fixCosPi (p q : Nat) : Int :=
  let r := p % (2 * q)
  let s := if q < r then 2 * q - r else r
  if 2 * s = q then 0
  else if 2 * s < q then fixCos (fixPi * s / q)
  else -fixCos (fixPi * (q - s) / q)

/-- `sin(pi * p / q) = cos(pi * (q - 2p) / (2q))`. -/
def fixSinPi (p q : Nat) : Int := fixCosPi (2 * p - q + (q - 2 * p)) (2 * q)

/-- `cos x` for any fixed-point `x >= 0`. -/
def fixCosReduced (x : Nat) : Int :=
  let t := x % (2 * fixPi)
  let s := if fixPi < t then 2 * fixPi - t else t
  if 2 * s ≤ fixPi then fixCos s else -fixCos (fixPi - s)

/-- The series of `exp`. -/
def expSeries (x : Nat) : Nat → Nat → Nat → Nat → Nat
  | 0, _, _, acc => acc
  | fuel + 1, k, term, acc =>
    let next := fixMul term x / k
    expSeries x fuel (k + 1) next (acc + next)

/-- `f32(exp u)` for a signed fixed-point `u`: `exp u = 2^k * exp r` with `0 <= r < ln 2`. Beyond 200 in magnitude the
rounded value is an infinity or `+0.0`. -/
def f32Exp (u : Int) : F32 :=
  if (200 * fixOne : Int) < u then f32Inf false
  else if u < -(200 * fixOne : Int) then f32Zero false
  else
    let k := u.fdiv fixLn2
    let r := (u - k * fixLn2).toNat
    f32Round false (expSeries r 130 1 fixOne fixOne) (k - 640)

/-- Newton's iteration for the integer square root, from above, stopping when it no longer falls. -/
def isqrtLoop (n : Nat) : Nat → Nat → Nat
  | 0, x => x
  | fuel + 1, x =>
    let y := (x + n / x) / 2
    if x ≤ y then x else isqrtLoop n fuel y

/-- `floor(sqrt n)`. -/
def isqrt (n : Nat) : Nat :=
  if n = 0 then 0 else isqrtLoop n (Nat.log2 n + 4) (2 ^ (Nat.log2 n / 2 + 1))

/-- The series of `atan` for a small argument. -/
def atanSeries (x2 : Nat) : Nat → Nat → Nat → Int → Int
  | 0, _, _, acc => acc
  | fuel + 1, k, power, acc =>
    let next := fixMul power x2
    let term := next / (2 * k + 3)
    atanSeries x2 fuel (k + 1) next (if k % 2 = 0 then acc - term else acc + term)

/-- `x / (1 + sqrt(1 + x^2))`, whose `atan` is half that of `x`. -/
def atanHalve (x : Nat) : Nat := (x <<< 640) / (fixOne + isqrt ((fixOne * fixOne) + x * x))

/-- `atan x` for a fixed-point `x >= 0`: the argument is halved four times, then the series is summed. -/
def fixAtan (x : Nat) : Nat :=
  if x = 0 then 0
  else
    let y := if fixOne < x then (fixOne * fixOne) / x else x
    let z := atanHalve (atanHalve (atanHalve (atanHalve y)))
    let a := (16 * atanSeries (fixMul z z) 80 0 z z).toNat
    if fixOne < x then fixPi / 2 - a else a

end Sys2Proof.Machine
end

