-- ==== Sys2Proof/Machine/Defaults.lean ====
section
/-! DEFINITION. The spec's defaults of the functional parameters of 00_scope.md R7 (log 7). -/

namespace Sys2Proof.Machine

/-- Default `f32(cos(pi * p / q))` (46_mdct.md R301): `+0.0` at a quarter turn, the real value being exactly 0. -/
def defaultCosPi (p q : Nat) : F32 := f32OfFix (fixCosPi p q)

/-- Default `f32(sin(pi * p / q))` (46_mdct.md R301). -/
def defaultSinPi (p q : Nat) : F32 := f32OfFix (fixSinPi p q)

/-- The bark scale (42_floor0.md R213):
`13.1 * atan(0.00074 * x) + 2.24 * atan(0.0000000185 * x * x) + 0.0001 * x`. -/
def bark (x : Nat) : Nat :=
  131 * fixAtan (74 * x / 100000) / 10 + 224 * fixAtan (185 * fixMul x x / 10000000000) / 100 + x / 10000

/-- Default `linearmap[i]` (42_floor0.md R212):
`min(ln - 1, floor(bark(rate * i / (2n)) * ln / bark(rate / 2)))`. -/
def defaultBarkEntry (rate n ln i : Nat) : Nat :=
  min (ln - 1) (bark ((rate * i <<< 640) / (2 * n)) * ln / bark ((rate <<< 640) / 2))

/-- Default `MDCT_SCALE(n)`: `f32(4 / n)` (46_mdct.md R308). -/
def defaultMdctScale (n : Nat) : F32 := f32Div (f32OfNat 4) (f32OfNat n)

/-- Default `FLOOR1_DB[i]`: `f32(exp(0.11512925 * ((i + 1) * 0.546875 - 140)))` (43_floor1.md R238), with
`0.546875 = 35/64`. -/
def defaultFloor1Db (i : Nat) : F32 :=
  f32Exp ((11512925 * (((i : Int) + 1) * 35 - 8960) * fixOne).fdiv 6400000000)

/-- Default window slope: `f32(sin((pi/2) * sin(((i + 0.5) / L) * (pi/2))^2))` (47_block.md R329). -/
def defaultSlope (i len : Nat) : F32 :=
  let s := (fixSinPi (2 * i + 1) (4 * len)).natAbs
  f32OfFix (fixSin (fixMul (fixPi / 2) (fixMul s s)))

/-- The magnitude of a finite binary32 value in fixed point (exact). -/
def fixOfF32 (x : F32) : Nat :=
  match f32Class x with
  | .fin _ m e => m <<< (e + 640).toNat
  | _ => 0

/-- The product over every second `j`, from the list's first, of `4 * (cj - cw)^2` times `2^1280` each. -/
def lspProduct (cw : Int) : List Int → Nat
  | [] => 1
  | [c] => 4 * (c - cw).natAbs ^ 2
  | c :: _ :: rest => 4 * (c - cw).natAbs ^ 2 * lspProduct cw rest

/-- `p + q` of 42_floor0.md R216 as an exact numerator over `2^d`, from the cosines `cw` and `cj`. -/
def lspDenominator (m : Nat) (cw : Int) (cjs : List Int) : Nat × Nat :=
  let even := lspProduct cw cjs
  let odd := lspProduct cw (cjs.drop 1)
  if m % 2 = 0 then
    (((fixOne : Int) - cw).natAbs * odd + ((fixOne : Int) + cw).natAbs * even, 641 + 640 * m)
  else
    (4 * ((fixOne : Int) * fixOne - cw * cw).natAbs * odd + even, 640 * (m + 1) + 2)

/-- Default `F0_CURVE` (42_floor0.md R216): `f32(exp(0.11512925 * (amp / sqrt(p + q) - ampdB)))`. Where the formula has no
value (`p + q = 0`, U6; a coefficient or the amplitude not finite) the result is free (log 8). -/
def defaultF0Curve (lsp : List F32) (m : Nat) (amp : F32) (ampdB k ln : Nat) : F32 :=
  let coefs := (List.range m).map fun j => lsp.getD j 0
  let cw := fixCosPi k ln
  let den := lspDenominator m cw (coefs.map fun c => fixCosReduced (fixOfF32 c))
  match f32Class amp with
  | .fin neg ma ea =>
    if den.1 = 0 ∨ ¬ coefs.all f32IsFinite then Config.f0CurveOpen lsp m amp ampdB k ln
    else
      let t := isqrt (((ma * ma) <<< (2 * ea + den.2 + 1280).toNat) / den.1)
      f32Exp ((11512925 * (signedNat neg t - (ampdB : Int) * fixOne)).fdiv 100000000)
  | _ => Config.f0CurveOpen lsp m amp ampdB k ln

/-- The spec's default of every functional parameter (00_scope.md R7, 92_eei_decisions.md "Open parameters"). -/
def defaultParams : Params where
  cosPi := defaultCosPi
  sinPi := defaultSinPi
  barkEntry := defaultBarkEntry
  mdctScale := defaultMdctScale
  floor1Db := defaultFloor1Db
  f0Curve := defaultF0Curve
  slope := defaultSlope

end Sys2Proof.Machine
end

