-- ==== Sys2Proof/Machine/Floor0.lean ====
section
/-! DEFINITION. Floor type 0, the LSP envelope (42_floor0.md). -/

namespace Sys2Proof.Machine

/-- The floor-0 record of `cfg.floor[f]`, if that is what it holds. -/
def State.floor0At (f : Nat) (s : State) : Option Floor0 :=
  match fieldAt s.cfg.floor f with
  | some (.type0 r) => some r
  | _ => none

/-- A codebook number read from a header is below `cfg.books` (48_header.md R360, `H_XREF`). -/
def checkBook (b : Nat) : Op Unit := do
  let books ← need (← get).cfg.books
  headerCheck (b < books) .xref

/-- A codebook used for vector decode exists and has a value table (`H_XREF`, then `H_BOOK_NOVALUES`). -/
def checkValueBook (b : Nat) : Op Unit := do
  checkBook b
  let book ← need (fieldAt (← get).cfg.book b)
  headerCheck (book.maptype != 0) .bookNovalues

/-- `F0.UNPACK f` (R211, 31_header_layouts.md R130). -/
def f0Unpack (f : Nat) : Op Unit := do
  let order ← headerRead 8
  headerCheck (1 ≤ order) .floor0
  let rate ← headerRead 16
  headerCheck (1 ≤ rate) .floor0
  let barkmap ← headerRead 16
  headerCheck (1 ≤ barkmap) .floor0
  let ampbits ← headerRead 6
  headerCheck (ampbits ≤ 32) .floor0
  let ampdB ← headerRead 8
  let numbooks := (← headerRead 4) + 1
  let books ← collect (List.range numbooks) fun _ => do
    let b ← headerRead 8
    checkValueBook b
    pure b
  let record : Floor0 := { order, rate, barkmap, ampbits, ampdB, numbooks, books }
  modify fun s => s.setCfg { s.cfg with floor := putAt s.cfg.floor f (.type0 record) }

/-- `tab.floor0[f][w]` (R212). -/
def floor0Table (P : Params) (F : Floor0) (blocksize : Nat) : Floor0Table :=
  let n := blocksize / 2
  { n, ln := F.barkmap, m := F.order,
    linearmap := (List.range n).map fun i => P.barkEntry F.rate n F.barkmap i }

/-- `F0.LOOK f, w` (R212). -/
def f0Look (P : Params) (f w : Nat) : Op Unit := do
  let size ← need ((← get).blocksizeAt w)
  let F ← need ((← get).floor0At f)
  let table := floor0Table P F size
  modify fun s =>
    if w = 0 then s.setTab { s.tab with floor0Short := putAt s.tab.floor0Short f table }
    else s.setTab { s.tab with floor0Long := putAt s.tab.floor0Long f table }

/-- The codewords of the coefficient vector, from coefficient `j` (R214). -/
def readCoefficients (b m : Nat) (dim : Nat) : Nat → Nat → Op Unit
  | 0, _ => pure ()
  | fuel + 1, j =>
    if j < m then do
      let _ ← cbDecodeVs b .lsp .declare j 1
      readCoefficients b m dim fuel (j + dim)
    else pure ()

/-- The running sum across vectors (R214): `last` is the last coefficient of the previous vector, `k` the position within
the present one. -/
def runningSum (dim : Nat) : Nat → F32 → List F32 → List F32
  | _, _, [] => []
  | k, last, x :: xs =>
    let y := f32Add x last
    y :: (if k + 1 = dim then runningSum dim 0 y xs else runningSum dim (k + 1) last xs)

/-- `amp` of R214. -/
def floor0Amplitude (F : Floor0) (ampraw : Nat) : F32 :=
  f32Mul (f32Div (f32OfNat ampraw) (f32OfNat (2 ^ F.ampbits - 1))) (f32OfNat F.ampdB)

/-- The reads of floor-0 pass 1 (R214); a failing one raises. -/
def f0Pass1 (f c : Nat) (F : Floor0) : Op PassOne := do
  let ampraw ← readBits F.ampbits
  if ampraw = 0 then pure .silent
  else do
    let booknum ← readBits (ilog F.numbooks)
    if F.numbooks ≤ booknum then pure .silent
    else do
      let b ← need F.books[booknum]?
      let book ← need (fieldAt (← get).cfg.book b)
      readCoefficients b F.order book.dim F.order 0
      modify fun s => s.setLsp (runningSum book.dim 0 0 (s.lsp.take F.order) ++ s.lsp.drop F.order)
      modify fun s => s.setMemo c (some (.floor0 f (s.lsp.take F.order) (floor0Amplitude F ampraw)))
      pure .memo

/-- `F0.INVERSE1 f, c` (R214). It never raises for what the packet holds: every failure is the silent outcome (R217). -/
def f0Inverse1 (f c : Nat) : Op PassOne := do
  modify (State.setMemo c none)
  let F ← need ((← get).floor0At f)
  absorb (f0Pass1 f c F) (pure .starved)

/-- The memo of channel `c` that pass 1 of floor `f` wrote; a memo of another floor number counts as absent (R218). -/
def State.floor0Memo (f c : Nat) (s : State) : Option (List F32 × F32) :=
  match fieldAt s.memo c with
  | some (.floor0 g lsp amp) => if g = f then some (lsp, amp) else none
  | _ => none

/-- The floor-0 curve over `n` words (R215). -/
def floor0Curve (P : Params) (F : Floor0) (T : Floor0Table) (lsp : List F32) (amp : F32) (n : Nat) : List F32 :=
  (List.range n).map fun i => P.f0Curve lsp T.m amp F.ampdB (T.linearmap.getD i 0) T.ln

/-- `F0.INVERSE2 f, c` (R215). -/
def f0Inverse2 (P : Params) (f c : Nat) : Op Bool := do
  let s ← get
  let n := s.pcmend.toNat / 2
  match s.floor0Memo f c with
  | none =>
    modify (State.storeRow c (List.replicate n 0))
    pure false
  | some (lsp, amp) =>
    let F ← need (s.floor0At f)
    let T ← need (fieldAt (if s.w then s.tab.floor0Long else s.tab.floor0Short) f)
    modify (State.scaleRow c (floor0Curve P F T lsp amp n))
    pure true

/-- Rows 4 and 5 of R374 for a floor operation of the given type (R218, 43_floor1.md R242). -/
def judgeFloor (type f c : Nat) (s : State) : Except Failure Unit := do
  judgeReady s
  judgeIndex f (fun s => s.cfg.floors) s
  let t ← judgeField s (fieldAt s.cfg.floorType f)
  judgeThat (t == type)
  judgeChannel c s

/-- `F0.UNPACK f` (internal). -/
def execF0Unpack (f : BitVec 8) (s : State) : Host.Outcome State Fault Refusal :=
  issue judgeInternal (do
    f0Unpack f.toNat
    result 0) s

/-- `F0.LOOK f, w` (internal). -/
def execF0Look (f w : BitVec 8) (s : State) : Host.Outcome State Fault Refusal :=
  issue judgeInternal (do
    f0Look defaultParams f.toNat w.toNat
    result 0) s

/-- `F0.INVERSE1 f, c` (R218): `RES` is 1 when a memo is present. -/
def execF0Inverse1 (f c : BitVec 8) (s : State) : Host.Outcome State Fault Refusal :=
  issue (judgeFloor 0 f.toNat c.toNat) (do
    let r ← f0Inverse1 f.toNat c.toNat
    result (bitValue r.present)) s

/-- `F0.INVERSE2 f, c` (R218): `RES` is 1 when a memo is present. -/
def execF0Inverse2 (f c : BitVec 8) (s : State) : Host.Outcome State Fault Refusal :=
  issue (judgeFloor 0 f.toNat c.toNat) (do
    let r ← f0Inverse2 defaultParams f.toNat c.toNat
    result (bitValue r)) s

end Sys2Proof.Machine
end

