-- ==== Sys2Proof/Machine/Floor1.lean ====
section
/-! DEFINITION. Floor type 1, the piecewise-linear envelope (43_floor1.md). -/

namespace Sys2Proof.Machine

/-- The floor-1 record of `cfg.floor[f]`, if that is what it holds. -/
def State.floor1At (f : Nat) (s : State) : Option Floor1 :=
  match fieldAt s.cfg.floor f with
  | some (.type1 r) => some r
  | _ => none

/-! ## Configuration and tables -/

/-- One subclass book: the field is the book number plus 1, 0 for none (31_header_layouts.md R131). -/
def f1ReadSubbook : Op (Option Nat) := do
  let field ← headerRead 8
  if field = 0 then pure none
  else do
    checkBook (field - 1)
    pure (some (field - 1))

/-- The class book of a class, present when it has subclasses (31_header_layouts.md R131, item 5). -/
def f1ReadClassBook (subs : Nat) : Op (Option Nat) :=
  if subs = 0 then pure none
  else do
    let b ← headerRead 8
    checkBook b
    pure (some b)

/-- One class of a floor-1 record (31_header_layouts.md R131, items 3 to 6). -/
def f1ReadClass : Op FloorClass := do
  let dim := (← headerRead 3) + 1
  let subs ← headerRead 2
  let book ← f1ReadClassBook subs
  let subbook ← collect (List.range (2 ^ subs)) fun _ => f1ReadSubbook
  pure { dim, subs, book, subbook }

/-- `maxclass + 1`: the number of class records (31_header_layouts.md R131). -/
def classCount (partitionclass : List Nat) : Nat := partitionclass.foldl (fun n c => max n (c + 1)) 0

/-- `class_dim[c]` of a class number. -/
def classDim (classes : List FloorClass) (c : Nat) : Nat :=
  match classes[c]? with
  | some k => k.dim
  | none => 0

/-- `posts`, the number of X positions (10_state.md R40). -/
def postCount (classes : List FloorClass) (partitionclass : List Nat) : Nat :=
  2 + (partitionclass.map (classDim classes)).sum

/-- `F1.UNPACK f` (R231, 31_header_layouts.md R131). -/
def f1Unpack (f : Nat) : Op Unit := do
  let partitions ← headerRead 5
  let partitionclass ← collect (List.range partitions) fun _ => headerRead 4
  let classes ← collect (List.range (classCount partitionclass)) fun _ => f1ReadClass
  let mult := (← headerRead 2) + 1
  let rangebits ← headerRead 4
  let posts := postCount classes partitionclass
  let sent ← collect (List.range (posts - 2)) fun _ => do
    let x ← headerRead rangebits
    headerCheck (x < 2 ^ rangebits) .floor1
    pure x
  let postlist := 0 :: 2 ^ rangebits :: sent
  headerCheck (posts ≤ 65) .floor1
  headerCheck postlist.Nodup .floor1
  let record : Floor1 := { partitions, partitionclass, classes, mult, rangebits, postlist }
  modify fun s => s.setCfg { s.cfg with floor := putAt s.cfg.floor f (.type1 record) }

/-- `i` put into a list of post numbers that is sorted by ascending `X`. -/
def insertPost (X : List Nat) (i : Nat) : List Nat → List Nat
  | [] => [i]
  | j :: rest => if X.getD i 0 ≤ X.getD j 0 then i :: j :: rest else j :: insertPost X i rest

/-- The permutation of `0..posts` that lists the posts by ascending `X` (R232). -/
def sortPosts (X : List Nat) (posts : Nat) : List Nat := (List.range posts).foldr (insertPost X) []

/-- One round of the neighbour search of R232 for post `i`. -/
def nearer (X : List Nat) (i : Nat) (best : Nat × Nat) (k : Nat) : Nat × Nat :=
  (if X.getD k 0 < X.getD i 0 ∧ X.getD best.1 0 < X.getD k 0 then k else best.1,
   if X.getD i 0 < X.getD k 0 ∧ X.getD k 0 < X.getD best.2 0 then k else best.2)

/-- The nearest earlier posts below and above post `i` (R232). -/
def neighbors (X : List Nat) (i : Nat) : Nat × Nat := (List.range i).foldl (nearer X i) (0, 1)

/-- `quant_q` by `mult` (R232). -/
def quantQ (mult : Nat) : Nat :=
  if mult = 1 then 256 else if mult = 2 then 128 else if mult = 3 then 86 else 64

/-- `tab.floor1[f]` (R232). -/
def floor1Table (F : Floor1) : Floor1Table :=
  let posts := postCount F.classes F.partitionclass
  let near := (List.range (posts - 2)).map fun i => neighbors F.postlist (i + 2)
  { posts, n := F.postlist.getD 1 0, quantQ := quantQ F.mult,
    forwardIndex := sortPosts F.postlist posts,
    loneighbor := near.map Prod.fst, hineighbor := near.map Prod.snd }

/-- `F1.LOOK f` (R232). -/
def f1Look (f : Nat) : Op Unit := do
  let F ← need ((← get).floor1At f)
  modify fun s => s.setTab { s.tab with floor1 := putAt s.tab.floor1 f (floor1Table F) }

/-! ## Pass 1 -/

/-- `render_point` (R233): integer line interpolation, truncating. -/
def renderPoint (x0 x1 : Nat) (y0 y1 : Int) (x : Nat) : Int :=
  let dy := y1 - y0
  let off := (dy.natAbs * (x - x0)) / (x1 - x0)
  if dy < 0 then y0 - off else y0 + off

/-- The value of one post: an entry of the subclass book that the low `sbits` bits of `cval` name, or 0 where there is no
book (R234). -/
def readPost (cls : FloorClass) (cval : Nat) : Op Nat :=
  match (cls.subbook[cval % 2 ^ cls.subs]?).join with
  | some book => cbDecode book
  | none => pure 0

/-- The values of one partition's posts (R234). -/
def readPosts (cls : FloorClass) : Nat → Nat → Op (List Nat)
  | 0, _ => pure []
  | left + 1, cval => do
    let v ← readPost cls cval
    let vs ← readPosts cls left (cval / 2 ^ cls.subs)
    pure (v :: vs)

/-- The class value of one partition: a codeword of the class book, or 0 where the class has no subclasses (R234). -/
def readClassValue (cls : FloorClass) : Op Nat :=
  if cls.subs = 0 then pure 0
  else do
    let book ← need cls.book
    cbDecode book

/-- The values of the partitions whose classes are listed (R234). -/
def readPartitions (F : Floor1) : List Nat → Op (List Nat)
  | [] => pure []
  | cl :: rest => do
    let cls ← need F.classes[cl]?
    let cval ← readClassValue cls
    let vs ← readPosts cls cls.dim cval
    let ws ← readPartitions F rest
    pure (vs ++ ws)

/-- The unwrapped difference of a post from its prediction (R235), for a value that is not 0. -/
def unwrap (quantq pred : Int) (val : Nat) : Int :=
  let hiroom := quantq - pred
  let loroom := pred
  let room := 2 * min hiroom loroom
  if room ≤ (val : Int) then
    if loroom < hiroom then (val : Int) - loroom else -1 - ((val : Int) - hiroom)
  else if val % 2 = 1 then -(((val + 1) / 2 : Nat) : Int)
  else ((val / 2 : Nat) : Int)

/-- One post of the unwrap loop (R235): `y` and `used` grow by one, and a used post marks both its neighbours. -/
def unwrapPost (T : Floor1Table) (X v : List Nat) (memo : List Int × List Bool) (i : Nat) : List Int × List Bool :=
  let y := memo.1
  let used := memo.2
  let lo := T.loneighbor.getD (i - 2) 0
  let hi := T.hineighbor.getD (i - 2) 0
  let pred := renderPoint (X.getD lo 0) (X.getD hi 0) (y.getD lo 0) (y.getD hi 0) (X.getD i 0)
  let val := v.getD i 0
  if val = 0 then (y ++ [pred], used ++ [false])
  else (y ++ [pred + unwrap T.quantQ pred val], ((used.set lo true).set hi true) ++ [true])

/-- The unwrap loop (R235), in stream order. -/
def unwrapPosts (T : Floor1Table) (X v : List Nat) : List Int × List Bool :=
  ((List.range (T.posts - 2)).map (· + 2)).foldl (unwrapPost T X v)
    ([(v.getD 0 0 : Int), (v.getD 1 0 : Int)], [true, true])

/-- The reads of floor-1 pass 1 (R234); a failing one raises. -/
def f1Pass1 (f c : Nat) (F : Floor1) (T : Floor1Table) : Op PassOne := do
  let nz ← readBit
  if nz = false then pure .silent
  else do
    let wbits := ilog (T.quantQ - 1)
    let v0 ← readBits wbits
    let v1 ← readBits wbits
    let vs ← readPartitions F F.partitionclass
    let memo := unwrapPosts T F.postlist (v0 :: v1 :: vs)
    modify (State.setMemo c (some (.floor1 f memo.1 memo.2)))
    pure .memo

/-- `F1.INVERSE1 f, c` (R234). It never raises for what the packet holds: every failure is the silent outcome (R241). -/
def f1Inverse1 (f c : Nat) : Op PassOne := do
  modify (State.setMemo c none)
  let F ← need ((← get).floor1At f)
  let T ← need (fieldAt (← get).tab.floor1 f)
  absorb (f1Pass1 f c F T) (pure .starved)

/-! ## Pass 2 -/

/-- `db(y)`: the table entry at `y` clamped to 0..255 (R236). -/
def dbValue (P : Params) (y : Int) : F32 := P.floor1Db (min 255 (max 0 y)).toNat

/-- The Y values of the line recurrence of R240 at `count` consecutive positions. -/
def lineWalk (base sy : Int) (ady adx : Nat) : Nat → Int → Nat → List Int
  | 0, _, _ => []
  | count + 1, y, err =>
    y :: (if adx ≤ err + ady then lineWalk base sy ady adx count (y + sy) (err + ady - adx)
          else lineWalk base sy ady adx count (y + base) (err + ady))

/-- `render_line` (R240): the Y values at `x0 <= x < min(n, x1)`. -/
def renderLine (n x0 x1 : Nat) (y0 y1 : Int) : List Int :=
  let dy := y1 - y0
  let adx := x1 - x0
  let base := dy.tdiv adx
  let sy := if dy < 0 then base - 1 else base + 1
  let ady := dy.natAbs - (base * adx).natAbs
  lineWalk base sy ady adx (min n x1 - x0) y0 0

/-- The segments of R239 from the point `(lx, ly)` over the used posts of the list, then the flat extension to `n`. -/
def renderPosts (n mult : Nat) (X : List Nat) (y : List Int) (used : List Bool) : List Nat → Nat → Int → List Int
  | [], lx, ly => List.replicate (n - lx) ly
  | cur :: rest, lx, ly =>
    if used.getD cur false then
      let hx := X.getD cur 0
      let hy := y.getD cur 0 * mult
      renderLine n lx hx ly hy ++ renderPosts n mult X y used rest hx hy
    else renderPosts n mult X y used rest lx ly

/-- The integer curve over `n` words (R239). -/
def floor1Curve (F : Floor1) (T : Floor1Table) (y : List Int) (used : List Bool) (n : Nat) : List Int :=
  renderPosts n F.mult F.postlist y used (T.forwardIndex.drop 1) 0 (y.getD 0 0 * F.mult)

/-- The memo of channel `c` that pass 1 of floor `f` wrote; a memo of another floor number counts as absent (R242). -/
def State.floor1Memo (f c : Nat) (s : State) : Option (List Int × List Bool) :=
  match fieldAt s.memo c with
  | some (.floor1 g y used) => if g = f then some (y, used) else none
  | _ => none

/-- `F1.INVERSE2 f, c` (R239). -/
def f1Inverse2 (P : Params) (f c : Nat) : Op Bool := do
  let s ← get
  let n := s.pcmend.toNat / 2
  match s.floor1Memo f c with
  | none =>
    modify (State.storeRow c (List.replicate n 0))
    pure false
  | some (y, used) =>
    let F ← need (s.floor1At f)
    let T ← need (fieldAt s.tab.floor1 f)
    modify (State.scaleRow c ((floor1Curve F T y used n).map (dbValue P)))
    pure true

/-! ## Operations -/

/-- `F1.UNPACK f` (internal). -/
def execF1Unpack (f : BitVec 8) (s : State) : Host.Outcome State Fault Refusal :=
  issue judgeInternal (do
    f1Unpack f.toNat
    result 0) s

/-- `F1.LOOK f` (internal). -/
def execF1Look (f : BitVec 8) (s : State) : Host.Outcome State Fault Refusal :=
  issue judgeInternal (do
    f1Look f.toNat
    result 0) s

/-- `F1.INVERSE1 f, c` (R242): `RES` is 1 when a memo is present. -/
def execF1Inverse1 (f c : BitVec 8) (s : State) : Host.Outcome State Fault Refusal :=
  issue (judgeFloor 1 f.toNat c.toNat) (do
    let r ← f1Inverse1 f.toNat c.toNat
    result (bitValue r.present)) s

/-- `F1.INVERSE2 f, c` (R242): `RES` is 1 when a memo is present. -/
def execF1Inverse2 (f c : BitVec 8) (s : State) : Host.Outcome State Fault Refusal :=
  issue (judgeFloor 1 f.toNat c.toNat) (do
    let r ← f1Inverse2 defaultParams f.toNat c.toNat
    result (bitValue r)) s

end Sys2Proof.Machine
end

