-- ==== Sys2Proof/Machine/Residue.lean ====
section
/-! DEFINITION. The residue decoder, types 0, 1 and 2 (44_residue.md). -/

namespace Sys2Proof.Machine

/-! ## Configuration and tables -/

/-- A field that is present only when a flag says so, else a default. -/
def optionalRead (present : Bool) (n default : Nat) : Op Nat :=
  if present then headerRead n else pure default

/-- One cascade mask (31_header_layouts.md R134). -/
def readCascade : Op Nat := do
  let low ← headerRead 3
  let flag ← headerRead 1
  let high ← optionalRead (flag == 1) 5 0
  pure (high * 8 + low)

/-- `RES.UNPACK r` (R261, 31_header_layouts.md R133 to R135). DEDUCED, unsafe (log 27): `H_RESIDUE` is judged as soon as
`groupbook` has been read, where the table of R133 and the vector of 95_test_vectors.md part 10 (`POS` 326) put it, and so before
an `H_SHORT`, `H_XREF` or `H_BOOK_NOVALUES` of a later field; R139 and the order of 48_header.md R360 can be read otherwise. -/
def resUnpack (r : Nat) : Op Unit := do
  let rangeBegin ← headerRead 24
  let rangeEnd ← headerRead 24
  let grouping := (← headerRead 24) + 1
  let partitions := (← headerRead 6) + 1
  let groupbook ← headerRead 8
  checkBook groupbook
  let phrase ← need (fieldAt (← get).cfg.book groupbook)
  headerCheck (cappedPow partitions phrase.entries phrase.dim ≤ phrase.entries) .residue
  let secondstages ← collect (List.range partitions) fun _ => readCascade
  let booklist ← collect (List.range (secondstages.map icount).sum) fun _ => do
    let b ← headerRead 8
    checkValueBook b
    pure b
  let record : Residue := { rangeBegin, rangeEnd, grouping, partitions, groupbook, secondstages, booklist }
  modify fun s => s.setCfg { s.cfg with residue := putAt s.cfg.residue r record }

/-- The stage books of one class, stage by stage, taken from the front of the book list (R262): the row and the rest. -/
def classBooks (mask : Nat) : Nat → Nat → List Nat → List (Option Nat) × List Nat
  | 0, _, books => ([], books)
  | left + 1, stage, books =>
    if mask.testBit stage then
      let rest := classBooks mask left (stage + 1) (books.drop 1)
      (books[0]? :: rest.1, rest.2)
    else
      let rest := classBooks mask left (stage + 1) books
      (none :: rest.1, rest.2)

/-- `partbooks` (R262): the rows of the classes whose masks are listed. -/
def partBooks : List Nat → List Nat → List (List (Option Nat))
  | [], _ => []
  | mask :: masks, books =>
    let row := classBooks mask (ilog mask) 0 books
    row.1 :: partBooks masks row.2

/-- `decodemap[t]` (R262): the digits of `t` in base `parts`, most significant first. -/
def phraseDigits (parts : Nat) : Nat → Nat → Nat → List Nat
  | 0, _, _ => []
  | left + 1, val, mult => val / mult :: phraseDigits parts left (val - val / mult * mult) (mult / parts)

/-- `tab.res[r]` (R262). -/
def resTable (R : Residue) (pdim : Nat) : ResTable :=
  let partvals := R.partitions ^ pdim
  { stages := (R.secondstages.map ilog).foldl max 0,
    partbooks := partBooks R.secondstages R.booklist,
    partvals,
    decodemap := (List.range partvals).map fun t => phraseDigits R.partitions pdim t (partvals / R.partitions) }

/-- `RES.LOOK r` (R262). -/
def resLook (r : Nat) : Op Unit := do
  let R ← need (fieldAt (← get).cfg.residue r)
  let phrase ← need (fieldAt (← get).cfg.book R.groupbook)
  let table := resTable R phrase.dim
  modify fun s => s.setTab { s.tab with res := putAt s.tab.res r table }

/-! ## The loop skeleton -/

/-- `nparts` (R263), from the range of the residue and the number of decodable samples. -/
def partitionCount (R : Residue) (limit : Nat) : Nat := (min R.rangeEnd limit - R.rangeBegin) / R.grouping

/-- One phrase symbol (R265): the classes of a group. An entry with no row in the decode map stops the operation as
`Eof` does (`t >= partvals: return 1`), so it is raised here and absorbed with it. -/
def readPhrase (phraseBook : Nat) (T : ResTable) : Op (List Nat) := do
  let t ← cbDecode phraseBook
  if t < T.partvals then pure (T.decodemap.getD t []) else raise .badCode

/-- One partition of one vector at stage `stage` (R265). -/
def decodeOne (R : Residue) (T : ResTable) (layout : Nat → Nat → Nat → Op Unit) (stage i v cls : Nat) : Op Unit :=
  if (R.secondstages.getD cls 0).testBit stage then do
    let sb ← need ((T.partbooks.getD cls []).getD stage none)
    layout v (R.rangeBegin + i * R.grouping) sb
  else pure ()

/-- The partitions of one group from its `k`-th, partition `i` (R265): for each, every vector. `words[v]` holds the classes
of vector `v`. -/
def decodeGroup (R : Residue) (T : ResTable) (layout : Nat → Nat → Nat → Op Unit) (stage : Nat)
    (words : List (List Nat)) : Nat → Nat → Nat → Op Unit
  | 0, _, _ => pure ()
  | left + 1, k, i => do
    forEach (List.range words.length) fun v =>
      decodeOne R T layout stage i v ((words.getD v []).getD k 0)
    decodeGroup R T layout stage words left (k + 1) (i + 1)

/-- Stage 0 from partition `i` (R265): each group's phrase symbols, then its partitions. It gives the classes read
(`partword`), for the later stages. -/
def decodeFirstStage (R : Residue) (T : ResTable) (layout : Nat → Nat → Nat → Op Unit) (pdim vecs nparts : Nat) :
    Nat → Nat → Op (List (List (List Nat)))
  | 0, _ => pure []
  | fuel + 1, i =>
    if i < nparts then do
      let words ← collect (List.range vecs) fun _ => readPhrase R.groupbook T
      decodeGroup R T layout 0 words (min pdim (nparts - i)) 0 i
      let rest ← decodeFirstStage R T layout pdim vecs nparts fuel (i + pdim)
      pure (words :: rest)
    else pure []

/-- A later stage over the groups whose classes are listed, from partition `i` (R265). -/
def decodeLaterStage (R : Residue) (T : ResTable) (layout : Nat → Nat → Nat → Op Unit) (pdim nparts stage : Nat) :
    List (List (List Nat)) → Nat → Op Unit
  | [], _ => pure ()
  | words :: rest, i => do
    decodeGroup R T layout stage words (min pdim (nparts - i)) 0 i
    decodeLaterStage R T layout pdim nparts stage rest (i + pdim)

/-- The stages of R265 over `vecs` vectors and `nparts` partitions; a stop raises. -/
def decodeStages (R : Residue) (T : ResTable) (layout : Nat → Nat → Nat → Op Unit) (pdim vecs nparts : Nat) : Op Bool := do
  if nparts = 0 ∨ vecs = 0 ∨ T.stages = 0 then pure false
  else do
    let words ← decodeFirstStage R T layout pdim vecs nparts nparts 0
    forEach ((List.range (T.stages - 1)).map (· + 1)) fun stage =>
      decodeLaterStage R T layout pdim nparts stage words 0
    pure false

/-- The skeleton common to the three types (R265): the result is `true` when it stopped early. -/
def resDecode (r : Nat) (layout : Residue → Nat → Nat → Nat → Op Unit) (vecs limit : Nat) : Op Bool := do
  let R ← need (fieldAt (← get).cfg.residue r)
  let T ← need (fieldAt (← get).tab.res r)
  let phrase ← need (fieldAt (← get).cfg.book R.groupbook)
  absorb (decodeStages R T (layout R) phrase.dim vecs (partitionCount R limit)) (pure true)

/-! ## The three layouts -/

/-- `decode_partition` of type 0 (R266): `step` codewords, each laid out at stride `step`. -/
def layout0 (used : List Nat) (R : Residue) (v offset sb : Nat) : Op Unit := do
  let book ← need (fieldAt (← get).cfg.book sb)
  let step := R.grouping / book.dim
  forEach (List.range step) fun j => do
    let _ ← cbDecodeVs sb (.pcm (used.getD v 0)) .add (offset + j) step
    pure ()

/-- `decode_partition` of type 1 (R267): sequential. -/
def layout1 (used : List Nat) (R : Residue) (v offset sb : Nat) : Op Unit :=
  cbDecodeAdd sb (.pcm (used.getD v 0)) offset R.grouping

/-- `decode_partition` of type 2 (R269): interleaved over the whole bundle. -/
def layout2 (chlist : List Nat) (R : Residue) (_v offset sb : Nat) : Op Unit :=
  cbDecodeVvAdd sb chlist offset R.grouping

/-- The channels of the bundle that are not silent, in order (R264). -/
def State.activeChannels (chlist : List Nat) (s : State) : List Nat := chlist.filter fun c => s.isNonzero c

/-- `RES0.INVERSE r, chlist` (R266). -/
def res0Inverse (r : Nat) (chlist : List Nat) : Op Bool := do
  let s ← get
  let used := s.activeChannels chlist
  resDecode r (layout0 used) used.length (s.pcmend.toNat / 2)

/-- `RES1.INVERSE r, chlist` (R267). -/
def res1Inverse (r : Nat) (chlist : List Nat) : Op Bool := do
  let s ← get
  let used := s.activeChannels chlist
  resDecode r (layout1 used) used.length (s.pcmend.toNat / 2)

/-- `RES2.INVERSE r, chlist` (R269): one vector for the whole bundle, when any of its channels is not silent (R264). -/
def res2Inverse (r : Nat) (chlist : List Nat) : Op Bool := do
  let s ← get
  let vecs := if s.activeChannels chlist = [] then 0 else 1
  resDecode r (layout2 chlist) vecs (s.pcmend.toNat / 2 * chlist.length)

/-! ## Operations -/

/-- Rows 4 and 5 of R374 for a residue decode of the given type (R271). -/
def judgeResidue (type r first count : Nat) (s : State) : Except Failure Unit := do
  judgeReady s
  judgeIndex r (fun s => s.cfg.residues) s
  let t ← judgeField s (fieldAt s.cfg.residueType r)
  judgeThat (t == type)
  judgeBundle first count s

/-- `RES.UNPACK r` (internal). -/
def execResUnpack (r : BitVec 8) (s : State) : Host.Outcome State Fault Refusal :=
  issue judgeInternal (do
    resUnpack r.toNat
    result 0) s

/-- `RES.LOOK r` (internal). -/
def execResLook (r : BitVec 8) (s : State) : Host.Outcome State Fault Refusal :=
  issue judgeInternal (do
    resLook r.toNat
    result 0) s

/-- `RES0.INVERSE r, first, count` (R271): `RES` is 1 when it stopped early. -/
def execRes0Inverse (r first count : BitVec 8) (s : State) : Host.Outcome State Fault Refusal :=
  issue (judgeResidue 0 r.toNat first.toNat count.toNat) (do
    let e ← res0Inverse r.toNat (channelRun first.toNat count.toNat)
    result (bitValue e)) s

/-- `RES1.INVERSE r, first, count` (R271): `RES` is 1 when it stopped early. -/
def execRes1Inverse (r first count : BitVec 8) (s : State) : Host.Outcome State Fault Refusal :=
  issue (judgeResidue 1 r.toNat first.toNat count.toNat) (do
    let e ← res1Inverse r.toNat (channelRun first.toNat count.toNat)
    result (bitValue e)) s

/-- `RES2.INVERSE r, first, count` (R271): `RES` is 1 when it stopped early. -/
def execRes2Inverse (r first count : BitVec 8) (s : State) : Host.Outcome State Fault Refusal :=
  issue (judgeResidue 2 r.toNat first.toNat count.toNat) (do
    let e ← res2Inverse r.toNat (channelRun first.toNat count.toNat)
    result (bitValue e)) s

end Sys2Proof.Machine
end

