-- ==== Sys2Proof/Machine/Mdct.lean ====
section
/-! DEFINITION. The inverse MDCT (46_mdct.md R300 to R309). Every binary32 operation is rounded once, in the order of R303. -/

namespace Sys2Proof.Machine

/-! ## Tables -/

/-- The `i`-th pair of the A part of `trig` (R301): the second entry is the exactly negated sine, so `-0.0` at `i = 0`. -/
def trigA (P : Params) (n i : Nat) : List F32 := [P.cosPi (4 * i) n, f32Neg (P.sinPi (4 * i) n)]

/-- The `i`-th pair of the B part of `trig`. -/
def trigB (P : Params) (n i : Nat) : List F32 := [P.cosPi (2 * i + 1) (2 * n), P.sinPi (2 * i + 1) (2 * n)]

/-- The `i`-th pair of the C part of `trig`. -/
def trigC (P : Params) (n i : Nat) : List F32 := [P.cosPi (4 * i + 2) n, f32Neg (P.sinPi (4 * i + 2) n)]

/-- `trig[0 .. n + n/4)` (R301). -/
def trigTable (P : Params) (n : Nat) : List F32 :=
  (List.range (n / 4)).flatMap (trigA P n) ++ (List.range (n / 4)).flatMap (trigB P n) ++
  (List.range (n / 8)).flatMap (trigC P n)

/-- `acc` of R301: the sum of `1 << j` over the `j < log2n - 1` for which `(msb >> j) & i` is not 0. -/
def bitReverse (log2n i : Nat) : Nat :=
  ((List.range (log2n - 1)).map fun j => if (2 ^ (log2n - 2) / 2 ^ j &&& i) ≠ 0 then 2 ^ j else 0).sum

/-- `bitrev[0 .. n/4)` (R301). -/
def bitrevTable (n log2n : Nat) : List Nat :=
  (List.range (n / 8)).flatMap fun i => [2 ^ (log2n - 1) - 1 - bitReverse log2n i, bitReverse log2n i]

/-- `tab.mdct[w]` (R301). -/
def mdctTable (P : Params) (n : Nat) : MdctTable :=
  let log2n := ilog n - 1
  { n, log2n, trig := trigTable P n, bitrev := bitrevTable n log2n, scale := P.mdctScale n }

/-- `MDCT.INIT w` (R301). -/
def mdctInit (P : Params) (w : Nat) : Op Unit := do
  let n ← need ((← get).blocksizeAt w)
  let table := mdctTable P n
  modify fun s =>
    if w = 0 then s.setTab { s.tab with mdct0 := some table } else s.setTab { s.tab with mdct1 := some table }

/-! ## The transform -/

/-- A word of a work array. -/
def wordAt (a : List F32) (i : Nat) : F32 := a.getD i 0

/-- Words stored into a work array, in order. -/
def storeAll : List (Nat × F32) → List F32 → List F32
  | [], a => a
  | (i, v) :: rest, a => storeAll rest (a.set i v)

/-- A work array of `n` words given by stores; every word the transform reads is stored before it is read. -/
def workArray (n : Nat) (stores : List (Nat × F32)) : List F32 := storeAll stores (List.replicate n 0)

/-- Stage 1 of R303: rotate and fold the input into `P`. Round `i` of the first loop has `io = 1 + 4i`, `xo = 2i`,
`A = n2 - 2 - 2i`; round `i` of the second goes on with `io = n2 - 4 - 4i`, `xo = 2 * n8 + 2i`, `A = n2 - 2 * n8 - 2 - 2i`. -/
def mdctFold (n : Nat) (T input : List F32) : List F32 :=
  let n2 := n / 2
  let n8 := n / 8
  let first := (List.range n8).flatMap fun i =>
    let io := 1 + 4 * i
    let xo := 2 * i
    let A := n2 - 2 - 2 * i
    [(xo, f32Sub (f32Mul (f32Neg (wordAt input (io + 2))) (wordAt T (A + 1))) (f32Mul (wordAt input io) (wordAt T A))),
     (xo + 1, f32Sub (f32Mul (wordAt input io) (wordAt T (A + 1))) (f32Mul (wordAt input (io + 2)) (wordAt T A)))]
  let second := (List.range n8).flatMap fun i =>
    let io := n2 - 4 - 4 * i
    let xo := 2 * n8 + 2 * i
    let A := n2 - 2 * n8 - 2 - 2 * i
    [(xo, f32Add (f32Mul (wordAt input io) (wordAt T (A + 1))) (f32Mul (wordAt input (io + 2)) (wordAt T A))),
     (xo + 1, f32Sub (f32Mul (wordAt input io) (wordAt T A)) (f32Mul (wordAt input (io + 2)) (wordAt T (A + 1))))]
  workArray n2 (first ++ second)

/-- Stage 2 of R303: the first butterfly, `P` to `Q`. Round `j` has `i = xB = 2j`, `xA = n4 + 2j`, `A = n2 - 4 - 4j`. -/
def mdctFirst (n : Nat) (T P : List F32) : List F32 :=
  let n2 := n / 2
  let n4 := n / 4
  workArray n2 ((List.range (n / 8)).flatMap fun j =>
    let i := 2 * j
    let xA := n4 + 2 * j
    let xB := 2 * j
    let A := n2 - 4 - 4 * j
    let x0 := f32Sub (wordAt P xA) (wordAt P xB)
    let x1 := f32Sub (wordAt P (xA + 1)) (wordAt P (xB + 1))
    [(n4 + i, f32Add (wordAt P xA) (wordAt P xB)),
     (i, f32Add (f32Mul x0 (wordAt T A)) (f32Mul x1 (wordAt T (A + 1)))),
     (i + 1, f32Sub (f32Mul x1 (wordAt T A)) (f32Mul x0 (wordAt T (A + 1)))),
     (n4 + i + 1, f32Add (wordAt P (xA + 1)) (wordAt P (xB + 1)))])

/-- One pass of stage 3 of R303, `S` to `D`. Round `(r, s)` has `w1 = n2 - 2 - 2r - k0 * s`, `w2 = w1 - k0/2`,
`A = k1 * r`. -/
def mdctPass (n i : Nat) (T S : List F32) : List F32 :=
  let n2 := n / 2
  let k0 := n / 2 ^ (i + 2)
  let k1 := 2 ^ (i + 3)
  workArray n2 ((List.range (k0 / 4)).flatMap fun r =>
    let aev := wordAt T (k1 * r)
    let aov := wordAt T (k1 * r + 1)
    (List.range (2 * 2 ^ i)).flatMap fun s =>
      let w1 := n2 - 2 - 2 * r - k0 * s
      let w2 := w1 - k0 / 2
      let wB := f32Sub (wordAt S w1) (wordAt S w2)
      let wA := f32Sub (wordAt S (w1 + 1)) (wordAt S (w2 + 1))
      [(w1, f32Add (wordAt S w1) (wordAt S w2)),
       (w1 + 1, f32Add (wordAt S (w1 + 1)) (wordAt S (w2 + 1))),
       (w2 + 1, f32Sub (f32Mul wA aev) (f32Mul wB aov)),
       (w2, f32Add (f32Mul wB aev) (f32Mul wA aov))])

/-- Stage 3 of R303: the passes from `i` on; the two buffers swap after each. -/
def mdctPasses (n : Nat) (T : List F32) : Nat → Nat → List F32 → List F32
  | 0, _, S => S
  | left + 1, i, S => mdctPasses n T left (i + 1) (mdctPass n i T S)

/-- `0.5` in binary32. -/
def f32Half : F32 := 0x3F000000

/-- Stage 4 of R303: the bit-reversed combine. Round `i` has `C = n + 2i`, `x1 = 2i`, `x2 = n2 - 1 - 2i`. -/
def mdctCombine (n : Nat) (T : List F32) (BR : List Nat) (S : List F32) : List F32 :=
  let n2 := n / 2
  workArray n2 ((List.range (n / 8)).flatMap fun i =>
    let C := n + 2 * i
    let x1 := 2 * i
    let x2 := n2 - 1 - 2 * i
    let t1 := BR.getD (2 * i) 0
    let t2 := BR.getD (2 * i + 1) 0
    let wA := f32Sub (wordAt S t1) (wordAt S (t2 + 1))
    let wB := f32Add (wordAt S (t1 - 1)) (wordAt S t2)
    let wC := f32Add (wordAt S t1) (wordAt S (t2 + 1))
    let wD := f32Sub (wordAt S (t1 - 1)) (wordAt S t2)
    let wACE := f32Mul wA (wordAt T C)
    let wBCE := f32Mul wB (wordAt T C)
    let wACO := f32Mul wA (wordAt T (C + 1))
    let wBCO := f32Mul wB (wordAt T (C + 1))
    [(x1, f32Mul (f32Add (f32Add wC wACO) wBCE) f32Half),
     (x2, f32Mul (f32Sub (f32Add (f32Neg wD) wBCO) wACE) f32Half),
     (x1 + 1, f32Mul (f32Sub (f32Add wD wBCO) wACE) f32Half),
     (x2 - 1, f32Mul (f32Sub (f32Sub wC wACO) wBCE) f32Half)])

/-- Stage 5 of R303: final rotation and unfolding. Round `i` has `B = n2 + 2i`, `o1 = n4 + i`, `o2 = n4 - 1 - i`,
`o3 = n4 + n2 + i`, `o4 = n4 + n2 - 1 - i`, `xx = 2i`. -/
def mdctUnfold (n : Nat) (T D : List F32) : List F32 :=
  let n2 := n / 2
  let n4 := n / 4
  workArray n ((List.range n4).flatMap fun i =>
    let B := n2 + 2 * i
    let xx := 2 * i
    let t1 := f32Sub (f32Mul (wordAt D xx) (wordAt T (B + 1))) (f32Mul (wordAt D (xx + 1)) (wordAt T B))
    let t2 := f32Neg (f32Add (f32Mul (wordAt D xx) (wordAt T B)) (f32Mul (wordAt D (xx + 1)) (wordAt T (B + 1))))
    [(n4 + i, f32Neg t1), (n4 - 1 - i, t1), (n4 + n2 + i, t2), (n4 + n2 - 1 - i, t2)])

/-- Stages 1 to 6 of R303: the `n` output words from the `n/2` input words. -/
def mdctTransform (M : MdctTable) (input : List F32) : List F32 :=
  let folded := mdctFold M.n M.trig input
  let first := mdctFirst M.n M.trig folded
  let passed := mdctPasses M.n M.trig (M.log2n - 3) 0 first
  let combined := mdctCombine M.n M.trig M.bitrev passed
  (mdctUnfold M.n M.trig combined).map fun v => f32Mul v M.scale

/-- `tab.mdct[w]`. -/
def State.mdctTableAt (w : Nat) (s : State) : Option MdctTable :=
  match w with
  | 0 => s.tab.mdct0
  | 1 => s.tab.mdct1
  | _ => none

/-- `MDCT.BACKWARD w, c` (R303, R304): the first `n/2` words of the row in, all `n` words out. -/
def mdctBackward (w c : Nat) : Op Unit := do
  let M ← need ((← get).mdctTableAt w)
  modify fun s => s.storeRow c (mdctTransform M ((s.pcmRow c).take (M.n / 2)))

/-- Rows 4 and 5 of R374 with the precondition of R309. -/
def judgeMdct (w c : Nat) (s : State) : Except Failure Unit := do
  judgeReady s
  judgeThat (w ≤ 1)
  judgeChannel c s
  let size ← judgeField s (s.blocksizeAt w)
  judgeThat (size == s.pcmend.toNat)

/-- `MDCT.INIT w` (internal). -/
def execMdctInit (w : BitVec 8) (s : State) : Host.Outcome State Fault Refusal :=
  issue judgeInternal (do
    mdctInit defaultParams w.toNat
    result 0) s

/-- `MDCT.BACKWARD w, c` (R303, R309). -/
def execMdctBackward (w c : BitVec 8) (s : State) : Host.Outcome State Fault Refusal :=
  issue (judgeMdct w.toNat c.toNat) (do
    mdctBackward w.toNat c.toNat
    result 0) s

end Sys2Proof.Machine
end

