-- ==== Sys2Proof/Machine/Window.lean ====
section
/-! DEFINITION. The window (47_block.md R328 to R330). -/

namespace Sys2Proof.Machine

/-- `1.0` in binary32. -/
def f32One : F32 := 0x3F800000

/-- `window(wn, left, right)` (R328): zeros, the rising slope, ones, the falling slope, zeros. -/
def windowArray (P : Params) (wn left right : Nat) : List F32 :=
  let lb := wn / 4 - left / 2
  let rb := wn - wn / 4 - right / 2
  List.replicate lb 0 ++ (List.range left).map (fun i => P.slope i left) ++
  List.replicate (rb - (lb + left)) f32One ++
  (List.range right).map (fun i => P.slope (right - 1 - i) right) ++
  List.replicate (wn - (rb + right)) 0

/-- `WIN.INIT` (R328): the five windows a packet can select. -/
def winInit (P : Params) : Op Unit := do
  let b0 ← need (← get).cfg.blocksize0
  let b1 ← need (← get).cfg.blocksize1
  modify fun s => s.setTab { s.tab with
    win000 := some (windowArray P b0 (b0 / 2) (b0 / 2)),
    win100 := some (windowArray P b1 (b0 / 2) (b0 / 2)),
    win101 := some (windowArray P b1 (b0 / 2) (b1 / 2)),
    win110 := some (windowArray P b1 (b1 / 2) (b0 / 2)),
    win111 := some (windowArray P b1 (b1 / 2) (b1 / 2)) }

/-- `tab.win[w][lw][nw]`; a short block has the one window with both flags 0. -/
def State.windowAt (w lw nw : Bool) (s : State) : Option (List F32) :=
  match w, lw, nw with
  | false, false, false => s.tab.win000
  | true, false, false => s.tab.win100
  | true, false, true => s.tab.win101
  | true, true, false => s.tab.win110
  | true, true, true => s.tab.win111
  | false, _, _ => none

/-- `WIN.APPLY c` (R329): multiply by the window, or store `+0.0` when the channel is silent. -/
def winApply (c : Nat) : Op Unit := do
  let s ← get
  let win ← need (s.windowAt s.w s.lw s.nw)
  if s.isNonzero c then modify (State.scaleRow c (win.take s.pcmend.toNat))
  else modify (State.storeRow c (List.replicate s.pcmend.toNat 0))

/-- Rows 4 and 5 of R374 with the precondition of R329. -/
def judgeWindow (c : Nat) (s : State) : Except Failure Unit := do
  judgeReady s
  judgeChannel c s
  let size ← judgeField s (s.blocksize s.w)
  judgeThat (size == s.pcmend.toNat && (s.w || (!s.lw && !s.nw)))

/-- `WIN.INIT` (internal). -/
def execWinInit (s : State) : Host.Outcome State Fault Refusal :=
  issue judgeInternal (do
    winInit defaultParams
    result 0) s

/-- `WIN.APPLY c` (R329). -/
def execWinApply (c : BitVec 8) (s : State) : Host.Outcome State Fault Refusal :=
  issue (judgeWindow c.toNat) (do
    winApply c.toNat
    result 0) s

end Sys2Proof.Machine
end

