-- ==== Sys2Proof/Machine/Mapping.lean ====
section
/-! DEFINITION. Mapping type 0 and channel coupling (45_mapping.md). -/

namespace Sys2Proof.Machine

/-! ## Configuration -/

/-- One coupling pair (31_header_layouts.md R136, item 6). DEDUCED, unsafe (log 28): both fields are read and then checked
together, the one check of item 6, as the vectors of 95_test_vectors.md part 10 show (`mag` 3 of 3 channels: `POS` 366), so a
payload that ends inside `coupling_ang` is `H_SHORT` even when `coupling_mag` is out of range; R139 can be read otherwise. -/
def readCoupling (channels : Nat) : Op (Nat × Nat) := do
  let mag ← headerRead (ilog (channels - 1))
  let ang ← headerRead (ilog (channels - 1))
  headerCheck (mag < channels && ang < channels && mag != ang) .mapCoupling
  pure (mag, ang)

/-- The three numbers of one submap (31_header_layouts.md R136, item 9). -/
def readSubmap : Op (Nat × Nat × Nat) := do
  let times ← need (← get).cfg.times
  let floors ← need (← get).cfg.floors
  let residues ← need (← get).cfg.residues
  let t ← headerRead 8
  headerCheck (t < times) .xref
  let f ← headerRead 8
  headerCheck (f < floors) .xref
  let r ← headerRead 8
  headerCheck (r < residues) .xref
  pure (t, f, r)

/-- A count that is sent minus 1 when a flag says so, else a default (31_header_layouts.md R136, items 2 to 5). -/
def readCount (n default : Nat) : Op Nat := do
  let flag ← headerRead 1
  if flag = 1 then do
    let field ← headerRead n
    pure (field + 1)
  else pure default

/-- One entry of the channel multiplex list (31_header_layouts.md R136, item 8). -/
def readMux (submaps : Nat) : Op Nat := do
  let s ← headerRead 4
  headerCheck (s < submaps) .mapMux
  pure s

/-- The channel multiplex list, sent only when there is more than one submap (31_header_layouts.md R136, item 8). -/
def readMuxList (submaps channels : Nat) : Op (List Nat) :=
  if 1 < submaps then collect (List.range channels) fun _ => readMux submaps
  else pure (List.replicate channels 0)

/-- `MAP0.UNPACK m` (R281, 31_header_layouts.md R136 from item 2). -/
def map0Unpack (m : Nat) : Op Unit := do
  let channels ← need (← get).cfg.channels
  let submaps ← readCount 4 1
  let steps ← readCount 8 0
  let coupling ← collect (List.range steps) fun _ => readCoupling channels
  let reserved ← headerRead 2
  headerCheck (reserved == 0) .mapReserved
  let chmuxlist ← readMuxList submaps channels
  let subs ← collect (List.range submaps) fun _ => readSubmap
  let record : Mapping :=
    { submaps, coupling, chmuxlist,
      timesubmap := subs.map fun x => x.1,
      floorsubmap := subs.map fun x => x.2.1,
      residuesubmap := subs.map fun x => x.2.2 }
  modify fun s => s.setCfg { s.cfg with map := putAt s.cfg.map m record }

/-! ## Decoupling -/

/-- The sign-branching rule for one sample (R286): the new magnitude and angle words. -/
def decoupleSample (mag ang : F32) : F32 × F32 :=
  if f32Gt0 mag then
    if f32Gt0 ang then (mag, f32Sub mag ang) else (f32Add mag ang, mag)
  else
    if f32Gt0 ang then (mag, f32Add mag ang) else (f32Sub mag ang, mag)

/-- `decouple(cm, ca, h)` (R286): the first `h` words of the two rows. -/
def State.decouple (h : Nat) (pair : Nat × Nat) (s : State) : State :=
  let out := (List.zip (s.pcmRow pair.1) (s.pcmRow pair.2)).take h |>.map fun x => decoupleSample x.1 x.2
  (s.storeRow pair.1 (out.map Prod.fst)).storeRow pair.2 (out.map Prod.snd)

/-! ## `MAP0.INVERSE` -/

/-- `fl(c)`: the floor of a channel's submap (R283). -/
def floorOf (M : Mapping) (c : Nat) : Nat := M.floorsubmap.getD (M.chmuxlist.getD c 0) 0

/-- The bundle of submap `s` (R280). -/
def bundleOf (M : Mapping) (channels s : Nat) : List Nat :=
  (List.range channels).filter fun c => M.chmuxlist.getD c 0 = s

/-- `Fn.INVERSE1 f, c` by the floor's type (R283 step 1). -/
def floorInverse1 (f c : Nat) : Op PassOne := do
  let type ← need (fieldAt (← get).cfg.floorType f)
  if type = 0 then f0Inverse1 f c else f1Inverse1 f c

/-- `Fn.INVERSE2 f, c` by the floor's type (R283 step 5). -/
def floorInverse2 (P : Params) (f c : Nat) : Op Bool := do
  let type ← need (fieldAt (← get).cfg.floorType f)
  if type = 0 then f0Inverse2 P f c else f1Inverse2 P f c

/-- Floor pass 1 of one channel, and its flags (R283 step 1, R284). -/
def mapFloorPass1 (M : Mapping) (c : Nat) : Op Unit := do
  let r ← floorInverse1 (floorOf M c) c
  modify (State.setNonzero c r.present)
  if r = .starved then markTruncated else pure ()

/-- `RESt.INVERSE r, chlist` by the residue's type (R283 step 3). -/
def resInverse (r : Nat) (chlist : List Nat) : Op Bool := do
  let type ← need (fieldAt (← get).cfg.residueType r)
  if type = 0 then res0Inverse r chlist
  else if type = 1 then res1Inverse r chlist
  else res2Inverse r chlist

/-- Step 3 of R283 over the submaps listed, with the parameter `EOF_IN_RESIDUE` (44_residue.md R270). -/
def mapResidues (M : Mapping) (channels : Nat) : List Nat → Op Unit
  | [] => pure ()
  | s :: rest => do
    let chlist := bundleOf M channels s
    if chlist = [] then mapResidues M channels rest
    else do
      let e ← resInverse (M.residuesubmap.getD s 0) chlist
      if e then do
        markTruncated
        match (← get).eofInResidue with
        | .failPacket => raise .eof
        | .silenceBlock => modify (State.silenceAll channels)
        | .stopAndKeep => mapResidues M channels rest
      else mapResidues M channels rest

/-- Floor pass 2 of one channel (R283 step 5). -/
def mapFloorPass2 (P : Params) (M : Mapping) (c : Nat) : Op Unit := do
  let _ ← floorInverse2 P (floorOf M c) c
  pure ()

/-- The mapping of the current packet's mode (R283). -/
def currentMapping : Op Mapping := do
  let s ← get
  let mode ← need (fieldAt s.cfg.mode s.mode.toNat)
  need (fieldAt s.cfg.map mode.mapping)

/-- `MAP0.INVERSE` (R283): the seven steps, each for every channel before the next begins. -/
def map0Inverse (P : Params) : Op Unit := do
  let M ← currentMapping
  let channels ← need (← get).cfg.channels
  let h := (← get).pcmend.toNat / 2
  forEach (List.range channels) (mapFloorPass1 M)
  forEach M.coupling fun pair => modify (State.widenPair pair)
  forEach (List.range channels) fun c => modify (State.storeRow c (List.replicate h 0))
  mapResidues M channels (List.range M.submaps)
  forEach M.coupling.reverse fun pair => modify (State.decouple h pair)
  forEach (List.range channels) (mapFloorPass2 P M)
  forEach (List.range channels) fun c => do mdctBackward (bitValue (← get).w) c
  forEach (List.range channels) winApply

/-- Rows 4 and 5 of R374 with the precondition of R290. -/
def judgeMapping (s : State) : Except Failure Unit := do
  judgeReady s
  let modes ← judgeField s s.cfg.modes
  judgeThat (s.mode.toNat < modes)
  let mode ← judgeField s (fieldAt s.cfg.mode s.mode.toNat)
  let size ← judgeField s (s.blocksize mode.blockflag)
  judgeThat (size == s.pcmend.toNat && s.w == mode.blockflag)

/-- `MAP0.UNPACK m` (internal). -/
def execMap0Unpack (m : BitVec 8) (s : State) : Host.Outcome State Fault Refusal :=
  issue judgeInternal (do
    map0Unpack m.toNat
    result 0) s

/-- `MAP0.LOOK m` (internal): no architectural effect (R282). -/
def execMap0Look (_m : BitVec 8) (s : State) : Host.Outcome State Fault Refusal :=
  issue judgeInternal (result 0) s

/-- `MAP0.INVERSE` (R283, R290). -/
def execMap0Inverse (s : State) : Host.Outcome State Fault Refusal :=
  issue judgeMapping (do
    map0Inverse defaultParams
    result 0) s

end Sys2Proof.Machine
end

