-- ==== Sys2Proof/Machine/Block.lean ====
section
/-! DEFINITION. `SYNTHESIS` and the block states (47_block.md R320 to R327). -/

namespace Sys2Proof.Machine

/-- `fail(S, info)` of R322. -/
def failPacket {α : Type} (f : Failure) : Op α := do
  modify (State.setBState .failed)
  raise f

/-- A read of the packet head: on `Eof` the packet fails (R322). -/
def headRead (n : Nat) : Op Nat := absorb (readBits n) (failPacket .eof)

/-- The packet head (R322 to R324): the mode number, and the previous and next flags of a long block. -/
def readHead : Op (Nat × Mode × Bool × Bool) := do
  let t ← headRead 1
  if t ≠ 0 then failPacket .badType
  else do
    let modebits ← need (← get).tab.modebits
    let m ← headRead modebits
    let modes ← need (← get).cfg.modes
    if modes ≤ m then failPacket (.badMode m)
    else do
      let mode ← need (fieldAt (← get).cfg.mode m)
      if mode.blockflag then do
        let lw ← headRead 1
        let nw ← headRead 1
        pure (m, mode, lw == 1, nw == 1)
      else pure (m, mode, false, false)

/-- The opening lines of R322: the cursor on the packet, the latched packet data, and the packet state cleared. -/
def openPacket (eos bos : Bool) : Op Unit := do
  let s ← get
  let channels ← need s.cfg.channels
  modify (State.setBState .await)
  initCursor s.arg0 s.arg1
  latchPacket eos bos
  modify (State.setSamples 0)
  modify (State.setTrunc false)
  modify (State.clearChannels channels)

/-- The block of R322 after a good head: the five registers committed and `PCM` zeroed (20_memory.md R62). -/
def openBlock (m : Nat) (mode : Mode) (lw nw : Bool) : Op Unit := do
  let size ← need ((← get).blocksize mode.blockflag)
  let channels ← need (← get).cfg.channels
  modify (State.setHead (BitVec.ofNat 6 m) mode.blockflag lw nw (BitVec.ofNat 16 size))
  modify (State.setBState .parsed)
  modify fun s => s.setPcm (List.replicate channels (List.replicate s.pcmend.toNat 0))
  modify (State.setBState .dispatched)

/-- `SYNTHESIS` (R322). -/
def synthesis (P : Params) (eos bos : Bool) : Op (BitVec 32) := do
  openPacket eos bos
  let (m, mode, lw, nw) ← readHead
  openBlock m mode lw nw
  absorb (map0Inverse P) (failPacket .eof)
  modify fun s => s.setSamples s.pcmend
  modify (State.setBState .emitted)
  result (← get).samples.toNat

/-- `SYNTHESIS` with `ARG0` = base, `ARG1` = len, `ARG3 ++ ARG2` = granule (R322): `NotReady` changes nothing else (R326). -/
def execSynthesis (eos bos : Bool) (s : State) : Host.Outcome State Fault Refusal :=
  issue judgeReady (synthesis defaultParams eos bos) s

end Sys2Proof.Machine
end

