-- ==== Sys2Proof/Machine/Command.lean ====
section
/-! DEFINITION. The host command `RESET` (70_reset_and_hazards.md R402). -/

namespace Sys2Proof.Machine

/-- `RESET`: every register but `ARG0` to `ARG3` at its reset value, `cfg` and `tab` discarded (R402). -/
def resetOp : Op (BitVec 32) := do
  modify State.cleared
  result 0

/-- `RESET`. Legal in every phase; never fails (R402). -/
def execReset (s : State) : Host.Outcome State Fault Refusal := issue judgeNone resetOp s

end Sys2Proof.Machine
end

