-- ==== Sys2Proof/Machine/Header.lean ====
section
/-! DEFINITION. The header and configuration parser (48_header.md): `HEADERIN` and the `HDR.*` operations. -/

namespace Sys2Proof.Machine

/-- A field of the configuration is loaded. -/
def loadCfg (f : Cfg → Cfg) : Op Unit := modify fun s => s.setCfg (f s.cfg)

/-- The framing bit of a header (31_header_layouts.md R138). -/
def readFraming : Op Unit := do
  let fr ← headerRead 1
  headerCheck (fr == 1) .framing

/-- `HDR.IDENT` (R342). DEDUCED, unsafe (log 29): both block sizes are read before either is checked, as the pseudocode of R342
and the vector of 95_test_vectors.md part 10 (exponents 2 and 11: `POS` 232) have it, where 31_header_layouts.md R139 reads as a
check of the first before the second is read. -/
def hdrIdent : Op Unit := do
  let version ← headerRead 32
  loadCfg fun c => { c with version := some version }
  headerCheck (version == 0) .version
  let channels ← headerRead 8
  loadCfg fun c => { c with channels := some channels }
  headerCheck (channels != 0) .channels
  let rate ← headerRead 32
  loadCfg fun c => { c with rate := some rate }
  headerCheck (rate != 0) .rate
  let upper ← headerRead 32
  loadCfg fun c => { c with bitrateUpper := some (sext32 upper) }
  let nominal ← headerRead 32
  loadCfg fun c => { c with bitrateNominal := some (sext32 nominal) }
  let lower ← headerRead 32
  loadCfg fun c => { c with bitrateLower := some (sext32 lower) }
  let e0 ← headerRead 4
  let e1 ← headerRead 4
  loadCfg fun c => { c with blocksize0 := some (2 ^ e0), blocksize1 := some (2 ^ e1) }
  headerCheck (8 ≤ 2 ^ e0) .blocksize
  headerCheck (2 ^ e0 ≤ 2 ^ e1) .blocksize
  readFraming

/-- The comments of R343: each is skipped; nothing is stored. -/
def skipComments : Nat → Op Unit
  | 0 => pure ()
  | k + 1 => do
    let l ← headerRead 32
    advanceBits (8 * l)
    skipComments k

/-- `HDR.COMMENT` (R343). -/
def hdrComment : Op Unit := do
  let v ← headerRead 32
  advanceBits (8 * v)
  let k ← headerRead 32
  skipComments k
  readFraming

/-- One entry of an unordered length list (31_header_layouts.md R125). -/
def readLength (sparse : Bool) : Op Nat := do
  let used ← optionalRead sparse 1 1
  if used = 0 then pure 0
  else do
    let field ← headerRead 5
    pure (field + 1)

/-- The runs of an ordered length list from entry `e` (31_header_layouts.md R126). Lengths rise by 1 each round and
33 is refused, so 33 rounds are enough. -/
def readRuns (entries : Nat) : Nat → Nat → Nat → Op (List Nat)
  | 0, _, _ => pure []
  | fuel + 1, len, e =>
    if e < entries then do
      let num ← headerRead (ilog (entries - e))
      headerCheck (e + num ≤ entries && len ≤ 32) .bookLength
      let rest ← readRuns entries fuel (len + 1) (e + num)
      pure (List.replicate num len ++ rest)
    else pure []

/-- The length list of a codebook record (31_header_layouts.md R125, R126). -/
def readLengths (entries : Nat) : Op (List Nat) := do
  let ordered ← headerRead 1
  if ordered = 0 then do
    let sparse ← headerRead 1
    collect (List.range entries) fun _ => readLength (sparse == 1)
  else do
    let first ← headerRead 5
    readRuns entries 33 (first + 1) 0

/-- The value-mapping part of a codebook record (31_header_layouts.md R127). -/
def readQuant (maptype dim entries : Nat) : Op (Option Quant) := do
  if maptype = 0 then pure none
  else do
    let qMin ← headerRead 32
    let qDelta ← headerRead 32
    let qQuant := (← headerRead 4) + 1
    let sequencep ← headerRead 1
    let quantlist ← collect (List.range (quantvals maptype dim entries)) fun _ => headerRead qQuant
    pure (some { qMin := BitVec.ofNat 32 qMin, qDelta := BitVec.ofNat 32 qDelta, qQuant,
                 qSequencep := sequencep == 1, quantlist })

/-- `HDR.BOOK b` (R345). DEDUCED, unsafe (log 29): `dim` and `entries` are both read before either is checked, as the pseudocode
of R345 and the vector of 95_test_vectors.md part 10 (`dim` 0: `POS` 128) have it, where 31_header_layouts.md R139 reads as a
check of `dim` before `entries` is read. -/
def hdrBook (b : Nat) : Op Unit := do
  let sync ← headerRead 24
  headerCheck (sync == 0x564342) .bookSync
  let dim ← headerRead 16
  let entries ← headerRead 24
  headerCheck (dim != 0 && entries != 0) .bookShape
  let lengthlist ← readLengths entries
  let maptype ← headerRead 4
  headerCheck (maptype ≤ 2) .bookMaptype
  let quant ← readQuant maptype dim entries
  let record : Book := { dim, entries, lengthlist, maptype, quant }
  loadCfg fun c => { c with book := putAt c.book b record }
  cbMakeWords b

/-- `HDR.TIME t` (R346). -/
def hdrTime (t : Nat) : Op Unit := do
  let type ← headerRead 16
  loadCfg fun c => { c with timeType := putAt c.timeType t type }
  headerCheck (type == 0) .timeType

/-- `HDR.MODE k` (R348). -/
def hdrMode (k : Nat) : Op Unit := do
  let blockflag ← headerRead 1
  let windowtype ← headerRead 16
  headerCheck (windowtype == 0) .mode
  let transformtype ← headerRead 16
  headerCheck (transformtype == 0) .mode
  let mapping ← headerRead 8
  let maps ← need (← get).cfg.maps
  headerCheck (mapping < maps) .xref
  let record : Mode := { blockflag := blockflag == 1, windowtype, transformtype, mapping }
  loadCfg fun c => { c with mode := putAt c.mode k record }

/-- One floor record (R344, 31_header_layouts.md R129). -/
def readFloor (f : Nat) : Op Unit := do
  let type ← headerRead 16
  loadCfg fun c => { c with floorType := putAt c.floorType f type }
  if type = 0 then f0Unpack f
  else if type = 1 then f1Unpack f
  else raise (.badHeader .floorType)

/-- One residue record (R344, 31_header_layouts.md R132). -/
def readResidue (r : Nat) : Op Unit := do
  let type ← headerRead 16
  loadCfg fun c => { c with residueType := putAt c.residueType r type }
  headerCheck (type ≤ 2) .residueType
  resUnpack r

/-- One mapping record (R344, 31_header_layouts.md R136). -/
def readMapping (m : Nat) : Op Unit := do
  let type ← headerRead 16
  loadCfg fun c => { c with mapType := putAt c.mapType m type }
  headerCheck (type == 0) .mapType
  map0Unpack m

/-- `HDR.SETUP` (R344). -/
def hdrSetup : Op Unit := do
  let books := (← headerRead 8) + 1
  loadCfg fun c => { c with books := some books }
  forEach (List.range books) hdrBook
  let times := (← headerRead 6) + 1
  loadCfg fun c => { c with times := some times }
  forEach (List.range times) hdrTime
  let floors := (← headerRead 6) + 1
  loadCfg fun c => { c with floors := some floors }
  forEach (List.range floors) readFloor
  let residues := (← headerRead 6) + 1
  loadCfg fun c => { c with residues := some residues }
  forEach (List.range residues) readResidue
  let maps := (← headerRead 6) + 1
  loadCfg fun c => { c with maps := some maps }
  forEach (List.range maps) readMapping
  let modes := (← headerRead 6) + 1
  loadCfg fun c => { c with modes := some modes }
  forEach (List.range modes) hdrMode
  readFraming

/-- The tables of one floor (R349). -/
def lookFloor (P : Params) (f : Nat) : Op Unit := do
  let type ← need (fieldAt (← get).cfg.floorType f)
  if type = 0 then do
    f0Look P f 0
    f0Look P f 1
  else f1Look f

/-- Building the tables after a good setup header (R349). `CB.MAKE_TREE` and `MAP0.LOOK`, which stand in that list, have
no architectural effect (41_codebook.md R189, 45_mapping.md R282). -/
def buildTables (P : Params) : Op Unit := do
  let c := (← get).cfg
  let books ← need c.books
  let floors ← need c.floors
  let residues ← need c.residues
  let modes ← need c.modes
  forEach (List.range books) cbUnquantize
  forEach (List.range floors) (lookFloor P)
  forEach (List.range residues) resLook
  mdctInit P 0
  mdctInit P 1
  winInit P
  modify fun s => s.setTab { s.tab with modebits := some (ilog (modes - 1)) }

/-- The six magic bytes (R340, 31_header_layouts.md R120). -/
def magicBytes : List Nat := [0x76, 0x6F, 0x72, 0x62, 0x69, 0x73]

/-- Read and check the magic bytes listed. -/
def readMagic (expected : List Nat) : Op Unit :=
  forEach expected fun x => do
    let b ← headerRead 8
    headerCheck (b == x) .magic

/-- The body of one header, once its head is read (R340). -/
def headerBody (P : Params) (t : Nat) : Op Unit := do
  let s ← get
  if t = 1 then do
    headerCheck (s.phase == .needId && s.bos) .order
    hdrIdent
    modify (State.setPhase .needComment)
  else if t = 3 then do
    headerCheck (s.phase == .needComment && !s.bos) .order
    hdrComment
    modify (State.setPhase .needSetup)
  else do
    headerCheck (s.phase == .needSetup && !s.bos) .order
    hdrSetup
    buildTables P
    modify (State.setPhase .ready)

/-- One header packet, without the teardown (R340). -/
def headerPacket (P : Params) (eos bos : Bool) : Op (BitVec 32) := do
  let s ← get
  initCursor s.arg0 s.arg1
  latchPacket eos bos
  let t ← headerRead 8
  headerCheck (t == 1 || t == 3 || t == 5) .type
  readMagic magicBytes
  headerBody P t
  result (← get).phase.code.toNat

/-- The clause `on BadHeader(k): teardown(k)` (R340, R341). -/
def tearDownOnBadHeader {α : Type} (op : Op α) : Op α := fun s =>
  match op s with
  | .error (.badHeader k) t => .error (.badHeader k) t.tornDown
  | r => r

/-- `HEADERIN` (R340): any `BadHeader` tears the stream down. -/
def headerin (P : Params) (eos bos : Bool) : Op (BitVec 32) := tearDownOnBadHeader (headerPacket P eos bos)

/-- `HEADERIN` with `ARG0` = base, `ARG1` = len, `ARG3 ++ ARG2` = granule (R340): `RES` is the new `PHASE`. -/
def execHeaderin (eos bos : Bool) (s : State) : Host.Outcome State Fault Refusal :=
  issue judgeNone (headerin defaultParams eos bos) s

/-- `HDR.IDENT` (internal). -/
def execHdrIdent (s : State) : Host.Outcome State Fault Refusal :=
  issue judgeInternal (do
    hdrIdent
    result 0) s

/-- `HDR.COMMENT` (internal). -/
def execHdrComment (s : State) : Host.Outcome State Fault Refusal :=
  issue judgeInternal (do
    hdrComment
    result 0) s

/-- `HDR.SETUP` (internal). -/
def execHdrSetup (s : State) : Host.Outcome State Fault Refusal :=
  issue judgeInternal (do
    hdrSetup
    result 0) s

/-- `HDR.BOOK b` (internal). -/
def execHdrBook (b : BitVec 8) (s : State) : Host.Outcome State Fault Refusal :=
  issue judgeInternal (do
    hdrBook b.toNat
    result 0) s

/-- `HDR.TIME t` (internal). -/
def execHdrTime (t : BitVec 8) (s : State) : Host.Outcome State Fault Refusal :=
  issue judgeInternal (do
    hdrTime t.toNat
    result 0) s

/-- `HDR.MODE k` (internal). -/
def execHdrMode (k : BitVec 8) (s : State) : Host.Outcome State Fault Refusal :=
  issue judgeInternal (do
    hdrMode k.toNat
    result 0) s

end Sys2Proof.Machine
end

