-- ==== Sys2Proof/Machine/Dispatch.lean ====
section
/-! DEFINITION. The dispatch: one arm for each operation of 30_encoding.md R94, one direct call of its meaning each. -/

namespace Sys2Proof.Machine

def exec (i : Instr) (s : State) : Host.Outcome State Fault Refusal :=
  match i with
  | .reset => Sys2Proof.Machine.execReset s
  | .headerin eos bos => Sys2Proof.Machine.execHeaderin eos bos s
  | .synthesis eos bos => Sys2Proof.Machine.execSynthesis eos bos s
  | .bcInit => Sys2Proof.Machine.execBcInit s
  | .bcRead n => Sys2Proof.Machine.execBcRead n s
  | .bcLook n => Sys2Proof.Machine.execBcLook n s
  | .bcAdv n => Sys2Proof.Machine.execBcAdv n s
  | .bcRead1 => Sys2Proof.Machine.execBcRead1 s
  | .cbUnquantize b => Sys2Proof.Machine.execCbUnquantize b s
  | .cbMakeWords b => Sys2Proof.Machine.execCbMakeWords b s
  | .cbMakeTree b => Sys2Proof.Machine.execCbMakeTree b s
  | .cbDecode b => Sys2Proof.Machine.execCbDecode b s
  | .cbDecodeSet b dst => Sys2Proof.Machine.execCbDecodeSet b dst s
  | .cbDecodeAdd b dst => Sys2Proof.Machine.execCbDecodeAdd b dst s
  | .cbDecodeVvAdd b first count => Sys2Proof.Machine.execCbDecodeVvAdd b first count s
  | .cbDecodeVs b dst mode => Sys2Proof.Machine.execCbDecodeVs b dst mode s
  | .f0Unpack f => Sys2Proof.Machine.execF0Unpack f s
  | .f0Look f w => Sys2Proof.Machine.execF0Look f w s
  | .f0Inverse1 f c => Sys2Proof.Machine.execF0Inverse1 f c s
  | .f0Inverse2 f c => Sys2Proof.Machine.execF0Inverse2 f c s
  | .f1Unpack f => Sys2Proof.Machine.execF1Unpack f s
  | .f1Look f => Sys2Proof.Machine.execF1Look f s
  | .f1Inverse1 f c => Sys2Proof.Machine.execF1Inverse1 f c s
  | .f1Inverse2 f c => Sys2Proof.Machine.execF1Inverse2 f c s
  | .resUnpack r => Sys2Proof.Machine.execResUnpack r s
  | .resLook r => Sys2Proof.Machine.execResLook r s
  | .res0Inverse r first count => Sys2Proof.Machine.execRes0Inverse r first count s
  | .res1Inverse r first count => Sys2Proof.Machine.execRes1Inverse r first count s
  | .res2Inverse r first count => Sys2Proof.Machine.execRes2Inverse r first count s
  | .map0Unpack m => Sys2Proof.Machine.execMap0Unpack m s
  | .map0Look m => Sys2Proof.Machine.execMap0Look m s
  | .map0Inverse => Sys2Proof.Machine.execMap0Inverse s
  | .mdctInit w => Sys2Proof.Machine.execMdctInit w s
  | .mdctBackward w c => Sys2Proof.Machine.execMdctBackward w c s
  | .winInit => Sys2Proof.Machine.execWinInit s
  | .winApply c => Sys2Proof.Machine.execWinApply c s
  | .hdrIdent => Sys2Proof.Machine.execHdrIdent s
  | .hdrComment => Sys2Proof.Machine.execHdrComment s
  | .hdrSetup => Sys2Proof.Machine.execHdrSetup s
  | .hdrBook b => Sys2Proof.Machine.execHdrBook b s
  | .hdrTime t => Sys2Proof.Machine.execHdrTime t s
  | .hdrMode k => Sys2Proof.Machine.execHdrMode k s

end Sys2Proof.Machine
end

