-- ==== Sys2Proof/WellFormed.lean ====
section
/-! DEFINITION. Which operations have a legal command word, apart from what depends on the configuration
(30_encoding.md R92, R95, R96): a bit count is at most 32, and a channel destination is not the selector of `LSP`. -/

namespace Sys2Proof

/-- A cursor bit count is 0 to 32 (30_encoding.md R95). -/
def bitCountOk (n : BitVec 6) : Bool := n.toNat ≤ 32

/-- A channel destination selector is 0 to 254 (30_encoding.md R92). -/
def Dst.ok : Dst → Bool
  | .pcm c => c.toNat ≤ 254
  | .lsp => true

/-- The operation has a legal command word (30_encoding.md R95, R96). -/
def Instr.wellFormed : Instr → Bool
  | .reset => true
  | .headerin _ _ => true
  | .synthesis _ _ => true
  | .bcInit => true
  | .bcRead n => bitCountOk n
  | .bcLook n => bitCountOk n
  | .bcAdv n => bitCountOk n
  | .bcRead1 => true
  | .cbUnquantize _ => true
  | .cbMakeWords _ => true
  | .cbMakeTree _ => true
  | .cbDecode _ => true
  | .cbDecodeSet _ dst => dst.ok
  | .cbDecodeAdd _ dst => dst.ok
  | .cbDecodeVvAdd _ _ _ => true
  | .cbDecodeVs _ dst _ => dst.ok
  | .f0Unpack _ => true
  | .f0Look _ _ => true
  | .f0Inverse1 _ _ => true
  | .f0Inverse2 _ _ => true
  | .f1Unpack _ => true
  | .f1Look _ => true
  | .f1Inverse1 _ _ => true
  | .f1Inverse2 _ _ => true
  | .resUnpack _ => true
  | .resLook _ => true
  | .res0Inverse _ _ _ => true
  | .res1Inverse _ _ _ => true
  | .res2Inverse _ _ _ => true
  | .map0Unpack _ => true
  | .map0Look _ => true
  | .map0Inverse => true
  | .mdctInit _ => true
  | .mdctBackward _ _ => true
  | .winInit => true
  | .winApply _ => true
  | .hdrIdent => true
  | .hdrComment => true
  | .hdrSetup => true
  | .hdrBook _ => true
  | .hdrTime _ => true
  | .hdrMode _ => true

end Sys2Proof
end

