-- ==== Sys2Proof/Decode.lean ====
section
/-! DEFINITION. Command words: the decoder of 30_encoding.md R96 and the encoder from the map of R94 and the fields of
R91 and R92. A rejected word is rejected with the row of 60_exceptions.md R374 that judges it. -/

namespace Sys2Proof

/-- Why a word is no legal command, by the rows of 60_exceptions.md R374. -/
inductive DecodeError where
  /-- Row 1: `OPC` is not in the map of R94. -/
  | reservedOpcode
  /-- Row 2: `OPC` names an internal operation (and an unused field is not 0). -/
  | internalForm
  /-- Row 3: an unused field is not 0, a bit count exceeds 32, a flags field has a bit above bit 1, or a combine mode
  exceeds 2. -/
  | badField
  deriving DecidableEq, Repr

/-- The fields of a command word (30_encoding.md R91): `OPC` in bits 7:0, `A` in 15:8, `B` in 23:16, `C` in 31:24. -/
def fieldOpc (w : Word32) : BitVec 8 := w.extractLsb' 0 8
def fieldA (w : Word32) : BitVec 8 := w.extractLsb' 8 8
def fieldB (w : Word32) : BitVec 8 := w.extractLsb' 16 8
def fieldC (w : Word32) : BitVec 8 := w.extractLsb' 24 8

/-- A command word from its four fields (30_encoding.md R91). -/
def commandWord (opc a b c : BitVec 8) : Word32 := c ++ b ++ a ++ opc

/-- `ok` when the fields an operation does not use are 0, else row 3 of R374. -/
def whenZero (unused : Bool) (i : Instr) : Except DecodeError Instr :=
  if unused then .ok i else .error .badField

/-- The same for an internal operation: row 2 of R374 is judged before row 3, so its malformed words are internal forms. -/
def whenZeroInt (unused : Bool) (i : Instr) : Except DecodeError Instr :=
  if unused then .ok i else .error .internalForm

/-- A bit count `n` is `A[5:0]` with `A[7:6] = 0` (R92) and at most 32 (R95). -/
def decodeCount (a : BitVec 8) : Except DecodeError (BitVec 6) :=
  if a.toNat ≤ 32 then .ok (a.extractLsb' 0 6) else .error .badField

/-- The destination selector (R92). -/
def decodeDst (b : BitVec 8) : Dst := if b = 255 then .lsp else .pcm b

/-- The combine mode (R92); values above 2 are row 3 of R374. -/
def decodeMode (c : BitVec 8) : Except DecodeError CombineMode :=
  if c = 0 then .ok .declare else if c = 1 then .ok .add else if c = 2 then .ok .multiply else .error .badField

/-- A cursor operation with a bit count. -/
def decodeCursor (mk : BitVec 6 → Instr) (a b c : BitVec 8) : Except DecodeError Instr :=
  match decodeCount a with
  | .ok n => whenZero (b == 0 && c == 0) (mk n)
  | .error e => .error e

/-- A command with packet flags in `B`: bit 0 beginning of stream, bit 1 end of stream, bits 7:2 zero (R92). -/
def decodeFlags (mk : Bool → Bool → Instr) (a b c : BitVec 8) : Except DecodeError Instr :=
  whenZero (a == 0 && c == 0 && b.extractLsb' 2 6 == 0) (mk (b.getLsbD 1) (b.getLsbD 0))

/-- The operation a command word names, or the row of R374 that rejects it (30_encoding.md R94 to R96). -/
def decode (w : Word32) : Except DecodeError Instr :=
  let a := fieldA w
  let b := fieldB w
  let c := fieldC w
  match (fieldOpc w).toNat with
  | 0x00 => whenZero (a == 0 && b == 0 && c == 0) .reset
  | 0x01 => decodeFlags .headerin a b c
  | 0x02 => decodeFlags .synthesis a b c
  | 0x10 => whenZero (a == 0 && b == 0 && c == 0) .bcInit
  | 0x11 => decodeCursor .bcRead a b c
  | 0x12 => decodeCursor .bcLook a b c
  | 0x13 => decodeCursor .bcAdv a b c
  | 0x14 => whenZero (a == 0 && b == 0 && c == 0) .bcRead1
  | 0x20 => whenZeroInt (b == 0 && c == 0) (.cbUnquantize a)
  | 0x21 => whenZeroInt (b == 0 && c == 0) (.cbMakeWords a)
  | 0x22 => whenZeroInt (b == 0 && c == 0) (.cbMakeTree a)
  | 0x23 => whenZero (b == 0 && c == 0) (.cbDecode a)
  | 0x24 => whenZero (c == 0) (.cbDecodeSet a (decodeDst b))
  | 0x25 => whenZero (c == 0) (.cbDecodeAdd a (decodeDst b))
  | 0x26 => .ok (.cbDecodeVvAdd a b c)
  | 0x27 =>
    match decodeMode c with
    | .ok m => .ok (.cbDecodeVs a (decodeDst b) m)
    | .error e => .error e
  | 0x30 => whenZeroInt (b == 0 && c == 0) (.f0Unpack a)
  | 0x31 => whenZeroInt (c == 0) (.f0Look a b)
  | 0x32 => whenZero (c == 0) (.f0Inverse1 a b)
  | 0x33 => whenZero (c == 0) (.f0Inverse2 a b)
  | 0x34 => whenZeroInt (b == 0 && c == 0) (.f1Unpack a)
  | 0x35 => whenZeroInt (b == 0 && c == 0) (.f1Look a)
  | 0x36 => whenZero (c == 0) (.f1Inverse1 a b)
  | 0x37 => whenZero (c == 0) (.f1Inverse2 a b)
  | 0x40 => whenZeroInt (b == 0 && c == 0) (.resUnpack a)
  | 0x41 => whenZeroInt (b == 0 && c == 0) (.resLook a)
  | 0x42 => .ok (.res0Inverse a b c)
  | 0x43 => .ok (.res1Inverse a b c)
  | 0x44 => .ok (.res2Inverse a b c)
  | 0x50 => whenZeroInt (b == 0 && c == 0) (.map0Unpack a)
  | 0x51 => whenZeroInt (b == 0 && c == 0) (.map0Look a)
  | 0x52 => whenZero (a == 0 && b == 0 && c == 0) .map0Inverse
  | 0x60 => whenZeroInt (b == 0 && c == 0) (.mdctInit a)
  | 0x61 => whenZero (c == 0) (.mdctBackward a b)
  | 0x70 => whenZeroInt (a == 0 && b == 0 && c == 0) .winInit
  | 0x71 => whenZero (a == 0 && c == 0) (.winApply b)
  | 0x80 => whenZeroInt (a == 0 && b == 0 && c == 0) .hdrIdent
  | 0x81 => whenZeroInt (a == 0 && b == 0 && c == 0) .hdrComment
  | 0x82 => whenZeroInt (a == 0 && b == 0 && c == 0) .hdrSetup
  | 0x83 => whenZeroInt (b == 0 && c == 0) (.hdrBook a)
  | 0x84 => whenZeroInt (b == 0 && c == 0) (.hdrTime a)
  | 0x85 => whenZeroInt (b == 0 && c == 0) (.hdrMode a)
  | _ => .error .reservedOpcode

/-- The field `B` of a destination selector (R92). -/
def encodeDst : Dst → BitVec 8
  | .pcm c => c
  | .lsp => 255

/-- The field `C` of a combine mode (R92). -/
def encodeMode : CombineMode → BitVec 8
  | .declare => 0
  | .add => 1
  | .multiply => 2

/-- The field `B` of packet flags (R92): bit 1 end of stream, bit 0 beginning of stream. -/
def encodeFlags (eos bos : Bool) : BitVec 8 :=
  (if eos then 2 else 0) + (if bos then 1 else 0)

/-- The command word of an operation (30_encoding.md R91, R92, R94). -/
def encode : Instr → Word32
  | .reset => commandWord 0x00 0 0 0
  | .headerin eos bos => commandWord 0x01 0 (encodeFlags eos bos) 0
  | .synthesis eos bos => commandWord 0x02 0 (encodeFlags eos bos) 0
  | .bcInit => commandWord 0x10 0 0 0
  | .bcRead n => commandWord 0x11 (n.setWidth 8) 0 0
  | .bcLook n => commandWord 0x12 (n.setWidth 8) 0 0
  | .bcAdv n => commandWord 0x13 (n.setWidth 8) 0 0
  | .bcRead1 => commandWord 0x14 0 0 0
  | .cbUnquantize b => commandWord 0x20 b 0 0
  | .cbMakeWords b => commandWord 0x21 b 0 0
  | .cbMakeTree b => commandWord 0x22 b 0 0
  | .cbDecode b => commandWord 0x23 b 0 0
  | .cbDecodeSet b dst => commandWord 0x24 b (encodeDst dst) 0
  | .cbDecodeAdd b dst => commandWord 0x25 b (encodeDst dst) 0
  | .cbDecodeVvAdd b first count => commandWord 0x26 b first count
  | .cbDecodeVs b dst mode => commandWord 0x27 b (encodeDst dst) (encodeMode mode)
  | .f0Unpack f => commandWord 0x30 f 0 0
  | .f0Look f w => commandWord 0x31 f w 0
  | .f0Inverse1 f c => commandWord 0x32 f c 0
  | .f0Inverse2 f c => commandWord 0x33 f c 0
  | .f1Unpack f => commandWord 0x34 f 0 0
  | .f1Look f => commandWord 0x35 f 0 0
  | .f1Inverse1 f c => commandWord 0x36 f c 0
  | .f1Inverse2 f c => commandWord 0x37 f c 0
  | .resUnpack r => commandWord 0x40 r 0 0
  | .resLook r => commandWord 0x41 r 0 0
  | .res0Inverse r first count => commandWord 0x42 r first count
  | .res1Inverse r first count => commandWord 0x43 r first count
  | .res2Inverse r first count => commandWord 0x44 r first count
  | .map0Unpack m => commandWord 0x50 m 0 0
  | .map0Look m => commandWord 0x51 m 0 0
  | .map0Inverse => commandWord 0x52 0 0 0
  | .mdctInit w => commandWord 0x60 w 0 0
  | .mdctBackward w c => commandWord 0x61 w c 0
  | .winInit => commandWord 0x70 0 0 0
  | .winApply c => commandWord 0x71 0 c 0
  | .hdrIdent => commandWord 0x80 0 0 0
  | .hdrComment => commandWord 0x81 0 0 0
  | .hdrSetup => commandWord 0x82 0 0 0
  | .hdrBook b => commandWord 0x83 b 0 0
  | .hdrTime t => commandWord 0x84 t 0 0
  | .hdrMode k => commandWord 0x85 k 0 0

/-- What the decoder reads from an opcode-table word of `nbits` bits: every row is one 32-bit command word (R91). -/
def decodeTableWord (_nbits w : Nat) : Option Instr :=
  match decode (BitVec.ofNat 32 w) with
  | .ok i => some i
  | .error _ => none

end Sys2Proof
end

