-- ==== Sys2Proof/Machine/HostPort.lean ====
section
/-! DEFINITION. What the host can do while the decoder is idle (10_state.md R29, 20_memory.md R60, R75): write `ARG0` to
`ARG3`, `CMD` and `PKT`, read the numbered registers and the valid words of `PCM`. Also what a word in `CMD` that is no
legal command does (60_exceptions.md R374 rows 1 to 3). -/

namespace Sys2Proof.Machine

/-- The host writes a command word to `CMD`: the command starts (30_encoding.md R91, log 10). -/
def State.hostWriteCmd (word : BitVec 32) (s : State) : State := { s with cmd := some word }

/-- The host writes `ARG0` to `ARG3`; a write to any other number but `CMD` is ignored (10_state.md R29, U24). -/
def State.hostWriteRegister (number : Nat) (v : BitVec 32) (s : State) : State :=
  match number with
  | 24 => { s with arg0 := v }
  | 25 => { s with arg1 := v }
  | 26 => { s with arg2 := v }
  | 27 => { s with arg3 := v }
  | 31 => s.hostWriteCmd v
  | _ => s

/-- The host writes a byte of `PKT` (20_memory.md R60); no address at or above `2^32` exists. -/
def State.hostWritePkt (a : BitVec 32) (v : Byte) (s : State) : State :=
  { s with pkt := s.pkt.write a.toNat v }

/-- The host writes bytes at consecutive addresses of `PKT`. -/
def State.hostWritePayload (a : BitVec 32) : List Byte → State → State
  | [], s => s
  | v :: vs, s => State.hostWritePayload (a + 1) vs (s.hostWritePkt a v)

/-- The host reads a numbered register of one value (10_state.md R22, R25, R28, R29); reserved numbers read 0. `none`:
`CMD` is write-only, and registers 12 and 13 hold one value a channel. DESIGN CHOICE, unsafe (log 30): the signed `GRANULE` is
given as its 64-bit pattern, a number of at least 0; R25 does not say in which form a read delivers it. -/
def State.hostReadRegister (number : Nat) (s : State) : Option Nat :=
  match number with
  | 0 => some s.base.toNat
  | 1 => some s.len.toNat
  | 2 => some s.pos
  | 3 => some (bitValue s.eoff)
  | 4 => some s.mode.toNat
  | 5 => some (bitValue s.w)
  | 6 => some (bitValue s.lw)
  | 7 => some (bitValue s.nw)
  | 8 => some s.pcmend.toNat
  | 9 => some s.granule.toNat
  | 10 => some (bitValue s.eos)
  | 11 => some (bitValue s.bos)
  | 14 => some 0
  | 15 => some 0
  | 16 => some s.phase.code.toNat
  | 17 => some s.bstate.code.toNat
  | 18 => some s.status.toNat
  | 19 => some s.cause.toNat
  | 20 => some s.res.toNat
  | 21 => some s.samples.toNat
  | 22 => some (bitValue s.trunc)
  | 23 => some 0
  | 24 => some s.arg0.toNat
  | 25 => some s.arg1.toNat
  | 26 => some s.arg2.toNat
  | 27 => some s.arg3.toNat
  | 28 => some 0
  | 29 => some 0
  | 30 => some 0
  | _ => none

/-- The host reads `NONZERO[c]` (register 12). -/
def State.hostReadNonzero (c : Nat) (s : State) : Bool := s.isNonzero c

/-- The host reads `MEMO[c]` (register 13). -/
def State.hostReadMemo (c : Nat) (s : State) : Option Memo := fieldAt s.memo c

/-- The host reads `pcm[c][i]`: the word when it is valid (20_memory.md R62), `none` where its value is unspecified. -/
def State.hostReadPcm (c i : Nat) (s : State) : Option F32 := do
  let row ← s.pcm[c]?
  row[i]?

/-- The status a word that is no legal command ends with (60_exceptions.md R374 rows 1 to 3). -/
def rejection : DecodeError → Failure
  | .reservedOpcode => .illegal .reservedOpcode
  | .internalForm => .illegal .internalOperation
  | .badField => .illegal .badOperand

/-- A word that is no legal command is turned away: `STATUS`, `CAUSE` and `RES` change, nothing else (R372). -/
def rejectWord (e : DecodeError) (s : State) : Host.Outcome State Fault Refusal :=
  .next (s.completeFail (rejection e))

/-- The command word waiting in `CMD`; none when the decoder is idle (70_reset_and_hazards.md R410). -/
def State.pendingCommand (s : State) : Option (BitVec 32) := s.cmd

/-- An idle decoder waits for the host (70_reset_and_hazards.md R410). -/
def idle (s : State) : Host.Outcome State Fault Refusal := .next s

end Sys2Proof.Machine
end

