-- ==== Sys2Proof/Machine/Step.lean ====
section
/-! DEFINITION. One step: the command word in `CMD`, if any, is decoded and its operation performed (30_encoding.md R91,
R96; 70_reset_and_hazards.md R410). `exec` itself makes the decoder idle again, so a step is `exec` and nothing more. -/

namespace Sys2Proof.Machine

/-- One step of the decoder. An idle decoder stays as it is (log 10). -/
def step (s : State) : Host.Outcome State Fault Refusal :=
  match s.pendingCommand with
  | none => idle s
  | some w =>
    match decode w with
    | .ok i => exec i s
    | .error e => rejectWord e s

/-- The instruction `w` stored where `step` fetches its next instruction: in `CMD` (log 10). Every row is one 32-bit word. -/
def State.withFetchWord (s : State) (_nbits w : Nat) : State := s.hostWriteCmd (BitVec.ofNat 32 w)

end Sys2Proof.Machine
end

