-- ==== Sys2Proof/Classes.lean ====
section
/-! DEFINITION. The class and the operation code of each operation, as the columns of 30_encoding.md R94 give them. The
statements are made of these; the decoder and the meanings do not use them. -/

namespace Sys2Proof

/-- The classes of operations (30_encoding.md R90). -/
inductive OpClass where
  /-- A host command: `RESET`, `HEADERIN`, `SYNTHESIS`. -/
  | command
  /-- A unit operation the host may issue. -/
  | unit
  /-- An internal operation: only the sequencer issues it. -/
  | internal
  deriving DecidableEq, Repr

/-- The class column of R94. -/
def Instr.opClass : Instr → OpClass
  | .reset => .command
  | .headerin _ _ => .command
  | .synthesis _ _ => .command
  | .bcInit => .unit
  | .bcRead _ => .unit
  | .bcLook _ => .unit
  | .bcAdv _ => .unit
  | .bcRead1 => .unit
  | .cbUnquantize _ => .internal
  | .cbMakeWords _ => .internal
  | .cbMakeTree _ => .internal
  | .cbDecode _ => .unit
  | .cbDecodeSet _ _ => .unit
  | .cbDecodeAdd _ _ => .unit
  | .cbDecodeVvAdd _ _ _ => .unit
  | .cbDecodeVs _ _ _ => .unit
  | .f0Unpack _ => .internal
  | .f0Look _ _ => .internal
  | .f0Inverse1 _ _ => .unit
  | .f0Inverse2 _ _ => .unit
  | .f1Unpack _ => .internal
  | .f1Look _ => .internal
  | .f1Inverse1 _ _ => .unit
  | .f1Inverse2 _ _ => .unit
  | .resUnpack _ => .internal
  | .resLook _ => .internal
  | .res0Inverse _ _ _ => .unit
  | .res1Inverse _ _ _ => .unit
  | .res2Inverse _ _ _ => .unit
  | .map0Unpack _ => .internal
  | .map0Look _ => .internal
  | .map0Inverse => .unit
  | .mdctInit _ => .internal
  | .mdctBackward _ _ => .unit
  | .winInit => .internal
  | .winApply _ => .unit
  | .hdrIdent => .internal
  | .hdrComment => .internal
  | .hdrSetup => .internal
  | .hdrBook _ => .internal
  | .hdrTime _ => .internal
  | .hdrMode _ => .internal

/-- The `OPC` column of R94. -/
def Instr.opcode : Instr → BitVec 8
  | .reset => 0x00
  | .headerin _ _ => 0x01
  | .synthesis _ _ => 0x02
  | .bcInit => 0x10
  | .bcRead _ => 0x11
  | .bcLook _ => 0x12
  | .bcAdv _ => 0x13
  | .bcRead1 => 0x14
  | .cbUnquantize _ => 0x20
  | .cbMakeWords _ => 0x21
  | .cbMakeTree _ => 0x22
  | .cbDecode _ => 0x23
  | .cbDecodeSet _ _ => 0x24
  | .cbDecodeAdd _ _ => 0x25
  | .cbDecodeVvAdd _ _ _ => 0x26
  | .cbDecodeVs _ _ _ => 0x27
  | .f0Unpack _ => 0x30
  | .f0Look _ _ => 0x31
  | .f0Inverse1 _ _ => 0x32
  | .f0Inverse2 _ _ => 0x33
  | .f1Unpack _ => 0x34
  | .f1Look _ => 0x35
  | .f1Inverse1 _ _ => 0x36
  | .f1Inverse2 _ _ => 0x37
  | .resUnpack _ => 0x40
  | .resLook _ => 0x41
  | .res0Inverse _ _ _ => 0x42
  | .res1Inverse _ _ _ => 0x43
  | .res2Inverse _ _ _ => 0x44
  | .map0Unpack _ => 0x50
  | .map0Look _ => 0x51
  | .map0Inverse => 0x52
  | .mdctInit _ => 0x60
  | .mdctBackward _ _ => 0x61
  | .winInit => 0x70
  | .winApply _ => 0x71
  | .hdrIdent => 0x80
  | .hdrComment => 0x81
  | .hdrSetup => 0x82
  | .hdrBook _ => 0x83
  | .hdrTime _ => 0x84
  | .hdrMode _ => 0x85

/-- The codes of class `cmd` (R94). -/
def commandCodes : List Nat := [0x00, 0x01, 0x02]

/-- The codes of class `host` (R94). -/
def unitCodes : List Nat := [0x10, 0x11, 0x12, 0x13, 0x14, 0x23, 0x24, 0x25, 0x26, 0x27, 0x32, 0x33, 0x36, 0x37, 0x42, 0x43, 0x44, 0x52, 0x61, 0x71]

/-- The codes of class `int` (R94). -/
def internalCodes : List Nat := [0x20, 0x21, 0x22, 0x30, 0x31, 0x34, 0x35, 0x40, 0x41, 0x50, 0x51, 0x60, 0x70, 0x80, 0x81, 0x82, 0x83, 0x84, 0x85]

/-- A cursor operation, which needs nothing of the configuration (40_bit_cursor.md R173). -/
def Instr.isCursor : Instr → Bool
  | .reset => false
  | .headerin _ _ => false
  | .synthesis _ _ => false
  | .bcInit => true
  | .bcRead _ => true
  | .bcLook _ => true
  | .bcAdv _ => true
  | .bcRead1 => true
  | .cbUnquantize _ => false
  | .cbMakeWords _ => false
  | .cbMakeTree _ => false
  | .cbDecode _ => false
  | .cbDecodeSet _ _ => false
  | .cbDecodeAdd _ _ => false
  | .cbDecodeVvAdd _ _ _ => false
  | .cbDecodeVs _ _ _ => false
  | .f0Unpack _ => false
  | .f0Look _ _ => false
  | .f0Inverse1 _ _ => false
  | .f0Inverse2 _ _ => false
  | .f1Unpack _ => false
  | .f1Look _ => false
  | .f1Inverse1 _ _ => false
  | .f1Inverse2 _ _ => false
  | .resUnpack _ => false
  | .resLook _ => false
  | .res0Inverse _ _ _ => false
  | .res1Inverse _ _ _ => false
  | .res2Inverse _ _ _ => false
  | .map0Unpack _ => false
  | .map0Look _ => false
  | .map0Inverse => false
  | .mdctInit _ => false
  | .mdctBackward _ _ => false
  | .winInit => false
  | .winApply _ => false
  | .hdrIdent => false
  | .hdrComment => false
  | .hdrSetup => false
  | .hdrBook _ => false
  | .hdrTime _ => false
  | .hdrMode _ => false

/-- The operation needs a complete configuration: `SYNTHESIS` and every unit operation but the cursor's (60_exceptions.md
R374 row 4). -/
def Instr.needsConfiguration (i : Instr) : Bool :=
  match i.opClass with
  | .command => match i with
    | .synthesis _ _ => true
    | _ => false
  | .unit => !i.isCursor
  | .internal => false

end Sys2Proof
end

