-- ==== Sys2Proof/Safety.lean ====
section
/-! DEFINITION. The invariant of the decoder between commands, and what it is made of. -/

namespace Sys2Proof.Machine

/-- The valid words of `PCM` have the shape of 20_memory.md R62: none when `PCMEND = 0`, else one row of `PCMEND` words for
each channel. -/
def State.pcmShape (s : State) : Prop :=
  (s.pcm = [] ∧ s.pcmend = 0) ∨
  (s.cfg.channels = some s.pcm.length ∧ ∀ row ∈ s.pcm, row.length = s.pcmend.toNat)

/-- The arrays that are not `cfg`, `tab`, `PKT` or `PCM` have their lengths (10_state.md R26, R27). -/
def State.arraysShape (s : State) : Prop :=
  s.nonzero.length = 255 ∧ s.memo.length = 255 ∧ s.lsp.length = 256

/-- The status registers agree (60_exceptions.md R371, R372): codes 8 to 255 are never produced, `CAUSE` is 0 after `OK`,
and `RES` is all ones when `STATUS` is not `OK`. -/
def State.statusConsistent (s : State) : Prop :=
  s.status.toNat ≤ 7 ∧ (s.status = 0 → s.cause = 0) ∧ (s.status ≠ 0 → s.res = 0xFFFFFFFF)

/-- `PARSED` and `DISPATCHED` are passed through inside one command (10_state.md R30). -/
def State.bstateObservable (s : State) : Prop :=
  s.bstate = .await ∨ s.bstate = .emitted ∨ s.bstate = .failed

/-- What holds between commands, whatever the host has written to `PKT`, `ARG0` to `ARG3` and `CMD`. -/
structure State.Inv (s : State) : Prop where
  /-- The host issues the next command. -/
  issuer : s.issuer = .host
  /-- Space `PKT` has its canonical form. -/
  pkt : s.pkt.wf = true
  pcm : s.pcmShape
  /-- A block exists only while a configuration does (10_state.md R25, 48_header.md R341). -/
  noBlock : s.phase ≠ .ready → s.pcm = [] ∧ s.pcmend = 0
  arrays : s.arraysShape
  status : s.statusConsistent
  bstate : s.bstateObservable
  /-- The window flags of a short block are 0 (47_block.md R324). -/
  short : s.w = false → s.lw = false ∧ s.nw = false

/-! ## What decode may trust (48_header.md R361) -/

/-- The book is below `cfg.books` (48_header.md R360, `H_XREF`). -/
def Cfg.hasBook (c : Cfg) (b : Nat) : Prop := ∃ n, c.books = some n ∧ b < n

/-- The tables hold codewords for book `b`: scalar decode may use it. -/
def HasWords (T : Tab) (b : Nat) : Prop := ∃ ws, fieldAt T.bookWords b = some ws

/-- A book with codewords and a value table: one that vector decode may use. -/
def HasValues (c : Cfg) (T : Tab) (b : Nat) : Prop :=
  HasWords T b ∧ (∃ r, fieldAt c.book b = some r) ∧ ∃ vs, fieldAt T.bookValues b = some vs

/-- A floor-1 class whose books all have codewords. -/
def ClassUsable (T : Tab) (k : FloorClass) : Prop :=
  (k.subs ≠ 0 → ∃ b, k.book = some b ∧ HasWords T b) ∧ ∀ b, some b ∈ k.subbook → HasWords T b

/-- The record and the tables of floor `f` are all there. -/
def FloorUsable (c : Cfg) (T : Tab) (f : Nat) : Prop :=
  (fieldAt c.floorType f = some 0 ∧
    ∃ F, fieldAt c.floor f = some (.type0 F) ∧ F.books.length = F.numbooks ∧ (∀ b ∈ F.books, HasValues c T b) ∧
      (∃ t, fieldAt T.floor0Short f = some t) ∧ ∃ t, fieldAt T.floor0Long f = some t) ∨
  (fieldAt c.floorType f = some 1 ∧
    ∃ F, fieldAt c.floor f = some (.type1 F) ∧ (∃ t, fieldAt T.floor1 f = some t) ∧
      ∀ n ∈ F.partitionclass, ∃ k, F.classes[n]? = some k ∧ ClassUsable T k)

/-- The record and the tables of residue `r` are all there, with a usable book for every stage of every class. -/
def ResidueUsable (c : Cfg) (T : Tab) (r : Nat) : Prop :=
  ∃ R Q, (∃ t, fieldAt c.residueType r = some t ∧ t ≤ 2) ∧ fieldAt c.residue r = some R ∧
    fieldAt T.res r = some Q ∧ HasWords T R.groupbook ∧ (∃ phrase, fieldAt c.book R.groupbook = some phrase) ∧
    ∀ cls stage, (R.secondstages.getD cls 0).testBit stage = true →
      ∃ b, (Q.partbooks.getD cls []).getD stage none = some b ∧ HasValues c T b

/-- The mapping's floors and residues are below their table sizes, and its channels below `channels`. -/
def MappingUsable (channels floors residues : Nat) (M : Mapping) : Prop :=
  (∀ c, floorOf M c < floors) ∧ (∀ i, M.residuesubmap.getD i 0 < residues) ∧
  ∀ x ∈ M.coupling, x.1 < channels ∧ x.2 < channels ∧ x.1 ≠ x.2

/-- A complete, valid configuration with its tables: what `PHASE = READY` means for decode (48_header.md R361). -/
structure State.Configured (s : State) : Prop where
  channels : ∃ n, s.cfg.channels = some n ∧ 1 ≤ n ∧ n ≤ 255
  blocksizes : ∃ e0 e1, s.cfg.blocksize0 = some (2 ^ e0) ∧ s.cfg.blocksize1 = some (2 ^ e1) ∧ 3 ≤ e0 ∧ e0 ≤ e1 ∧ e1 ≤ 15
  floors : ∃ n, s.cfg.floors = some n ∧ 1 ≤ n ∧ ∀ f < n, FloorUsable s.cfg s.tab f
  residues : ∃ n, s.cfg.residues = some n ∧ 1 ≤ n ∧ ∀ r < n, ResidueUsable s.cfg s.tab r
  maps : ∃ n, s.cfg.maps = some n ∧ ∀ m < n, ∃ M, fieldAt s.cfg.map m = some M ∧
    MappingUsable (s.cfg.channels.getD 0) (s.cfg.floors.getD 0) (s.cfg.residues.getD 0) M
  modes : ∃ n, s.cfg.modes = some n ∧ 1 ≤ n ∧ n ≤ 64 ∧ s.tab.modebits = some (ilog (n - 1)) ∧
    ∀ k < n, ∃ r, fieldAt s.cfg.mode k = some r ∧ r.mapping < s.cfg.maps.getD 0
  transforms : (∃ T, s.tab.mdct0 = some T) ∧ ∃ T, s.tab.mdct1 = some T
  windows : ∀ w lw nw, (w = false → lw = false ∧ nw = false) → ∃ win, s.windowAt w lw nw = some win

/-! ### The bounds inside the records (48_header.md R361) -/

/-- The books of a floor-1 class are in range. -/
def ClassInRange (c : Cfg) (K : FloorClass) : Prop :=
  (K.subs ≠ 0 → ∃ b, K.book = some b ∧ c.hasBook b) ∧ ∀ b, some b ∈ K.subbook → c.hasBook b

/-- Floor-1 posts are distinct, `X[0] = 0` the least and `X[1]` the greatest. -/
def PostsInRange (X : List Nat) : Prop := X.Nodup ∧ X[0]? = some 0 ∧ ∃ top, X[1]? = some top ∧ ∀ x ∈ X, x ≤ top

/-- `LSP` indices stay below 256, and the books are in range. -/
def Floor0InRange (c : Cfg) (F : Floor0) : Prop := F.order ≤ 255 ∧ ∀ b ∈ F.books, c.hasBook b

/-- The posts and the books of every class a partition has are in range. -/
def Floor1InRange (c : Cfg) (F : Floor1) : Prop :=
  PostsInRange F.postlist ∧ ∀ n ∈ F.partitionclass, ∃ K, F.classes[n]? = some K ∧ ClassInRange c K

/-- Every channel names a submap; every submap has a time, a floor and a residue, each below its table size. -/
structure MappingInRange (channels times floors residues : Nat) (M : Mapping) : Prop where
  muxCount : M.chmuxlist.length = channels
  mux : ∀ k ∈ M.chmuxlist, k < M.submaps
  timeCount : M.timesubmap.length = M.submaps
  time : ∀ t ∈ M.timesubmap, t < times
  floorCount : M.floorsubmap.length = M.submaps
  floor : ∀ f ∈ M.floorsubmap, f < floors
  residueCount : M.residuesubmap.length = M.submaps
  residue : ∀ r ∈ M.residuesubmap, r < residues

/-- Every index that decode takes from a record or a table is in range. -/
structure State.IndicesInRange (s : State) : Prop where
  floor0 : ∀ f < s.cfg.floors.getD 0, ∀ F, fieldAt s.cfg.floorType f = some 0 →
    fieldAt s.cfg.floor f = some (.type0 F) → Floor0InRange s.cfg F
  floor1 : ∀ f < s.cfg.floors.getD 0, ∀ F, fieldAt s.cfg.floorType f = some 1 →
    fieldAt s.cfg.floor f = some (.type1 F) → Floor1InRange s.cfg F
  residueBooks : ∀ r < s.cfg.residues.getD 0, ∀ R, fieldAt s.cfg.residue r = some R →
    s.cfg.hasBook R.groupbook ∧ ∀ b ∈ R.booklist, s.cfg.hasBook b
  decodeMap : ∀ r < s.cfg.residues.getD 0, ∀ Q, fieldAt s.tab.res r = some Q →
    ∀ t < Q.partvals, ∃ row, Q.decodemap[t]? = some row
  maps : ∀ m < s.cfg.maps.getD 0, ∀ M, fieldAt s.cfg.map m = some M →
    MappingInRange (s.cfg.channels.getD 0) (s.cfg.times.getD 0) (s.cfg.floors.getD 0) (s.cfg.residues.getD 0) M

/-! ### The phases -/

/-- The identification header's fields are in range (48_header.md R342). -/
def State.identified (s : State) : Prop :=
  (∃ n, s.cfg.channels = some n ∧ 1 ≤ n ∧ n ≤ 255) ∧
  ∃ e0 e1, s.cfg.blocksize0 = some (2 ^ e0) ∧ s.cfg.blocksize1 = some (2 ^ e1) ∧ 3 ≤ e0 ∧ e0 ≤ e1 ∧ e1 ≤ 15

/-- What each phase says of the configuration (48_header.md R350, R361). -/
structure State.ConfigOk (s : State) : Prop where
  identified : s.phase ≠ .needId → s.identified
  ready : s.phase = .ready → s.Configured
  inRange : s.phase = .ready → s.IndicesInRange

/-! ## What an operation may not touch -/

/-- The operation ends `Illegal` with this cause and changes nothing else (60_exceptions.md R372, R374). -/
def State.TurnsAway (s : State) (k : IllegalCause) (i : Instr) : Prop := exec i s = .next (s.completeFail (.illegal k))

/-- The state after one write of the host: of a register, of a byte of `PKT`, or of a payload (10_state.md R29, 20_memory.md
R75). -/
def State.HostWrites (s t : State) : Prop :=
  (∃ number v, t = s.hostWriteRegister number v) ∨ (∃ a v, t = s.hostWritePkt a v) ∨
  ∃ a bytes, t = s.hostWritePayload a bytes

/-- The same decoder with another value of the parameter `EOF_IN_RESIDUE` (44_residue.md R270). -/
def State.withEofInResidue (x : EofInResidue) (s : State) : State := { s with eofInResidue := x }

/-- A word combined, in order, with every value that `sentTo` says goes to it. -/
def combineAll (mode : CombineMode) (vs : List F32) (sentTo : Nat → Bool) (word : F32) : F32 :=
  ((List.range vs.length).filter sentTo).foldl (fun old j => combine mode (vs.getD j 0) old) word

/-- What no unit operation but `BC.INIT` changes: the payload's place, the packet registers, the phase and block state, the
operands, the configuration and its tables, every byte of `PKT`, and the model's own fields; the decoder is idle after. -/
structure State.SameContext (s t : State) : Prop where
  base : t.base = s.base
  len : t.len = s.len
  mode : t.mode = s.mode
  w : t.w = s.w
  lw : t.lw = s.lw
  nw : t.nw = s.nw
  pcmend : t.pcmend = s.pcmend
  granule : t.granule = s.granule
  eos : t.eos = s.eos
  bos : t.bos = s.bos
  phase : t.phase = s.phase
  bstate : t.bstate = s.bstate
  samples : t.samples = s.samples
  arg0 : t.arg0 = s.arg0
  arg1 : t.arg1 = s.arg1
  arg2 : t.arg2 = s.arg2
  arg3 : t.arg3 = s.arg3
  cmd : t.cmd = none
  cfg : t.cfg = s.cfg
  tab : t.tab = s.tab
  pkt : ∀ a, t.pkt.read a = s.pkt.read a
  issuer : t.issuer = s.issuer
  eofInResidue : t.eofInResidue = s.eofInResidue

/-- The flags and memos of every channel and the truncation flag are as before. -/
def State.SameFlags (s t : State) : Prop := t.nonzero = s.nonzero ∧ t.memo = s.memo ∧ t.trunc = s.trunc

/-- Every valid word of `PCM` is as before, but those of the channels for which `p` holds. -/
def State.SamePcmBut (p : Nat → Prop) (s t : State) : Prop := ∀ c i, ¬ p c → t.hostReadPcm c i = s.hostReadPcm c i

end Sys2Proof.Machine
end

