-- ==== Sys2Proof/Layouts.lean ====
section
/-! DEFINITION. The bit layouts of 31_header_layouts.md, written from the side of what is sent: which fields, of which widths
and values, a payload holds for a given configuration record. The statements about the parser are made of these; the
parser itself (Machine/Header.lean and the `UNPACK` operations) never uses them. -/

namespace Sys2Proof.Machine

/-! ## What a payload holds -/

/-- The payload holds these fields, as (width, value) in read order, from bit `p` on. -/
def fieldsAt (m : Memory) (base : Nat) : Nat → List (Nat × Nat) → Prop
  | _, [] => True
  | p, (n, v) :: fs => payloadField m base p n = v ∧ fieldsAt m base (p + n) fs

/-- The bits the fields take. -/
def fieldBits (fs : List (Nat × Nat)) : Nat := (fs.map Prod.fst).sum

/-- The payload at the cursor holds these fields, all of them inside the payload. -/
structure State.Sends (s : State) (fs : List (Nat × Nat)) : Prop where
  fields : fieldsAt s.pkt s.base.toNat s.pos fs
  within : s.pos + fieldBits fs ≤ 8 * s.len.toNat

/-- A codeword as one-bit fields, in read order (41_codebook.md R185). -/
def codewordFields (w : Codeword) : List (Nat × Nat) := w.map fun bit => (1, bitValue bit)

/-- The codeword of entry `e` of book `b`; empty where there is none. -/
def State.wordOf (s : State) (b e : Nat) : Codeword := ((((fieldAt s.tab.bookWords b).getD [])[e]?).join).getD []

/-- Entry `e` of book `b` has a codeword, and the book's codewords are those of a length list (41_codebook.md R185). -/
def State.codes (s : State) (b e : Nat) : Prop :=
  ∃ lengths ws, fieldAt s.tab.bookWords b = some ws ∧ makeWords lengths = some ws ∧ (∀ len ∈ lengths, len ≤ 32) ∧
    ∃ w, ws[e]? = some (some w)

/-- Entry `e` of book `b` as it is sent. -/
def State.codeFields (s : State) (b e : Nat) : List (Nat × Nat) := codewordFields (s.wordOf b e)

/-- Entries of book `b`, one after the other, as they are sent. -/
def State.codesFields (s : State) (b : Nat) (es : List Nat) : List (Nat × Nat) := es.flatMap (s.codeFields b)

/-- The `dim` values of entry `e` of book `b` (41_codebook.md R193). -/
def State.valuesOf (s : State) (b e : Nat) : List F32 :=
  match fieldAt s.cfg.book b with
  | none => []
  | some r => (List.range r.dim).map fun j => ((fieldAt s.tab.bookValues b).getD []).getD (e * r.dim + j) 0

/-- Book `b` is in range and has a value table and dimension `dim`: vector decode may use it. -/
def State.vectorBook (s : State) (b dim : Nat) : Prop :=
  (∃ n, s.cfg.books = some n ∧ b < n) ∧ (∃ vs, fieldAt s.tab.bookValues b = some vs) ∧
  ∃ r, fieldAt s.cfg.book b = some r ∧ r.maptype ≠ 0 ∧ r.dim = dim ∧ 1 ≤ dim

/-- How many codewords of dimension `dim` it takes to cover `n` values. -/
def codewordsFor (n dim : Nat) : Nat := (n + dim - 1) / dim

/-! ## Floor data of a packet -/

/-- The values of one partition's posts as they are sent: a codeword of the subclass book that `cval` names, or nothing
where there is no book (30_encoding.md R101, 43_floor1.md R234). -/
def State.postFields (s : State) (k : FloorClass) : List Nat → Nat → List (Nat × Nat)
  | [], _ => []
  | v :: vs, cval =>
    (match (k.subbook[cval % 2 ^ k.subs]?).join with
      | some b => s.codeFields b v
      | none => []) ++ s.postFields k vs (cval / 2 ^ k.subs)

/-- The values can be sent: each is an entry with a codeword, or 0 where there is no book. -/
def State.postsSendable (s : State) (k : FloorClass) : List Nat → Nat → Prop
  | [], _ => True
  | v :: vs, cval =>
    (match (k.subbook[cval % 2 ^ k.subs]?).join with
      | some b => s.codes b v
      | none => v = 0) ∧ s.postsSendable k vs (cval / 2 ^ k.subs)

/-- The class value of a partition as it is sent. -/
def State.classFields (s : State) (k : FloorClass) (cval : Nat) : List (Nat × Nat) :=
  if k.subs = 0 then [] else
    match k.book with
    | some b => s.codeFields b cval
    | none => []

/-- The class value can be sent; it is 0 where the class has no subclasses. -/
def State.classSendable (s : State) (k : FloorClass) (cval : Nat) : Prop :=
  if k.subs = 0 then cval = 0 else ∃ b, k.book = some b ∧ s.codes b cval

/-- The partitions' data as they are sent: for each class number, its class value and its posts' values. -/
def State.partitionFields (s : State) (F : Floor1) : List (Nat × Nat × List Nat) → List (Nat × Nat)
  | [] => []
  | (c, cval, vs) :: rest =>
    (match F.classes[c]? with
      | some k => s.classFields k cval ++ s.postFields k vs cval
      | none => []) ++ s.partitionFields F rest

/-- The partitions' data can be sent. -/
def State.partitionsSendable (s : State) (F : Floor1) (data : List (Nat × Nat × List Nat)) : Prop :=
  ∀ x ∈ data, ∃ k, F.classes[x.1]? = some k ∧ s.classSendable k x.2.1 ∧ x.2.2.length = k.dim ∧
    s.postsSendable k x.2.2 x.2.1

/-! ## Residue data of a packet -/

/-- Where the values of one codeword of a residue go (44_residue.md R266 to R269). -/
inductive Placement where
  /-- A phrase symbol: nowhere. -/
  | phrase
  /-- Channel `c`, from index `at'` on in steps of `step`. -/
  | row (c step at' : Nat)
  /-- The channels listed, interleaved, from position `at'` on. -/
  | bundle (chlist : List Nat) (at' : Nat)
  deriving DecidableEq, Repr

/-- One codeword of a residue: its book, its entry, and where its values go. -/
structure ResidueWord where
  book : Nat
  entry : Nat
  place : Placement
  deriving DecidableEq, Repr

/-- One codeword's values added where it says. -/
def State.addWord (s : State) (w : ResidueWord) : State :=
  match w.place with
  | .phrase => s
  | .row c step at' => storeRun (.pcm c) .add step at' (s.valuesOf w.book w.entry) s
  | .bundle chlist at' => addInterleaved chlist at' (s.valuesOf w.book w.entry) s

/-- The codewords as they are sent. -/
def State.wordsFields (s : State) (ws : List ResidueWord) : List (Nat × Nat) := ws.flatMap fun w => s.codeFields w.book w.entry

/-- What one residue decode works with: the residue's type, record and table, the dimension of its phrase book, the bundle, its
channels that are not silent, and the number of partitions (R263, R264). -/
structure ResiduePlan where
  type : Nat
  record : Residue
  table : ResTable
  pdim : Nat
  chlist : List Nat
  used : List Nat
  nparts : Nat
  deriving DecidableEq, Repr

/-- The plan of a residue decode at `s` (R263, R264). -/
def State.residuePlan (s : State) (type : Nat) (R : Residue) (T : ResTable) (pdim : Nat) (chlist : List Nat) : ResiduePlan :=
  { type, record := R, table := T, pdim, chlist, used := s.activeChannels chlist,
    nparts := partitionCount R (if type = 2 then s.pcmend.toNat / 2 * chlist.length else s.pcmend.toNat / 2) }

/-- The number of vectors (R264, R265). -/
def ResiduePlan.vecs (p : ResiduePlan) : Nat := if p.type = 2 then (if p.used = [] then 0 else 1) else p.used.length

/-- The class of partition `i` of vector `v`, from the phrase entries of each group, vector by vector (R262, R265). -/
def ResiduePlan.classAt (p : ResiduePlan) (phrases : List (List Nat)) (i v : Nat) : Nat :=
  (p.table.decodemap.getD ((phrases.getD (i / p.pdim) []).getD v 0) []).getD (i % p.pdim) 0

/-- The book that partition `i` of vector `v` uses at a stage, if its class has one (R265). -/
def ResiduePlan.bookAt (p : ResiduePlan) (phrases : List (List Nat)) (stage i v : Nat) : Option Nat :=
  if (p.record.secondstages.getD (p.classAt phrases i v) 0).testBit stage then
    (p.table.partbooks.getD (p.classAt phrases i v) []).getD stage none
  else none

/-- The first sample of partition `i` (R265). -/
def ResiduePlan.offset (p : ResiduePlan) (i : Nat) : Nat := p.record.rangeBegin + i * p.record.grouping

/-- Where codeword `j` of a partition goes, for a book of dimension `dim`: the three layouts (R266, R267, R269). -/
def ResiduePlan.place (p : ResiduePlan) (dim i v j : Nat) : Placement :=
  if p.type = 0 then .row (p.used.getD v 0) (p.record.grouping / dim) (p.offset i + j)
  else if p.type = 1 then .row (p.used.getD v 0) 1 (p.offset i + j * dim)
  else .bundle p.chlist (p.offset i / p.chlist.length * p.chlist.length + j * dim)

/-- How many codewords a partition takes (R266, R267, R269; 41_codebook.md R193, R195). -/
def ResiduePlan.wordCount (p : ResiduePlan) (dim i : Nat) : Nat :=
  if p.type = 0 then p.record.grouping / dim
  else if p.type = 1 then codewordsFor p.record.grouping dim
  else codewordsFor ((p.offset i + p.record.grouping) / p.chlist.length * p.chlist.length -
    p.offset i / p.chlist.length * p.chlist.length) dim

/-- The dimension of a book. -/
def State.dimOf (s : State) (b : Nat) : Nat :=
  match fieldAt s.cfg.book b with
  | some r => r.dim
  | none => 0

/-- The codewords of one partition of one vector at one stage. -/
def State.partitionWords (s : State) (p : ResiduePlan) (phrases : List (List Nat)) (entries : Nat → Nat → Nat → List Nat)
    (stage i v : Nat) : List ResidueWord :=
  match p.bookAt phrases stage i v with
  | none => []
  | some b => (entries stage i v).zipIdx.map fun x => { book := b, entry := x.1, place := p.place (s.dimOf b) i v x.2 }

/-- The codewords of a residue in packet order (R265, R272): stage by stage, partition by partition, vector by vector, with the
phrase symbols of all vectors before each group of stage 0. -/
def State.residueWords (s : State) (p : ResiduePlan) (phrases : List (List Nat)) (entries : Nat → Nat → Nat → List Nat) :
    List ResidueWord :=
  (List.range p.table.stages).flatMap fun stage => (List.range p.nparts).flatMap fun i =>
    (if stage = 0 ∧ i % p.pdim = 0 then
      (phrases.getD (i / p.pdim) []).map fun t => { book := p.record.groupbook, entry := t, place := .phrase }
    else []) ++
    (List.range p.vecs).flatMap (s.partitionWords p phrases entries stage i)

/-- The phrase symbols and the entries can be sent, and are as many as the decode reads. -/
structure State.ResidueSendable (s : State) (p : ResiduePlan) (phrases : List (List Nat))
    (entries : Nat → Nat → Nat → List Nat) : Prop where
  phrase : ∀ i < p.nparts, (phrases.getD (i / p.pdim) []).length = p.vecs ∧
    ∀ t ∈ phrases.getD (i / p.pdim) [], t < p.table.partvals ∧ s.codes p.record.groupbook t
  book : ∀ stage < p.table.stages, ∀ i < p.nparts, ∀ v < p.vecs,
    (p.record.secondstages.getD (p.classAt phrases i v) 0).testBit stage = true →
    ∃ b dim, p.bookAt phrases stage i v = some b ∧ s.vectorBook b dim ∧
      (entries stage i v).length = p.wordCount dim i ∧ ∀ e ∈ entries stage i v, s.codes b e

/-- The residue operation of a type (30_encoding.md R94). -/
def residueInstr (type : Nat) (r first count : BitVec 8) : Instr :=
  if type = 0 then .res0Inverse r first count
  else if type = 1 then .res1Inverse r first count
  else .res2Inverse r first count

/-! ## Codewords -/

/-- A codeword as a binary number, its first bit the most significant (41_codebook.md R185). -/
def codewordNumber (w : Codeword) : Nat := w.foldl (fun n bit => 2 * n + bitValue bit) 0

/-- The string fits among the codewords: it is no prefix of one and none is a prefix of it (R185). -/
def fitsAmong (assigned : List Codeword) (w : Codeword) : Prop := ∀ v ∈ assigned, ¬ v <+: w ∧ ¬ w <+: v

/-- The codewords of the entries before entry `e`. -/
def codewordsBefore (ws : List (Option Codeword)) (e : Nat) : List Codeword := (ws.take e).filterMap id

/-! ## The head of an audio packet -/

/-- The head of an audio packet (30_encoding.md R99): type bit, mode, and the two flags of a long block. -/
def headFields (modebits type mode : Nat) (long lw nw : Bool) : List (Nat × Nat) :=
  [(1, type), (modebits, mode)] ++ if long then [(1, bitValue lw), (1, bitValue nw)] else []

/-! ## Identification and comment headers -/

/-- The six magic bytes as fields (R120). -/
def magicFields : List (Nat × Nat) := magicBytes.map fun b => (8, b)

/-- R121 after the common head. The bitrates are given as sent, before `sext_32`. -/
def identFields (channels rate upper nominal lower e0 e1 : Nat) : List (Nat × Nat) :=
  [(32, 0), (8, channels), (32, rate), (32, upper), (32, nominal), (32, lower), (4, e0), (4, e1), (1, 1)]

/-- One byte string of R122: its length and its contents. -/
def textFields (text : Nat × Nat) : List (Nat × Nat) := [(32, text.1), (8 * text.1, text.2)]

/-- R122 after the common head: the vendor string and the comments, each as (byte count, contents). -/
def commentFields (vendor : Nat × Nat) (comments : List (Nat × Nat)) : List (Nat × Nat) :=
  textFields vendor ++ [(32, comments.length)] ++ comments.flatMap textFields ++ [(1, 1)]

/-! ## Codebook records -/

/-- How a length list is sent (R125, R126). -/
inductive LengthLayout where
  /-- `ordered = 0`, `sparse = 0`: every length is sent. -/
  | dense (lengths : List Nat)
  /-- `ordered = 0`, `sparse = 1`: a used bit before each length. -/
  | sparse (lengths : List Nat)
  /-- `ordered = 1`: the first length and the runs. -/
  | ordered (first : Nat) (runs : List Nat)
  deriving DecidableEq, Repr

/-- The lengths of ordered runs (R126). -/
def runLengths : Nat → List Nat → List Nat
  | _, [] => []
  | len, num :: rest => List.replicate num len ++ runLengths (len + 1) rest

/-- The `lengthlist` a layout stands for. -/
def LengthLayout.lengths : LengthLayout → List Nat
  | .dense ls => ls
  | .sparse ls => ls
  | .ordered first runs => runLengths first runs

/-- The run fields of R126: each run is sent in as many bits as the entries that remain need. -/
def runFields : Nat → List Nat → List (Nat × Nat)
  | _, [] => []
  | left, num :: rest => (ilog left, num) :: runFields (left - num) rest

/-- One entry of a sparse list (R125). -/
def sparseFields (len : Nat) : List (Nat × Nat) := if len = 0 then [(1, 0)] else [(1, 1), (5, len - 1)]

/-- The fields of a length list (R124 item 4, R125, R126). -/
def LengthLayout.fields : LengthLayout → List (Nat × Nat)
  | .dense ls => [(1, 0), (1, 0)] ++ ls.map fun len => (5, len - 1)
  | .sparse ls => [(1, 0), (1, 1)] ++ ls.flatMap sparseFields
  | .ordered first runs => [(1, 1), (5, first - 1)] ++ runFields (runLengths first runs).length runs

/-- The runs of R126 are sent exactly while entries remain, and no run is reached with a length above 32. -/
def runsLegal : Nat → Nat → List Nat → Prop
  | left, _, [] => left = 0
  | left, len, num :: rest => 0 < left ∧ num ≤ left ∧ len ≤ 32 ∧ runsLegal (left - num) (len + 1) rest

/-- The layout can be sent: dense lengths are 1 to 32, sparse ones 0 to 32, runs as R126 says. -/
def LengthLayout.legal : LengthLayout → Prop
  | .dense ls => ∀ len ∈ ls, 1 ≤ len ∧ len ≤ 32
  | .sparse ls => ∀ len ∈ ls, len ≤ 32
  | .ordered first runs => 1 ≤ first ∧ first ≤ 32 ∧ runsLegal (runLengths first runs).length first runs

/-- The value-mapping fields after `maptype` (R127). -/
def quantFields : Option Quant → List (Nat × Nat)
  | none => []
  | some q =>
    [(32, q.qMin.toNat), (32, q.qDelta.toNat), (4, q.qQuant - 1), (1, bitValue q.qSequencep)] ++
      q.quantlist.map fun v => (q.qQuant, v)

/-- A codebook record (R124 to R127), its length list sent as the layout says. -/
def bookFields (layout : LengthLayout) (r : Book) : List (Nat × Nat) :=
  [(24, 0x564342), (16, r.dim), (24, r.entries)] ++ layout.fields ++ [(4, r.maptype)] ++ quantFields r.quant

/-- The record is one that R124 to R127 accept: nonzero shape, a layout that gives its lengths, and a value mapping exactly
when `maptype` is 1 or 2, of the size R183 gives. -/
structure BookLegal (layout : LengthLayout) (r : Book) : Prop where
  dim : 1 ≤ r.dim
  entries : 1 ≤ r.entries
  count : r.lengthlist.length = r.entries
  layout : layout.legal ∧ layout.lengths = r.lengthlist
  maptype : r.maptype ≤ 2
  absent : r.maptype = 0 → r.quant = none
  present : r.maptype ≠ 0 → ∃ q, r.quant = some q ∧ 1 ≤ q.qQuant ∧ q.qQuant ≤ 16 ∧
    q.quantlist.length = quantvals r.maptype r.dim r.entries

/-! ## Floor records -/

/-- A floor-0 record body (R130). -/
def floor0Fields (F : Floor0) : List (Nat × Nat) :=
  [(8, F.order), (16, F.rate), (16, F.barkmap), (6, F.ampbits), (8, F.ampdB), (4, F.numbooks - 1)] ++
    F.books.map fun b => (8, b)

/-- The book is below `cfg.books` and has a value table (R360, `H_BOOK_NOVALUES`). -/
def Cfg.hasValueBook (c : Cfg) (b : Nat) : Prop := c.hasBook b ∧ ∃ r, fieldAt c.book b = some r ∧ r.maptype ≠ 0

/-- The record is one that R130 accepts under the books of `cfg`. -/
structure Floor0Legal (c : Cfg) (F : Floor0) : Prop where
  order : 1 ≤ F.order
  rate : 1 ≤ F.rate
  barkmap : 1 ≤ F.barkmap
  ampbits : F.ampbits ≤ 32
  numbooks : 1 ≤ F.numbooks
  count : F.books.length = F.numbooks
  books : ∀ b ∈ F.books, c.hasValueBook b

/-- The field of a subclass book (R131 item 6): the book number plus 1, 0 for none. -/
def subbookField : Option Nat → Nat
  | none => 0
  | some b => b + 1

/-- One class of a floor-1 record (R131 items 3 to 6). A subclass book is sent plus 1, 0 standing for none. -/
def floorClassFields (k : FloorClass) : List (Nat × Nat) :=
  [(3, k.dim - 1), (2, k.subs)] ++ (k.book.toList.map fun b => (8, b)) ++
    k.subbook.map fun b => (8, subbookField b)

/-- A floor-1 record body (R131). The first two posts are not sent. -/
def floor1Fields (F : Floor1) : List (Nat × Nat) :=
  [(5, F.partitions)] ++ (F.partitionclass.map fun c => (4, c)) ++ F.classes.flatMap floorClassFields ++
    [(2, F.mult - 1), (4, F.rangebits)] ++ (F.postlist.drop 2).map fun x => (F.rangebits, x)

/-- The class is one that R131 accepts under the books of `cfg`. -/
structure FloorClassLegal (c : Cfg) (k : FloorClass) : Prop where
  dim : 1 ≤ k.dim
  book : k.subs = 0 → k.book = none
  bookSome : k.subs ≠ 0 → ∃ b, k.book = some b ∧ c.hasBook b
  subCount : k.subbook.length = 2 ^ k.subs
  subbook : ∀ b, some b ∈ k.subbook → c.hasBook b

/-- The record is one that R131 accepts under the books of `cfg`. -/
structure Floor1Legal (c : Cfg) (F : Floor1) : Prop where
  partitions : F.partitionclass.length = F.partitions
  classes : F.classes.length = classCount F.partitionclass
  classLegal : ∀ k ∈ F.classes, FloorClassLegal c k
  mult : 1 ≤ F.mult
  posts : F.postlist.length = postCount F.classes F.partitionclass
  few : F.postlist.length ≤ 65
  first : F.postlist.take 2 = [0, 2 ^ F.rangebits]
  distinct : F.postlist.Nodup

/-- A floor record: its type and its body (R129). -/
def floorFields : Floor → List (Nat × Nat)
  | .type0 F => (16, 0) :: floor0Fields F
  | .type1 F => (16, 1) :: floor1Fields F

/-- The number of a floor record's type. -/
def Floor.typeNumber : Floor → Nat
  | .type0 _ => 0
  | .type1 _ => 1

/-- The record is one that R129 to R131 accept. -/
def FloorLegal (c : Cfg) : Floor → Prop
  | .type0 F => Floor0Legal c F
  | .type1 F => Floor1Legal c F

/-! ## Residue records -/

/-- One cascade mask (R134), sent short (3 bits) or long (8 bits). -/
def cascadeFields (cascade : Nat × Bool) : List (Nat × Nat) :=
  [(3, cascade.1 % 8), (1, bitValue cascade.2)] ++ if cascade.2 then [(5, cascade.1 / 8)] else []

/-- A residue record body (R133 to R135); `long` says which cascade masks are sent with their high part. -/
def residueFields (long : List Bool) (R : Residue) : List (Nat × Nat) :=
  [(24, R.rangeBegin), (24, R.rangeEnd), (24, R.grouping - 1), (6, R.partitions - 1), (8, R.groupbook)] ++
    (R.secondstages.zip long).flatMap cascadeFields ++ R.booklist.map fun b => (8, b)

/-- The record is one that R133 to R135 accept under the books of `cfg`. -/
structure ResidueLegal (c : Cfg) (long : List Bool) (R : Residue) : Prop where
  grouping : 1 ≤ R.grouping
  partitions : 1 ≤ R.partitions
  groupbook : c.hasBook R.groupbook
  phrase : ∃ b, fieldAt c.book R.groupbook = some b ∧ R.partitions ^ b.dim ≤ b.entries
  count : R.secondstages.length = R.partitions
  longCount : long.length = R.partitions
  masks : ∀ mask ∈ R.secondstages, mask < 256
  short : ∀ x ∈ R.secondstages.zip long, x.2 = false → x.1 < 8
  booklist : R.booklist.length = (R.secondstages.map icount).sum
  books : ∀ b ∈ R.booklist, c.hasValueBook b

/-! ## Mapping and mode records -/

/-- A count behind a flag (R136 items 2 to 5), sent minus 1. -/
def countFields (flag : Bool) (n count : Nat) : List (Nat × Nat) := if flag then [(1, 1), (n, count - 1)] else [(1, 0)]

/-- The three numbers of each submap (R136 item 9). -/
def Mapping.submapNumbers (M : Mapping) : List (Nat × Nat × Nat) :=
  M.timesubmap.zip (M.floorsubmap.zip M.residuesubmap)

/-- A mapping record from `submaps_flag` on (R136 items 2 to 9). -/
def mappingFields (channels : Nat) (submapsFlag couplingFlag : Bool) (M : Mapping) : List (Nat × Nat) :=
  countFields submapsFlag 4 M.submaps ++ countFields couplingFlag 8 M.coupling.length ++
    (M.coupling.flatMap fun x => [(ilog (channels - 1), x.1), (ilog (channels - 1), x.2)]) ++ [(2, 0)] ++
    (if 1 < M.submaps then M.chmuxlist.map fun s => (4, s) else []) ++
    M.submapNumbers.flatMap fun x => [(8, x.1), (8, x.2.1), (8, x.2.2)]

/-- The record is one that R136 accepts under `cfg`. -/
structure MappingLegal (c : Cfg) (channels : Nat) (submapsFlag couplingFlag : Bool) (M : Mapping) : Prop where
  channelCount : c.channels = some channels
  submaps : 1 ≤ M.submaps
  submapsOne : submapsFlag = false → M.submaps = 1
  couplingNone : couplingFlag = false → M.coupling = []
  couplingSome : couplingFlag = true → M.coupling ≠ []
  coupling : ∀ x ∈ M.coupling, x.1 < channels ∧ x.2 < channels ∧ x.1 ≠ x.2
  muxCount : M.chmuxlist.length = channels
  mux : ∀ s ∈ M.chmuxlist, s < M.submaps
  muxOne : M.submaps = 1 → M.chmuxlist = List.replicate channels 0
  timeCount : M.timesubmap.length = M.submaps
  floorCount : M.floorsubmap.length = M.submaps
  residueCount : M.residuesubmap.length = M.submaps
  times : ∃ n, c.times = some n ∧ ∀ t ∈ M.timesubmap, t < n
  floors : ∃ n, c.floors = some n ∧ ∀ f ∈ M.floorsubmap, f < n
  residues : ∃ n, c.residues = some n ∧ ∀ r ∈ M.residuesubmap, r < n

/-- A mode record (R137) with its two types 0. -/
def modeFields (r : Mode) : List (Nat × Nat) := [(1, bitValue r.blockflag), (16, 0), (16, 0), (8, r.mapping)]

/-- The record is one that R137 accepts under `cfg`. -/
structure ModeLegal (c : Cfg) (r : Mode) : Prop where
  windowtype : r.windowtype = 0
  transformtype : r.transformtype = 0
  mapping : ∃ n, c.maps = some n ∧ r.mapping < n

/-! ## The setup header -/

/-- What a setup header sends (R123), with the layout choices the format leaves to the sender. -/
structure SetupLayout where
  books : List (LengthLayout × Book)
  times : Nat
  floors : List Floor
  residues : List (Nat × List Bool × Residue)
  maps : List (Bool × Bool × Mapping)
  modes : List Mode
  deriving DecidableEq, Repr

/-- The fields of a setup header after the common head (R123). -/
def SetupLayout.fields (S : SetupLayout) (channels : Nat) : List (Nat × Nat) :=
  [(8, S.books.length - 1)] ++ (S.books.flatMap fun x => bookFields x.1 x.2) ++
  [(6, S.times - 1)] ++ List.replicate S.times (16, 0) ++
  [(6, S.floors.length - 1)] ++ S.floors.flatMap floorFields ++
  [(6, S.residues.length - 1)] ++ (S.residues.flatMap fun x => (16, x.1) :: residueFields x.2.1 x.2.2) ++
  [(6, S.maps.length - 1)] ++ (S.maps.flatMap fun x => (16, 0) :: mappingFields channels x.1 x.2.1 x.2.2) ++
  [(6, S.modes.length - 1)] ++ S.modes.flatMap modeFields ++ [(1, 1)]

/-- The configuration the setup header loads on top of the identification header's (R123). -/
def SetupLayout.load (S : SetupLayout) (c : Cfg) : Cfg :=
  { c with
    books := some S.books.length, book := S.books.map fun x => some x.2
    times := some S.times, timeType := List.replicate S.times (some 0)
    floors := some S.floors.length, floorType := S.floors.map fun x => some x.typeNumber, floor := S.floors.map some
    residues := some S.residues.length, residueType := S.residues.map fun x => some x.1
    residue := S.residues.map fun x => some x.2.2
    maps := some S.maps.length, mapType := S.maps.map fun _ => some 0, map := S.maps.map fun x => some x.2.2
    modes := some S.modes.length, mode := S.modes.map some }

/-- The identification header's part of `cfg` only: nothing of a setup header is loaded. -/
def Cfg.identOnly (c : Cfg) : Prop :=
  c.book = [] ∧ c.timeType = [] ∧ c.floorType = [] ∧ c.floor = [] ∧ c.residueType = [] ∧ c.residue = [] ∧
  c.mapType = [] ∧ c.map = [] ∧ c.mode = []

/-- The setup header is one that R360 accepts. -/
structure SetupLegal (S : SetupLayout) (c : Cfg) (channels : Nat) : Prop where
  books : 1 ≤ S.books.length
  book : ∀ x ∈ S.books, BookLegal x.1 x.2 ∧ makeWords x.2.lengthlist ≠ none
  times : 1 ≤ S.times
  floors : 1 ≤ S.floors.length
  floor : ∀ x ∈ S.floors, FloorLegal (S.load c) x
  residues : 1 ≤ S.residues.length
  residue : ∀ x ∈ S.residues, x.1 ≤ 2 ∧ ResidueLegal (S.load c) x.2.1 x.2.2
  maps : 1 ≤ S.maps.length
  map : ∀ x ∈ S.maps, MappingLegal (S.load c) channels x.1 x.2.1 x.2.2
  modes : 1 ≤ S.modes.length
  mode : ∀ x ∈ S.modes, ModeLegal (S.load c) x

/-- The tables are those of this setup header under block sizes `n0` and `n1` (48_header.md R349), under the default
parameters (the model's choice, log 7): for every book its codewords, or none, and its values, or none; for every floor-0
record a table per block size; for every floor-1 record and every residue its table; the width of the mode field; a transform
per block size; the five windows. -/
structure SetupLayout.Builds (S : SetupLayout) (n0 n1 : Nat) (T : Tab) : Prop where
  bookWords : ∀ b x, S.books[b]? = some x → fieldAt T.bookWords b = makeWords x.2.lengthlist
  bookValues : ∀ b x, S.books[b]? = some x → fieldAt T.bookValues b = Machine.bookValues x.2
  floor0Short : ∀ f F, S.floors[f]? = some (.type0 F) → fieldAt T.floor0Short f = some (floor0Table defaultParams F n0)
  floor0Long : ∀ f F, S.floors[f]? = some (.type0 F) → fieldAt T.floor0Long f = some (floor0Table defaultParams F n1)
  floor1 : ∀ f F, S.floors[f]? = some (.type1 F) → fieldAt T.floor1 f = some (floor1Table F)
  res : ∀ r x phrase, S.residues[r]? = some x → S.books[x.2.2.groupbook]? = some phrase →
    fieldAt T.res r = some (resTable x.2.2 phrase.2.dim)
  modebits : T.modebits = some (ilog (S.modes.length - 1))
  mdct0 : T.mdct0 = some (mdctTable defaultParams n0)
  mdct1 : T.mdct1 = some (mdctTable defaultParams n1)
  win000 : T.win000 = some (windowArray defaultParams n0 (n0 / 2) (n0 / 2))
  win100 : T.win100 = some (windowArray defaultParams n1 (n0 / 2) (n0 / 2))
  win101 : T.win101 = some (windowArray defaultParams n1 (n0 / 2) (n1 / 2))
  win110 : T.win110 = some (windowArray defaultParams n1 (n1 / 2) (n0 / 2))
  win111 : T.win111 = some (windowArray defaultParams n1 (n1 / 2) (n1 / 2))

end Sys2Proof.Machine
end

