-- ==== Sys2Proof/Steps.lean ====
section
/-! DEFINITION. `MAP0.INVERSE` and `SYNTHESIS` as the chain of states that the steps of 45_mapping.md R283 and 47_block.md
R322 leave one after the other. The statements about a whole packet are made of these; the machine (Machine/Mapping.lean,
Machine/Block.lean) never uses them. `M` is the mapping of the packet's mode, `channels` is `cfg.channels`. -/

namespace Sys2Proof.Machine

/-- The state an operation leaves, however it ends (60_exceptions.md R372). -/
def State.leftBy {α : Type} (op : Op α) (s : State) : State :=
  match op s with
  | .ok _ t => t
  | .error _ t => t

/-! ## Steps 1 to 2 -/

/-- Step 1 for channel `c` (R283, R284): floor pass 1, the flag, and `TRUNC` when it ended through an `on Eof` clause. -/
def State.floorStep (M : Mapping) (s : State) (c : Nat) : State :=
  match (if fieldAt s.cfg.floorType (floorOf M c) = some 0 then f0Inverse1 (floorOf M c) c
    else f1Inverse1 (floorOf M c) c) s with
  | .ok .memo t => t.setNonzero c true
  | .ok .silent t => t.setNonzero c false
  | .ok .starved t => (t.setNonzero c false).setTrunc true
  | .error _ t => t

/-- R285: one walk over the pairs in declaration order; a pair with a flag raised raises both. -/
def widenFlags : List (Nat × Nat) → (Nat → Bool) → Nat → Bool
  | [], flags => flags
  | (a, b) :: rest, flags =>
    widenFlags rest fun c => if c = a ∨ c = b then flags a || flags b else flags c

/-- Steps 1, 1b and 2: what residue decode starts from. -/
def State.spectrumReady (M : Mapping) (channels : Nat) (s : State) : State :=
  let floors := (List.range channels).foldl (State.floorStep M) s
  let widened := M.coupling.foldl (fun t pair => t.widenPair pair) floors
  (List.range channels).foldl (fun t c => t.storeRow c (List.replicate (s.pcmend.toNat / 2) 0)) widened

/-! ## Step 3 -/

/-- Submap `k` of step 3: whether its residue stopped early, and the state then, `TRUNC` set if it did. -/
def State.submapStep (M : Mapping) (channels : Nat) (s : State) (k : Nat) : Bool × State :=
  let chlist := (List.range channels).filter fun c => M.chmuxlist.getD c 0 = k
  let r := M.residuesubmap.getD k 0
  if chlist = [] then (false, s)
  else
    match (if fieldAt s.cfg.residueType r = some 0 then res0Inverse r chlist
      else if fieldAt s.cfg.residueType r = some 1 then res1Inverse r chlist
      else res2Inverse r chlist) s with
    | .ok true t => (true, t.setTrunc true)
    | .ok false t => (false, t)
    | .error _ t => (false, t)

/-- The submaps in order up to the first whose residue stops early: whether there is one, and the state there. -/
def State.submapsUntilStop (M : Mapping) (channels : Nat) : List Nat → State → Bool × State
  | [], s => (false, s)
  | k :: rest, s =>
    match s.submapStep M channels k with
    | (true, t) => (true, t)
    | (false, t) => t.submapsUntilStop M channels rest

/-- Every submap in order, whether or not one stops early. -/
def State.allSubmaps (M : Mapping) (channels : Nat) (s : State) : State :=
  (List.range M.submaps).foldl (fun t k => (t.submapStep M channels k).2) s

/-- A residue of this packet stops early (44_residue.md R270), whatever `EOF_IN_RESIDUE` is. -/
def State.residueStops (M : Mapping) (channels : Nat) (s : State) : Bool :=
  ((s.spectrumReady M channels).submapsUntilStop M channels (List.range M.submaps)).1

/-! ## Steps 4 to 7 -/

/-- Steps 4 to 7: the pairs undone last declared first, then for every channel floor pass 2, then for every channel the
transform, then for every channel the window. The default parameters are the model's choice (log 7). -/
def State.blockSteps (M : Mapping) (channels : Nat) (s : State) : State :=
  let undone := M.coupling.reverse.foldl (fun t pair => t.decouple (s.pcmend.toNat / 2) pair) s
  let shaped := (List.range channels).foldl (fun t c => t.leftBy
    (if fieldAt t.cfg.floorType (floorOf M c) = some 0 then f0Inverse2 defaultParams (floorOf M c) c
      else f1Inverse2 defaultParams (floorOf M c) c)) undone
  let transformed := (List.range channels).foldl (fun t c => t.leftBy (mdctBackward (bitValue s.w) c)) shaped
  (List.range channels).foldl (fun t c => t.leftBy (winApply c)) transformed

/-! ## The whole -/

/-- What `MAP0.INVERSE` leaves under each value of `EOF_IN_RESIDUE` (R283, 44_residue.md R270), but for the status
registers. -/
def State.mapped (M : Mapping) (channels : Nat) (x : EofInResidue) (s : State) : State :=
  let ready := s.spectrumReady M channels
  let reached := ready.submapsUntilStop M channels (List.range M.submaps)
  if reached.1 then
    match x with
    | .stopAndKeep => (ready.allSubmaps M channels).blockSteps M channels
    | .silenceBlock => (reached.2.silenceAll channels).blockSteps M channels
    | .failPacket => reached.2
  else reached.2.blockSteps M channels

/-- What `SYNTHESIS` passes to `MAP0.INVERSE` after a head of `bits` bits that names mode `m` with record `r`, block size `n`
(47_block.md R322 to R324, R327). -/
def State.openedBlock (eos bos : Bool) (bits m : Nat) (r : Mode) (lw nw : Bool) (n channels : Nat) (s : State) : State :=
  let opened := (((((s.setBState .await).initCursor s.arg0 s.arg1).latch (s.arg3 ++ s.arg2) eos bos).setSamples 0).setTrunc
    false).clearChannels channels
  let head := (opened.advance bits).setHead (BitVec.ofNat 6 m) r.blockflag lw nw (BitVec.ofNat 16 n)
  (head.setPcm (List.replicate channels (List.replicate n 0))).setBState .dispatched

end Sys2Proof.Machine
end

