-- ==== Sys2Proof/Certificates/Slice0/Obligations.lean ====
section
/-! DEFINITION. The statements for the provers. Each docstring names the rules of spec/ it formalises. `next t` is written as
the model's named updates of the state before, so that an equation is also the frame. -/

open Sys2Proof Sys2Proof.Machine

/-! ## Command words -/

/-- R91, R92, R94: no bit of an encoding is dropped. -/
def Obligations.DecodeAfterEncode : Prop :=
  ∀ i : Instr, i.wellFormed = true → decode (encode i) = .ok i

/-- R96: every legal word is the one word of a well-formed operation, and its `OPC` is the table's. -/
def Obligations.LegalWordHasOneMeaning : Prop :=
  ∀ (w : Word32) (i : Instr), decode w = .ok i → i.wellFormed = true ∧ encode i = w ∧ fieldOpc w = i.opcode

/-- R91, R92, R94: words written out from the table and the field layout. -/
def Obligations.TableWordsDecode : Prop :=
  decode 0x00000000 = .ok .reset ∧
  decode 0x00030001 = .ok (.headerin true true) ∧
  decode 0x00020002 = .ok (.synthesis true false) ∧
  decode 0x00002011 = .ok (.bcRead 32) ∧
  decode 0x02FF0327 = .ok (.cbDecodeVs 3 .lsp .multiply) ∧
  decode 0x02010726 = .ok (.cbDecodeVvAdd 7 1 2) ∧
  decode 0x00050136 = .ok (.f1Inverse1 1 5) ∧
  decode 0x00FE0324 = .ok (.cbDecodeSet 3 (.pcm 254)) ∧
  decode 0x00090071 = .ok (.winApply 9) ∧
  decode 0x00002111 = .error .badField ∧
  decode 0x00040001 = .error .badField ∧
  decode 0x03000027 = .error .badField ∧
  decode 0x00000003 = .error .reservedOpcode ∧
  decode 0xFF000080 = .error .internalForm

/-- R374 rows 1 to 3, R95, R372: a word the host writes that is no legal host command changes `STATUS`, `CAUSE`, `RES` (and
`CMD`, now idle) only, with the cause of the first row that applies. -/
def Obligations.IllegalWordsAreTurnedAway : Prop :=
  ∀ (s : State) (w : BitVec 32), s.issuer = .host → s.cmd = some w →
    ((fieldOpc w).toNat ∉ commandCodes ++ unitCodes ++ internalCodes →
      step s = .next (s.completeFail (.illegal .reservedOpcode))) ∧
    ((fieldOpc w).toNat ∈ internalCodes → step s = .next (s.completeFail (.illegal .internalOperation))) ∧
    ((fieldOpc w).toNat ∈ commandCodes ++ unitCodes → (∀ i : Instr, i.wellFormed = true → encode i ≠ w) →
      step s = .next (s.completeFail (.illegal .badOperand)))

/-! ## The machine -/

/-- R91, R96, R410: a step of a decoder with a legal word in `CMD` is its operation and nothing more; after it the decoder is
idle. That an idle decoder's step changes nothing is the model's choice (log 10). -/
def Obligations.StepRunsTheDecodedInstruction : Prop :=
  (∀ (s : State) (w : BitVec 32) (i : Instr), s.cmd = some w → decode w = .ok i → step s = exec i s) ∧
  (∀ (i : Instr) (s t : State), exec i s = .next t → t.cmd = none) ∧
  (∀ s : State, s.cmd = none → step s = .next s)

/-- R401, R402: the reset values the spec gives; `RESET` leaves what power-on leaves, but for `ARG0` to `ARG3`, `PKT` and the
model's own two fields. That registers 12 and 13 give no value (log 25), what the scratch `LSP` and the empty `PCM` hold, and
the model's own fields are the model's choice (logs 3, 4, 9, 10, 11, 23). -/
def Obligations.ResetValues : Prop :=
  (∀ n < 31, State.reset.hostReadRegister n = if n = 12 ∨ n = 13 then none else some 0) ∧
  (∀ c < 255, State.reset.hostReadNonzero c = false ∧ State.reset.hostReadMemo c = none) ∧
  (∀ c i, State.reset.hostReadPcm c i = none) ∧
  State.reset.phase = .needId ∧ State.reset.bstate = .await ∧ State.reset.cmd = none ∧
  State.reset.cfg = Cfg.absent ∧ State.reset.tab = Tab.absent ∧
  ∀ s : State, exec .reset s = .next
    { State.reset with
      arg0 := s.arg0, arg1 := s.arg1, arg2 := s.arg2, arg3 := s.arg3, pkt := s.pkt,
      issuer := s.issuer, eofInResidue := s.eofInResidue }

/-- The invariants of the next two statements hold after reset. -/
def Obligations.ResetMeetsTheInvariants : Prop := State.reset.Inv ∧ State.reset.ConfigOk

/-- R62, R371, R372, R30, R324, R341: between commands the spaces keep their shapes, the status registers agree, the block
state is an observable one, a block exists only under a configuration, and a short block's window flags are 0. Neither a step
nor a write of the host breaks this. -/
def Obligations.StepKeepsTheInvariant : Prop :=
  ∀ s t : State, s.Inv → s.ConfigOk → step s = .next t ∨ s.HostWrites t → t.Inv

/-- R350, R360, R361: whatever the host submits, `PHASE = READY` means a complete, valid configuration with its tables, every
index that decode takes from it in range. -/
def Obligations.StepKeepsAValidConfiguration : Prop :=
  ∀ s t : State, s.Inv → s.ConfigOk → step s = .next t ∨ s.HostWrites t → t.ConfigOk

/-- R29, R60, R75: a write of the host to `ARG0` to `ARG3` changes that register and nothing else, one to a register the host
may not write nothing; a byte written to `PKT` is the byte read back, bytes written in a run lie at rising addresses, and no
other byte moves. That a write to `CMD`, which starts the command (R28), holds the word there, changes nothing else and leaves
the command to the next step is the model's choice (log 10). -/
def Obligations.HostWritesWhatItNames : Prop :=
  ∀ s : State,
    (∀ v : BitVec 32,
      s.hostWriteRegister 24 v = { s with arg0 := v } ∧ s.hostWriteRegister 25 v = { s with arg1 := v } ∧
      s.hostWriteRegister 26 v = { s with arg2 := v } ∧ s.hostWriteRegister 27 v = { s with arg3 := v } ∧
      s.hostWriteRegister 31 v = { s with cmd := some v } ∧
      (∀ n, 24 ≤ n → n ≤ 27 → (s.hostWriteRegister n v).hostReadRegister n = some v.toNat) ∧
      ∀ n, n ∉ [24, 25, 26, 27, 31] → s.hostWriteRegister n v = s) ∧
    (s.pkt.wf = true →
      (∀ (a : BitVec 32) (v : Byte),
        { s.hostWritePkt a v with pkt := s.pkt } = s ∧ (s.hostWritePkt a v).pkt.wf = true ∧
        ∀ b, (s.hostWritePkt a v).pkt.read b = if b = a.toNat then v else s.pkt.read b) ∧
      ∀ (a : BitVec 32) (bytes : List Byte), a.toNat + bytes.length ≤ 2 ^ 32 →
        { s.hostWritePayload a bytes with pkt := s.pkt } = s ∧ (s.hostWritePayload a bytes).pkt.wf = true ∧
        ∀ b, (s.hostWritePayload a bytes).pkt.read b =
          if b < a.toNat then s.pkt.read b else (bytes[b - a.toNat]?).getD (s.pkt.read b))

/-- R370, R371, R372, R379, R415: there are no traps and no stuck state: whatever the state, a command ends with a status of
the table, its cause in the range that status has, and the decoder idle. That an idle decoder's step changes nothing is the
model's choice (log 10). -/
def Obligations.EveryStepCompletes : Prop :=
  ∀ s : State, ∃ t, step s = .next t ∧ (s.cmd = none → t = s) ∧
    (s.cmd ≠ none → t.cmd = none ∧ t.statusConsistent ∧
      (t.status = 1 ∨ t.status = 2 ∨ t.status = 7 → t.cause = 0) ∧
      (t.status = 4 → 1 ≤ t.cause.toNat ∧ t.cause.toNat ≤ 27) ∧
      (t.status = 5 → t.cause.toNat ≤ 3) ∧
      (t.status = 6 → 1 ≤ t.cause.toNat ∧ t.cause.toNat ≤ 4))

/-- R95, R374 rows 2 and 4, R326, R350, R372: the host may not issue an internal operation; before the headers are complete
its other operations answer `NotReady`, but for the cursor's, which are served in every phase. Nothing else changes. -/
def Obligations.InternalAndEarlyOperationsAreTurnedAway : Prop :=
  ∀ (i : Instr) (s : State), s.issuer = .host →
    (i.opClass = .internal → s.TurnsAway .internalOperation i) ∧
    (s.phase ≠ .ready → i.needsConfiguration = true → exec i s = .next (s.completeFail (.notReady s.phase)))

/-- R374 rows 5 and 6, R95, R173, R193, R195, R218, R242, R271, R290, R309, R329: operands out of range, blocks that do not
fit, and missing value tables. That a bit count, a destination channel and an empty bundle of `CB.DECODE_VV_ADD` belong to
row 5 is deduced (log 14). -/
def Obligations.OperandsOutOfRange : Prop :=
  ∀ s : State, s.issuer = .host →
    (∀ n : BitVec 6, 32 < n.toNat →
      s.TurnsAway .badOperand (.bcRead n) ∧ s.TurnsAway .badOperand (.bcLook n) ∧ s.TurnsAway .badOperand (.bcAdv n)) ∧
    (s.phase = .ready → ∀ books floors residues channels : Nat,
      s.cfg.books = some books → s.cfg.floors = some floors → s.cfg.residues = some residues →
      s.cfg.channels = some channels →
      (∀ b : BitVec 8, books ≤ b.toNat →
        s.TurnsAway .badOperand (.cbDecode b) ∧
        (∀ dst, s.TurnsAway .badOperand (.cbDecodeSet b dst) ∧ s.TurnsAway .badOperand (.cbDecodeAdd b dst) ∧
          ∀ mode, s.TurnsAway .badOperand (.cbDecodeVs b dst mode)) ∧
        ∀ first count, s.TurnsAway .badOperand (.cbDecodeVvAdd b first count)) ∧
      (∀ b : BitVec 8, b.toNat < books →
        (∀ c : BitVec 8, channels ≤ c.toNat →
          s.TurnsAway .badOperand (.cbDecodeSet b (.pcm c)) ∧ s.TurnsAway .badOperand (.cbDecodeAdd b (.pcm c)) ∧
          ∀ mode, s.TurnsAway .badOperand (.cbDecodeVs b (.pcm c) mode)) ∧
        (∀ first count : BitVec 8, count.toNat = 0 ∨ channels < first.toNat + count.toNat →
          s.TurnsAway .badOperand (.cbDecodeVvAdd b first count)) ∧
        ∀ r : Book, fieldAt s.cfg.book b.toNat = some r → r.maptype = 0 →
          (∀ dst, dst = Dst.lsp ∨ (∃ c, dst = .pcm c ∧ c.toNat < channels) →
            s.TurnsAway .noValues (.cbDecodeSet b dst) ∧ s.TurnsAway .noValues (.cbDecodeAdd b dst) ∧
            ∀ mode, s.TurnsAway .noValues (.cbDecodeVs b dst mode)) ∧
          ∀ first count : BitVec 8, 1 ≤ count.toNat → first.toNat + count.toNat ≤ channels →
            s.TurnsAway .noValues (.cbDecodeVvAdd b first count)) ∧
      (∀ f c : BitVec 8, floors ≤ f.toNat →
        s.TurnsAway .badOperand (.f0Inverse1 f c) ∧ s.TurnsAway .badOperand (.f0Inverse2 f c) ∧
        s.TurnsAway .badOperand (.f1Inverse1 f c) ∧ s.TurnsAway .badOperand (.f1Inverse2 f c)) ∧
      (∀ (f c : BitVec 8) (ty : Nat), f.toNat < floors → fieldAt s.cfg.floorType f.toNat = some ty →
        (ty ≠ 0 ∨ channels ≤ c.toNat →
          s.TurnsAway .badOperand (.f0Inverse1 f c) ∧ s.TurnsAway .badOperand (.f0Inverse2 f c)) ∧
        (ty ≠ 1 ∨ channels ≤ c.toNat →
          s.TurnsAway .badOperand (.f1Inverse1 f c) ∧ s.TurnsAway .badOperand (.f1Inverse2 f c))) ∧
      (∀ r first count : BitVec 8, residues ≤ r.toNat →
        s.TurnsAway .badOperand (.res0Inverse r first count) ∧ s.TurnsAway .badOperand (.res1Inverse r first count) ∧
        s.TurnsAway .badOperand (.res2Inverse r first count)) ∧
      (∀ (r first count : BitVec 8) (ty : Nat), r.toNat < residues → fieldAt s.cfg.residueType r.toNat = some ty →
        (ty ≠ 0 ∨ count.toNat = 0 ∨ channels < first.toNat + count.toNat →
          s.TurnsAway .badOperand (.res0Inverse r first count)) ∧
        (ty ≠ 1 ∨ count.toNat = 0 ∨ channels < first.toNat + count.toNat →
          s.TurnsAway .badOperand (.res1Inverse r first count)) ∧
        (ty ≠ 2 ∨ count.toNat = 0 ∨ channels < first.toNat + count.toNat →
          s.TurnsAway .badOperand (.res2Inverse r first count))) ∧
      (∀ w c : BitVec 8,
        1 < w.toNat ∨ channels ≤ c.toNat ∨ (∃ n, s.blocksizeAt w.toNat = some n ∧ n ≠ s.pcmend.toNat) →
        s.TurnsAway .badOperand (.mdctBackward w c)) ∧
      (∀ c : BitVec 8,
        (channels ≤ c.toNat ∨ ∃ n, s.blocksize s.w = some n ∧
          (n ≠ s.pcmend.toNat ∨ s.w = false ∧ (s.lw = true ∨ s.nw = true))) →
        s.TurnsAway .badOperand (.winApply c)) ∧
      ∀ modes, s.cfg.modes = some modes →
        (modes ≤ s.mode.toNat ∨ ∃ r n, fieldAt s.cfg.mode s.mode.toNat = some r ∧ s.blocksize r.blockflag = some n ∧
          (n ≠ s.pcmend.toNat ∨ s.w ≠ r.blockflag)) →
        s.TurnsAway .badOperand .map0Inverse)

/-- R372 row 1: whatever the operation, a host command that ends `Illegal` changed nothing else. -/
def Obligations.IllegalChangesNothingElse : Prop :=
  ∀ (i : Instr) (s t : State), exec i s = .next t → t.status = 6 →
    ∃ k : IllegalCause, t = s.completeFail (.illegal k)

/-! ## The bit cursor -/

/-- R162, R165: `BC.INIT` and `BC.ADV`, which never fail and read nothing. -/
def Obligations.CursorIsSetAndMoved : Prop :=
  ∀ s : State,
    exec .bcInit s = .next
      { s with base := s.arg0, len := s.arg1, pos := 0, eoff := false, status := 0, cause := 0, res := 0, cmd := none } ∧
    ∀ n : BitVec 6, n.toNat ≤ 32 →
      exec (.bcAdv n) s = .next { s with pos := s.pos + n.toNat, status := 0, cause := 0, res := 0, cmd := none }

/-- R161, R163, R164, R166: an available read delivers the `n` bits at the cursor, the first one least significant; only
`BC.READ` and `BC.READ1` move the cursor. A payload that passes the end of space `PKT` is read all the same (log 2). -/
def Obligations.ReadAndLookDeliverBits : Prop :=
  ∀ (s : State) (n : BitVec 6), n.toNat ≤ 32 → s.pos + n.toNat ≤ 8 * s.len.toNat →
    ∃ v : BitVec 32,
      (∀ i < 32, v.getLsbD i = (decide (i < n.toNat) && payloadBit s.pkt s.base.toNat (s.pos + i))) ∧
      exec (.bcRead n) s = .next ((s.advance n.toNat).completeOk v) ∧
      exec (.bcLook n) s = .next (s.completeOk v) ∧
      (n = 1 → exec .bcRead1 s = .next ((s.advance 1).completeOk v))

/-- R163, R164, R166, R70: a read past the end moves the cursor, sets `EOFF` and ends `Eof`; a look changes no state; and from
then on every read and look fails. -/
def Obligations.ReadPastTheEndIsSticky : Prop :=
  ∀ (s : State) (n : BitVec 6), n.toNat ≤ 32 → 8 * s.len.toNat < s.pos + n.toNat →
    exec (.bcLook n) s = .next (s.completeFail .eof) ∧
    (n = 1 → exec .bcRead1 s = .next ((s.advance 1).setEoff.completeFail .eof)) ∧
    ∃ t, exec (.bcRead n) s = .next t ∧ t = (s.advance n.toNat).setEoff.completeFail .eof ∧
      ∀ m : BitVec 6, m.toNat ≤ 32 →
        exec (.bcRead m) t = .next ((t.advance m.toNat).setEoff.completeFail .eof) ∧
        exec (.bcLook m) t = .next (t.completeFail .eof)

/-- R167: the peek and consume split. -/
def Obligations.PeekThenAdvance : Prop :=
  ∀ (s t : State) (n k : BitVec 6), n.toNat ≤ 32 → k.toNat ≤ n.toNat →
    exec (.bcLook n) s = .next t → t.status = 0 →
    ∃ u v, exec (.bcAdv k) s = .next u ∧ exec (.bcRead k) s = .next v ∧ v.status = 0 ∧
      u.base = v.base ∧ u.len = v.len ∧ u.pos = v.pos ∧ u.eoff = v.eoff ∧ v.res.toNat = t.res.toNat % 2 ^ k.toNat

/-- R168: two reads one after the other are one read. -/
def Obligations.ReadsConcatenate : Prop :=
  ∀ (s : State) (a b : BitVec 6), a.toNat + b.toNat ≤ 32 → s.pos + (a.toNat + b.toNat) ≤ 8 * s.len.toNat →
    ∃ t u v, exec (.bcRead a) s = .next t ∧ exec (.bcRead b) t = .next u ∧ exec (.bcRead (a + b)) s = .next v ∧
      v.status = 0 ∧ u.status = 0 ∧ v.pos = u.pos ∧ v.eoff = u.eoff ∧ v.res = t.res ||| (u.res <<< a.toNat)

/-- R169: no operation but those that start a packet lowers `POS`; `BC.LOOK` keeps it; `BC.READ`, `BC.ADV` and `BC.READ1` add
exactly their bit count, whether or not they fail. -/
def Obligations.PositionNeverDecreases : Prop :=
  (∀ (i : Instr) (s t : State), i.opClass ≠ .command → i ≠ .bcInit → exec i s = .next t → s.pos ≤ t.pos) ∧
  (∀ (n : BitVec 6) (s t : State), n.toNat ≤ 32 →
    (exec (.bcLook n) s = .next t → t.pos = s.pos) ∧
    (exec (.bcRead n) s = .next t → t.pos = s.pos + n.toNat) ∧
    (exec (.bcAdv n) s = .next t → t.pos = s.pos + n.toNat)) ∧
  (∀ s t : State, exec .bcRead1 s = .next t → t.pos = s.pos + 1)

/-- R170: a read depends on `POS`, `n`, the place and length of the payload, and the payload bytes it spans, nothing else. -/
def Obligations.ReadsAreLocal : Prop :=
  ∀ (s t : State) (m : Memory) (n : BitVec 6), n.toNat ≤ 32 →
    (∀ a, s.base.toNat + s.pos / 8 ≤ a → a ≤ s.base.toNat + (s.pos + n.toNat - 1) / 8 → m.byteAt a = s.pkt.byteAt a) →
    exec (.bcRead n) s = .next t → exec (.bcRead n) { s with pkt := m } = .next { t with pkt := m }

/-! ## Codebooks -/

/-- R185, R188: the codewords have the lengths asked for, none is a prefix of another, and each used entry, in index order,
gets the numerically smallest string of its length that fits among the codewords of the entries before it; the list is
overpopulated exactly when some used entry finds no such string. -/
def Obligations.CodewordsArePrefixFreeAndSmallest : Prop :=
  ∀ lengths : List Nat,
    (∀ ws, makeWords lengths = some ws →
      ws.length = lengths.length ∧
      (∀ e < lengths.length,
        (lengths[e]? = some 0 → ws[e]? = some none) ∧
        ∀ len, len ≠ 0 → lengths[e]? = some len → ∃ w, ws[e]? = some (some w) ∧ w.length = len ∧
          fitsAmong (codewordsBefore ws e) w ∧
          ∀ u : Codeword, u.length = len → fitsAmong (codewordsBefore ws e) u → codewordNumber w ≤ codewordNumber u) ∧
      ∀ (d e : Nat) (v w : Codeword), d ≠ e → ws[d]? = some (some v) → ws[e]? = some (some w) → ¬ v <+: w) ∧
    (makeWords lengths = none ↔
      ∃ e len ws, lengths[e]? = some len ∧ len ≠ 0 ∧ makeWords (lengths.take e) = some ws ∧
        ∀ u : Codeword, u.length = len → ¬ fitsAmong (codewordsBefore ws e) u)

/-- R183: the number of quantised values, for each map type. -/
def Obligations.LatticeSideIsLargest : Prop :=
  ∀ dim entries : Nat, 1 ≤ dim → 1 ≤ entries →
    (1 ≤ quantvals 1 dim entries ∧ quantvals 1 dim entries ^ dim ≤ entries ∧
      ∀ q, q ^ dim ≤ entries → q ≤ quantvals 1 dim entries) ∧
    quantvals 2 dim entries = entries * dim ∧ quantvals 0 dim entries = 0

/-- R184: the value table, entry by entry and dimension by dimension. -/
def Obligations.ValueTableFollowsTheFormula : Prop :=
  ∀ (r : Book) (q : Quant) (vs : List F32), r.quant = some q → bookValues r = some vs →
    vs.length = r.entries * r.dim ∧
    ∀ e < r.entries, ∀ k < r.dim,
      vs.getD (e * r.dim + k) 0 =
        f32Add
          (f32Add
            (f32Mul
              (f32OfNat (q.quantlist.getD
                (if r.maptype = 1 then e / quantvals 1 r.dim r.entries ^ k % quantvals 1 r.dim r.entries
                 else e * r.dim + k) 0))
              (unpackFloat q.qDelta))
            (unpackFloat q.qMin))
          (if q.qSequencep = true ∧ 0 < k then vs.getD (e * r.dim + (k - 1)) 0 else 0)

/-- R184, R185, R189, R282, R212, R232, R262, R301, R328: the table-building operations, as the sequencer issues them. The
default parameters and the report in the status registers are the model's choice (logs 7, 11). -/
def Obligations.TableOperations : Prop :=
  ∀ s : State, s.issuer = .sequencer →
    (∀ (b : BitVec 8) (r : Book), fieldAt s.cfg.book b.toNat = some r →
      (∀ vs, bookValues r = some vs → exec (.cbUnquantize b) s =
        .next ((s.setTab { s.tab with bookValues := putAt s.tab.bookValues b.toNat vs }).completeOk 0)) ∧
      (bookValues r = none → exec (.cbUnquantize b) s = .next (s.completeOk 0)) ∧
      (∀ ws, makeWords r.lengthlist = some ws → exec (.cbMakeWords b) s =
        .next ((s.setTab { s.tab with bookWords := putAt s.tab.bookWords b.toNat ws }).completeOk 0)) ∧
      (makeWords r.lengthlist = none →
        exec (.cbMakeWords b) s = .next (s.completeFail (.badHeader .bookOverpop)))) ∧
    (∀ b : BitVec 8, exec (.cbMakeTree b) s = .next (s.completeOk 0)) ∧
    (∀ m : BitVec 8, exec (.map0Look m) s = .next (s.completeOk 0)) ∧
    (∀ (f : BitVec 8) (F : Floor0) (n : Nat), s.floor0At f.toNat = some F →
      (s.cfg.blocksize0 = some n → exec (.f0Look f 0) s = .next ((s.setTab { s.tab with
        floor0Short := putAt s.tab.floor0Short f.toNat (floor0Table defaultParams F n) }).completeOk 0)) ∧
      (s.cfg.blocksize1 = some n → exec (.f0Look f 1) s = .next ((s.setTab { s.tab with
        floor0Long := putAt s.tab.floor0Long f.toNat (floor0Table defaultParams F n) }).completeOk 0))) ∧
    (∀ (f : BitVec 8) (F : Floor1), s.floor1At f.toNat = some F →
      exec (.f1Look f) s = .next ((s.setTab { s.tab with
        floor1 := putAt s.tab.floor1 f.toNat (floor1Table F) }).completeOk 0)) ∧
    (∀ (r : BitVec 8) (R : Residue) (phrase : Book), fieldAt s.cfg.residue r.toNat = some R →
      fieldAt s.cfg.book R.groupbook = some phrase →
      exec (.resLook r) s = .next ((s.setTab { s.tab with
        res := putAt s.tab.res r.toNat (resTable R phrase.dim) }).completeOk 0)) ∧
    (∀ n, s.cfg.blocksize0 = some n → exec (.mdctInit 0) s =
      .next ((s.setTab { s.tab with mdct0 := some (mdctTable defaultParams n) }).completeOk 0)) ∧
    (∀ n, s.cfg.blocksize1 = some n → exec (.mdctInit 1) s =
      .next ((s.setTab { s.tab with mdct1 := some (mdctTable defaultParams n) }).completeOk 0)) ∧
    ∀ a b, s.cfg.blocksize0 = some a → s.cfg.blocksize1 = some b → exec .winInit s =
      .next ((s.setTab { s.tab with
        win000 := some (windowArray defaultParams a (a / 2) (a / 2)),
        win100 := some (windowArray defaultParams b (a / 2) (a / 2)),
        win101 := some (windowArray defaultParams b (a / 2) (b / 2)),
        win110 := some (windowArray defaultParams b (b / 2) (a / 2)),
        win111 := some (windowArray defaultParams b (b / 2) (b / 2)) }).completeOk 0)

/-- R190, R188, R199: decoding an assigned codeword gives its entry and moves the cursor by its length; nothing else
changes. -/
def Obligations.DecodeReturnsTheEntry : Prop :=
  ∀ (s : State) (b : BitVec 8) (books e : Nat), s.phase = .ready → s.cfg.books = some books → b.toNat < books →
    s.codes b.toNat e → s.Sends (s.codeFields b.toNat e) →
    exec (.cbDecode b) s =
      .next ((s.advance (s.wordOf b.toNat e).length).completeOk (BitVec.ofNat 32 e))

/-- R190, R187, R192: bits that rule out every codeword end the decode `BadCode`, the cursor after the first prefix that rules
them out. -/
def Obligations.DecodeOfNoCodeword : Prop :=
  ∀ (s : State) (b : BitVec 8) (books : Nat) (ws : List (Option Codeword)) (w : Codeword) (bit : Bool),
    s.phase = .ready → s.cfg.books = some books → b.toNat < books → fieldAt s.tab.bookWords b.toNat = some ws →
    w.length < 32 → s.Sends (codewordFields (w ++ [bit])) →
    (∀ u, u <+: w → u ≠ [] → (∃ v, some v ∈ ws ∧ u <+: v ∧ u ≠ v) ∧ some u ∉ ws) →
    (∀ v, some v ∈ ws → ¬ w ++ [bit] <+: v) →
    exec (.cbDecode b) s = .next ((s.advance (w.length + 1)).completeFail .badCode)

/-- R193, R194, R197: `CB.DECODE_SET` and `CB.DECODE_ADD` decode the fewest codewords that cover `n` values, storing or adding
the values of each in order from `offset` on. -/
def Obligations.VectorDecodeFills : Prop :=
  ∀ (s : State) (b : BitVec 8) (dst : Dst) (dim : Nat) (es : List Nat), s.phase = .ready →
    s.vectorBook b.toNat dim → (∀ c, dst = .pcm c → ∃ n, s.cfg.channels = some n ∧ c.toNat < n) →
    (∃ ws, fieldAt s.tab.bookWords b.toNat = some ws) →
    es.length = codewordsFor s.arg1.toNat dim → (∀ e ∈ es, s.codes b.toNat e) → s.Sends (s.codesFields b.toNat es) →
    exec (.cbDecodeSet b dst) s = .next
      ((storeRun (targetOf dst) .declare 1 s.arg0.toNat (es.flatMap (s.valuesOf b.toNat))
        (s.advance (fieldBits (s.codesFields b.toNat es)))).completeOk 0) ∧
    exec (.cbDecodeAdd b dst) s = .next
      ((storeRun (targetOf dst) .add 1 s.arg0.toNat (es.flatMap (s.valuesOf b.toNat))
        (s.advance (fieldBits (s.codesFields b.toNat es)))).completeOk 0)

/-- R195, R197: `CB.DECODE_VV_ADD` adds across the bundle, from the interleaved position of `offset` rounded down to the first
channel, until the position of `offset + n` so rounded. -/
def Obligations.VectorDecodeAcrossChannels : Prop :=
  ∀ (s : State) (b first count : BitVec 8) (dim channels : Nat) (es : List Nat), s.phase = .ready →
    s.vectorBook b.toNat dim → s.cfg.channels = some channels → 1 ≤ count.toNat →
    first.toNat + count.toNat ≤ channels → (∃ ws, fieldAt s.tab.bookWords b.toNat = some ws) →
    es.length = codewordsFor
      ((s.arg0.toNat + s.arg1.toNat) / count.toNat * count.toNat - s.arg0.toNat / count.toNat * count.toNat) dim →
    (∀ e ∈ es, s.codes b.toNat e) → s.Sends (s.codesFields b.toNat es) →
    exec (.cbDecodeVvAdd b first count) s = .next
      ((addInterleaved (channelRun first.toNat count.toNat) (s.arg0.toNat / count.toNat * count.toNat)
        (es.flatMap (s.valuesOf b.toNat)) (s.advance (fieldBits (s.codesFields b.toNat es)))).completeOk 0)

/-- R196: `CB.DECODE_VS` decodes one codeword and combines its values in steps of `step` from `index` on; `RES` is the
entry. -/
def Obligations.VectorDecodeStepped : Prop :=
  ∀ (s : State) (b : BitVec 8) (dst : Dst) (mode : CombineMode) (dim e : Nat), s.phase = .ready →
    s.vectorBook b.toNat dim → (∀ c, dst = .pcm c → ∃ n, s.cfg.channels = some n ∧ c.toNat < n) →
    s.codes b.toNat e → s.Sends (s.codeFields b.toNat e) →
    exec (.cbDecodeVs b dst mode) s = .next
      ((storeRun (targetOf dst) mode s.arg1.toNat s.arg0.toNat (s.valuesOf b.toNat e)
        (s.advance (s.wordOf b.toNat e).length)).completeOk (BitVec.ofNat 32 e))

/-- R193, R194, R195, R196, R71: what a run of stores leaves, word by word. In a channel's row and in `LSP`, for every step, 0
included, a word is combined in turn with every value `j` whose index `at + j*step` it has. Across a bundle, position `p + j` is
channel `first + (p + j) mod count`, index `(p + j) / count`. A value outside the block goes nowhere; every other word is as
before. -/
def Obligations.StoresGoWhereTheyAreSent : Prop :=
  ∀ s : State, s.pcmShape → s.arraysShape →
    (∀ (mode : CombineMode) (step at' : Nat) (vs : List F32),
      (∀ c c' i,
        (storeRun (.pcm c) mode step at' vs s).hostReadPcm c' i =
          (s.hostReadPcm c' i).map (combineAll mode vs fun j => c' = c ∧ i = at' + j * step)) ∧
      (∀ c, (storeRun (.pcm c) mode step at' vs s).lsp = s.lsp) ∧
      (∀ i : Nat, (storeRun .lsp mode step at' vs s).lsp[i]? =
        (s.lsp[i]?).map (combineAll mode vs fun j => i = at' + j * step)) ∧
      (storeRun .lsp mode step at' vs s).pcm = s.pcm) ∧
    ∀ (first count p : Nat) (vs : List F32), 1 ≤ count →
      (∀ c i, (addInterleaved (channelRun first count) p vs s).hostReadPcm c i =
        (s.hostReadPcm c i).map
          (combineAll .add vs fun j => c = first + (p + j) % count ∧ i = (p + j) / count)) ∧
      (addInterleaved (channelRun first count) p vs s).lsp = s.lsp

/-! ## Frames -/

/-- R320, R351, R327, R61, R29: a unit operation other than `BC.INIT` changes only `POS`, `EOFF`, `NONZERO`, `MEMO`, `TRUNC`,
`LSP`, `PCM` and the status registers. -/
def Obligations.UnitOperationsKeepTheContext : Prop :=
  ∀ (i : Instr) (s t : State), i.opClass = .unit → i ≠ .bcInit → exec i s = .next t → s.SameContext t

/-- R163 to R166, R190, R193 to R196, R214, R215, R234, R239, R264 to R269, R303, R329: of the flags, memos, scratch and `PCM`,
each unit operation changes only what its rule names. -/
def Obligations.OnlyTheNamedArrayChanges : Prop :=
  ∀ s t : State,
    (∀ i : Instr, i.isCursor = true → exec i s = .next t →
      s.SameFlags t ∧ t.lsp = s.lsp ∧ s.SamePcmBut (fun _ => False) t) ∧
    (∀ b, exec (.cbDecode b) s = .next t → s.SameFlags t ∧ t.lsp = s.lsp ∧ s.SamePcmBut (fun _ => False) t) ∧
    (∀ b c mode,
      (exec (.cbDecodeSet b (.pcm c)) s = .next t ∨ exec (.cbDecodeAdd b (.pcm c)) s = .next t ∨
        exec (.cbDecodeVs b (.pcm c) mode) s = .next t) →
      s.SameFlags t ∧ t.lsp = s.lsp ∧ s.SamePcmBut (fun k => k = c.toNat) t) ∧
    (∀ b mode,
      (exec (.cbDecodeSet b .lsp) s = .next t ∨ exec (.cbDecodeAdd b .lsp) s = .next t ∨
        exec (.cbDecodeVs b .lsp mode) s = .next t) →
      s.SameFlags t ∧ s.SamePcmBut (fun _ => False) t) ∧
    (∀ b first count, exec (.cbDecodeVvAdd b first count) s = .next t → 1 ≤ count.toNat →
      s.SameFlags t ∧ t.lsp = s.lsp ∧
      s.SamePcmBut (fun k => first.toNat ≤ k ∧ k < first.toNat + count.toNat) t) ∧
    (∀ f c, exec (.f0Inverse1 f c) s = .next t →
      t.nonzero = s.nonzero ∧ t.trunc = s.trunc ∧ s.SamePcmBut (fun _ => False) t ∧
      ∀ k, k ≠ c.toNat → t.hostReadMemo k = s.hostReadMemo k) ∧
    (∀ f c, exec (.f1Inverse1 f c) s = .next t →
      t.nonzero = s.nonzero ∧ t.trunc = s.trunc ∧ t.lsp = s.lsp ∧ s.SamePcmBut (fun _ => False) t ∧
      ∀ k, k ≠ c.toNat → t.hostReadMemo k = s.hostReadMemo k) ∧
    (∀ f c w,
      (exec (.f0Inverse2 f c) s = .next t ∨ exec (.f1Inverse2 f c) s = .next t ∨
        exec (.mdctBackward w c) s = .next t ∨ exec (.winApply c) s = .next t) →
      t.pos = s.pos ∧ t.eoff = s.eoff ∧ s.SameFlags t ∧ t.lsp = s.lsp ∧ s.SamePcmBut (fun k => k = c.toNat) t) ∧
    (∀ r first count, 1 ≤ count.toNat →
      (exec (.res0Inverse r first count) s = .next t ∨ exec (.res1Inverse r first count) s = .next t ∨
        exec (.res2Inverse r first count) s = .next t) →
      s.SameFlags t ∧ t.lsp = s.lsp ∧
      s.SamePcmBut (fun k => first.toNat ≤ k ∧ k < first.toNat + count.toNat) t)

/-- R90, R347, R45, R60: an internal operation writes `cfg`, `tab` and the cursor only; the table-building ones read no bit and
leave `cfg` alone, and the `UNPACK` ones leave the tables alone. The report in the status registers is the model's choice (log
11). -/
def Obligations.InternalOperationsKeepTheRest : Prop :=
  ∀ (i : Instr) (s t : State), i.opClass = .internal → s.issuer = .sequencer → exec i s = .next t →
    (s.setCfg t.cfg).setTab t.tab = { t with
      pos := s.pos, eoff := s.eoff, status := s.status, cause := s.cause, res := s.res, cmd := s.cmd } ∧
    ((∃ b, i = .cbUnquantize b ∨ i = .cbMakeWords b ∨ i = .cbMakeTree b ∨ i = .f1Look b ∨ i = .resLook b ∨
        i = .map0Look b ∨ i = .mdctInit b ∨ i = .winInit ∨ ∃ w, i = .f0Look b w) →
      t.pos = s.pos ∧ t.eoff = s.eoff ∧ t.cfg = s.cfg) ∧
    ((∃ b, i = .f0Unpack b ∨ i = .f1Unpack b ∨ i = .resUnpack b ∨ i = .map0Unpack b ∨ i = .hdrTime b ∨
        i = .hdrMode b ∨ i = .hdrIdent ∨ i = .hdrComment) → t.tab = s.tab)

/-- R61, R29, R351: no operation writes `PKT` or `ARG0` to `ARG3`; `SYNTHESIS` writes neither `cfg`, `tab` nor `PHASE`, so from
the host only `RESET` and `HEADERIN` do. -/
def Obligations.CommandsKeepWhatIsNotTheirs : Prop :=
  ∀ (i : Instr) (s t : State), exec i s = .next t →
    (∀ a, t.pkt.read a = s.pkt.read a) ∧ t.arg0 = s.arg0 ∧ t.arg1 = s.arg1 ∧ t.arg2 = s.arg2 ∧ t.arg3 = s.arg3 ∧
    t.issuer = s.issuer ∧ t.eofInResidue = s.eofInResidue ∧
    (s.issuer = .host → (∀ eos bos, i ≠ .headerin eos bos) → i ≠ .reset →
      t.cfg = s.cfg ∧ t.tab = s.tab ∧ t.phase = s.phase)

/-! ## Floors -/

/-- R214, R217, R218, R234, R241, R242, R375: under a valid configuration floor pass 1 always ends `OK`, whatever the packet
holds; `RES` says whether there is a memo. -/
def Obligations.FloorPassOneAlwaysCompletes : Prop :=
  ∀ (s : State) (f c : BitVec 8) (floors channels : Nat), s.phase = .ready → s.Configured →
    s.arraysShape → s.cfg.floors = some floors → f.toNat < floors → s.cfg.channels = some channels →
    c.toNat < channels →
    (fieldAt s.cfg.floorType f.toNat = some 0 → ∃ t, exec (.f0Inverse1 f c) s = .next t ∧ t.status = 0 ∧
      (t.res = 0 ∧ t.hostReadMemo c.toNat = none ∨
        t.res = 1 ∧ ∃ lsp amp, t.hostReadMemo c.toNat = some (.floor0 f.toNat lsp amp))) ∧
    (fieldAt s.cfg.floorType f.toNat = some 1 → ∃ t, exec (.f1Inverse1 f c) s = .next t ∧ t.status = 0 ∧
      (t.res = 0 ∧ t.hostReadMemo c.toNat = none ∨
        t.res = 1 ∧ ∃ y used, t.hostReadMemo c.toNat = some (.floor1 f.toNat y used)))

/-- R214, R100: what floor-0 pass 1 makes of a channel's data. -/
def Obligations.FloorZeroPassOneReads : Prop :=
  ∀ (s : State) (f c : BitVec 8) (floors channels : Nat) (F : Floor0), s.phase = .ready → s.arraysShape →
    s.cfg.floors = some floors → f.toNat < floors → s.cfg.channels = some channels → c.toNat < channels →
    channels ≤ 255 → fieldAt s.cfg.floorType f.toNat = some 0 → s.floor0At f.toNat = some F →
    (s.Sends [(F.ampbits, 0)] →
      exec (.f0Inverse1 f c) s = .next (((s.setMemo c.toNat none).advance F.ampbits).completeOk 0)) ∧
    ∀ (amp k b dim : Nat) (es : List Nat), amp ≠ 0 → k < F.numbooks → F.books[k]? = some b → F.order ≤ 255 →
      s.vectorBook b dim → es.length = codewordsFor F.order dim → (∀ e ∈ es, s.codes b e) →
      s.Sends ([(F.ampbits, amp), (ilog F.numbooks, k)] ++ s.codesFields b es) →
      ∃ t, exec (.f0Inverse1 f c) s = .next t ∧ t.status = 0 ∧ t.res = 1 ∧
        t.pos = s.pos + fieldBits ([(F.ampbits, amp), (ilog F.numbooks, k)] ++ s.codesFields b es) ∧
        t.hostReadMemo c.toNat = some (.floor0 f.toNat
          (runningSum dim 0 0 ((es.flatMap (s.valuesOf b)).take F.order)) (floor0Amplitude F amp))

/-- R234, R235, R101: what floor-1 pass 1 makes of a channel's data. -/
def Obligations.FloorOnePassOneReads : Prop :=
  ∀ (s : State) (f c : BitVec 8) (floors channels : Nat) (F : Floor1) (T : Floor1Table), s.phase = .ready →
    s.cfg.floors = some floors → f.toNat < floors → s.cfg.channels = some channels → c.toNat < channels →
    fieldAt s.cfg.floorType f.toNat = some 1 → s.floor1At f.toNat = some F → fieldAt s.tab.floor1 f.toNat = some T →
    (s.Sends [(1, 0)] → exec (.f1Inverse1 f c) s = .next (((s.setMemo c.toNat none).advance 1).completeOk 0)) ∧
    ∀ (v0 v1 : Nat) (data : List (Nat × Nat × List Nat)), data.map Prod.fst = F.partitionclass →
      s.partitionsSendable F data →
      s.Sends ([(1, 1), (ilog (T.quantQ - 1), v0), (ilog (T.quantQ - 1), v1)] ++ s.partitionFields F data) →
      exec (.f1Inverse1 f c) s = .next
        (((s.setMemo c.toNat (some (.floor1 f.toNat
            (unwrapPosts T F.postlist (v0 :: v1 :: data.flatMap fun x => x.2.2)).1
            (unwrapPosts T F.postlist (v0 :: v1 :: data.flatMap fun x => x.2.2)).2))).advance
          (fieldBits ([(1, 1), (ilog (T.quantQ - 1), v0), (ilog (T.quantQ - 1), v1)] ++ s.partitionFields F data))
          ).completeOk 1)

/-- R215, R239, R303, R329: floor pass 2, the transform and the window, each on one channel's row, under the default parameters
(the model's choice, log 7). -/
def Obligations.RowOperations : Prop :=
  ∀ (s : State) (c : BitVec 8) (channels : Nat), s.phase = .ready → s.cfg.channels = some channels →
    c.toNat < channels →
    (∀ (f : BitVec 8) (floors : Nat), s.cfg.floors = some floors → f.toNat < floors →
      (fieldAt s.cfg.floorType f.toNat = some 0 →
        (s.floor0Memo f.toNat c.toNat = none → exec (.f0Inverse2 f c) s =
          .next ((s.storeRow c.toNat (List.replicate (s.pcmend.toNat / 2) 0)).completeOk 0)) ∧
        ∀ F T lsp amp, s.floor0Memo f.toNat c.toNat = some (lsp, amp) → s.floor0At f.toNat = some F →
          fieldAt (if s.w then s.tab.floor0Long else s.tab.floor0Short) f.toNat = some T →
          exec (.f0Inverse2 f c) s = .next ((s.scaleRow c.toNat
            (floor0Curve defaultParams F T lsp amp (s.pcmend.toNat / 2))).completeOk 1)) ∧
      (fieldAt s.cfg.floorType f.toNat = some 1 →
        (s.floor1Memo f.toNat c.toNat = none → exec (.f1Inverse2 f c) s =
          .next ((s.storeRow c.toNat (List.replicate (s.pcmend.toNat / 2) 0)).completeOk 0)) ∧
        ∀ F T y used, s.floor1Memo f.toNat c.toNat = some (y, used) → s.floor1At f.toNat = some F →
          fieldAt s.tab.floor1 f.toNat = some T →
          exec (.f1Inverse2 f c) s = .next ((s.scaleRow c.toNat
            ((floor1Curve F T y used (s.pcmend.toNat / 2)).map (dbValue defaultParams))).completeOk 1))) ∧
    (∀ (w : BitVec 8) (M : MdctTable), w.toNat ≤ 1 → s.blocksizeAt w.toNat = some s.pcmend.toNat →
      s.mdctTableAt w.toNat = some M →
      exec (.mdctBackward w c) s = .next ((s.storeRow c.toNat
        (mdctTransform M ((s.pcmRow c.toNat).take (M.n / 2)))).completeOk 0)) ∧
    (∀ win, s.blocksize s.w = some s.pcmend.toNat → (s.w = false → s.lw = false ∧ s.nw = false) →
      s.windowAt s.w s.lw s.nw = some win →
      (s.isNonzero c.toNat = true →
        exec (.winApply c) s = .next ((s.scaleRow c.toNat (win.take s.pcmend.toNat)).completeOk 0)) ∧
      (s.isNonzero c.toNat = false →
        exec (.winApply c) s = .next ((s.storeRow c.toNat (List.replicate s.pcmend.toNat 0)).completeOk 0)))

/-- R233, R240: the line recurrence is the point prediction at every position it covers. -/
def Obligations.LineIsPointwise : Prop :=
  ∀ (n x0 x1 : Nat) (y0 y1 : Int), x0 < x1 →
    (renderLine n x0 x1 y0 y1).length = min n x1 - x0 ∧
    ∀ k < min n x1 - x0, (renderLine n x0 x1 y0 y1)[k]? = some (renderPoint x0 x1 y0 y1 (x0 + k))

/-- R232, R239: for a record that R131 accepts, the posts are walked in ascending order and the curve has a value for every word
of the spectrum, so every word is multiplied exactly once. -/
def Obligations.FloorOneCurveCoversTheSpectrum : Prop :=
  ∀ (c : Cfg) (F : Floor1) (y : List Int) (used : List Bool) (n : Nat), Floor1Legal c F →
    (floor1Table F).forwardIndex.Perm (List.range F.postlist.length) ∧
    ((floor1Table F).forwardIndex.map fun i => F.postlist.getD i 0).Pairwise (· < ·) ∧
    (floor1Curve F (floor1Table F) y used n).length = n

/-! ## Residue -/

/-- R263 to R265, R270, R271, R375: under a valid configuration a residue decode always ends `OK`, with `RES` 0 or 1; with no
participant, or no whole partition, it reads nothing and changes nothing. -/
def Obligations.ResidueAlwaysCompletes : Prop :=
  ∀ (s : State) (r first count : BitVec 8) (residues channels : Nat), s.phase = .ready → s.Configured →
    s.cfg.residues = some residues → r.toNat < residues → s.cfg.channels = some channels →
    1 ≤ count.toNat → first.toNat + count.toNat ≤ channels →
    ∀ i, (i = Instr.res0Inverse r first count ∧ fieldAt s.cfg.residueType r.toNat = some 0) ∨
        (i = Instr.res1Inverse r first count ∧ fieldAt s.cfg.residueType r.toNat = some 1) ∨
        (i = Instr.res2Inverse r first count ∧ fieldAt s.cfg.residueType r.toNat = some 2) →
      (∃ t, exec i s = .next t ∧ t.status = 0 ∧ (t.res = 0 ∨ t.res = 1)) ∧
      ((∀ c, first.toNat ≤ c → c < first.toNat + count.toNat → s.isNonzero c = false) →
        exec i s = .next (s.completeOk 0)) ∧
      (∀ R, fieldAt s.cfg.residue r.toNat = some R →
        partitionCount R (if i = Instr.res2Inverse r first count then s.pcmend.toNat / 2 * count.toNat
          else s.pcmend.toNat / 2) = 0 →
        exec i s = .next (s.completeOk 0))

/-- R262 to R269, R271, R272: which codewords a residue decode reads, in which order, and where each one's values are added. At
the end of the payload, or at a phrase entry with no row in the decode map (R265, R270), it stops with `RES` 1, everything read
before added. -/
def Obligations.ResidueAddsItsCodewords : Prop :=
  ∀ (s : State) (r first count : BitVec 8) (residues channels type : Nat) (R : Residue) (T : ResTable) (phrase : Book)
    (phrases : List (List Nat)) (entries : Nat → Nat → Nat → List Nat), s.phase = .ready →
    s.cfg.residues = some residues → r.toNat < residues → s.cfg.channels = some channels → 1 ≤ count.toNat →
    first.toNat + count.toNat ≤ channels → fieldAt s.cfg.residueType r.toNat = some type → type ≤ 2 →
    fieldAt s.cfg.residue r.toNat = some R → fieldAt s.tab.res r.toNat = some T →
    fieldAt s.cfg.book R.groupbook = some phrase → 1 ≤ phrase.dim →
    ∀ p ws, p = s.residuePlan type R T phrase.dim (channelRun first.toNat count.toNat) →
      ws = s.residueWords p phrases entries → s.ResidueSendable p phrases entries →
      (s.Sends (s.wordsFields ws) →
        exec (residueInstr type r first count) s = .next
          (((ws.foldl State.addWord s).advance (fieldBits (s.wordsFields ws))).completeOk 0)) ∧
      ∀ k w, ws[k]? = some w →
        (s.Sends (s.wordsFields (ws.take k)) → s.pos + fieldBits (s.wordsFields (ws.take k)) = 8 * s.len.toNat →
          exec (residueInstr type r first count) s = .next
            (((((ws.take k).foldl State.addWord s).advance (fieldBits (s.wordsFields (ws.take k)) + 1)).setEoff).completeOk 1)) ∧
        ∀ t, w.place = .phrase → T.partvals ≤ t → s.codes R.groupbook t →
          s.Sends (s.wordsFields (ws.take k) ++ s.codeFields R.groupbook t) →
          exec (residueInstr type r first count) s = .next
            ((((ws.take k).foldl State.addWord s).advance
              (fieldBits (s.wordsFields (ws.take k) ++ s.codeFields R.groupbook t))).completeOk 1)

/-- R262: a row of the decode map is the representation of its number in base `parts`, most significant digit first. -/
def Obligations.DecodeMapRowsAreDigits : Prop :=
  ∀ (R : Residue) (pdim t : Nat), 1 ≤ R.partitions → t < R.partitions ^ pdim →
    ∃ row, (resTable R pdim).decodemap[t]? = some row ∧ row.length = pdim ∧ (∀ d ∈ row, d < R.partitions) ∧
      row.foldl (fun n d => n * R.partitions + d) 0 = t

/-! ## Mapping, transform, window -/

/-- R283, R270, R290, R375: under a valid configuration and its stated preconditions `MAP0.INVERSE` leaves what its seven steps
leave one after the other (Steps.lean), and ends `OK` with result 0, whatever the packet holds, unless `EOF_IN_RESIDUE` is
`fail_packet` and a residue stops early: then it ends `Eof`, steps 4 to 7 undone. With an early stop `TRUNC` is set under every
value of the parameter, and `silence_block` marks every channel silent and gives a block of `+0.0`; with none the parameter
makes no difference. The default parameters of steps 5 to 7 are the model's choice (log 7). -/
def Obligations.MappingAlwaysCompletes : Prop :=
  ∀ (s : State) (modes channels : Nat) (r : Mode) (M : Mapping), s.phase = .ready → s.Configured →
    s.cfg.modes = some modes → s.cfg.channels = some channels → s.mode.toNat < modes →
    fieldAt s.cfg.mode s.mode.toNat = some r → fieldAt s.cfg.map r.mapping = some M → s.w = r.blockflag →
    s.blocksize s.w = some s.pcmend.toNat → (s.w = false → s.lw = false ∧ s.nw = false) →
    (∀ x, exec .map0Inverse (s.withEofInResidue x) = .next
      (if s.residueStops M channels = true ∧ x = .failPacket
        then ((s.mapped M channels x).withEofInResidue x).completeFail .eof
        else ((s.mapped M channels x).withEofInResidue x).completeOk 0)) ∧
    (s.residueStops M channels = true →
      (∀ x, (s.mapped M channels x).trunc = true) ∧
      (∀ c < channels, (s.mapped M channels .silenceBlock).hostReadNonzero c = false) ∧
      (s.pcmShape →
        (s.mapped M channels .silenceBlock).pcm = List.replicate channels (List.replicate s.pcmend.toNat 0))) ∧
    (s.residueStops M channels = false → ∀ x y, s.mapped M channels x = s.mapped M channels y)

/-- R284, R285: floor pass 1 marks a channel not silent exactly when it leaves a memo; the pairs then widen the flags in
declaration order, and no later step changes flags or memos, but that `silence_block` marks every channel silent when a residue
stops early (R270). -/
def Obligations.MappingMarksSilence : Prop :=
  ∀ (s : State) (modes channels : Nat) (r : Mode) (M : Mapping), s.phase = .ready → s.Configured → s.arraysShape →
    s.cfg.modes = some modes → s.cfg.channels = some channels → s.mode.toNat < modes →
    fieldAt s.cfg.mode s.mode.toNat = some r → fieldAt s.cfg.map r.mapping = some M → s.w = r.blockflag →
    s.blocksize s.w = some s.pcmend.toNat → (s.w = false → s.lw = false ∧ s.nw = false) →
    (∀ c < channels, ((List.range channels).foldl (State.floorStep M) s).hostReadNonzero c =
      (((List.range channels).foldl (State.floorStep M) s).hostReadMemo c).isSome) ∧
    ∀ x, ∃ t, exec .map0Inverse (s.withEofInResidue x) = .next t ∧
      t.memo = ((List.range channels).foldl (State.floorStep M) s).memo ∧
      ∀ c < channels, t.hostReadNonzero c =
        (!(s.residueStops M channels && x == .silenceBlock) &&
          widenFlags M.coupling (fun k => (t.hostReadMemo k).isSome) c)

/-- R286: undoing one coupling pair, sample by sample, over the spectrum half; every other word is as before. -/
def Obligations.DecouplingIsSampleBySample : Prop :=
  ∀ (s : State) (cm ca h : Nat), cm ≠ ca → ∀ (mags angs : List F32),
    s.pcm[cm]? = some mags → s.pcm[ca]? = some angs → mags.length = angs.length →
    (∀ j mag ang, j < h → mags[j]? = some mag → angs[j]? = some ang →
      ((s.decouple h (cm, ca)).hostReadPcm cm j, (s.decouple h (cm, ca)).hostReadPcm ca j) =
        match f32Gt0 mag, f32Gt0 ang with
        | true, true => (some mag, some (f32Sub mag ang))
        | true, false => (some (f32Add mag ang), some mag)
        | false, true => (some mag, some (f32Add mag ang))
        | false, false => (some (f32Sub mag ang), some mag)) ∧
    ∀ c i, (c ≠ cm ∧ c ≠ ca) ∨ h ≤ i → (s.decouple h (cm, ca)).hostReadPcm c i = s.hostReadPcm c i

/-- R304, R305: the transform gives `n` words from the first `n/2` of its input, and before the scale its output has the two
symmetries bit for bit. -/
def Obligations.TransformHasItsSymmetries : Prop :=
  (∀ (M : MdctTable) (input : List F32), (mdctTransform M input).length = M.n) ∧
  ∀ (n : Nat) (T D : List F32), 4 ∣ n → ∀ i < n / 4,
    wordAt (mdctUnfold n T D) (n / 4 + i) = f32Neg (wordAt (mdctUnfold n T D) (n / 4 - 1 - i)) ∧
    wordAt (mdctUnfold n T D) (n / 4 + n / 2 + i) = wordAt (mdctUnfold n T D) (n / 4 + n / 2 - 1 - i)

/-- R328: the five parts of a window tile it, and each word is what its part says. -/
def Obligations.WindowTiles : Prop :=
  ∀ (P : Params) (wn left right : Nat), 4 ∣ wn → 2 ∣ left → 2 ∣ right → left ≤ wn / 2 → right ≤ wn / 2 →
    (windowArray P wn left right).length = wn ∧
    ∀ i < wn, (windowArray P wn left right)[i]? = some
      (if i < wn / 4 - left / 2 then 0
       else if i < wn / 4 + left / 2 then P.slope (i - (wn / 4 - left / 2)) left
       else if i < wn - wn / 4 - right / 2 then 0x3F800000
       else if i < wn - wn / 4 + right / 2 then P.slope (right - 1 - (i - (wn - wn / 4 - right / 2))) right
       else 0)

/-! ## The header parser -/

/-- R342, R121, R343, R122, R346, R128, R348, R137: the identification header, a time record and a mode record are loaded as
sent; the comment header is walked, whatever texts it holds, and stores nothing. The report of an operation the sequencer
issues, here and in the next statements, is the model's choice (log 11). -/
def Obligations.IdentCommentTimeAndModeRecordsParse : Prop :=
  ∀ s : State, s.issuer = .sequencer →
    (∀ channels rate upper nominal lower e0 e1 : Nat, 1 ≤ channels → 1 ≤ rate → 3 ≤ e0 → e0 ≤ e1 →
      s.Sends (identFields channels rate upper nominal lower e0 e1) →
      exec .hdrIdent s = .next (((s.advance 177).setCfg
        { s.cfg with
          version := some 0, channels := some channels, rate := some rate,
          bitrateUpper := some (BitVec.ofNat 32 upper).toInt, bitrateNominal := some (BitVec.ofNat 32 nominal).toInt,
          bitrateLower := some (BitVec.ofNat 32 lower).toInt,
          blocksize0 := some (2 ^ e0), blocksize1 := some (2 ^ e1) }).completeOk 0)) ∧
    (∀ t : BitVec 8, s.Sends [(16, 0)] →
      exec (.hdrTime t) s = .next (((s.advance 16).setCfg
        { s.cfg with timeType := putAt s.cfg.timeType t.toNat 0 }).completeOk 0)) ∧
    (∀ (t : BitVec 8) (v : Nat), v ≠ 0 → s.Sends [(16, v)] →
      exec (.hdrTime t) s = .next (((s.advance 16).setCfg
        { s.cfg with timeType := putAt s.cfg.timeType t.toNat v }).completeFail (.badHeader .timeType))) ∧
    (∀ (k : BitVec 8) (r : Mode), ModeLegal s.cfg r → s.Sends (modeFields r) →
      exec (.hdrMode k) s = .next (((s.advance 41).setCfg
        { s.cfg with mode := putAt s.cfg.mode k.toNat r }).completeOk 0)) ∧
    ∀ (vendor : Nat × Nat) (comments : List (Nat × Nat)), s.Sends (commentFields vendor comments) →
      exec .hdrComment s = .next ((s.advance (fieldBits (commentFields vendor comments))).completeOk 0)

/-- R345, R124 to R127, R185: every legal codebook record, in each of the three layouts of its length list, is loaded as it was
sent, and its codewords are built; an overpopulated one is refused. -/
def Obligations.CodebookRecordParses : Prop :=
  ∀ (s : State) (b : BitVec 8) (layout : LengthLayout) (r : Book), s.issuer = .sequencer → BookLegal layout r →
    s.Sends (bookFields layout r) →
    (∀ ws, makeWords r.lengthlist = some ws →
      exec (.hdrBook b) s = .next ((((s.advance (fieldBits (bookFields layout r))).setCfg
        { s.cfg with book := putAt s.cfg.book b.toNat r }).setTab
        { s.tab with bookWords := putAt s.tab.bookWords b.toNat ws }).completeOk 0)) ∧
    (makeWords r.lengthlist = none →
      exec (.hdrBook b) s = .next (((s.advance (fieldBits (bookFields layout r))).setCfg
        { s.cfg with book := putAt s.cfg.book b.toNat r }).completeFail (.badHeader .bookOverpop)))

/-- R211, R130, R231, R131: every legal floor record body is loaded as it was sent. -/
def Obligations.FloorRecordsParse : Prop :=
  ∀ (s : State) (f : BitVec 8), s.issuer = .sequencer →
    (∀ F : Floor0, Floor0Legal s.cfg F → s.Sends (floor0Fields F) →
      exec (.f0Unpack f) s = .next (((s.advance (fieldBits (floor0Fields F))).setCfg
        { s.cfg with floor := putAt s.cfg.floor f.toNat (.type0 F) }).completeOk 0)) ∧
    ∀ F : Floor1, Floor1Legal s.cfg F → s.Sends (floor1Fields F) →
      exec (.f1Unpack f) s = .next (((s.advance (fieldBits (floor1Fields F))).setCfg
        { s.cfg with floor := putAt s.cfg.floor f.toNat (.type1 F) }).completeOk 0)

/-- R261, R133 to R135, R281, R136: every legal residue record body, each cascade mask short or long, and every legal mapping
record, with or without its optional parts, is loaded as it was sent. -/
def Obligations.ResidueAndMappingRecordsParse : Prop :=
  ∀ s : State, s.issuer = .sequencer →
    (∀ (r : BitVec 8) (long : List Bool) (R : Residue), ResidueLegal s.cfg long R → s.Sends (residueFields long R) →
      exec (.resUnpack r) s = .next (((s.advance (fieldBits (residueFields long R))).setCfg
        { s.cfg with residue := putAt s.cfg.residue r.toNat R }).completeOk 0)) ∧
    ∀ (m : BitVec 8) (channels : Nat) (submapsFlag couplingFlag : Bool) (M : Mapping),
      MappingLegal s.cfg channels submapsFlag couplingFlag M →
      s.Sends (mappingFields channels submapsFlag couplingFlag M) →
      exec (.map0Unpack m) s =
        .next (((s.advance (fieldBits (mappingFields channels submapsFlag couplingFlag M))).setCfg
          { s.cfg with map := putAt s.cfg.map m.toNat M }).completeOk 0)

/-- R344, R123: a whole legal setup header loads exactly the configuration it sends, and every book's codewords. -/
def Obligations.SetupHeaderParses : Prop :=
  ∀ (s : State) (channels : Nat) (S : SetupLayout), s.issuer = .sequencer → s.cfg.channels = some channels →
    s.cfg.identOnly → s.tab.bookWords = [] → SetupLegal S s.cfg channels → s.Sends (S.fields channels) →
    exec .hdrSetup s = .next ((((s.advance (fieldBits (S.fields channels))).setCfg (S.load s.cfg)).setTab
      { s.tab with bookWords := S.books.map fun x => makeWords x.2.lengthlist }).completeOk 0)

/-- R340, R350: the identification packet is accepted in `NEED_ID` with `BOS = 1`, the comment packet in `NEED_COMMENT` with
`BOS = 0`; each moves `PHASE` on by one, latches the packet's data and leaves the cursor after the framing bit. -/
def Obligations.FirstTwoHeadersAreAccepted : Prop :=
  ∀ (s : State) (eos : Bool),
    (∀ channels rate upper nominal lower e0 e1 : Nat, s.phase = .needId → 1 ≤ channels → 1 ≤ rate → 3 ≤ e0 → e0 ≤ e1 →
      (s.initCursor s.arg0 s.arg1).Sends
        ((8, 1) :: magicFields ++ identFields channels rate upper nominal lower e0 e1) →
      ∃ t, exec (.headerin eos true) s = .next t ∧ t.status = 0 ∧ t.res = 1 ∧ t.phase = .needComment ∧
        t.pos = 233 ∧ t.granule = s.arg3 ++ s.arg2 ∧ t.eos = eos ∧ t.bos = true ∧ t.tab = s.tab ∧
        t.cfg = { s.cfg with
          version := some 0, channels := some channels, rate := some rate,
          bitrateUpper := some (BitVec.ofNat 32 upper).toInt, bitrateNominal := some (BitVec.ofNat 32 nominal).toInt,
          bitrateLower := some (BitVec.ofNat 32 lower).toInt,
          blocksize0 := some (2 ^ e0), blocksize1 := some (2 ^ e1) }) ∧
    ∀ (vendor : Nat × Nat) (comments : List (Nat × Nat)), s.phase = .needComment →
      (s.initCursor s.arg0 s.arg1).Sends ((8, 3) :: magicFields ++ commentFields vendor comments) →
      exec (.headerin eos false) s = .next
        (((((s.initCursor s.arg0 s.arg1).latch (s.arg3 ++ s.arg2) eos false).advance
          (56 + fieldBits (commentFields vendor comments))).setPhase .needSetup).completeOk 2)

/-- R340, R349, R350, R361: a whole legal setup packet makes the decoder ready, with exactly the configuration sent and the
tables of that configuration (`SetupLayout.Builds`), every index decode takes from them in range. The default parameters the
tables are built under are the model's choice (log 7). -/
def Obligations.SetupHeaderMakesReady : Prop :=
  ∀ (s : State) (eos : Bool) (channels n0 n1 : Nat) (S : SetupLayout), s.phase = .needSetup → s.identified →
    s.cfg.channels = some channels → s.cfg.blocksize0 = some n0 → s.cfg.blocksize1 = some n1 → s.cfg.identOnly →
    s.tab = Tab.absent → SetupLegal S s.cfg channels →
    (s.initCursor s.arg0 s.arg1).Sends ((8, 5) :: magicFields ++ S.fields channels) →
    ∃ t, exec (.headerin eos false) s = .next t ∧ t.status = 0 ∧ t.res = 3 ∧ t.phase = .ready ∧
      t.cfg = S.load s.cfg ∧ S.Builds n0 n1 t.tab ∧ t.Configured ∧ t.IndicesInRange ∧
      t.pos = 56 + fieldBits (S.fields channels)

/-- R340, R341, R350, R372, R138: `HEADERIN` either moves `PHASE` on by one or ends `BadHeader` with everything torn down. What
the scratch `LSP` then holds is the model's choice (log 23). -/
def Obligations.HeadersFailClosed : Prop :=
  ∀ (s t : State) (eos bos : Bool), s.ConfigOk → exec (.headerin eos bos) s = .next t →
    (t.status = 0 ∧ t.res = (t.phase.code).setWidth 32 ∧ t.cause = 0 ∧
      ((s.phase = .needId ∧ bos = true ∧ t.phase = .needComment) ∨
        (s.phase = .needComment ∧ bos = false ∧ t.phase = .needSetup) ∨
        (s.phase = .needSetup ∧ bos = false ∧ t.phase = .ready))) ∨
    ∃ k : HeaderCause, t =
      { State.reset with
        base := s.arg0, len := s.arg1, pos := t.pos, eoff := t.eoff, granule := s.arg3 ++ s.arg2, eos := eos, bos := bos,
        arg0 := s.arg0, arg1 := s.arg1, arg2 := s.arg2, arg3 := s.arg3, pkt := s.pkt,
        issuer := s.issuer, eofInResidue := s.eofInResidue,
        status := 4, cause := k.code, res := 0xFFFFFFFF, cmd := none }

/-! ## Audio packets -/

/-- R322 to R325, R327, R270, R375: under a valid configuration a packet with a good head always gives a block, what
`MAP0.INVERSE` leaves of the block its head opens (Steps.lean), whatever follows the head, unless `EOF_IN_RESIDUE` is
`fail_packet` and a residue of that block stops early: then the packet fails with `Eof`. With an early stop `TRUNC` is set, and
`silence_block` gives a block of `+0.0` with every channel silent. The default parameters of the floor curve, the transform and
the window are the model's choice (log 7). -/
def Obligations.SynthesisGivesABlock : Prop :=
  ∀ (s : State) (eos bos : Bool) (modes modebits m n channels : Nat) (r : Mode) (M : Mapping) (lw nw : Bool),
    s.phase = .ready → s.Configured → s.cfg.modes = some modes → s.tab.modebits = some modebits →
    s.cfg.channels = some channels → m < modes → fieldAt s.cfg.mode m = some r → fieldAt s.cfg.map r.mapping = some M →
    s.blocksize r.blockflag = some n → (r.blockflag = false → lw = false ∧ nw = false) →
    (s.initCursor s.arg0 s.arg1).Sends (headFields modebits 0 m r.blockflag lw nw) →
    ∀ b, b = s.openedBlock eos bos (fieldBits (headFields modebits 0 m r.blockflag lw nw)) m r lw nw n channels →
      (∀ x, exec (.synthesis eos bos) (s.withEofInResidue x) = .next
        (if b.residueStops M channels = true ∧ x = .failPacket
          then (((b.mapped M channels x).setBState .failed).withEofInResidue x).completeFail .eof
          else ((((b.mapped M channels x).setSamples (BitVec.ofNat 16 n)).setBState .emitted).withEofInResidue x).completeOk
            (BitVec.ofNat 32 n))) ∧
      (b.residueStops M channels = true →
        (∀ x, (b.mapped M channels x).trunc = true) ∧
        (∀ c < channels, (b.mapped M channels .silenceBlock).hostReadNonzero c = false) ∧
        (b.mapped M channels .silenceBlock).pcm = List.replicate channels (List.replicate n 0)) ∧
      (∀ x, x ≠ .failPacket →
        ∃ t, exec (.synthesis eos bos) (s.withEofInResidue x) = .next t ∧ t.status = 0 ∧ t.res.toNat = n ∧
          t.samples.toNat = n ∧ t.pcmend.toNat = n ∧ t.mode.toNat = m ∧ t.w = r.blockflag ∧ t.lw = lw ∧ t.nw = nw ∧
          t.bstate = .emitted ∧ t.base = s.arg0 ∧ t.len = s.arg1 ∧ t.granule = s.arg3 ++ s.arg2 ∧ t.eos = eos ∧
          t.bos = bos ∧ t.pcm.length = channels ∧ (∀ row ∈ t.pcm, row.length = n) ∧
          t.cfg = s.cfg ∧ t.tab = s.tab ∧ t.phase = .ready) ∧
      ∃ f, exec (.synthesis eos bos) (s.withEofInResidue .failPacket) = .next f ∧
        (b.residueStops M channels = false → f.status = 0 ∧
          ∀ x, exec (.synthesis eos bos) (s.withEofInResidue x) = .next (f.withEofInResidue x)) ∧
        (b.residueStops M channels = true → f.status = 1 ∧ f.cause = 0 ∧ f.res = 0xFFFFFFFF ∧ f.bstate = .failed ∧
          f.samples = 0)

/-- R322, R323, R326, R371, R372: a packet that fails in its head fails with the status its rule names, and leaves the registers
of the block, `PCM`, `cfg`, `tab` and `PHASE` as they were. -/
def Obligations.SynthesisFailsInTheHead : Prop :=
  ∀ (s : State) (eos bos : Bool) (modes modebits : Nat), s.phase = .ready → s.Configured →
    s.cfg.modes = some modes → s.tab.modebits = some modebits →
    ∀ f : Failure,
      (f = .badType ∧ (s.initCursor s.arg0 s.arg1).Sends [(1, 1)]) ∨
      (∃ m, f = .badMode m ∧ modes ≤ m ∧ (s.initCursor s.arg0 s.arg1).Sends [(1, 0), (modebits, m)]) ∨
      (f = .eof ∧ s.arg1 = 0) ∨
      (∃ m r, f = .eof ∧ (s.initCursor s.arg0 s.arg1).Sends [(1, 0), (modebits, m)] ∧ m < modes ∧
        fieldAt s.cfg.mode m = some r ∧ r.blockflag = true ∧ 8 * s.arg1.toNat < 1 + modebits + 2) →
      ∃ t, exec (.synthesis eos bos) s = .next t ∧ t.status = f.code ∧ t.cause = f.cause ∧ t.res = 0xFFFFFFFF ∧
        t.bstate = .failed ∧ t.samples = 0 ∧ t.mode = s.mode ∧ t.w = s.w ∧ t.lw = s.lw ∧ t.nw = s.nw ∧
        t.pcmend = s.pcmend ∧ t.pcm = s.pcm ∧ t.cfg = s.cfg ∧ t.tab = s.tab ∧ t.phase = .ready

/-- R289, R331, R284: a packet whose channels all use floor type 1 and all send `nonzero = 0` gives a block of `+0.0`, read no
further than its floor data, with no truncation flag. -/
def Obligations.SilentPacketGivesZeros : Prop :=
  ∀ (s : State) (eos bos : Bool) (modes modebits m n channels : Nat) (r : Mode) (M : Mapping) (lw nw : Bool),
    s.phase = .ready → s.Configured → s.arraysShape → s.cfg.modes = some modes → s.tab.modebits = some modebits →
    s.cfg.channels = some channels → m < modes → fieldAt s.cfg.mode m = some r → fieldAt s.cfg.map r.mapping = some M →
    s.blocksize r.blockflag = some n → (∀ c, fieldAt s.cfg.floorType (floorOf M c) = some 1) →
    (r.blockflag = false → lw = false ∧ nw = false) →
    (s.initCursor s.arg0 s.arg1).Sends
      (headFields modebits 0 m r.blockflag lw nw ++ List.replicate channels (1, 0)) →
    ∃ t, exec (.synthesis eos bos) s = .next t ∧ t.status = 0 ∧ t.res.toNat = n ∧ t.trunc = false ∧ t.eoff = false ∧
      t.pos = fieldBits (headFields modebits 0 m r.blockflag lw nw) + channels ∧
      t.pcm = List.replicate channels (List.replicate n 0) ∧ ∀ c < 255, c < channels → t.hostReadNonzero c = false
end

