-- ==== Sys2Proof/Laws/State.lean ====
section
/-! SUPPORT. What each named update of the state does to each field: one lemma per field per update. -/

namespace Sys2Proof.Machine

/-! ### `State.initCursor` -/
@[simp] theorem State.initCursor_base (b l : BitVec 32) (s : State) : (s.initCursor b l).base = b := rfl
@[simp] theorem State.initCursor_len (b l : BitVec 32) (s : State) : (s.initCursor b l).len = l := rfl
@[simp] theorem State.initCursor_pos (b l : BitVec 32) (s : State) : (s.initCursor b l).pos = 0 := rfl
@[simp] theorem State.initCursor_eoff (b l : BitVec 32) (s : State) : (s.initCursor b l).eoff = false := rfl
@[simp] theorem State.initCursor_mode (b l : BitVec 32) (s : State) : (s.initCursor b l).mode = s.mode := rfl
@[simp] theorem State.initCursor_w (b l : BitVec 32) (s : State) : (s.initCursor b l).w = s.w := rfl
@[simp] theorem State.initCursor_lw (b l : BitVec 32) (s : State) : (s.initCursor b l).lw = s.lw := rfl
@[simp] theorem State.initCursor_nw (b l : BitVec 32) (s : State) : (s.initCursor b l).nw = s.nw := rfl
@[simp] theorem State.initCursor_pcmend (b l : BitVec 32) (s : State) : (s.initCursor b l).pcmend = s.pcmend := rfl
@[simp] theorem State.initCursor_granule (b l : BitVec 32) (s : State) : (s.initCursor b l).granule = s.granule := rfl
@[simp] theorem State.initCursor_eos (b l : BitVec 32) (s : State) : (s.initCursor b l).eos = s.eos := rfl
@[simp] theorem State.initCursor_bos (b l : BitVec 32) (s : State) : (s.initCursor b l).bos = s.bos := rfl
@[simp] theorem State.initCursor_nonzero (b l : BitVec 32) (s : State) : (s.initCursor b l).nonzero = s.nonzero := rfl
@[simp] theorem State.initCursor_memo (b l : BitVec 32) (s : State) : (s.initCursor b l).memo = s.memo := rfl
@[simp] theorem State.initCursor_lsp (b l : BitVec 32) (s : State) : (s.initCursor b l).lsp = s.lsp := rfl
@[simp] theorem State.initCursor_phase (b l : BitVec 32) (s : State) : (s.initCursor b l).phase = s.phase := rfl
@[simp] theorem State.initCursor_bstate (b l : BitVec 32) (s : State) : (s.initCursor b l).bstate = s.bstate := rfl
@[simp] theorem State.initCursor_status (b l : BitVec 32) (s : State) : (s.initCursor b l).status = s.status := rfl
@[simp] theorem State.initCursor_cause (b l : BitVec 32) (s : State) : (s.initCursor b l).cause = s.cause := rfl
@[simp] theorem State.initCursor_res (b l : BitVec 32) (s : State) : (s.initCursor b l).res = s.res := rfl
@[simp] theorem State.initCursor_samples (b l : BitVec 32) (s : State) : (s.initCursor b l).samples = s.samples := rfl
@[simp] theorem State.initCursor_trunc (b l : BitVec 32) (s : State) : (s.initCursor b l).trunc = s.trunc := rfl
@[simp] theorem State.initCursor_arg0 (b l : BitVec 32) (s : State) : (s.initCursor b l).arg0 = s.arg0 := rfl
@[simp] theorem State.initCursor_arg1 (b l : BitVec 32) (s : State) : (s.initCursor b l).arg1 = s.arg1 := rfl
@[simp] theorem State.initCursor_arg2 (b l : BitVec 32) (s : State) : (s.initCursor b l).arg2 = s.arg2 := rfl
@[simp] theorem State.initCursor_arg3 (b l : BitVec 32) (s : State) : (s.initCursor b l).arg3 = s.arg3 := rfl
@[simp] theorem State.initCursor_cmd (b l : BitVec 32) (s : State) : (s.initCursor b l).cmd = s.cmd := rfl
@[simp] theorem State.initCursor_cfg (b l : BitVec 32) (s : State) : (s.initCursor b l).cfg = s.cfg := rfl
@[simp] theorem State.initCursor_tab (b l : BitVec 32) (s : State) : (s.initCursor b l).tab = s.tab := rfl
@[simp] theorem State.initCursor_pkt (b l : BitVec 32) (s : State) : (s.initCursor b l).pkt = s.pkt := rfl
@[simp] theorem State.initCursor_pcm (b l : BitVec 32) (s : State) : (s.initCursor b l).pcm = s.pcm := rfl
@[simp] theorem State.initCursor_issuer (b l : BitVec 32) (s : State) : (s.initCursor b l).issuer = s.issuer := rfl
@[simp] theorem State.initCursor_eofInResidue (b l : BitVec 32) (s : State) : (s.initCursor b l).eofInResidue = s.eofInResidue := rfl

/-! ### `State.advance` -/
@[simp] theorem State.advance_base (n : Nat) (s : State) : (s.advance n).base = s.base := rfl
@[simp] theorem State.advance_len (n : Nat) (s : State) : (s.advance n).len = s.len := rfl
@[simp] theorem State.advance_pos (n : Nat) (s : State) : (s.advance n).pos = s.pos + n := rfl
@[simp] theorem State.advance_eoff (n : Nat) (s : State) : (s.advance n).eoff = s.eoff := rfl
@[simp] theorem State.advance_mode (n : Nat) (s : State) : (s.advance n).mode = s.mode := rfl
@[simp] theorem State.advance_w (n : Nat) (s : State) : (s.advance n).w = s.w := rfl
@[simp] theorem State.advance_lw (n : Nat) (s : State) : (s.advance n).lw = s.lw := rfl
@[simp] theorem State.advance_nw (n : Nat) (s : State) : (s.advance n).nw = s.nw := rfl
@[simp] theorem State.advance_pcmend (n : Nat) (s : State) : (s.advance n).pcmend = s.pcmend := rfl
@[simp] theorem State.advance_granule (n : Nat) (s : State) : (s.advance n).granule = s.granule := rfl
@[simp] theorem State.advance_eos (n : Nat) (s : State) : (s.advance n).eos = s.eos := rfl
@[simp] theorem State.advance_bos (n : Nat) (s : State) : (s.advance n).bos = s.bos := rfl
@[simp] theorem State.advance_nonzero (n : Nat) (s : State) : (s.advance n).nonzero = s.nonzero := rfl
@[simp] theorem State.advance_memo (n : Nat) (s : State) : (s.advance n).memo = s.memo := rfl
@[simp] theorem State.advance_lsp (n : Nat) (s : State) : (s.advance n).lsp = s.lsp := rfl
@[simp] theorem State.advance_phase (n : Nat) (s : State) : (s.advance n).phase = s.phase := rfl
@[simp] theorem State.advance_bstate (n : Nat) (s : State) : (s.advance n).bstate = s.bstate := rfl
@[simp] theorem State.advance_status (n : Nat) (s : State) : (s.advance n).status = s.status := rfl
@[simp] theorem State.advance_cause (n : Nat) (s : State) : (s.advance n).cause = s.cause := rfl
@[simp] theorem State.advance_res (n : Nat) (s : State) : (s.advance n).res = s.res := rfl
@[simp] theorem State.advance_samples (n : Nat) (s : State) : (s.advance n).samples = s.samples := rfl
@[simp] theorem State.advance_trunc (n : Nat) (s : State) : (s.advance n).trunc = s.trunc := rfl
@[simp] theorem State.advance_arg0 (n : Nat) (s : State) : (s.advance n).arg0 = s.arg0 := rfl
@[simp] theorem State.advance_arg1 (n : Nat) (s : State) : (s.advance n).arg1 = s.arg1 := rfl
@[simp] theorem State.advance_arg2 (n : Nat) (s : State) : (s.advance n).arg2 = s.arg2 := rfl
@[simp] theorem State.advance_arg3 (n : Nat) (s : State) : (s.advance n).arg3 = s.arg3 := rfl
@[simp] theorem State.advance_cmd (n : Nat) (s : State) : (s.advance n).cmd = s.cmd := rfl
@[simp] theorem State.advance_cfg (n : Nat) (s : State) : (s.advance n).cfg = s.cfg := rfl
@[simp] theorem State.advance_tab (n : Nat) (s : State) : (s.advance n).tab = s.tab := rfl
@[simp] theorem State.advance_pkt (n : Nat) (s : State) : (s.advance n).pkt = s.pkt := rfl
@[simp] theorem State.advance_pcm (n : Nat) (s : State) : (s.advance n).pcm = s.pcm := rfl
@[simp] theorem State.advance_issuer (n : Nat) (s : State) : (s.advance n).issuer = s.issuer := rfl
@[simp] theorem State.advance_eofInResidue (n : Nat) (s : State) : (s.advance n).eofInResidue = s.eofInResidue := rfl

/-! ### `State.setEoff` -/
@[simp] theorem State.setEoff_base (s : State) : (s.setEoff).base = s.base := rfl
@[simp] theorem State.setEoff_len (s : State) : (s.setEoff).len = s.len := rfl
@[simp] theorem State.setEoff_pos (s : State) : (s.setEoff).pos = s.pos := rfl
@[simp] theorem State.setEoff_eoff (s : State) : (s.setEoff).eoff = true := rfl
@[simp] theorem State.setEoff_mode (s : State) : (s.setEoff).mode = s.mode := rfl
@[simp] theorem State.setEoff_w (s : State) : (s.setEoff).w = s.w := rfl
@[simp] theorem State.setEoff_lw (s : State) : (s.setEoff).lw = s.lw := rfl
@[simp] theorem State.setEoff_nw (s : State) : (s.setEoff).nw = s.nw := rfl
@[simp] theorem State.setEoff_pcmend (s : State) : (s.setEoff).pcmend = s.pcmend := rfl
@[simp] theorem State.setEoff_granule (s : State) : (s.setEoff).granule = s.granule := rfl
@[simp] theorem State.setEoff_eos (s : State) : (s.setEoff).eos = s.eos := rfl
@[simp] theorem State.setEoff_bos (s : State) : (s.setEoff).bos = s.bos := rfl
@[simp] theorem State.setEoff_nonzero (s : State) : (s.setEoff).nonzero = s.nonzero := rfl
@[simp] theorem State.setEoff_memo (s : State) : (s.setEoff).memo = s.memo := rfl
@[simp] theorem State.setEoff_lsp (s : State) : (s.setEoff).lsp = s.lsp := rfl
@[simp] theorem State.setEoff_phase (s : State) : (s.setEoff).phase = s.phase := rfl
@[simp] theorem State.setEoff_bstate (s : State) : (s.setEoff).bstate = s.bstate := rfl
@[simp] theorem State.setEoff_status (s : State) : (s.setEoff).status = s.status := rfl
@[simp] theorem State.setEoff_cause (s : State) : (s.setEoff).cause = s.cause := rfl
@[simp] theorem State.setEoff_res (s : State) : (s.setEoff).res = s.res := rfl
@[simp] theorem State.setEoff_samples (s : State) : (s.setEoff).samples = s.samples := rfl
@[simp] theorem State.setEoff_trunc (s : State) : (s.setEoff).trunc = s.trunc := rfl
@[simp] theorem State.setEoff_arg0 (s : State) : (s.setEoff).arg0 = s.arg0 := rfl
@[simp] theorem State.setEoff_arg1 (s : State) : (s.setEoff).arg1 = s.arg1 := rfl
@[simp] theorem State.setEoff_arg2 (s : State) : (s.setEoff).arg2 = s.arg2 := rfl
@[simp] theorem State.setEoff_arg3 (s : State) : (s.setEoff).arg3 = s.arg3 := rfl
@[simp] theorem State.setEoff_cmd (s : State) : (s.setEoff).cmd = s.cmd := rfl
@[simp] theorem State.setEoff_cfg (s : State) : (s.setEoff).cfg = s.cfg := rfl
@[simp] theorem State.setEoff_tab (s : State) : (s.setEoff).tab = s.tab := rfl
@[simp] theorem State.setEoff_pkt (s : State) : (s.setEoff).pkt = s.pkt := rfl
@[simp] theorem State.setEoff_pcm (s : State) : (s.setEoff).pcm = s.pcm := rfl
@[simp] theorem State.setEoff_issuer (s : State) : (s.setEoff).issuer = s.issuer := rfl
@[simp] theorem State.setEoff_eofInResidue (s : State) : (s.setEoff).eofInResidue = s.eofInResidue := rfl

/-! ### `State.latch` -/
@[simp] theorem State.latch_base (g : BitVec 64) (e b : Bool) (s : State) : (s.latch g e b).base = s.base := rfl
@[simp] theorem State.latch_len (g : BitVec 64) (e b : Bool) (s : State) : (s.latch g e b).len = s.len := rfl
@[simp] theorem State.latch_pos (g : BitVec 64) (e b : Bool) (s : State) : (s.latch g e b).pos = s.pos := rfl
@[simp] theorem State.latch_eoff (g : BitVec 64) (e b : Bool) (s : State) : (s.latch g e b).eoff = s.eoff := rfl
@[simp] theorem State.latch_mode (g : BitVec 64) (e b : Bool) (s : State) : (s.latch g e b).mode = s.mode := rfl
@[simp] theorem State.latch_w (g : BitVec 64) (e b : Bool) (s : State) : (s.latch g e b).w = s.w := rfl
@[simp] theorem State.latch_lw (g : BitVec 64) (e b : Bool) (s : State) : (s.latch g e b).lw = s.lw := rfl
@[simp] theorem State.latch_nw (g : BitVec 64) (e b : Bool) (s : State) : (s.latch g e b).nw = s.nw := rfl
@[simp] theorem State.latch_pcmend (g : BitVec 64) (e b : Bool) (s : State) : (s.latch g e b).pcmend = s.pcmend := rfl
@[simp] theorem State.latch_granule (g : BitVec 64) (e b : Bool) (s : State) : (s.latch g e b).granule = g := rfl
@[simp] theorem State.latch_eos (g : BitVec 64) (e b : Bool) (s : State) : (s.latch g e b).eos = e := rfl
@[simp] theorem State.latch_bos (g : BitVec 64) (e b : Bool) (s : State) : (s.latch g e b).bos = b := rfl
@[simp] theorem State.latch_nonzero (g : BitVec 64) (e b : Bool) (s : State) : (s.latch g e b).nonzero = s.nonzero := rfl
@[simp] theorem State.latch_memo (g : BitVec 64) (e b : Bool) (s : State) : (s.latch g e b).memo = s.memo := rfl
@[simp] theorem State.latch_lsp (g : BitVec 64) (e b : Bool) (s : State) : (s.latch g e b).lsp = s.lsp := rfl
@[simp] theorem State.latch_phase (g : BitVec 64) (e b : Bool) (s : State) : (s.latch g e b).phase = s.phase := rfl
@[simp] theorem State.latch_bstate (g : BitVec 64) (e b : Bool) (s : State) : (s.latch g e b).bstate = s.bstate := rfl
@[simp] theorem State.latch_status (g : BitVec 64) (e b : Bool) (s : State) : (s.latch g e b).status = s.status := rfl
@[simp] theorem State.latch_cause (g : BitVec 64) (e b : Bool) (s : State) : (s.latch g e b).cause = s.cause := rfl
@[simp] theorem State.latch_res (g : BitVec 64) (e b : Bool) (s : State) : (s.latch g e b).res = s.res := rfl
@[simp] theorem State.latch_samples (g : BitVec 64) (e b : Bool) (s : State) : (s.latch g e b).samples = s.samples := rfl
@[simp] theorem State.latch_trunc (g : BitVec 64) (e b : Bool) (s : State) : (s.latch g e b).trunc = s.trunc := rfl
@[simp] theorem State.latch_arg0 (g : BitVec 64) (e b : Bool) (s : State) : (s.latch g e b).arg0 = s.arg0 := rfl
@[simp] theorem State.latch_arg1 (g : BitVec 64) (e b : Bool) (s : State) : (s.latch g e b).arg1 = s.arg1 := rfl
@[simp] theorem State.latch_arg2 (g : BitVec 64) (e b : Bool) (s : State) : (s.latch g e b).arg2 = s.arg2 := rfl
@[simp] theorem State.latch_arg3 (g : BitVec 64) (e b : Bool) (s : State) : (s.latch g e b).arg3 = s.arg3 := rfl
@[simp] theorem State.latch_cmd (g : BitVec 64) (e b : Bool) (s : State) : (s.latch g e b).cmd = s.cmd := rfl
@[simp] theorem State.latch_cfg (g : BitVec 64) (e b : Bool) (s : State) : (s.latch g e b).cfg = s.cfg := rfl
@[simp] theorem State.latch_tab (g : BitVec 64) (e b : Bool) (s : State) : (s.latch g e b).tab = s.tab := rfl
@[simp] theorem State.latch_pkt (g : BitVec 64) (e b : Bool) (s : State) : (s.latch g e b).pkt = s.pkt := rfl
@[simp] theorem State.latch_pcm (g : BitVec 64) (e b : Bool) (s : State) : (s.latch g e b).pcm = s.pcm := rfl
@[simp] theorem State.latch_issuer (g : BitVec 64) (e b : Bool) (s : State) : (s.latch g e b).issuer = s.issuer := rfl
@[simp] theorem State.latch_eofInResidue (g : BitVec 64) (e b : Bool) (s : State) : (s.latch g e b).eofInResidue = s.eofInResidue := rfl

/-! ### `State.setHead` -/
@[simp] theorem State.setHead_base (m : BitVec 6) (w lw nw : Bool) (n : BitVec 16) (s : State) : (s.setHead m w lw nw n).base = s.base := rfl
@[simp] theorem State.setHead_len (m : BitVec 6) (w lw nw : Bool) (n : BitVec 16) (s : State) : (s.setHead m w lw nw n).len = s.len := rfl
@[simp] theorem State.setHead_pos (m : BitVec 6) (w lw nw : Bool) (n : BitVec 16) (s : State) : (s.setHead m w lw nw n).pos = s.pos := rfl
@[simp] theorem State.setHead_eoff (m : BitVec 6) (w lw nw : Bool) (n : BitVec 16) (s : State) : (s.setHead m w lw nw n).eoff = s.eoff := rfl
@[simp] theorem State.setHead_mode (m : BitVec 6) (w lw nw : Bool) (n : BitVec 16) (s : State) : (s.setHead m w lw nw n).mode = m := rfl
@[simp] theorem State.setHead_w (m : BitVec 6) (w lw nw : Bool) (n : BitVec 16) (s : State) : (s.setHead m w lw nw n).w = w := rfl
@[simp] theorem State.setHead_lw (m : BitVec 6) (w lw nw : Bool) (n : BitVec 16) (s : State) : (s.setHead m w lw nw n).lw = lw := rfl
@[simp] theorem State.setHead_nw (m : BitVec 6) (w lw nw : Bool) (n : BitVec 16) (s : State) : (s.setHead m w lw nw n).nw = nw := rfl
@[simp] theorem State.setHead_pcmend (m : BitVec 6) (w lw nw : Bool) (n : BitVec 16) (s : State) : (s.setHead m w lw nw n).pcmend = n := rfl
@[simp] theorem State.setHead_granule (m : BitVec 6) (w lw nw : Bool) (n : BitVec 16) (s : State) : (s.setHead m w lw nw n).granule = s.granule := rfl
@[simp] theorem State.setHead_eos (m : BitVec 6) (w lw nw : Bool) (n : BitVec 16) (s : State) : (s.setHead m w lw nw n).eos = s.eos := rfl
@[simp] theorem State.setHead_bos (m : BitVec 6) (w lw nw : Bool) (n : BitVec 16) (s : State) : (s.setHead m w lw nw n).bos = s.bos := rfl
@[simp] theorem State.setHead_nonzero (m : BitVec 6) (w lw nw : Bool) (n : BitVec 16) (s : State) : (s.setHead m w lw nw n).nonzero = s.nonzero := rfl
@[simp] theorem State.setHead_memo (m : BitVec 6) (w lw nw : Bool) (n : BitVec 16) (s : State) : (s.setHead m w lw nw n).memo = s.memo := rfl
@[simp] theorem State.setHead_lsp (m : BitVec 6) (w lw nw : Bool) (n : BitVec 16) (s : State) : (s.setHead m w lw nw n).lsp = s.lsp := rfl
@[simp] theorem State.setHead_phase (m : BitVec 6) (w lw nw : Bool) (n : BitVec 16) (s : State) : (s.setHead m w lw nw n).phase = s.phase := rfl
@[simp] theorem State.setHead_bstate (m : BitVec 6) (w lw nw : Bool) (n : BitVec 16) (s : State) : (s.setHead m w lw nw n).bstate = s.bstate := rfl
@[simp] theorem State.setHead_status (m : BitVec 6) (w lw nw : Bool) (n : BitVec 16) (s : State) : (s.setHead m w lw nw n).status = s.status := rfl
@[simp] theorem State.setHead_cause (m : BitVec 6) (w lw nw : Bool) (n : BitVec 16) (s : State) : (s.setHead m w lw nw n).cause = s.cause := rfl
@[simp] theorem State.setHead_res (m : BitVec 6) (w lw nw : Bool) (n : BitVec 16) (s : State) : (s.setHead m w lw nw n).res = s.res := rfl
@[simp] theorem State.setHead_samples (m : BitVec 6) (w lw nw : Bool) (n : BitVec 16) (s : State) : (s.setHead m w lw nw n).samples = s.samples := rfl
@[simp] theorem State.setHead_trunc (m : BitVec 6) (w lw nw : Bool) (n : BitVec 16) (s : State) : (s.setHead m w lw nw n).trunc = s.trunc := rfl
@[simp] theorem State.setHead_arg0 (m : BitVec 6) (w lw nw : Bool) (n : BitVec 16) (s : State) : (s.setHead m w lw nw n).arg0 = s.arg0 := rfl
@[simp] theorem State.setHead_arg1 (m : BitVec 6) (w lw nw : Bool) (n : BitVec 16) (s : State) : (s.setHead m w lw nw n).arg1 = s.arg1 := rfl
@[simp] theorem State.setHead_arg2 (m : BitVec 6) (w lw nw : Bool) (n : BitVec 16) (s : State) : (s.setHead m w lw nw n).arg2 = s.arg2 := rfl
@[simp] theorem State.setHead_arg3 (m : BitVec 6) (w lw nw : Bool) (n : BitVec 16) (s : State) : (s.setHead m w lw nw n).arg3 = s.arg3 := rfl
@[simp] theorem State.setHead_cmd (m : BitVec 6) (w lw nw : Bool) (n : BitVec 16) (s : State) : (s.setHead m w lw nw n).cmd = s.cmd := rfl
@[simp] theorem State.setHead_cfg (m : BitVec 6) (w lw nw : Bool) (n : BitVec 16) (s : State) : (s.setHead m w lw nw n).cfg = s.cfg := rfl
@[simp] theorem State.setHead_tab (m : BitVec 6) (w lw nw : Bool) (n : BitVec 16) (s : State) : (s.setHead m w lw nw n).tab = s.tab := rfl
@[simp] theorem State.setHead_pkt (m : BitVec 6) (w lw nw : Bool) (n : BitVec 16) (s : State) : (s.setHead m w lw nw n).pkt = s.pkt := rfl
@[simp] theorem State.setHead_pcm (m : BitVec 6) (w lw nw : Bool) (n : BitVec 16) (s : State) : (s.setHead m w lw nw n).pcm = s.pcm := rfl
@[simp] theorem State.setHead_issuer (m : BitVec 6) (w lw nw : Bool) (n : BitVec 16) (s : State) : (s.setHead m w lw nw n).issuer = s.issuer := rfl
@[simp] theorem State.setHead_eofInResidue (m : BitVec 6) (w lw nw : Bool) (n : BitVec 16) (s : State) : (s.setHead m w lw nw n).eofInResidue = s.eofInResidue := rfl

/-! ### `State.setNonzero` -/
@[simp] theorem State.setNonzero_base (c : Nat) (b : Bool) (s : State) : (s.setNonzero c b).base = s.base := rfl
@[simp] theorem State.setNonzero_len (c : Nat) (b : Bool) (s : State) : (s.setNonzero c b).len = s.len := rfl
@[simp] theorem State.setNonzero_pos (c : Nat) (b : Bool) (s : State) : (s.setNonzero c b).pos = s.pos := rfl
@[simp] theorem State.setNonzero_eoff (c : Nat) (b : Bool) (s : State) : (s.setNonzero c b).eoff = s.eoff := rfl
@[simp] theorem State.setNonzero_mode (c : Nat) (b : Bool) (s : State) : (s.setNonzero c b).mode = s.mode := rfl
@[simp] theorem State.setNonzero_w (c : Nat) (b : Bool) (s : State) : (s.setNonzero c b).w = s.w := rfl
@[simp] theorem State.setNonzero_lw (c : Nat) (b : Bool) (s : State) : (s.setNonzero c b).lw = s.lw := rfl
@[simp] theorem State.setNonzero_nw (c : Nat) (b : Bool) (s : State) : (s.setNonzero c b).nw = s.nw := rfl
@[simp] theorem State.setNonzero_pcmend (c : Nat) (b : Bool) (s : State) : (s.setNonzero c b).pcmend = s.pcmend := rfl
@[simp] theorem State.setNonzero_granule (c : Nat) (b : Bool) (s : State) : (s.setNonzero c b).granule = s.granule := rfl
@[simp] theorem State.setNonzero_eos (c : Nat) (b : Bool) (s : State) : (s.setNonzero c b).eos = s.eos := rfl
@[simp] theorem State.setNonzero_bos (c : Nat) (b : Bool) (s : State) : (s.setNonzero c b).bos = s.bos := rfl
@[simp] theorem State.setNonzero_nonzero (c : Nat) (b : Bool) (s : State) : (s.setNonzero c b).nonzero = s.nonzero.set c b := rfl
@[simp] theorem State.setNonzero_memo (c : Nat) (b : Bool) (s : State) : (s.setNonzero c b).memo = s.memo := rfl
@[simp] theorem State.setNonzero_lsp (c : Nat) (b : Bool) (s : State) : (s.setNonzero c b).lsp = s.lsp := rfl
@[simp] theorem State.setNonzero_phase (c : Nat) (b : Bool) (s : State) : (s.setNonzero c b).phase = s.phase := rfl
@[simp] theorem State.setNonzero_bstate (c : Nat) (b : Bool) (s : State) : (s.setNonzero c b).bstate = s.bstate := rfl
@[simp] theorem State.setNonzero_status (c : Nat) (b : Bool) (s : State) : (s.setNonzero c b).status = s.status := rfl
@[simp] theorem State.setNonzero_cause (c : Nat) (b : Bool) (s : State) : (s.setNonzero c b).cause = s.cause := rfl
@[simp] theorem State.setNonzero_res (c : Nat) (b : Bool) (s : State) : (s.setNonzero c b).res = s.res := rfl
@[simp] theorem State.setNonzero_samples (c : Nat) (b : Bool) (s : State) : (s.setNonzero c b).samples = s.samples := rfl
@[simp] theorem State.setNonzero_trunc (c : Nat) (b : Bool) (s : State) : (s.setNonzero c b).trunc = s.trunc := rfl
@[simp] theorem State.setNonzero_arg0 (c : Nat) (b : Bool) (s : State) : (s.setNonzero c b).arg0 = s.arg0 := rfl
@[simp] theorem State.setNonzero_arg1 (c : Nat) (b : Bool) (s : State) : (s.setNonzero c b).arg1 = s.arg1 := rfl
@[simp] theorem State.setNonzero_arg2 (c : Nat) (b : Bool) (s : State) : (s.setNonzero c b).arg2 = s.arg2 := rfl
@[simp] theorem State.setNonzero_arg3 (c : Nat) (b : Bool) (s : State) : (s.setNonzero c b).arg3 = s.arg3 := rfl
@[simp] theorem State.setNonzero_cmd (c : Nat) (b : Bool) (s : State) : (s.setNonzero c b).cmd = s.cmd := rfl
@[simp] theorem State.setNonzero_cfg (c : Nat) (b : Bool) (s : State) : (s.setNonzero c b).cfg = s.cfg := rfl
@[simp] theorem State.setNonzero_tab (c : Nat) (b : Bool) (s : State) : (s.setNonzero c b).tab = s.tab := rfl
@[simp] theorem State.setNonzero_pkt (c : Nat) (b : Bool) (s : State) : (s.setNonzero c b).pkt = s.pkt := rfl
@[simp] theorem State.setNonzero_pcm (c : Nat) (b : Bool) (s : State) : (s.setNonzero c b).pcm = s.pcm := rfl
@[simp] theorem State.setNonzero_issuer (c : Nat) (b : Bool) (s : State) : (s.setNonzero c b).issuer = s.issuer := rfl
@[simp] theorem State.setNonzero_eofInResidue (c : Nat) (b : Bool) (s : State) : (s.setNonzero c b).eofInResidue = s.eofInResidue := rfl

/-! ### `State.setMemo` -/
@[simp] theorem State.setMemo_base (c : Nat) (m : Option Memo) (s : State) : (s.setMemo c m).base = s.base := rfl
@[simp] theorem State.setMemo_len (c : Nat) (m : Option Memo) (s : State) : (s.setMemo c m).len = s.len := rfl
@[simp] theorem State.setMemo_pos (c : Nat) (m : Option Memo) (s : State) : (s.setMemo c m).pos = s.pos := rfl
@[simp] theorem State.setMemo_eoff (c : Nat) (m : Option Memo) (s : State) : (s.setMemo c m).eoff = s.eoff := rfl
@[simp] theorem State.setMemo_mode (c : Nat) (m : Option Memo) (s : State) : (s.setMemo c m).mode = s.mode := rfl
@[simp] theorem State.setMemo_w (c : Nat) (m : Option Memo) (s : State) : (s.setMemo c m).w = s.w := rfl
@[simp] theorem State.setMemo_lw (c : Nat) (m : Option Memo) (s : State) : (s.setMemo c m).lw = s.lw := rfl
@[simp] theorem State.setMemo_nw (c : Nat) (m : Option Memo) (s : State) : (s.setMemo c m).nw = s.nw := rfl
@[simp] theorem State.setMemo_pcmend (c : Nat) (m : Option Memo) (s : State) : (s.setMemo c m).pcmend = s.pcmend := rfl
@[simp] theorem State.setMemo_granule (c : Nat) (m : Option Memo) (s : State) : (s.setMemo c m).granule = s.granule := rfl
@[simp] theorem State.setMemo_eos (c : Nat) (m : Option Memo) (s : State) : (s.setMemo c m).eos = s.eos := rfl
@[simp] theorem State.setMemo_bos (c : Nat) (m : Option Memo) (s : State) : (s.setMemo c m).bos = s.bos := rfl
@[simp] theorem State.setMemo_nonzero (c : Nat) (m : Option Memo) (s : State) : (s.setMemo c m).nonzero = s.nonzero := rfl
@[simp] theorem State.setMemo_memo (c : Nat) (m : Option Memo) (s : State) : (s.setMemo c m).memo = s.memo.set c m := rfl
@[simp] theorem State.setMemo_lsp (c : Nat) (m : Option Memo) (s : State) : (s.setMemo c m).lsp = s.lsp := rfl
@[simp] theorem State.setMemo_phase (c : Nat) (m : Option Memo) (s : State) : (s.setMemo c m).phase = s.phase := rfl
@[simp] theorem State.setMemo_bstate (c : Nat) (m : Option Memo) (s : State) : (s.setMemo c m).bstate = s.bstate := rfl
@[simp] theorem State.setMemo_status (c : Nat) (m : Option Memo) (s : State) : (s.setMemo c m).status = s.status := rfl
@[simp] theorem State.setMemo_cause (c : Nat) (m : Option Memo) (s : State) : (s.setMemo c m).cause = s.cause := rfl
@[simp] theorem State.setMemo_res (c : Nat) (m : Option Memo) (s : State) : (s.setMemo c m).res = s.res := rfl
@[simp] theorem State.setMemo_samples (c : Nat) (m : Option Memo) (s : State) : (s.setMemo c m).samples = s.samples := rfl
@[simp] theorem State.setMemo_trunc (c : Nat) (m : Option Memo) (s : State) : (s.setMemo c m).trunc = s.trunc := rfl
@[simp] theorem State.setMemo_arg0 (c : Nat) (m : Option Memo) (s : State) : (s.setMemo c m).arg0 = s.arg0 := rfl
@[simp] theorem State.setMemo_arg1 (c : Nat) (m : Option Memo) (s : State) : (s.setMemo c m).arg1 = s.arg1 := rfl
@[simp] theorem State.setMemo_arg2 (c : Nat) (m : Option Memo) (s : State) : (s.setMemo c m).arg2 = s.arg2 := rfl
@[simp] theorem State.setMemo_arg3 (c : Nat) (m : Option Memo) (s : State) : (s.setMemo c m).arg3 = s.arg3 := rfl
@[simp] theorem State.setMemo_cmd (c : Nat) (m : Option Memo) (s : State) : (s.setMemo c m).cmd = s.cmd := rfl
@[simp] theorem State.setMemo_cfg (c : Nat) (m : Option Memo) (s : State) : (s.setMemo c m).cfg = s.cfg := rfl
@[simp] theorem State.setMemo_tab (c : Nat) (m : Option Memo) (s : State) : (s.setMemo c m).tab = s.tab := rfl
@[simp] theorem State.setMemo_pkt (c : Nat) (m : Option Memo) (s : State) : (s.setMemo c m).pkt = s.pkt := rfl
@[simp] theorem State.setMemo_pcm (c : Nat) (m : Option Memo) (s : State) : (s.setMemo c m).pcm = s.pcm := rfl
@[simp] theorem State.setMemo_issuer (c : Nat) (m : Option Memo) (s : State) : (s.setMemo c m).issuer = s.issuer := rfl
@[simp] theorem State.setMemo_eofInResidue (c : Nat) (m : Option Memo) (s : State) : (s.setMemo c m).eofInResidue = s.eofInResidue := rfl

/-! ### `State.clearChannels` -/
@[simp] theorem State.clearChannels_base (n : Nat) (s : State) : (s.clearChannels n).base = s.base := rfl
@[simp] theorem State.clearChannels_len (n : Nat) (s : State) : (s.clearChannels n).len = s.len := rfl
@[simp] theorem State.clearChannels_pos (n : Nat) (s : State) : (s.clearChannels n).pos = s.pos := rfl
@[simp] theorem State.clearChannels_eoff (n : Nat) (s : State) : (s.clearChannels n).eoff = s.eoff := rfl
@[simp] theorem State.clearChannels_mode (n : Nat) (s : State) : (s.clearChannels n).mode = s.mode := rfl
@[simp] theorem State.clearChannels_w (n : Nat) (s : State) : (s.clearChannels n).w = s.w := rfl
@[simp] theorem State.clearChannels_lw (n : Nat) (s : State) : (s.clearChannels n).lw = s.lw := rfl
@[simp] theorem State.clearChannels_nw (n : Nat) (s : State) : (s.clearChannels n).nw = s.nw := rfl
@[simp] theorem State.clearChannels_pcmend (n : Nat) (s : State) : (s.clearChannels n).pcmend = s.pcmend := rfl
@[simp] theorem State.clearChannels_granule (n : Nat) (s : State) : (s.clearChannels n).granule = s.granule := rfl
@[simp] theorem State.clearChannels_eos (n : Nat) (s : State) : (s.clearChannels n).eos = s.eos := rfl
@[simp] theorem State.clearChannels_bos (n : Nat) (s : State) : (s.clearChannels n).bos = s.bos := rfl
@[simp] theorem State.clearChannels_nonzero (n : Nat) (s : State) : (s.clearChannels n).nonzero = fillFirst n false s.nonzero := rfl
@[simp] theorem State.clearChannels_memo (n : Nat) (s : State) : (s.clearChannels n).memo = fillFirst n none s.memo := rfl
@[simp] theorem State.clearChannels_lsp (n : Nat) (s : State) : (s.clearChannels n).lsp = s.lsp := rfl
@[simp] theorem State.clearChannels_phase (n : Nat) (s : State) : (s.clearChannels n).phase = s.phase := rfl
@[simp] theorem State.clearChannels_bstate (n : Nat) (s : State) : (s.clearChannels n).bstate = s.bstate := rfl
@[simp] theorem State.clearChannels_status (n : Nat) (s : State) : (s.clearChannels n).status = s.status := rfl
@[simp] theorem State.clearChannels_cause (n : Nat) (s : State) : (s.clearChannels n).cause = s.cause := rfl
@[simp] theorem State.clearChannels_res (n : Nat) (s : State) : (s.clearChannels n).res = s.res := rfl
@[simp] theorem State.clearChannels_samples (n : Nat) (s : State) : (s.clearChannels n).samples = s.samples := rfl
@[simp] theorem State.clearChannels_trunc (n : Nat) (s : State) : (s.clearChannels n).trunc = s.trunc := rfl
@[simp] theorem State.clearChannels_arg0 (n : Nat) (s : State) : (s.clearChannels n).arg0 = s.arg0 := rfl
@[simp] theorem State.clearChannels_arg1 (n : Nat) (s : State) : (s.clearChannels n).arg1 = s.arg1 := rfl
@[simp] theorem State.clearChannels_arg2 (n : Nat) (s : State) : (s.clearChannels n).arg2 = s.arg2 := rfl
@[simp] theorem State.clearChannels_arg3 (n : Nat) (s : State) : (s.clearChannels n).arg3 = s.arg3 := rfl
@[simp] theorem State.clearChannels_cmd (n : Nat) (s : State) : (s.clearChannels n).cmd = s.cmd := rfl
@[simp] theorem State.clearChannels_cfg (n : Nat) (s : State) : (s.clearChannels n).cfg = s.cfg := rfl
@[simp] theorem State.clearChannels_tab (n : Nat) (s : State) : (s.clearChannels n).tab = s.tab := rfl
@[simp] theorem State.clearChannels_pkt (n : Nat) (s : State) : (s.clearChannels n).pkt = s.pkt := rfl
@[simp] theorem State.clearChannels_pcm (n : Nat) (s : State) : (s.clearChannels n).pcm = s.pcm := rfl
@[simp] theorem State.clearChannels_issuer (n : Nat) (s : State) : (s.clearChannels n).issuer = s.issuer := rfl
@[simp] theorem State.clearChannels_eofInResidue (n : Nat) (s : State) : (s.clearChannels n).eofInResidue = s.eofInResidue := rfl

/-! ### `State.silenceAll` -/
@[simp] theorem State.silenceAll_base (n : Nat) (s : State) : (s.silenceAll n).base = s.base := rfl
@[simp] theorem State.silenceAll_len (n : Nat) (s : State) : (s.silenceAll n).len = s.len := rfl
@[simp] theorem State.silenceAll_pos (n : Nat) (s : State) : (s.silenceAll n).pos = s.pos := rfl
@[simp] theorem State.silenceAll_eoff (n : Nat) (s : State) : (s.silenceAll n).eoff = s.eoff := rfl
@[simp] theorem State.silenceAll_mode (n : Nat) (s : State) : (s.silenceAll n).mode = s.mode := rfl
@[simp] theorem State.silenceAll_w (n : Nat) (s : State) : (s.silenceAll n).w = s.w := rfl
@[simp] theorem State.silenceAll_lw (n : Nat) (s : State) : (s.silenceAll n).lw = s.lw := rfl
@[simp] theorem State.silenceAll_nw (n : Nat) (s : State) : (s.silenceAll n).nw = s.nw := rfl
@[simp] theorem State.silenceAll_pcmend (n : Nat) (s : State) : (s.silenceAll n).pcmend = s.pcmend := rfl
@[simp] theorem State.silenceAll_granule (n : Nat) (s : State) : (s.silenceAll n).granule = s.granule := rfl
@[simp] theorem State.silenceAll_eos (n : Nat) (s : State) : (s.silenceAll n).eos = s.eos := rfl
@[simp] theorem State.silenceAll_bos (n : Nat) (s : State) : (s.silenceAll n).bos = s.bos := rfl
@[simp] theorem State.silenceAll_nonzero (n : Nat) (s : State) : (s.silenceAll n).nonzero = fillFirst n false s.nonzero := rfl
@[simp] theorem State.silenceAll_memo (n : Nat) (s : State) : (s.silenceAll n).memo = s.memo := rfl
@[simp] theorem State.silenceAll_lsp (n : Nat) (s : State) : (s.silenceAll n).lsp = s.lsp := rfl
@[simp] theorem State.silenceAll_phase (n : Nat) (s : State) : (s.silenceAll n).phase = s.phase := rfl
@[simp] theorem State.silenceAll_bstate (n : Nat) (s : State) : (s.silenceAll n).bstate = s.bstate := rfl
@[simp] theorem State.silenceAll_status (n : Nat) (s : State) : (s.silenceAll n).status = s.status := rfl
@[simp] theorem State.silenceAll_cause (n : Nat) (s : State) : (s.silenceAll n).cause = s.cause := rfl
@[simp] theorem State.silenceAll_res (n : Nat) (s : State) : (s.silenceAll n).res = s.res := rfl
@[simp] theorem State.silenceAll_samples (n : Nat) (s : State) : (s.silenceAll n).samples = s.samples := rfl
@[simp] theorem State.silenceAll_trunc (n : Nat) (s : State) : (s.silenceAll n).trunc = s.trunc := rfl
@[simp] theorem State.silenceAll_arg0 (n : Nat) (s : State) : (s.silenceAll n).arg0 = s.arg0 := rfl
@[simp] theorem State.silenceAll_arg1 (n : Nat) (s : State) : (s.silenceAll n).arg1 = s.arg1 := rfl
@[simp] theorem State.silenceAll_arg2 (n : Nat) (s : State) : (s.silenceAll n).arg2 = s.arg2 := rfl
@[simp] theorem State.silenceAll_arg3 (n : Nat) (s : State) : (s.silenceAll n).arg3 = s.arg3 := rfl
@[simp] theorem State.silenceAll_cmd (n : Nat) (s : State) : (s.silenceAll n).cmd = s.cmd := rfl
@[simp] theorem State.silenceAll_cfg (n : Nat) (s : State) : (s.silenceAll n).cfg = s.cfg := rfl
@[simp] theorem State.silenceAll_tab (n : Nat) (s : State) : (s.silenceAll n).tab = s.tab := rfl
@[simp] theorem State.silenceAll_pkt (n : Nat) (s : State) : (s.silenceAll n).pkt = s.pkt := rfl
@[simp] theorem State.silenceAll_pcm (n : Nat) (s : State) : (s.silenceAll n).pcm = s.pcm := rfl
@[simp] theorem State.silenceAll_issuer (n : Nat) (s : State) : (s.silenceAll n).issuer = s.issuer := rfl
@[simp] theorem State.silenceAll_eofInResidue (n : Nat) (s : State) : (s.silenceAll n).eofInResidue = s.eofInResidue := rfl

/-! ### `State.setLsp` -/
@[simp] theorem State.setLsp_base (l : List F32) (s : State) : (s.setLsp l).base = s.base := rfl
@[simp] theorem State.setLsp_len (l : List F32) (s : State) : (s.setLsp l).len = s.len := rfl
@[simp] theorem State.setLsp_pos (l : List F32) (s : State) : (s.setLsp l).pos = s.pos := rfl
@[simp] theorem State.setLsp_eoff (l : List F32) (s : State) : (s.setLsp l).eoff = s.eoff := rfl
@[simp] theorem State.setLsp_mode (l : List F32) (s : State) : (s.setLsp l).mode = s.mode := rfl
@[simp] theorem State.setLsp_w (l : List F32) (s : State) : (s.setLsp l).w = s.w := rfl
@[simp] theorem State.setLsp_lw (l : List F32) (s : State) : (s.setLsp l).lw = s.lw := rfl
@[simp] theorem State.setLsp_nw (l : List F32) (s : State) : (s.setLsp l).nw = s.nw := rfl
@[simp] theorem State.setLsp_pcmend (l : List F32) (s : State) : (s.setLsp l).pcmend = s.pcmend := rfl
@[simp] theorem State.setLsp_granule (l : List F32) (s : State) : (s.setLsp l).granule = s.granule := rfl
@[simp] theorem State.setLsp_eos (l : List F32) (s : State) : (s.setLsp l).eos = s.eos := rfl
@[simp] theorem State.setLsp_bos (l : List F32) (s : State) : (s.setLsp l).bos = s.bos := rfl
@[simp] theorem State.setLsp_nonzero (l : List F32) (s : State) : (s.setLsp l).nonzero = s.nonzero := rfl
@[simp] theorem State.setLsp_memo (l : List F32) (s : State) : (s.setLsp l).memo = s.memo := rfl
@[simp] theorem State.setLsp_lsp (l : List F32) (s : State) : (s.setLsp l).lsp = l := rfl
@[simp] theorem State.setLsp_phase (l : List F32) (s : State) : (s.setLsp l).phase = s.phase := rfl
@[simp] theorem State.setLsp_bstate (l : List F32) (s : State) : (s.setLsp l).bstate = s.bstate := rfl
@[simp] theorem State.setLsp_status (l : List F32) (s : State) : (s.setLsp l).status = s.status := rfl
@[simp] theorem State.setLsp_cause (l : List F32) (s : State) : (s.setLsp l).cause = s.cause := rfl
@[simp] theorem State.setLsp_res (l : List F32) (s : State) : (s.setLsp l).res = s.res := rfl
@[simp] theorem State.setLsp_samples (l : List F32) (s : State) : (s.setLsp l).samples = s.samples := rfl
@[simp] theorem State.setLsp_trunc (l : List F32) (s : State) : (s.setLsp l).trunc = s.trunc := rfl
@[simp] theorem State.setLsp_arg0 (l : List F32) (s : State) : (s.setLsp l).arg0 = s.arg0 := rfl
@[simp] theorem State.setLsp_arg1 (l : List F32) (s : State) : (s.setLsp l).arg1 = s.arg1 := rfl
@[simp] theorem State.setLsp_arg2 (l : List F32) (s : State) : (s.setLsp l).arg2 = s.arg2 := rfl
@[simp] theorem State.setLsp_arg3 (l : List F32) (s : State) : (s.setLsp l).arg3 = s.arg3 := rfl
@[simp] theorem State.setLsp_cmd (l : List F32) (s : State) : (s.setLsp l).cmd = s.cmd := rfl
@[simp] theorem State.setLsp_cfg (l : List F32) (s : State) : (s.setLsp l).cfg = s.cfg := rfl
@[simp] theorem State.setLsp_tab (l : List F32) (s : State) : (s.setLsp l).tab = s.tab := rfl
@[simp] theorem State.setLsp_pkt (l : List F32) (s : State) : (s.setLsp l).pkt = s.pkt := rfl
@[simp] theorem State.setLsp_pcm (l : List F32) (s : State) : (s.setLsp l).pcm = s.pcm := rfl
@[simp] theorem State.setLsp_issuer (l : List F32) (s : State) : (s.setLsp l).issuer = s.issuer := rfl
@[simp] theorem State.setLsp_eofInResidue (l : List F32) (s : State) : (s.setLsp l).eofInResidue = s.eofInResidue := rfl

/-! ### `State.setPhase` -/
@[simp] theorem State.setPhase_base (p : Phase) (s : State) : (s.setPhase p).base = s.base := rfl
@[simp] theorem State.setPhase_len (p : Phase) (s : State) : (s.setPhase p).len = s.len := rfl
@[simp] theorem State.setPhase_pos (p : Phase) (s : State) : (s.setPhase p).pos = s.pos := rfl
@[simp] theorem State.setPhase_eoff (p : Phase) (s : State) : (s.setPhase p).eoff = s.eoff := rfl
@[simp] theorem State.setPhase_mode (p : Phase) (s : State) : (s.setPhase p).mode = s.mode := rfl
@[simp] theorem State.setPhase_w (p : Phase) (s : State) : (s.setPhase p).w = s.w := rfl
@[simp] theorem State.setPhase_lw (p : Phase) (s : State) : (s.setPhase p).lw = s.lw := rfl
@[simp] theorem State.setPhase_nw (p : Phase) (s : State) : (s.setPhase p).nw = s.nw := rfl
@[simp] theorem State.setPhase_pcmend (p : Phase) (s : State) : (s.setPhase p).pcmend = s.pcmend := rfl
@[simp] theorem State.setPhase_granule (p : Phase) (s : State) : (s.setPhase p).granule = s.granule := rfl
@[simp] theorem State.setPhase_eos (p : Phase) (s : State) : (s.setPhase p).eos = s.eos := rfl
@[simp] theorem State.setPhase_bos (p : Phase) (s : State) : (s.setPhase p).bos = s.bos := rfl
@[simp] theorem State.setPhase_nonzero (p : Phase) (s : State) : (s.setPhase p).nonzero = s.nonzero := rfl
@[simp] theorem State.setPhase_memo (p : Phase) (s : State) : (s.setPhase p).memo = s.memo := rfl
@[simp] theorem State.setPhase_lsp (p : Phase) (s : State) : (s.setPhase p).lsp = s.lsp := rfl
@[simp] theorem State.setPhase_phase (p : Phase) (s : State) : (s.setPhase p).phase = p := rfl
@[simp] theorem State.setPhase_bstate (p : Phase) (s : State) : (s.setPhase p).bstate = s.bstate := rfl
@[simp] theorem State.setPhase_status (p : Phase) (s : State) : (s.setPhase p).status = s.status := rfl
@[simp] theorem State.setPhase_cause (p : Phase) (s : State) : (s.setPhase p).cause = s.cause := rfl
@[simp] theorem State.setPhase_res (p : Phase) (s : State) : (s.setPhase p).res = s.res := rfl
@[simp] theorem State.setPhase_samples (p : Phase) (s : State) : (s.setPhase p).samples = s.samples := rfl
@[simp] theorem State.setPhase_trunc (p : Phase) (s : State) : (s.setPhase p).trunc = s.trunc := rfl
@[simp] theorem State.setPhase_arg0 (p : Phase) (s : State) : (s.setPhase p).arg0 = s.arg0 := rfl
@[simp] theorem State.setPhase_arg1 (p : Phase) (s : State) : (s.setPhase p).arg1 = s.arg1 := rfl
@[simp] theorem State.setPhase_arg2 (p : Phase) (s : State) : (s.setPhase p).arg2 = s.arg2 := rfl
@[simp] theorem State.setPhase_arg3 (p : Phase) (s : State) : (s.setPhase p).arg3 = s.arg3 := rfl
@[simp] theorem State.setPhase_cmd (p : Phase) (s : State) : (s.setPhase p).cmd = s.cmd := rfl
@[simp] theorem State.setPhase_cfg (p : Phase) (s : State) : (s.setPhase p).cfg = s.cfg := rfl
@[simp] theorem State.setPhase_tab (p : Phase) (s : State) : (s.setPhase p).tab = s.tab := rfl
@[simp] theorem State.setPhase_pkt (p : Phase) (s : State) : (s.setPhase p).pkt = s.pkt := rfl
@[simp] theorem State.setPhase_pcm (p : Phase) (s : State) : (s.setPhase p).pcm = s.pcm := rfl
@[simp] theorem State.setPhase_issuer (p : Phase) (s : State) : (s.setPhase p).issuer = s.issuer := rfl
@[simp] theorem State.setPhase_eofInResidue (p : Phase) (s : State) : (s.setPhase p).eofInResidue = s.eofInResidue := rfl

/-! ### `State.setBState` -/
@[simp] theorem State.setBState_base (b : BState) (s : State) : (s.setBState b).base = s.base := rfl
@[simp] theorem State.setBState_len (b : BState) (s : State) : (s.setBState b).len = s.len := rfl
@[simp] theorem State.setBState_pos (b : BState) (s : State) : (s.setBState b).pos = s.pos := rfl
@[simp] theorem State.setBState_eoff (b : BState) (s : State) : (s.setBState b).eoff = s.eoff := rfl
@[simp] theorem State.setBState_mode (b : BState) (s : State) : (s.setBState b).mode = s.mode := rfl
@[simp] theorem State.setBState_w (b : BState) (s : State) : (s.setBState b).w = s.w := rfl
@[simp] theorem State.setBState_lw (b : BState) (s : State) : (s.setBState b).lw = s.lw := rfl
@[simp] theorem State.setBState_nw (b : BState) (s : State) : (s.setBState b).nw = s.nw := rfl
@[simp] theorem State.setBState_pcmend (b : BState) (s : State) : (s.setBState b).pcmend = s.pcmend := rfl
@[simp] theorem State.setBState_granule (b : BState) (s : State) : (s.setBState b).granule = s.granule := rfl
@[simp] theorem State.setBState_eos (b : BState) (s : State) : (s.setBState b).eos = s.eos := rfl
@[simp] theorem State.setBState_bos (b : BState) (s : State) : (s.setBState b).bos = s.bos := rfl
@[simp] theorem State.setBState_nonzero (b : BState) (s : State) : (s.setBState b).nonzero = s.nonzero := rfl
@[simp] theorem State.setBState_memo (b : BState) (s : State) : (s.setBState b).memo = s.memo := rfl
@[simp] theorem State.setBState_lsp (b : BState) (s : State) : (s.setBState b).lsp = s.lsp := rfl
@[simp] theorem State.setBState_phase (b : BState) (s : State) : (s.setBState b).phase = s.phase := rfl
@[simp] theorem State.setBState_bstate (b : BState) (s : State) : (s.setBState b).bstate = b := rfl
@[simp] theorem State.setBState_status (b : BState) (s : State) : (s.setBState b).status = s.status := rfl
@[simp] theorem State.setBState_cause (b : BState) (s : State) : (s.setBState b).cause = s.cause := rfl
@[simp] theorem State.setBState_res (b : BState) (s : State) : (s.setBState b).res = s.res := rfl
@[simp] theorem State.setBState_samples (b : BState) (s : State) : (s.setBState b).samples = s.samples := rfl
@[simp] theorem State.setBState_trunc (b : BState) (s : State) : (s.setBState b).trunc = s.trunc := rfl
@[simp] theorem State.setBState_arg0 (b : BState) (s : State) : (s.setBState b).arg0 = s.arg0 := rfl
@[simp] theorem State.setBState_arg1 (b : BState) (s : State) : (s.setBState b).arg1 = s.arg1 := rfl
@[simp] theorem State.setBState_arg2 (b : BState) (s : State) : (s.setBState b).arg2 = s.arg2 := rfl
@[simp] theorem State.setBState_arg3 (b : BState) (s : State) : (s.setBState b).arg3 = s.arg3 := rfl
@[simp] theorem State.setBState_cmd (b : BState) (s : State) : (s.setBState b).cmd = s.cmd := rfl
@[simp] theorem State.setBState_cfg (b : BState) (s : State) : (s.setBState b).cfg = s.cfg := rfl
@[simp] theorem State.setBState_tab (b : BState) (s : State) : (s.setBState b).tab = s.tab := rfl
@[simp] theorem State.setBState_pkt (b : BState) (s : State) : (s.setBState b).pkt = s.pkt := rfl
@[simp] theorem State.setBState_pcm (b : BState) (s : State) : (s.setBState b).pcm = s.pcm := rfl
@[simp] theorem State.setBState_issuer (b : BState) (s : State) : (s.setBState b).issuer = s.issuer := rfl
@[simp] theorem State.setBState_eofInResidue (b : BState) (s : State) : (s.setBState b).eofInResidue = s.eofInResidue := rfl

/-! ### `State.setSamples` -/
@[simp] theorem State.setSamples_base (n : BitVec 16) (s : State) : (s.setSamples n).base = s.base := rfl
@[simp] theorem State.setSamples_len (n : BitVec 16) (s : State) : (s.setSamples n).len = s.len := rfl
@[simp] theorem State.setSamples_pos (n : BitVec 16) (s : State) : (s.setSamples n).pos = s.pos := rfl
@[simp] theorem State.setSamples_eoff (n : BitVec 16) (s : State) : (s.setSamples n).eoff = s.eoff := rfl
@[simp] theorem State.setSamples_mode (n : BitVec 16) (s : State) : (s.setSamples n).mode = s.mode := rfl
@[simp] theorem State.setSamples_w (n : BitVec 16) (s : State) : (s.setSamples n).w = s.w := rfl
@[simp] theorem State.setSamples_lw (n : BitVec 16) (s : State) : (s.setSamples n).lw = s.lw := rfl
@[simp] theorem State.setSamples_nw (n : BitVec 16) (s : State) : (s.setSamples n).nw = s.nw := rfl
@[simp] theorem State.setSamples_pcmend (n : BitVec 16) (s : State) : (s.setSamples n).pcmend = s.pcmend := rfl
@[simp] theorem State.setSamples_granule (n : BitVec 16) (s : State) : (s.setSamples n).granule = s.granule := rfl
@[simp] theorem State.setSamples_eos (n : BitVec 16) (s : State) : (s.setSamples n).eos = s.eos := rfl
@[simp] theorem State.setSamples_bos (n : BitVec 16) (s : State) : (s.setSamples n).bos = s.bos := rfl
@[simp] theorem State.setSamples_nonzero (n : BitVec 16) (s : State) : (s.setSamples n).nonzero = s.nonzero := rfl
@[simp] theorem State.setSamples_memo (n : BitVec 16) (s : State) : (s.setSamples n).memo = s.memo := rfl
@[simp] theorem State.setSamples_lsp (n : BitVec 16) (s : State) : (s.setSamples n).lsp = s.lsp := rfl
@[simp] theorem State.setSamples_phase (n : BitVec 16) (s : State) : (s.setSamples n).phase = s.phase := rfl
@[simp] theorem State.setSamples_bstate (n : BitVec 16) (s : State) : (s.setSamples n).bstate = s.bstate := rfl
@[simp] theorem State.setSamples_status (n : BitVec 16) (s : State) : (s.setSamples n).status = s.status := rfl
@[simp] theorem State.setSamples_cause (n : BitVec 16) (s : State) : (s.setSamples n).cause = s.cause := rfl
@[simp] theorem State.setSamples_res (n : BitVec 16) (s : State) : (s.setSamples n).res = s.res := rfl
@[simp] theorem State.setSamples_samples (n : BitVec 16) (s : State) : (s.setSamples n).samples = n := rfl
@[simp] theorem State.setSamples_trunc (n : BitVec 16) (s : State) : (s.setSamples n).trunc = s.trunc := rfl
@[simp] theorem State.setSamples_arg0 (n : BitVec 16) (s : State) : (s.setSamples n).arg0 = s.arg0 := rfl
@[simp] theorem State.setSamples_arg1 (n : BitVec 16) (s : State) : (s.setSamples n).arg1 = s.arg1 := rfl
@[simp] theorem State.setSamples_arg2 (n : BitVec 16) (s : State) : (s.setSamples n).arg2 = s.arg2 := rfl
@[simp] theorem State.setSamples_arg3 (n : BitVec 16) (s : State) : (s.setSamples n).arg3 = s.arg3 := rfl
@[simp] theorem State.setSamples_cmd (n : BitVec 16) (s : State) : (s.setSamples n).cmd = s.cmd := rfl
@[simp] theorem State.setSamples_cfg (n : BitVec 16) (s : State) : (s.setSamples n).cfg = s.cfg := rfl
@[simp] theorem State.setSamples_tab (n : BitVec 16) (s : State) : (s.setSamples n).tab = s.tab := rfl
@[simp] theorem State.setSamples_pkt (n : BitVec 16) (s : State) : (s.setSamples n).pkt = s.pkt := rfl
@[simp] theorem State.setSamples_pcm (n : BitVec 16) (s : State) : (s.setSamples n).pcm = s.pcm := rfl
@[simp] theorem State.setSamples_issuer (n : BitVec 16) (s : State) : (s.setSamples n).issuer = s.issuer := rfl
@[simp] theorem State.setSamples_eofInResidue (n : BitVec 16) (s : State) : (s.setSamples n).eofInResidue = s.eofInResidue := rfl

/-! ### `State.setTrunc` -/
@[simp] theorem State.setTrunc_base (b : Bool) (s : State) : (s.setTrunc b).base = s.base := rfl
@[simp] theorem State.setTrunc_len (b : Bool) (s : State) : (s.setTrunc b).len = s.len := rfl
@[simp] theorem State.setTrunc_pos (b : Bool) (s : State) : (s.setTrunc b).pos = s.pos := rfl
@[simp] theorem State.setTrunc_eoff (b : Bool) (s : State) : (s.setTrunc b).eoff = s.eoff := rfl
@[simp] theorem State.setTrunc_mode (b : Bool) (s : State) : (s.setTrunc b).mode = s.mode := rfl
@[simp] theorem State.setTrunc_w (b : Bool) (s : State) : (s.setTrunc b).w = s.w := rfl
@[simp] theorem State.setTrunc_lw (b : Bool) (s : State) : (s.setTrunc b).lw = s.lw := rfl
@[simp] theorem State.setTrunc_nw (b : Bool) (s : State) : (s.setTrunc b).nw = s.nw := rfl
@[simp] theorem State.setTrunc_pcmend (b : Bool) (s : State) : (s.setTrunc b).pcmend = s.pcmend := rfl
@[simp] theorem State.setTrunc_granule (b : Bool) (s : State) : (s.setTrunc b).granule = s.granule := rfl
@[simp] theorem State.setTrunc_eos (b : Bool) (s : State) : (s.setTrunc b).eos = s.eos := rfl
@[simp] theorem State.setTrunc_bos (b : Bool) (s : State) : (s.setTrunc b).bos = s.bos := rfl
@[simp] theorem State.setTrunc_nonzero (b : Bool) (s : State) : (s.setTrunc b).nonzero = s.nonzero := rfl
@[simp] theorem State.setTrunc_memo (b : Bool) (s : State) : (s.setTrunc b).memo = s.memo := rfl
@[simp] theorem State.setTrunc_lsp (b : Bool) (s : State) : (s.setTrunc b).lsp = s.lsp := rfl
@[simp] theorem State.setTrunc_phase (b : Bool) (s : State) : (s.setTrunc b).phase = s.phase := rfl
@[simp] theorem State.setTrunc_bstate (b : Bool) (s : State) : (s.setTrunc b).bstate = s.bstate := rfl
@[simp] theorem State.setTrunc_status (b : Bool) (s : State) : (s.setTrunc b).status = s.status := rfl
@[simp] theorem State.setTrunc_cause (b : Bool) (s : State) : (s.setTrunc b).cause = s.cause := rfl
@[simp] theorem State.setTrunc_res (b : Bool) (s : State) : (s.setTrunc b).res = s.res := rfl
@[simp] theorem State.setTrunc_samples (b : Bool) (s : State) : (s.setTrunc b).samples = s.samples := rfl
@[simp] theorem State.setTrunc_trunc (b : Bool) (s : State) : (s.setTrunc b).trunc = b := rfl
@[simp] theorem State.setTrunc_arg0 (b : Bool) (s : State) : (s.setTrunc b).arg0 = s.arg0 := rfl
@[simp] theorem State.setTrunc_arg1 (b : Bool) (s : State) : (s.setTrunc b).arg1 = s.arg1 := rfl
@[simp] theorem State.setTrunc_arg2 (b : Bool) (s : State) : (s.setTrunc b).arg2 = s.arg2 := rfl
@[simp] theorem State.setTrunc_arg3 (b : Bool) (s : State) : (s.setTrunc b).arg3 = s.arg3 := rfl
@[simp] theorem State.setTrunc_cmd (b : Bool) (s : State) : (s.setTrunc b).cmd = s.cmd := rfl
@[simp] theorem State.setTrunc_cfg (b : Bool) (s : State) : (s.setTrunc b).cfg = s.cfg := rfl
@[simp] theorem State.setTrunc_tab (b : Bool) (s : State) : (s.setTrunc b).tab = s.tab := rfl
@[simp] theorem State.setTrunc_pkt (b : Bool) (s : State) : (s.setTrunc b).pkt = s.pkt := rfl
@[simp] theorem State.setTrunc_pcm (b : Bool) (s : State) : (s.setTrunc b).pcm = s.pcm := rfl
@[simp] theorem State.setTrunc_issuer (b : Bool) (s : State) : (s.setTrunc b).issuer = s.issuer := rfl
@[simp] theorem State.setTrunc_eofInResidue (b : Bool) (s : State) : (s.setTrunc b).eofInResidue = s.eofInResidue := rfl

/-! ### `State.setCfg` -/
@[simp] theorem State.setCfg_base (c : Cfg) (s : State) : (s.setCfg c).base = s.base := rfl
@[simp] theorem State.setCfg_len (c : Cfg) (s : State) : (s.setCfg c).len = s.len := rfl
@[simp] theorem State.setCfg_pos (c : Cfg) (s : State) : (s.setCfg c).pos = s.pos := rfl
@[simp] theorem State.setCfg_eoff (c : Cfg) (s : State) : (s.setCfg c).eoff = s.eoff := rfl
@[simp] theorem State.setCfg_mode (c : Cfg) (s : State) : (s.setCfg c).mode = s.mode := rfl
@[simp] theorem State.setCfg_w (c : Cfg) (s : State) : (s.setCfg c).w = s.w := rfl
@[simp] theorem State.setCfg_lw (c : Cfg) (s : State) : (s.setCfg c).lw = s.lw := rfl
@[simp] theorem State.setCfg_nw (c : Cfg) (s : State) : (s.setCfg c).nw = s.nw := rfl
@[simp] theorem State.setCfg_pcmend (c : Cfg) (s : State) : (s.setCfg c).pcmend = s.pcmend := rfl
@[simp] theorem State.setCfg_granule (c : Cfg) (s : State) : (s.setCfg c).granule = s.granule := rfl
@[simp] theorem State.setCfg_eos (c : Cfg) (s : State) : (s.setCfg c).eos = s.eos := rfl
@[simp] theorem State.setCfg_bos (c : Cfg) (s : State) : (s.setCfg c).bos = s.bos := rfl
@[simp] theorem State.setCfg_nonzero (c : Cfg) (s : State) : (s.setCfg c).nonzero = s.nonzero := rfl
@[simp] theorem State.setCfg_memo (c : Cfg) (s : State) : (s.setCfg c).memo = s.memo := rfl
@[simp] theorem State.setCfg_lsp (c : Cfg) (s : State) : (s.setCfg c).lsp = s.lsp := rfl
@[simp] theorem State.setCfg_phase (c : Cfg) (s : State) : (s.setCfg c).phase = s.phase := rfl
@[simp] theorem State.setCfg_bstate (c : Cfg) (s : State) : (s.setCfg c).bstate = s.bstate := rfl
@[simp] theorem State.setCfg_status (c : Cfg) (s : State) : (s.setCfg c).status = s.status := rfl
@[simp] theorem State.setCfg_cause (c : Cfg) (s : State) : (s.setCfg c).cause = s.cause := rfl
@[simp] theorem State.setCfg_res (c : Cfg) (s : State) : (s.setCfg c).res = s.res := rfl
@[simp] theorem State.setCfg_samples (c : Cfg) (s : State) : (s.setCfg c).samples = s.samples := rfl
@[simp] theorem State.setCfg_trunc (c : Cfg) (s : State) : (s.setCfg c).trunc = s.trunc := rfl
@[simp] theorem State.setCfg_arg0 (c : Cfg) (s : State) : (s.setCfg c).arg0 = s.arg0 := rfl
@[simp] theorem State.setCfg_arg1 (c : Cfg) (s : State) : (s.setCfg c).arg1 = s.arg1 := rfl
@[simp] theorem State.setCfg_arg2 (c : Cfg) (s : State) : (s.setCfg c).arg2 = s.arg2 := rfl
@[simp] theorem State.setCfg_arg3 (c : Cfg) (s : State) : (s.setCfg c).arg3 = s.arg3 := rfl
@[simp] theorem State.setCfg_cmd (c : Cfg) (s : State) : (s.setCfg c).cmd = s.cmd := rfl
@[simp] theorem State.setCfg_cfg (c : Cfg) (s : State) : (s.setCfg c).cfg = c := rfl
@[simp] theorem State.setCfg_tab (c : Cfg) (s : State) : (s.setCfg c).tab = s.tab := rfl
@[simp] theorem State.setCfg_pkt (c : Cfg) (s : State) : (s.setCfg c).pkt = s.pkt := rfl
@[simp] theorem State.setCfg_pcm (c : Cfg) (s : State) : (s.setCfg c).pcm = s.pcm := rfl
@[simp] theorem State.setCfg_issuer (c : Cfg) (s : State) : (s.setCfg c).issuer = s.issuer := rfl
@[simp] theorem State.setCfg_eofInResidue (c : Cfg) (s : State) : (s.setCfg c).eofInResidue = s.eofInResidue := rfl

/-! ### `State.setTab` -/
@[simp] theorem State.setTab_base (t : Tab) (s : State) : (s.setTab t).base = s.base := rfl
@[simp] theorem State.setTab_len (t : Tab) (s : State) : (s.setTab t).len = s.len := rfl
@[simp] theorem State.setTab_pos (t : Tab) (s : State) : (s.setTab t).pos = s.pos := rfl
@[simp] theorem State.setTab_eoff (t : Tab) (s : State) : (s.setTab t).eoff = s.eoff := rfl
@[simp] theorem State.setTab_mode (t : Tab) (s : State) : (s.setTab t).mode = s.mode := rfl
@[simp] theorem State.setTab_w (t : Tab) (s : State) : (s.setTab t).w = s.w := rfl
@[simp] theorem State.setTab_lw (t : Tab) (s : State) : (s.setTab t).lw = s.lw := rfl
@[simp] theorem State.setTab_nw (t : Tab) (s : State) : (s.setTab t).nw = s.nw := rfl
@[simp] theorem State.setTab_pcmend (t : Tab) (s : State) : (s.setTab t).pcmend = s.pcmend := rfl
@[simp] theorem State.setTab_granule (t : Tab) (s : State) : (s.setTab t).granule = s.granule := rfl
@[simp] theorem State.setTab_eos (t : Tab) (s : State) : (s.setTab t).eos = s.eos := rfl
@[simp] theorem State.setTab_bos (t : Tab) (s : State) : (s.setTab t).bos = s.bos := rfl
@[simp] theorem State.setTab_nonzero (t : Tab) (s : State) : (s.setTab t).nonzero = s.nonzero := rfl
@[simp] theorem State.setTab_memo (t : Tab) (s : State) : (s.setTab t).memo = s.memo := rfl
@[simp] theorem State.setTab_lsp (t : Tab) (s : State) : (s.setTab t).lsp = s.lsp := rfl
@[simp] theorem State.setTab_phase (t : Tab) (s : State) : (s.setTab t).phase = s.phase := rfl
@[simp] theorem State.setTab_bstate (t : Tab) (s : State) : (s.setTab t).bstate = s.bstate := rfl
@[simp] theorem State.setTab_status (t : Tab) (s : State) : (s.setTab t).status = s.status := rfl
@[simp] theorem State.setTab_cause (t : Tab) (s : State) : (s.setTab t).cause = s.cause := rfl
@[simp] theorem State.setTab_res (t : Tab) (s : State) : (s.setTab t).res = s.res := rfl
@[simp] theorem State.setTab_samples (t : Tab) (s : State) : (s.setTab t).samples = s.samples := rfl
@[simp] theorem State.setTab_trunc (t : Tab) (s : State) : (s.setTab t).trunc = s.trunc := rfl
@[simp] theorem State.setTab_arg0 (t : Tab) (s : State) : (s.setTab t).arg0 = s.arg0 := rfl
@[simp] theorem State.setTab_arg1 (t : Tab) (s : State) : (s.setTab t).arg1 = s.arg1 := rfl
@[simp] theorem State.setTab_arg2 (t : Tab) (s : State) : (s.setTab t).arg2 = s.arg2 := rfl
@[simp] theorem State.setTab_arg3 (t : Tab) (s : State) : (s.setTab t).arg3 = s.arg3 := rfl
@[simp] theorem State.setTab_cmd (t : Tab) (s : State) : (s.setTab t).cmd = s.cmd := rfl
@[simp] theorem State.setTab_cfg (t : Tab) (s : State) : (s.setTab t).cfg = s.cfg := rfl
@[simp] theorem State.setTab_tab (t : Tab) (s : State) : (s.setTab t).tab = t := rfl
@[simp] theorem State.setTab_pkt (t : Tab) (s : State) : (s.setTab t).pkt = s.pkt := rfl
@[simp] theorem State.setTab_pcm (t : Tab) (s : State) : (s.setTab t).pcm = s.pcm := rfl
@[simp] theorem State.setTab_issuer (t : Tab) (s : State) : (s.setTab t).issuer = s.issuer := rfl
@[simp] theorem State.setTab_eofInResidue (t : Tab) (s : State) : (s.setTab t).eofInResidue = s.eofInResidue := rfl

/-! ### `State.setPcm` -/
@[simp] theorem State.setPcm_base (p : List (List F32)) (s : State) : (s.setPcm p).base = s.base := rfl
@[simp] theorem State.setPcm_len (p : List (List F32)) (s : State) : (s.setPcm p).len = s.len := rfl
@[simp] theorem State.setPcm_pos (p : List (List F32)) (s : State) : (s.setPcm p).pos = s.pos := rfl
@[simp] theorem State.setPcm_eoff (p : List (List F32)) (s : State) : (s.setPcm p).eoff = s.eoff := rfl
@[simp] theorem State.setPcm_mode (p : List (List F32)) (s : State) : (s.setPcm p).mode = s.mode := rfl
@[simp] theorem State.setPcm_w (p : List (List F32)) (s : State) : (s.setPcm p).w = s.w := rfl
@[simp] theorem State.setPcm_lw (p : List (List F32)) (s : State) : (s.setPcm p).lw = s.lw := rfl
@[simp] theorem State.setPcm_nw (p : List (List F32)) (s : State) : (s.setPcm p).nw = s.nw := rfl
@[simp] theorem State.setPcm_pcmend (p : List (List F32)) (s : State) : (s.setPcm p).pcmend = s.pcmend := rfl
@[simp] theorem State.setPcm_granule (p : List (List F32)) (s : State) : (s.setPcm p).granule = s.granule := rfl
@[simp] theorem State.setPcm_eos (p : List (List F32)) (s : State) : (s.setPcm p).eos = s.eos := rfl
@[simp] theorem State.setPcm_bos (p : List (List F32)) (s : State) : (s.setPcm p).bos = s.bos := rfl
@[simp] theorem State.setPcm_nonzero (p : List (List F32)) (s : State) : (s.setPcm p).nonzero = s.nonzero := rfl
@[simp] theorem State.setPcm_memo (p : List (List F32)) (s : State) : (s.setPcm p).memo = s.memo := rfl
@[simp] theorem State.setPcm_lsp (p : List (List F32)) (s : State) : (s.setPcm p).lsp = s.lsp := rfl
@[simp] theorem State.setPcm_phase (p : List (List F32)) (s : State) : (s.setPcm p).phase = s.phase := rfl
@[simp] theorem State.setPcm_bstate (p : List (List F32)) (s : State) : (s.setPcm p).bstate = s.bstate := rfl
@[simp] theorem State.setPcm_status (p : List (List F32)) (s : State) : (s.setPcm p).status = s.status := rfl
@[simp] theorem State.setPcm_cause (p : List (List F32)) (s : State) : (s.setPcm p).cause = s.cause := rfl
@[simp] theorem State.setPcm_res (p : List (List F32)) (s : State) : (s.setPcm p).res = s.res := rfl
@[simp] theorem State.setPcm_samples (p : List (List F32)) (s : State) : (s.setPcm p).samples = s.samples := rfl
@[simp] theorem State.setPcm_trunc (p : List (List F32)) (s : State) : (s.setPcm p).trunc = s.trunc := rfl
@[simp] theorem State.setPcm_arg0 (p : List (List F32)) (s : State) : (s.setPcm p).arg0 = s.arg0 := rfl
@[simp] theorem State.setPcm_arg1 (p : List (List F32)) (s : State) : (s.setPcm p).arg1 = s.arg1 := rfl
@[simp] theorem State.setPcm_arg2 (p : List (List F32)) (s : State) : (s.setPcm p).arg2 = s.arg2 := rfl
@[simp] theorem State.setPcm_arg3 (p : List (List F32)) (s : State) : (s.setPcm p).arg3 = s.arg3 := rfl
@[simp] theorem State.setPcm_cmd (p : List (List F32)) (s : State) : (s.setPcm p).cmd = s.cmd := rfl
@[simp] theorem State.setPcm_cfg (p : List (List F32)) (s : State) : (s.setPcm p).cfg = s.cfg := rfl
@[simp] theorem State.setPcm_tab (p : List (List F32)) (s : State) : (s.setPcm p).tab = s.tab := rfl
@[simp] theorem State.setPcm_pkt (p : List (List F32)) (s : State) : (s.setPcm p).pkt = s.pkt := rfl
@[simp] theorem State.setPcm_pcm (p : List (List F32)) (s : State) : (s.setPcm p).pcm = p := rfl
@[simp] theorem State.setPcm_issuer (p : List (List F32)) (s : State) : (s.setPcm p).issuer = s.issuer := rfl
@[simp] theorem State.setPcm_eofInResidue (p : List (List F32)) (s : State) : (s.setPcm p).eofInResidue = s.eofInResidue := rfl

/-! ### `State.completeOk` -/
@[simp] theorem State.completeOk_base (v : BitVec 32) (s : State) : (s.completeOk v).base = s.base := rfl
@[simp] theorem State.completeOk_len (v : BitVec 32) (s : State) : (s.completeOk v).len = s.len := rfl
@[simp] theorem State.completeOk_pos (v : BitVec 32) (s : State) : (s.completeOk v).pos = s.pos := rfl
@[simp] theorem State.completeOk_eoff (v : BitVec 32) (s : State) : (s.completeOk v).eoff = s.eoff := rfl
@[simp] theorem State.completeOk_mode (v : BitVec 32) (s : State) : (s.completeOk v).mode = s.mode := rfl
@[simp] theorem State.completeOk_w (v : BitVec 32) (s : State) : (s.completeOk v).w = s.w := rfl
@[simp] theorem State.completeOk_lw (v : BitVec 32) (s : State) : (s.completeOk v).lw = s.lw := rfl
@[simp] theorem State.completeOk_nw (v : BitVec 32) (s : State) : (s.completeOk v).nw = s.nw := rfl
@[simp] theorem State.completeOk_pcmend (v : BitVec 32) (s : State) : (s.completeOk v).pcmend = s.pcmend := rfl
@[simp] theorem State.completeOk_granule (v : BitVec 32) (s : State) : (s.completeOk v).granule = s.granule := rfl
@[simp] theorem State.completeOk_eos (v : BitVec 32) (s : State) : (s.completeOk v).eos = s.eos := rfl
@[simp] theorem State.completeOk_bos (v : BitVec 32) (s : State) : (s.completeOk v).bos = s.bos := rfl
@[simp] theorem State.completeOk_nonzero (v : BitVec 32) (s : State) : (s.completeOk v).nonzero = s.nonzero := rfl
@[simp] theorem State.completeOk_memo (v : BitVec 32) (s : State) : (s.completeOk v).memo = s.memo := rfl
@[simp] theorem State.completeOk_lsp (v : BitVec 32) (s : State) : (s.completeOk v).lsp = s.lsp := rfl
@[simp] theorem State.completeOk_phase (v : BitVec 32) (s : State) : (s.completeOk v).phase = s.phase := rfl
@[simp] theorem State.completeOk_bstate (v : BitVec 32) (s : State) : (s.completeOk v).bstate = s.bstate := rfl
@[simp] theorem State.completeOk_status (v : BitVec 32) (s : State) : (s.completeOk v).status = 0 := rfl
@[simp] theorem State.completeOk_cause (v : BitVec 32) (s : State) : (s.completeOk v).cause = 0 := rfl
@[simp] theorem State.completeOk_res (v : BitVec 32) (s : State) : (s.completeOk v).res = v := rfl
@[simp] theorem State.completeOk_samples (v : BitVec 32) (s : State) : (s.completeOk v).samples = s.samples := rfl
@[simp] theorem State.completeOk_trunc (v : BitVec 32) (s : State) : (s.completeOk v).trunc = s.trunc := rfl
@[simp] theorem State.completeOk_arg0 (v : BitVec 32) (s : State) : (s.completeOk v).arg0 = s.arg0 := rfl
@[simp] theorem State.completeOk_arg1 (v : BitVec 32) (s : State) : (s.completeOk v).arg1 = s.arg1 := rfl
@[simp] theorem State.completeOk_arg2 (v : BitVec 32) (s : State) : (s.completeOk v).arg2 = s.arg2 := rfl
@[simp] theorem State.completeOk_arg3 (v : BitVec 32) (s : State) : (s.completeOk v).arg3 = s.arg3 := rfl
@[simp] theorem State.completeOk_cmd (v : BitVec 32) (s : State) : (s.completeOk v).cmd = none := rfl
@[simp] theorem State.completeOk_cfg (v : BitVec 32) (s : State) : (s.completeOk v).cfg = s.cfg := rfl
@[simp] theorem State.completeOk_tab (v : BitVec 32) (s : State) : (s.completeOk v).tab = s.tab := rfl
@[simp] theorem State.completeOk_pkt (v : BitVec 32) (s : State) : (s.completeOk v).pkt = s.pkt := rfl
@[simp] theorem State.completeOk_pcm (v : BitVec 32) (s : State) : (s.completeOk v).pcm = s.pcm := rfl
@[simp] theorem State.completeOk_issuer (v : BitVec 32) (s : State) : (s.completeOk v).issuer = s.issuer := rfl
@[simp] theorem State.completeOk_eofInResidue (v : BitVec 32) (s : State) : (s.completeOk v).eofInResidue = s.eofInResidue := rfl

/-! ### `State.completeFail` -/
@[simp] theorem State.completeFail_base (f : Failure) (s : State) : (s.completeFail f).base = s.base := rfl
@[simp] theorem State.completeFail_len (f : Failure) (s : State) : (s.completeFail f).len = s.len := rfl
@[simp] theorem State.completeFail_pos (f : Failure) (s : State) : (s.completeFail f).pos = s.pos := rfl
@[simp] theorem State.completeFail_eoff (f : Failure) (s : State) : (s.completeFail f).eoff = s.eoff := rfl
@[simp] theorem State.completeFail_mode (f : Failure) (s : State) : (s.completeFail f).mode = s.mode := rfl
@[simp] theorem State.completeFail_w (f : Failure) (s : State) : (s.completeFail f).w = s.w := rfl
@[simp] theorem State.completeFail_lw (f : Failure) (s : State) : (s.completeFail f).lw = s.lw := rfl
@[simp] theorem State.completeFail_nw (f : Failure) (s : State) : (s.completeFail f).nw = s.nw := rfl
@[simp] theorem State.completeFail_pcmend (f : Failure) (s : State) : (s.completeFail f).pcmend = s.pcmend := rfl
@[simp] theorem State.completeFail_granule (f : Failure) (s : State) : (s.completeFail f).granule = s.granule := rfl
@[simp] theorem State.completeFail_eos (f : Failure) (s : State) : (s.completeFail f).eos = s.eos := rfl
@[simp] theorem State.completeFail_bos (f : Failure) (s : State) : (s.completeFail f).bos = s.bos := rfl
@[simp] theorem State.completeFail_nonzero (f : Failure) (s : State) : (s.completeFail f).nonzero = s.nonzero := rfl
@[simp] theorem State.completeFail_memo (f : Failure) (s : State) : (s.completeFail f).memo = s.memo := rfl
@[simp] theorem State.completeFail_lsp (f : Failure) (s : State) : (s.completeFail f).lsp = s.lsp := rfl
@[simp] theorem State.completeFail_phase (f : Failure) (s : State) : (s.completeFail f).phase = s.phase := rfl
@[simp] theorem State.completeFail_bstate (f : Failure) (s : State) : (s.completeFail f).bstate = s.bstate := rfl
@[simp] theorem State.completeFail_status (f : Failure) (s : State) : (s.completeFail f).status = f.code := rfl
@[simp] theorem State.completeFail_cause (f : Failure) (s : State) : (s.completeFail f).cause = f.cause := rfl
@[simp] theorem State.completeFail_res (f : Failure) (s : State) : (s.completeFail f).res = 0xFFFFFFFF := rfl
@[simp] theorem State.completeFail_samples (f : Failure) (s : State) : (s.completeFail f).samples = s.samples := rfl
@[simp] theorem State.completeFail_trunc (f : Failure) (s : State) : (s.completeFail f).trunc = s.trunc := rfl
@[simp] theorem State.completeFail_arg0 (f : Failure) (s : State) : (s.completeFail f).arg0 = s.arg0 := rfl
@[simp] theorem State.completeFail_arg1 (f : Failure) (s : State) : (s.completeFail f).arg1 = s.arg1 := rfl
@[simp] theorem State.completeFail_arg2 (f : Failure) (s : State) : (s.completeFail f).arg2 = s.arg2 := rfl
@[simp] theorem State.completeFail_arg3 (f : Failure) (s : State) : (s.completeFail f).arg3 = s.arg3 := rfl
@[simp] theorem State.completeFail_cmd (f : Failure) (s : State) : (s.completeFail f).cmd = none := rfl
@[simp] theorem State.completeFail_cfg (f : Failure) (s : State) : (s.completeFail f).cfg = s.cfg := rfl
@[simp] theorem State.completeFail_tab (f : Failure) (s : State) : (s.completeFail f).tab = s.tab := rfl
@[simp] theorem State.completeFail_pkt (f : Failure) (s : State) : (s.completeFail f).pkt = s.pkt := rfl
@[simp] theorem State.completeFail_pcm (f : Failure) (s : State) : (s.completeFail f).pcm = s.pcm := rfl
@[simp] theorem State.completeFail_issuer (f : Failure) (s : State) : (s.completeFail f).issuer = s.issuer := rfl
@[simp] theorem State.completeFail_eofInResidue (f : Failure) (s : State) : (s.completeFail f).eofInResidue = s.eofInResidue := rfl

/-! ### `State.hostWriteCmd` -/
@[simp] theorem State.hostWriteCmd_base (w : BitVec 32) (s : State) : (s.hostWriteCmd w).base = s.base := rfl
@[simp] theorem State.hostWriteCmd_len (w : BitVec 32) (s : State) : (s.hostWriteCmd w).len = s.len := rfl
@[simp] theorem State.hostWriteCmd_pos (w : BitVec 32) (s : State) : (s.hostWriteCmd w).pos = s.pos := rfl
@[simp] theorem State.hostWriteCmd_eoff (w : BitVec 32) (s : State) : (s.hostWriteCmd w).eoff = s.eoff := rfl
@[simp] theorem State.hostWriteCmd_mode (w : BitVec 32) (s : State) : (s.hostWriteCmd w).mode = s.mode := rfl
@[simp] theorem State.hostWriteCmd_w (w : BitVec 32) (s : State) : (s.hostWriteCmd w).w = s.w := rfl
@[simp] theorem State.hostWriteCmd_lw (w : BitVec 32) (s : State) : (s.hostWriteCmd w).lw = s.lw := rfl
@[simp] theorem State.hostWriteCmd_nw (w : BitVec 32) (s : State) : (s.hostWriteCmd w).nw = s.nw := rfl
@[simp] theorem State.hostWriteCmd_pcmend (w : BitVec 32) (s : State) : (s.hostWriteCmd w).pcmend = s.pcmend := rfl
@[simp] theorem State.hostWriteCmd_granule (w : BitVec 32) (s : State) : (s.hostWriteCmd w).granule = s.granule := rfl
@[simp] theorem State.hostWriteCmd_eos (w : BitVec 32) (s : State) : (s.hostWriteCmd w).eos = s.eos := rfl
@[simp] theorem State.hostWriteCmd_bos (w : BitVec 32) (s : State) : (s.hostWriteCmd w).bos = s.bos := rfl
@[simp] theorem State.hostWriteCmd_nonzero (w : BitVec 32) (s : State) : (s.hostWriteCmd w).nonzero = s.nonzero := rfl
@[simp] theorem State.hostWriteCmd_memo (w : BitVec 32) (s : State) : (s.hostWriteCmd w).memo = s.memo := rfl
@[simp] theorem State.hostWriteCmd_lsp (w : BitVec 32) (s : State) : (s.hostWriteCmd w).lsp = s.lsp := rfl
@[simp] theorem State.hostWriteCmd_phase (w : BitVec 32) (s : State) : (s.hostWriteCmd w).phase = s.phase := rfl
@[simp] theorem State.hostWriteCmd_bstate (w : BitVec 32) (s : State) : (s.hostWriteCmd w).bstate = s.bstate := rfl
@[simp] theorem State.hostWriteCmd_status (w : BitVec 32) (s : State) : (s.hostWriteCmd w).status = s.status := rfl
@[simp] theorem State.hostWriteCmd_cause (w : BitVec 32) (s : State) : (s.hostWriteCmd w).cause = s.cause := rfl
@[simp] theorem State.hostWriteCmd_res (w : BitVec 32) (s : State) : (s.hostWriteCmd w).res = s.res := rfl
@[simp] theorem State.hostWriteCmd_samples (w : BitVec 32) (s : State) : (s.hostWriteCmd w).samples = s.samples := rfl
@[simp] theorem State.hostWriteCmd_trunc (w : BitVec 32) (s : State) : (s.hostWriteCmd w).trunc = s.trunc := rfl
@[simp] theorem State.hostWriteCmd_arg0 (w : BitVec 32) (s : State) : (s.hostWriteCmd w).arg0 = s.arg0 := rfl
@[simp] theorem State.hostWriteCmd_arg1 (w : BitVec 32) (s : State) : (s.hostWriteCmd w).arg1 = s.arg1 := rfl
@[simp] theorem State.hostWriteCmd_arg2 (w : BitVec 32) (s : State) : (s.hostWriteCmd w).arg2 = s.arg2 := rfl
@[simp] theorem State.hostWriteCmd_arg3 (w : BitVec 32) (s : State) : (s.hostWriteCmd w).arg3 = s.arg3 := rfl
@[simp] theorem State.hostWriteCmd_cmd (w : BitVec 32) (s : State) : (s.hostWriteCmd w).cmd = some w := rfl
@[simp] theorem State.hostWriteCmd_cfg (w : BitVec 32) (s : State) : (s.hostWriteCmd w).cfg = s.cfg := rfl
@[simp] theorem State.hostWriteCmd_tab (w : BitVec 32) (s : State) : (s.hostWriteCmd w).tab = s.tab := rfl
@[simp] theorem State.hostWriteCmd_pkt (w : BitVec 32) (s : State) : (s.hostWriteCmd w).pkt = s.pkt := rfl
@[simp] theorem State.hostWriteCmd_pcm (w : BitVec 32) (s : State) : (s.hostWriteCmd w).pcm = s.pcm := rfl
@[simp] theorem State.hostWriteCmd_issuer (w : BitVec 32) (s : State) : (s.hostWriteCmd w).issuer = s.issuer := rfl
@[simp] theorem State.hostWriteCmd_eofInResidue (w : BitVec 32) (s : State) : (s.hostWriteCmd w).eofInResidue = s.eofInResidue := rfl

/-! ### `State.cleared` -/
@[simp] theorem State.cleared_base (s : State) : s.cleared.base = State.reset.base := rfl
@[simp] theorem State.cleared_len (s : State) : s.cleared.len = State.reset.len := rfl
@[simp] theorem State.cleared_pos (s : State) : s.cleared.pos = State.reset.pos := rfl
@[simp] theorem State.cleared_eoff (s : State) : s.cleared.eoff = State.reset.eoff := rfl
@[simp] theorem State.cleared_mode (s : State) : s.cleared.mode = State.reset.mode := rfl
@[simp] theorem State.cleared_w (s : State) : s.cleared.w = State.reset.w := rfl
@[simp] theorem State.cleared_lw (s : State) : s.cleared.lw = State.reset.lw := rfl
@[simp] theorem State.cleared_nw (s : State) : s.cleared.nw = State.reset.nw := rfl
@[simp] theorem State.cleared_pcmend (s : State) : s.cleared.pcmend = State.reset.pcmend := rfl
@[simp] theorem State.cleared_granule (s : State) : s.cleared.granule = State.reset.granule := rfl
@[simp] theorem State.cleared_eos (s : State) : s.cleared.eos = State.reset.eos := rfl
@[simp] theorem State.cleared_bos (s : State) : s.cleared.bos = State.reset.bos := rfl
@[simp] theorem State.cleared_nonzero (s : State) : s.cleared.nonzero = State.reset.nonzero := rfl
@[simp] theorem State.cleared_memo (s : State) : s.cleared.memo = State.reset.memo := rfl
@[simp] theorem State.cleared_lsp (s : State) : s.cleared.lsp = State.reset.lsp := rfl
@[simp] theorem State.cleared_phase (s : State) : s.cleared.phase = State.reset.phase := rfl
@[simp] theorem State.cleared_bstate (s : State) : s.cleared.bstate = State.reset.bstate := rfl
@[simp] theorem State.cleared_status (s : State) : s.cleared.status = State.reset.status := rfl
@[simp] theorem State.cleared_cause (s : State) : s.cleared.cause = State.reset.cause := rfl
@[simp] theorem State.cleared_res (s : State) : s.cleared.res = State.reset.res := rfl
@[simp] theorem State.cleared_samples (s : State) : s.cleared.samples = State.reset.samples := rfl
@[simp] theorem State.cleared_trunc (s : State) : s.cleared.trunc = State.reset.trunc := rfl
@[simp] theorem State.cleared_arg0 (s : State) : s.cleared.arg0 = s.arg0 := rfl
@[simp] theorem State.cleared_arg1 (s : State) : s.cleared.arg1 = s.arg1 := rfl
@[simp] theorem State.cleared_arg2 (s : State) : s.cleared.arg2 = s.arg2 := rfl
@[simp] theorem State.cleared_arg3 (s : State) : s.cleared.arg3 = s.arg3 := rfl
@[simp] theorem State.cleared_cmd (s : State) : s.cleared.cmd = State.reset.cmd := rfl
@[simp] theorem State.cleared_cfg (s : State) : s.cleared.cfg = State.reset.cfg := rfl
@[simp] theorem State.cleared_tab (s : State) : s.cleared.tab = State.reset.tab := rfl
@[simp] theorem State.cleared_pkt (s : State) : s.cleared.pkt = s.pkt := rfl
@[simp] theorem State.cleared_pcm (s : State) : s.cleared.pcm = State.reset.pcm := rfl
@[simp] theorem State.cleared_issuer (s : State) : s.cleared.issuer = s.issuer := rfl
@[simp] theorem State.cleared_eofInResidue (s : State) : s.cleared.eofInResidue = s.eofInResidue := rfl

/-! ### `State.tornDown` -/
@[simp] theorem State.tornDown_base (s : State) : s.tornDown.base = s.base := rfl
@[simp] theorem State.tornDown_len (s : State) : s.tornDown.len = s.len := rfl
@[simp] theorem State.tornDown_pos (s : State) : s.tornDown.pos = s.pos := rfl
@[simp] theorem State.tornDown_eoff (s : State) : s.tornDown.eoff = s.eoff := rfl
@[simp] theorem State.tornDown_mode (s : State) : s.tornDown.mode = State.reset.mode := rfl
@[simp] theorem State.tornDown_w (s : State) : s.tornDown.w = State.reset.w := rfl
@[simp] theorem State.tornDown_lw (s : State) : s.tornDown.lw = State.reset.lw := rfl
@[simp] theorem State.tornDown_nw (s : State) : s.tornDown.nw = State.reset.nw := rfl
@[simp] theorem State.tornDown_pcmend (s : State) : s.tornDown.pcmend = State.reset.pcmend := rfl
@[simp] theorem State.tornDown_granule (s : State) : s.tornDown.granule = s.granule := rfl
@[simp] theorem State.tornDown_eos (s : State) : s.tornDown.eos = s.eos := rfl
@[simp] theorem State.tornDown_bos (s : State) : s.tornDown.bos = s.bos := rfl
@[simp] theorem State.tornDown_nonzero (s : State) : s.tornDown.nonzero = State.reset.nonzero := rfl
@[simp] theorem State.tornDown_memo (s : State) : s.tornDown.memo = State.reset.memo := rfl
@[simp] theorem State.tornDown_lsp (s : State) : s.tornDown.lsp = State.reset.lsp := rfl
@[simp] theorem State.tornDown_phase (s : State) : s.tornDown.phase = State.reset.phase := rfl
@[simp] theorem State.tornDown_bstate (s : State) : s.tornDown.bstate = State.reset.bstate := rfl
@[simp] theorem State.tornDown_status (s : State) : s.tornDown.status = State.reset.status := rfl
@[simp] theorem State.tornDown_cause (s : State) : s.tornDown.cause = State.reset.cause := rfl
@[simp] theorem State.tornDown_res (s : State) : s.tornDown.res = State.reset.res := rfl
@[simp] theorem State.tornDown_samples (s : State) : s.tornDown.samples = State.reset.samples := rfl
@[simp] theorem State.tornDown_trunc (s : State) : s.tornDown.trunc = State.reset.trunc := rfl
@[simp] theorem State.tornDown_arg0 (s : State) : s.tornDown.arg0 = s.arg0 := rfl
@[simp] theorem State.tornDown_arg1 (s : State) : s.tornDown.arg1 = s.arg1 := rfl
@[simp] theorem State.tornDown_arg2 (s : State) : s.tornDown.arg2 = s.arg2 := rfl
@[simp] theorem State.tornDown_arg3 (s : State) : s.tornDown.arg3 = s.arg3 := rfl
@[simp] theorem State.tornDown_cmd (s : State) : s.tornDown.cmd = State.reset.cmd := rfl
@[simp] theorem State.tornDown_cfg (s : State) : s.tornDown.cfg = State.reset.cfg := rfl
@[simp] theorem State.tornDown_tab (s : State) : s.tornDown.tab = State.reset.tab := rfl
@[simp] theorem State.tornDown_pkt (s : State) : s.tornDown.pkt = s.pkt := rfl
@[simp] theorem State.tornDown_pcm (s : State) : s.tornDown.pcm = State.reset.pcm := rfl
@[simp] theorem State.tornDown_issuer (s : State) : s.tornDown.issuer = s.issuer := rfl
@[simp] theorem State.tornDown_eofInResidue (s : State) : s.tornDown.eofInResidue = s.eofInResidue := rfl

/-! ### `State.withEofInResidue` -/
@[simp] theorem State.withEofInResidue_base (x : EofInResidue) (s : State) : (s.withEofInResidue x).base = s.base := rfl
@[simp] theorem State.withEofInResidue_len (x : EofInResidue) (s : State) : (s.withEofInResidue x).len = s.len := rfl
@[simp] theorem State.withEofInResidue_pos (x : EofInResidue) (s : State) : (s.withEofInResidue x).pos = s.pos := rfl
@[simp] theorem State.withEofInResidue_eoff (x : EofInResidue) (s : State) : (s.withEofInResidue x).eoff = s.eoff := rfl
@[simp] theorem State.withEofInResidue_mode (x : EofInResidue) (s : State) : (s.withEofInResidue x).mode = s.mode := rfl
@[simp] theorem State.withEofInResidue_w (x : EofInResidue) (s : State) : (s.withEofInResidue x).w = s.w := rfl
@[simp] theorem State.withEofInResidue_lw (x : EofInResidue) (s : State) : (s.withEofInResidue x).lw = s.lw := rfl
@[simp] theorem State.withEofInResidue_nw (x : EofInResidue) (s : State) : (s.withEofInResidue x).nw = s.nw := rfl
@[simp] theorem State.withEofInResidue_pcmend (x : EofInResidue) (s : State) : (s.withEofInResidue x).pcmend = s.pcmend := rfl
@[simp] theorem State.withEofInResidue_granule (x : EofInResidue) (s : State) : (s.withEofInResidue x).granule = s.granule := rfl
@[simp] theorem State.withEofInResidue_eos (x : EofInResidue) (s : State) : (s.withEofInResidue x).eos = s.eos := rfl
@[simp] theorem State.withEofInResidue_bos (x : EofInResidue) (s : State) : (s.withEofInResidue x).bos = s.bos := rfl
@[simp] theorem State.withEofInResidue_nonzero (x : EofInResidue) (s : State) : (s.withEofInResidue x).nonzero = s.nonzero := rfl
@[simp] theorem State.withEofInResidue_memo (x : EofInResidue) (s : State) : (s.withEofInResidue x).memo = s.memo := rfl
@[simp] theorem State.withEofInResidue_lsp (x : EofInResidue) (s : State) : (s.withEofInResidue x).lsp = s.lsp := rfl
@[simp] theorem State.withEofInResidue_phase (x : EofInResidue) (s : State) : (s.withEofInResidue x).phase = s.phase := rfl
@[simp] theorem State.withEofInResidue_bstate (x : EofInResidue) (s : State) : (s.withEofInResidue x).bstate = s.bstate := rfl
@[simp] theorem State.withEofInResidue_status (x : EofInResidue) (s : State) : (s.withEofInResidue x).status = s.status := rfl
@[simp] theorem State.withEofInResidue_cause (x : EofInResidue) (s : State) : (s.withEofInResidue x).cause = s.cause := rfl
@[simp] theorem State.withEofInResidue_res (x : EofInResidue) (s : State) : (s.withEofInResidue x).res = s.res := rfl
@[simp] theorem State.withEofInResidue_samples (x : EofInResidue) (s : State) : (s.withEofInResidue x).samples = s.samples := rfl
@[simp] theorem State.withEofInResidue_trunc (x : EofInResidue) (s : State) : (s.withEofInResidue x).trunc = s.trunc := rfl
@[simp] theorem State.withEofInResidue_arg0 (x : EofInResidue) (s : State) : (s.withEofInResidue x).arg0 = s.arg0 := rfl
@[simp] theorem State.withEofInResidue_arg1 (x : EofInResidue) (s : State) : (s.withEofInResidue x).arg1 = s.arg1 := rfl
@[simp] theorem State.withEofInResidue_arg2 (x : EofInResidue) (s : State) : (s.withEofInResidue x).arg2 = s.arg2 := rfl
@[simp] theorem State.withEofInResidue_arg3 (x : EofInResidue) (s : State) : (s.withEofInResidue x).arg3 = s.arg3 := rfl
@[simp] theorem State.withEofInResidue_cmd (x : EofInResidue) (s : State) : (s.withEofInResidue x).cmd = s.cmd := rfl
@[simp] theorem State.withEofInResidue_cfg (x : EofInResidue) (s : State) : (s.withEofInResidue x).cfg = s.cfg := rfl
@[simp] theorem State.withEofInResidue_tab (x : EofInResidue) (s : State) : (s.withEofInResidue x).tab = s.tab := rfl
@[simp] theorem State.withEofInResidue_pkt (x : EofInResidue) (s : State) : (s.withEofInResidue x).pkt = s.pkt := rfl
@[simp] theorem State.withEofInResidue_pcm (x : EofInResidue) (s : State) : (s.withEofInResidue x).pcm = s.pcm := rfl
@[simp] theorem State.withEofInResidue_issuer (x : EofInResidue) (s : State) : (s.withEofInResidue x).issuer = s.issuer := rfl
@[simp] theorem State.withEofInResidue_eofInResidue (x : EofInResidue) (s : State) : (s.withEofInResidue x).eofInResidue = x := rfl
/-- A state under its own value of the parameter. -/
@[simp] theorem State.withEofInResidue_self (s : State) : s.withEofInResidue s.eofInResidue = s := rfl
@[simp] theorem State.withEofInResidue_twice (x y : EofInResidue) (s : State) :
    (s.withEofInResidue x).withEofInResidue y = s.withEofInResidue y := rfl

end Sys2Proof.Machine
end

