-- ==== Sys2Proof/Laws/Sat.lean ====
section
/-! SUPPORT. A calculus for operations: `Sat op s Q E` says that `op`, run at `s`, either returns with `Q` or aborts with
`E`. One lemma for each way operations are put together. -/

namespace Sys2Proof.Machine

/-- Run at `s`, the operation returns a value and state that satisfy `Q`, or aborts with `E`. -/
def Sat {α : Type} (op : Op α) (s : State) (Q : α → State → Prop) (E : Failure → State → Prop) : Prop :=
  match op s with
  | .ok a t => Q a t
  | .error e t => E e t

variable {α β : Type} {s t : State} {Q Q' : α → State → Prop} {E E' : Failure → State → Prop}

theorem Sat.of_ok {op : Op α} {a : α} (h : op s = .ok a t) (q : Q a t) : Sat op s Q E := by
  simpa [Sat, h] using q

theorem Sat.of_error {op : Op α} {e : Failure} (h : op s = .error e t) (q : E e t) : Sat op s Q E := by
  simpa [Sat, h] using q

theorem Sat.ok {op : Op α} {a : α} (h : Sat op s Q E) (r : op s = .ok a t) : Q a t := by
  simpa [Sat, r] using h

theorem Sat.error {op : Op α} {e : Failure} (h : Sat op s Q E) (r : op s = .error e t) : E e t := by
  simpa [Sat, r] using h

theorem Sat.mono {op : Op α} (h : Sat op s Q E) (hq : ∀ a t, Q a t → Q' a t) (he : ∀ e t, E e t → E' e t) :
    Sat op s Q' E' := by
  unfold Sat at *
  split at h
  · exact hq _ _ h
  · exact he _ _ h

theorem Sat.and {op : Op α} (h : Sat op s Q E) (h' : Sat op s Q' E') :
    Sat op s (fun a t => Q a t ∧ Q' a t) (fun e t => E e t ∧ E' e t) := by
  unfold Sat at *
  split at h <;> simp_all

theorem sat_pure {a : α} : Sat (pure a) s Q E ↔ Q a s := Iff.rfl

theorem sat_get {Q : State → State → Prop} : Sat (get : Op State) s Q E ↔ Q s s := Iff.rfl

theorem sat_modify {Q : Unit → State → Prop} {f : State → State} : Sat (modify f : Op Unit) s Q E ↔ Q () (f s) := Iff.rfl

theorem sat_raise {f : Failure} : Sat (raise f : Op α) s Q E ↔ E f s := Iff.rfl

theorem sat_result {v : Nat} {Q : BitVec 32 → State → Prop} : Sat (result v) s Q E ↔ Q (BitVec.ofNat 32 v) s := Iff.rfl

theorem bind_ok {x : Op α} {f : α → Op β} {a : α} (h : x s = .ok a t) : (x >>= f) s = f a t := by
  simp [bind, EStateM.bind, h]

theorem bind_error {x : Op α} {f : α → Op β} {e : Failure} (h : x s = .error e t) : (x >>= f) s = .error e t := by
  simp [bind, EStateM.bind, h]

theorem sat_bind {x : Op α} {f : α → Op β} {Q : β → State → Prop} :
    Sat (x >>= f) s Q E ↔ Sat x s (fun a t => Sat (f a) t Q E) E := by
  cases h : x s with
  | ok a t => simp [Sat, bind_ok h, h]
  | error e t => simp [Sat, bind_error h, h]

theorem Sat.bind {x : Op α} {f : α → Op β} {Q : β → State → Prop} {M : α → State → Prop}
    (hx : Sat x s M E) (hf : ∀ a t, M a t → Sat (f a) t Q E) : Sat (x >>= f) s Q E :=
  sat_bind.2 (hx.mono hf fun _ _ h => h)

/-- A part whose outcome is known, then the rest. -/
theorem Sat.step {x : Op α} {f : α → Op β} {Q : β → State → Prop} {a : α} (h : x s = .ok a t) (hf : Sat (f a) t Q E) :
    Sat (x >>= f) s Q E := sat_bind.2 (Sat.of_ok h hf)

theorem sat_map {x : Op α} {f : α → β} {Q : β → State → Prop} :
    Sat (f <$> x) s Q E ↔ Sat x s (fun a t => Q (f a) t) E := by
  have : f <$> x = x >>= fun a => pure (f a) := rfl
  rw [this, sat_bind]
  rfl

theorem sat_need {o : Option α} :
    Sat (need o) s Q E ↔ (∀ v, o = some v → Q v s) ∧ (o = none → E (.notReady s.phase) s) := by
  cases o <;> simp [Sat, need]

theorem sat_absorb {op handler : Op α} :
    Sat (absorb op handler) s Q E ↔
      Sat op s Q fun e t =>
        (e = .eof ∨ e = .badCode → Sat handler t Q E) ∧
        (¬ (e = .eof ∨ e = .badCode) → E e t) := by
  unfold Sat absorb
  rcases h : op s with ⟨a, t⟩ | ⟨e, t⟩
  · simp
  · cases e <;> simp

/-- An invariant of the body of a loop is an invariant of the loop. -/
theorem sat_forEach {I : State → Prop} {body : β → Op Unit} (l : List β) (hs : I s)
    (hb : ∀ x ∈ l, ∀ t, I t → Sat (body x) t (fun _ u => I u) E) :
    Sat (forEach l body) s (fun _ t => I t) E := by
  induction l generalizing s with
  | nil => exact hs
  | cons x l ih =>
    refine Sat.bind (hb x (by simp) s hs) fun _ t ht => ?_
    exact ih ht fun y hy => hb y (by simp [hy])

/-- The same for a loop that collects what its body returns, with a property of each value. -/
theorem sat_collect {I : State → Prop} {P : α → Prop} {body : β → Op α} (l : List β) (hs : I s)
    (hb : ∀ x ∈ l, ∀ t, I t → Sat (body x) t (fun v u => I u ∧ P v) E) :
    Sat (collect l body) s (fun vs t => I t ∧ vs.length = l.length ∧ ∀ v ∈ vs, P v) E := by
  induction l generalizing s with
  | nil => exact ⟨hs, rfl, by simp⟩
  | cons x l ih =>
    refine Sat.bind (hb x (by simp) s hs) fun v t ht => ?_
    refine Sat.bind (ih ht.1 fun y hy => hb y (by simp [hy])) fun vs u hu => ?_
    exact ⟨hu.1, by simp [hu.2.1], by simpa [ht.2] using hu.2.2⟩

/-- A choice: each side under its condition. -/
theorem sat_ite {p : Prop} [Decidable p] {x y : Op α} :
    Sat (if p then x else y) s Q E ↔ (p → Sat x s Q E) ∧ (¬ p → Sat y s Q E) := by
  split <;> simp_all

end Sys2Proof.Machine
end

