-- ==== Sys2Proof/Laws/Ops.lean ====
section
/-! SUPPORT. The shared operations of Machine/Ops.lean and Machine/Cursor.lean: what each can do, said once. -/

namespace Sys2Proof.Machine

/-! ## The end of an operation -/

/-- All that `finish` can answer. -/
theorem finish_cases (r : EStateM.Result Failure State (BitVec 32)) :
    (∃ v s, r = .ok v s ∧ finish r = .next (s.completeOk v)) ∨
    (∃ f s, r = .error f s ∧ finish r = .next (s.completeFail f)) := by
  rcases r with ⟨v, s⟩ | ⟨f, s⟩
  · exact .inl ⟨v, s, rfl, rfl⟩
  · exact .inr ⟨f, s, rfl, rfl⟩

theorem finish_ok {op : Op (BitVec 32)} {s t : State} {v : BitVec 32} (h : op s = .ok v t) :
    finish (op s) = .next (t.completeOk v) := by rw [h]; rfl

theorem finish_error {op : Op (BitVec 32)} {s t : State} {f : Failure} (h : op s = .error f t) :
    finish (op s) = .next (t.completeFail f) := by rw [h]; rfl

/-- An operation the sequencer issues is never judged (60_exceptions.md R374). -/
theorem issue_sequencer {judge : State → Except Failure Unit} {op : Op (BitVec 32)} {s : State}
    (h : s.issuer = .sequencer) : issue judge op s = finish (op s) := by simp [issue, h]

/-- An operation the host issues and the judge lets through runs. -/
theorem issue_accepted {judge : State → Except Failure Unit} {op : Op (BitVec 32)} {s : State}
    (h : judge s = .ok ()) : issue judge op s = finish (op s) := by
  unfold issue
  split <;> simp_all

/-- An operation the host issues and the judge turns away changes `STATUS`, `CAUSE`, `RES` and `CMD` only. -/
theorem issue_rejected {judge : State → Except Failure Unit} {op : Op (BitVec 32)} {s : State} {f : Failure}
    (hs : s.issuer = .host) (h : judge s = .error f) : issue judge op s = .next (s.completeFail f) := by
  simp [issue, hs, h]

/-- All that `issue` can answer. -/
theorem issue_cases {judge : State → Except Failure Unit} {op : Op (BitVec 32)} {s : State} :
    issue judge op s = finish (op s) ∨
    (∃ f, s.issuer = .host ∧ judge s = .error f ∧ issue judge op s = .next (s.completeFail f)) := by
  unfold issue
  split
  · exact .inl rfl
  · split
    · exact .inl rfl
    · rename_i f h
      exact .inr ⟨f, by simp_all⟩

/-- A property of every outcome of the operation and of a rejection is a property of the next state. -/
theorem issue_next {judge : State → Except Failure Unit} {op : Op (BitVec 32)} {s t : State} {P : State → Prop}
    (h : issue judge op s = .next t)
    (hop : Sat op s (fun v u => P (u.completeOk v)) (fun f u => P (u.completeFail f)))
    (hrej : ∀ f, judge s = .error f → P (s.completeFail f)) : P t := by
  rcases issue_cases (judge := judge) (op := op) (s := s) with h' | ⟨f, _, hj, h'⟩
  · rw [h'] at h
    rcases finish_cases (op s) with ⟨v, u, hr, hf⟩ | ⟨f, u, hr, hf⟩ <;> rw [hf] at h <;> cases h
    · exact hop.ok hr
    · exact hop.error hr
  · rw [h'] at h
    cases h
    exact hrej f hj

/-! ## Space `PKT` -/

theorem Memory.wfAbove_mono {lo hi : Nat} (h : lo ≤ hi) : ∀ {m : Memory}, Memory.wfAbove hi m = true → Memory.wfAbove lo m = true
  | [], _ => rfl
  | (k, v) :: m, w => by
    simp only [Memory.wfAbove, Bool.and_eq_true, decide_eq_true_eq] at *
    exact ⟨⟨by omega, w.1.2⟩, w.2⟩

/-- A write keeps the canonical form above every bound that the address respects. -/
theorem Memory.write_wfAbove {a : Nat} {v : Byte} :
    ∀ {m : Memory} {lo : Nat}, lo ≤ a → Memory.wfAbove lo m = true → Memory.wfAbove lo (m.write a v) = true
  | [], lo, ha, _ => by
    unfold Memory.write
    split <;> simp_all [Memory.wfAbove]
  | (k, x) :: m, lo, ha, w => by
    simp only [Memory.wfAbove, Bool.and_eq_true, decide_eq_true_eq] at w
    obtain ⟨⟨hk, hx⟩, hm⟩ := w
    unfold Memory.write
    split
    · split
      · simp [Memory.wfAbove, hk, hx, hm]
      · rename_i h _
        simp only [Memory.wfAbove, Bool.and_eq_true, decide_eq_true_eq]
        exact ⟨⟨ha, by simpa using ‹¬ v = _›⟩, ⟨by omega, hx⟩, hm⟩
    · split
      · split
        · exact Memory.wfAbove_mono (by omega) hm
        · simp only [Memory.wfAbove, Bool.and_eq_true, decide_eq_true_eq]
          exact ⟨⟨hk, by simpa using ‹¬ v = _›⟩, hm⟩
      · simp only [Memory.wfAbove, Bool.and_eq_true, decide_eq_true_eq]
        exact ⟨⟨hk, hx⟩, Memory.write_wfAbove (by omega) hm⟩

/-- A write keeps the canonical form. -/
theorem Memory.write_wf {m : Memory} {a : Nat} {v : Byte} (h : m.wf = true) : (m.write a v).wf = true :=
  Memory.write_wfAbove (Nat.zero_le a) h

/-- Inside space `PKT` a payload byte is the byte of memory. -/
theorem Memory.byteAt_of_lt {m : Memory} {a : Nat} (h : a < 2 ^ 32) : m.byteAt a = m.read a := if_pos h

/-- Below every listed address memory reads as unlisted. -/
theorem Memory.read_below {a : Nat} : ∀ {m : Memory} {lo : Nat}, a < lo → Memory.wfAbove lo m = true →
    m.read a = Memory.unlistedByte
  | [], _, _, _ => rfl
  | (k, v) :: m, lo, ha, w => by
    simp only [Memory.wfAbove, Bool.and_eq_true, decide_eq_true_eq] at w
    obtain ⟨⟨hk, _⟩, hm⟩ := w
    simp only [Memory.read]
    rw [if_neg (by omega)]
    exact Memory.read_below (lo := k + 1) (by omega) hm

/-- Reading after a write. -/
theorem Memory.read_write {a b : Nat} {v : Byte} : ∀ {m : Memory} {lo : Nat}, Memory.wfAbove lo m = true →
    (m.write a v).read b = if b = a then v else m.read b
  | [], _, _ => by
    unfold Memory.write
    split
    · subst_vars; simp [Memory.read]
    · by_cases h : b = a
      · simp [Memory.read, h]
      · simp [Memory.read, h, Ne.symm h]
  | (k, x) :: m, lo, w => by
    simp only [Memory.wfAbove, Bool.and_eq_true, decide_eq_true_eq] at w
    obtain ⟨⟨hk, _⟩, hm⟩ := w
    unfold Memory.write
    by_cases h1 : a < k
    · rw [if_pos h1]
      have hu : Memory.read m a = Memory.unlistedByte := Memory.read_below (lo := k + 1) (Nat.lt_succ_of_lt h1) hm
      by_cases hv : v = Memory.unlistedByte
      · rw [if_pos hv]
        by_cases h : b = a
        · subst h; simp only [Memory.read, if_neg (show k ≠ b by omega), if_true, hu, hv]
        · simp [h]
      · rw [if_neg hv]
        by_cases h : b = a
        · subst h; simp [Memory.read]
        · simp [Memory.read, h, Ne.symm h]
    · rw [if_neg h1]
      by_cases h2 : a = k
      · subst h2
        rw [if_pos rfl]
        by_cases hv : v = Memory.unlistedByte
        · rw [if_pos hv]
          by_cases h : b = a
          · subst h; rw [if_pos rfl, hv]; exact Memory.read_below (lo := b + 1) (by omega) hm
          · simp [Memory.read, h, Ne.symm h]
        · rw [if_neg hv]
          by_cases h : b = a
          · subst h; simp [Memory.read]
          · simp [Memory.read, h, Ne.symm h]
      · rw [if_neg h2]
        simp only [Memory.read]
        by_cases hb : k = b
        · subst hb; rw [if_pos rfl, if_neg (Ne.symm h2), if_pos rfl]
        · rw [if_neg hb, if_neg hb]
          exact Memory.read_write hm

/-- Reading back what was written. -/
theorem Memory.read_write_same {m : Memory} {a : Nat} {v : Byte} (h : m.wf = true) : (m.write a v).read a = v := by
  rw [Memory.read_write (lo := 0) h, if_pos rfl]

/-- A write leaves every other address alone. -/
theorem Memory.read_write_other {m : Memory} {a b : Nat} {v : Byte} (h : m.wf = true) (hb : b ≠ a) :
    (m.write a v).read b = m.read b := by
  rw [Memory.read_write (lo := 0) h, if_neg hb]

/-- The host's write of `PKT` keeps the canonical form. -/
theorem State.hostWritePkt_wf {s : State} {a : BitVec 32} {v : Byte} (h : s.pkt.wf = true) :
    (s.hostWritePkt a v).pkt.wf = true := Memory.write_wf h

/-- So does its write of a whole payload. -/
theorem State.hostWritePayload_wf {bytes : List Byte} : ∀ {a : BitVec 32} {s : State}, s.pkt.wf = true →
    (s.hostWritePayload a bytes).pkt.wf = true := by
  induction bytes with
  | nil => exact fun h => h
  | cons v vs ih => exact fun h => ih (State.hostWritePkt_wf h)

/-! ## The bit cursor -/

theorem payloadField_lt (m : Memory) (base : Nat) : ∀ n p, payloadField m base p n < 2 ^ n
  | 0, _ => by simp [payloadField]
  | n + 1, p => by
    have := payloadField_lt m base n (p + 1)
    unfold payloadField bitValue
    split <;> omega

/-- A field is its low bits followed by its high bits. -/
theorem payloadField_add (m : Memory) (base : Nat) : ∀ a b p,
    payloadField m base p (a + b) = payloadField m base p a + 2 ^ a * payloadField m base (p + a) b
  | 0, b, p => by simp [payloadField]
  | a + 1, b, p => by
    rw [show a + 1 + b = (a + b) + 1 by omega]
    simp only [payloadField]
    rw [payloadField_add m base a b (p + 1), show p + 1 + a = p + (a + 1) by omega]
    ring

/-- An available read delivers its field and moves the cursor. -/
theorem readBits_ok {s : State} {n : Nat} (h : s.avail n = true) :
    readBits n s = .ok (s.cursorField n) (s.advance n) := by simp [readBits, h]

/-- A read past the end moves the cursor all the same and sets `EOFF`. -/
theorem readBits_eof {s : State} {n : Nat} (h : s.avail n = false) :
    readBits n s = .error .eof (s.advance n).setEoff := by simp [readBits, h]

theorem lookBits_ok {s : State} {n : Nat} (h : s.avail n = true) :
    lookBits n s = .ok (s.cursorField n) s := by simp [lookBits, h]

theorem lookBits_eof {s : State} {n : Nat} (h : s.avail n = false) :
    lookBits n s = .error .eof s := by simp [lookBits, h]

/-- All that a read can do. -/
theorem sat_readBits {s : State} {n : Nat} {Q : Nat → State → Prop} {E : Failure → State → Prop} :
    Sat (readBits n) s Q E ↔
      (s.avail n = true → Q (s.cursorField n) (s.advance n)) ∧
      (s.avail n = false → E .eof (s.advance n).setEoff) := by
  unfold Sat readBits
  cases s.avail n <;> simp

/-- All that a peek can do. -/
theorem sat_lookBits {s : State} {n : Nat} {Q : Nat → State → Prop} {E : Failure → State → Prop} :
    Sat (lookBits n) s Q E ↔
      (s.avail n = true → Q (s.cursorField n) s) ∧
      (s.avail n = false → E .eof s) := by
  unfold Sat lookBits
  cases s.avail n <;> simp

/-- All that a header's read can do. -/
theorem sat_headerRead {s : State} {n : Nat} {Q : Nat → State → Prop} {E : Failure → State → Prop} :
    Sat (headerRead n) s Q E ↔
      (s.avail n = true → Q (s.cursorField n) (s.advance n)) ∧
      (s.avail n = false → E (.badHeader .short) (s.advance n).setEoff) := by
  unfold Sat headerRead readBits
  cases s.avail n <;> simp

theorem headerRead_ok {s : State} {n : Nat} (h : s.avail n = true) :
    headerRead n s = .ok (s.cursorField n) (s.advance n) := by simp [headerRead, readBits_ok h]

theorem headerRead_short {s : State} {n : Nat} (h : s.avail n = false) :
    headerRead n s = .error (.badHeader .short) (s.advance n).setEoff := by
  simp [headerRead, readBits_eof h]

/-- All that a header check can do. -/
theorem sat_headerCheck {s : State} {p : Bool} {k : HeaderCause} {Q : Unit → State → Prop} {E : Failure → State → Prop} :
    Sat (headerCheck p k) s Q E ↔ (p = true → Q () s) ∧ (p = false → E (.badHeader k) s) := by
  cases p
  · simp [headerCheck, sat_raise]
  · simp [headerCheck, sat_pure]

/-- All that an advance can do: it never fails and reads nothing (40_bit_cursor.md R165). -/
theorem advanceBits_eq {s : State} {n : Nat} : advanceBits n s = .ok () (s.advance n) := rfl

end Sys2Proof.Machine
end

