-- ==== Sys2Proof/Laws/Exec.lean ====
section
/-! SUPPORT. Every meaning in one shape: an operation issued under a judge. Whole-machine lemmas go through `exec_eq`. -/

namespace Sys2Proof.Machine

/-- The operation an instruction performs, its wide operands taken from `s`. -/
def opOf (i : Instr) (s : State) : Op (BitVec 32) :=
  match i with
  | .reset => resetOp
  | .headerin eos bos => headerin defaultParams eos bos
  | .synthesis eos bos => synthesis defaultParams eos bos
  | .bcInit => do initCursor s.arg0 s.arg1; result 0
  | .bcRead n => do let v ← readBits n.toNat; result v
  | .bcLook n => do let v ← lookBits n.toNat; result v
  | .bcAdv n => do advanceBits n.toNat; result 0
  | .bcRead1 => do let v ← readBits 1; result v
  | .cbUnquantize b => do cbUnquantize b.toNat; result 0
  | .cbMakeWords b => do cbMakeWords b.toNat; result 0
  | .cbMakeTree _ => result 0
  | .cbDecode b => do let e ← cbDecode b.toNat; result e
  | .cbDecodeSet b dst => do cbDecodeSet b.toNat (targetOf dst) s.arg0.toNat s.arg1.toNat; result 0
  | .cbDecodeAdd b dst => do cbDecodeAdd b.toNat (targetOf dst) s.arg0.toNat s.arg1.toNat; result 0
  | .cbDecodeVvAdd b first count => do
    cbDecodeVvAdd b.toNat (channelRun first.toNat count.toNat) s.arg0.toNat s.arg1.toNat
    result 0
  | .cbDecodeVs b dst mode => do
    let e ← cbDecodeVs b.toNat (targetOf dst) mode s.arg0.toNat s.arg1.toNat
    result e
  | .f0Unpack f => do f0Unpack f.toNat; result 0
  | .f0Look f w => do f0Look defaultParams f.toNat w.toNat; result 0
  | .f0Inverse1 f c => do let r ← f0Inverse1 f.toNat c.toNat; result (bitValue r.present)
  | .f0Inverse2 f c => do let r ← f0Inverse2 defaultParams f.toNat c.toNat; result (bitValue r)
  | .f1Unpack f => do f1Unpack f.toNat; result 0
  | .f1Look f => do f1Look f.toNat; result 0
  | .f1Inverse1 f c => do let r ← f1Inverse1 f.toNat c.toNat; result (bitValue r.present)
  | .f1Inverse2 f c => do let r ← f1Inverse2 defaultParams f.toNat c.toNat; result (bitValue r)
  | .resUnpack r => do resUnpack r.toNat; result 0
  | .resLook r => do resLook r.toNat; result 0
  | .res0Inverse r first count => do
    let e ← res0Inverse r.toNat (channelRun first.toNat count.toNat)
    result (bitValue e)
  | .res1Inverse r first count => do
    let e ← res1Inverse r.toNat (channelRun first.toNat count.toNat)
    result (bitValue e)
  | .res2Inverse r first count => do
    let e ← res2Inverse r.toNat (channelRun first.toNat count.toNat)
    result (bitValue e)
  | .map0Unpack m => do map0Unpack m.toNat; result 0
  | .map0Look _ => result 0
  | .map0Inverse => do map0Inverse defaultParams; result 0
  | .mdctInit w => do mdctInit defaultParams w.toNat; result 0
  | .mdctBackward w c => do mdctBackward w.toNat c.toNat; result 0
  | .winInit => do winInit defaultParams; result 0
  | .winApply c => do winApply c.toNat; result 0
  | .hdrIdent => do hdrIdent; result 0
  | .hdrComment => do hdrComment; result 0
  | .hdrSetup => do hdrSetup; result 0
  | .hdrBook b => do hdrBook b.toNat; result 0
  | .hdrTime t => do hdrTime t.toNat; result 0
  | .hdrMode k => do hdrMode k.toNat; result 0

/-- What judges an instruction the host issues. -/
def judgeOf (i : Instr) : State → Except Failure Unit :=
  match i with
  | .reset => judgeNone
  | .headerin _ _ => judgeNone
  | .synthesis _ _ => judgeReady
  | .bcInit => judgeNone
  | .bcRead n => judgeCount n
  | .bcLook n => judgeCount n
  | .bcAdv n => judgeCount n
  | .bcRead1 => judgeNone
  | .cbUnquantize _ => judgeInternal
  | .cbMakeWords _ => judgeInternal
  | .cbMakeTree _ => judgeInternal
  | .cbDecode b => judgeScalar b.toNat
  | .cbDecodeSet b dst => judgeVector b.toNat dst
  | .cbDecodeAdd b dst => judgeVector b.toNat dst
  | .cbDecodeVvAdd b first count => judgeVectorBundle b.toNat first.toNat count.toNat
  | .cbDecodeVs b dst _ => judgeVector b.toNat dst
  | .f0Unpack _ => judgeInternal
  | .f0Look _ _ => judgeInternal
  | .f0Inverse1 f c => judgeFloor 0 f.toNat c.toNat
  | .f0Inverse2 f c => judgeFloor 0 f.toNat c.toNat
  | .f1Unpack _ => judgeInternal
  | .f1Look _ => judgeInternal
  | .f1Inverse1 f c => judgeFloor 1 f.toNat c.toNat
  | .f1Inverse2 f c => judgeFloor 1 f.toNat c.toNat
  | .resUnpack _ => judgeInternal
  | .resLook _ => judgeInternal
  | .res0Inverse r first count => judgeResidue 0 r.toNat first.toNat count.toNat
  | .res1Inverse r first count => judgeResidue 1 r.toNat first.toNat count.toNat
  | .res2Inverse r first count => judgeResidue 2 r.toNat first.toNat count.toNat
  | .map0Unpack _ => judgeInternal
  | .map0Look _ => judgeInternal
  | .map0Inverse => judgeMapping
  | .mdctInit _ => judgeInternal
  | .mdctBackward w c => judgeMdct w.toNat c.toNat
  | .winInit => judgeInternal
  | .winApply c => judgeWindow c.toNat
  | .hdrIdent => judgeInternal
  | .hdrComment => judgeInternal
  | .hdrSetup => judgeInternal
  | .hdrBook _ => judgeInternal
  | .hdrTime _ => judgeInternal
  | .hdrMode _ => judgeInternal

/-- Every meaning is its operation, issued under its judge. -/
theorem exec_eq (i : Instr) (s : State) : exec i s = issue (judgeOf i) (opOf i s) s := by
  cases i <;> rfl

/-- No meaning refuses. -/
theorem exec_not_refused (i : Instr) (s : State) (r : Refusal) : exec i s ≠ .refused r := by
  rw [exec_eq]
  rcases issue_cases (judge := judgeOf i) (op := opOf i s) (s := s) with h | ⟨f, _, _, h⟩ <;> rw [h]
  · rcases finish_cases (opOf i s s) with ⟨_, _, _, h⟩ | ⟨_, _, _, h⟩ <;> rw [h] <;> simp
  · simp

/-! ## The judges -/

theorem judgeReady_ok {s : State} (h : s.phase = .ready) : judgeReady s = .ok () := by simp [judgeReady, h]

theorem judgeReady_error {s : State} (h : s.phase ≠ .ready) : judgeReady s = .error (.notReady s.phase) := by
  simp [judgeReady, h]

theorem judgeIndex_ok {s : State} {i n : Nat} {size : State → Option Nat} (h : size s = some n) (hi : i < n) :
    judgeIndex i size s = .ok () := by simp [judgeIndex, judgeField, h, judgeThat, hi, bind, Except.bind]

theorem judgeIndex_error {s : State} {i n : Nat} {size : State → Option Nat} (h : size s = some n) (hi : n ≤ i) :
    judgeIndex i size s = .error (.illegal .badOperand) := by
  simp [judgeIndex, judgeField, h, judgeThat, Nat.not_lt.2 hi, bind, Except.bind]

theorem judgeBundle_ok {s : State} {first count n : Nat} (h : s.cfg.channels = some n) (hc : 1 ≤ count)
    (hn : first + count ≤ n) : judgeBundle first count s = .ok () := by
  simp [judgeBundle, judgeField, h, judgeThat, hc, hn, bind, Except.bind]

theorem judgeBundle_error {s : State} {first count n : Nat} (h : s.cfg.channels = some n)
    (hn : count = 0 ∨ n < first + count) : judgeBundle first count s = .error (.illegal .badOperand) := by
  have : (decide (1 ≤ count) && decide (first + count ≤ n)) = false := by
    rcases hn with hn | hn
    · simp [hn]
    · simp [Nat.not_le.2 hn]
  simp [judgeBundle, judgeField, h, judgeThat, this, bind, Except.bind]

end Sys2Proof.Machine
end

