-- ==== Sys2Proof/Laws/Frame.lean ====
section
/-! SUPPORT. What the operations leave alone. `Keeps R op` says that every outcome of `op` stands in the relation `R` to the
state before; `DecodeFrame` holds of everything below `SYNTHESIS`, `HeaderFrame` of everything below `HEADERIN`. -/

namespace Sys2Proof.Machine

/-- Every outcome of the operation, returned or raised, stands in `R` to the state before. -/
def Keeps {α : Type} (R : State → State → Prop) (op : Op α) : Prop :=
  ∀ s, Sat op s (fun _ t => R s t) (fun _ t => R s t)

/-- A relation that holds of doing nothing and of one thing after another. -/
structure FrameRel (R : State → State → Prop) : Prop where
  refl : ∀ s, R s s
  trans : ∀ {s t u}, R s t → R t u → R s u

variable {α β : Type} {R : State → State → Prop}

theorem Keeps.pure (hR : FrameRel R) (a : α) : Keeps R (Pure.pure a : Op α) := fun s => hR.refl s

theorem Keeps.raise (hR : FrameRel R) (f : Failure) : Keeps R (Machine.raise f : Op α) := fun s =>
  sat_raise.2 (hR.refl s)

theorem Keeps.get (hR : FrameRel R) : Keeps R (MonadStateOf.get : Op State) := fun s => hR.refl s

theorem Keeps.result (hR : FrameRel R) (v : Nat) : Keeps R (Machine.result v) := fun s => hR.refl s

theorem Keeps.modify {f : State → State} (h : ∀ s, R s (f s)) : Keeps R (modify f : Op Unit) := fun s => h s

theorem Keeps.need (hR : FrameRel R) (o : Option α) : Keeps R (Machine.need o) := fun s =>
  sat_need.2 ⟨fun _ _ => hR.refl s, fun _ => hR.refl s⟩

theorem Keeps.bind (hR : FrameRel R) {x : Op α} {f : α → Op β} (hx : Keeps R x) (hf : ∀ a, Keeps R (f a)) :
    Keeps R (x >>= f) := fun s =>
  Sat.bind (hx s) fun a t ht => (hf a t).mono (fun _ _ h => hR.trans ht h) fun _ _ h => hR.trans ht h

theorem Keeps.map (hR : FrameRel R) {x : Op α} {f : α → β} (hx : Keeps R x) : Keeps R (f <$> x) :=
  Keeps.bind hR hx fun a => Keeps.pure hR (f a)

theorem Keeps.ite {p : Prop} [Decidable p] {x y : Op α} (hx : Keeps R x) (hy : Keeps R y) :
    Keeps R (if p then x else y) := by split <;> assumption

theorem Keeps.absorb (hR : FrameRel R) {op handler : Op α} (ho : Keeps R op) (hh : Keeps R handler) :
    Keeps R (Machine.absorb op handler) := fun s =>
  sat_absorb.2 <| (ho s).mono (fun _ _ h => h) fun _ t h =>
    ⟨fun _ => (hh t).mono (fun _ _ h' => hR.trans h h') (fun _ _ h' => hR.trans h h'), fun _ => h⟩

theorem Keeps.forEach (hR : FrameRel R) {body : β → Op Unit} (hb : ∀ x, Keeps R (body x)) :
    ∀ l : List β, Keeps R (Machine.forEach l body)
  | [] => Keeps.pure hR ()
  | x :: l => Keeps.bind hR (hb x) fun _ => Keeps.forEach hR hb l

theorem Keeps.collect (hR : FrameRel R) {body : β → Op α} (hb : ∀ x, Keeps R (body x)) :
    ∀ l : List β, Keeps R (Machine.collect l body)
  | [] => Keeps.pure hR []
  | x :: l => Keeps.bind hR (hb x) fun _ => Keeps.bind hR (Keeps.collect hR hb l) fun _ => Keeps.pure hR _

theorem Keeps.headerCheck (hR : FrameRel R) (p : Bool) (k : HeaderCause) : Keeps R (Machine.headerCheck p k) := fun s =>
  sat_headerCheck.2 ⟨fun _ => hR.refl s, fun _ => hR.refl s⟩

theorem Keeps.readBits (hR : FrameRel R) (ha : ∀ n s, R s (s.advance n)) (he : ∀ s, R s s.setEoff) (n : Nat) :
    Keeps R (Machine.readBits n) := fun s =>
  sat_readBits.2 ⟨fun _ => ha n s, fun _ => hR.trans (ha n s) (he _)⟩

theorem Keeps.headerRead (hR : FrameRel R) (ha : ∀ n s, R s (s.advance n)) (he : ∀ s, R s s.setEoff) (n : Nat) :
    Keeps R (Machine.headerRead n) := fun s =>
  sat_headerRead.2 ⟨fun _ => ha n s, fun _ => hR.trans (ha n s) (he _)⟩

/-! ## The frame of decoding -/

/-- What every decode operation leaves alone: all but `POS` and `EOFF` (which only grow), `TRUNC` (which is only set),
`NONZERO`, `MEMO`, `LSP` and the words of `PCM`, whose shapes stay. -/
structure DecodeFrame (s t : State) : Prop where
  base : t.base = s.base
  len : t.len = s.len
  pos : s.pos ≤ t.pos
  eoff : s.eoff = true → t.eoff = true
  mode : t.mode = s.mode
  w : t.w = s.w
  lw : t.lw = s.lw
  nw : t.nw = s.nw
  pcmend : t.pcmend = s.pcmend
  granule : t.granule = s.granule
  eos : t.eos = s.eos
  bos : t.bos = s.bos
  nonzero : t.nonzero.length = s.nonzero.length
  memo : t.memo.length = s.memo.length
  lsp : t.lsp.length = s.lsp.length
  phase : t.phase = s.phase
  bstate : t.bstate = s.bstate
  status : t.status = s.status
  cause : t.cause = s.cause
  res : t.res = s.res
  samples : t.samples = s.samples
  trunc : s.trunc = true → t.trunc = true
  arg0 : t.arg0 = s.arg0
  arg1 : t.arg1 = s.arg1
  arg2 : t.arg2 = s.arg2
  arg3 : t.arg3 = s.arg3
  cmd : t.cmd = s.cmd
  cfg : t.cfg = s.cfg
  tab : t.tab = s.tab
  pkt : t.pkt = s.pkt
  pcm : t.pcm.map List.length = s.pcm.map List.length
  issuer : t.issuer = s.issuer
  eofInResidue : t.eofInResidue = s.eofInResidue

theorem DecodeFrame.refl (s : State) : DecodeFrame s s := by constructor <;> simp

theorem DecodeFrame.trans {s t u : State} (h : DecodeFrame s t) (k : DecodeFrame t u) : DecodeFrame s u := by
  constructor
  case pos => exact le_trans h.pos k.pos
  case eoff => exact fun e => k.eoff (h.eoff e)
  case trunc => exact fun e => k.trunc (h.trunc e)
  all_goals first
    | exact k.base.trans h.base | exact k.len.trans h.len | exact k.mode.trans h.mode | exact k.w.trans h.w
    | exact k.lw.trans h.lw | exact k.nw.trans h.nw | exact k.pcmend.trans h.pcmend | exact k.granule.trans h.granule
    | exact k.eos.trans h.eos | exact k.bos.trans h.bos | exact k.nonzero.trans h.nonzero | exact k.memo.trans h.memo
    | exact k.lsp.trans h.lsp | exact k.phase.trans h.phase | exact k.bstate.trans h.bstate
    | exact k.status.trans h.status | exact k.cause.trans h.cause | exact k.res.trans h.res
    | exact k.samples.trans h.samples | exact k.arg0.trans h.arg0 | exact k.arg1.trans h.arg1
    | exact k.arg2.trans h.arg2 | exact k.arg3.trans h.arg3 | exact k.cmd.trans h.cmd | exact k.cfg.trans h.cfg
    | exact k.tab.trans h.tab | exact k.pkt.trans h.pkt | exact k.pcm.trans h.pcm | exact k.issuer.trans h.issuer
    | exact k.eofInResidue.trans h.eofInResidue

theorem DecodeFrame.rel : FrameRel DecodeFrame := ⟨DecodeFrame.refl, DecodeFrame.trans⟩

theorem DecodeFrame.advance (n : Nat) (s : State) : DecodeFrame s (s.advance n) := by constructor <;> simp

theorem DecodeFrame.setEoff (s : State) : DecodeFrame s s.setEoff := by constructor <;> simp

theorem DecodeFrame.setTrunc (s : State) : DecodeFrame s (s.setTrunc true) := by constructor <;> simp

theorem DecodeFrame.setNonzero (c : Nat) (b : Bool) (s : State) : DecodeFrame s (s.setNonzero c b) := by
  constructor <;> simp

theorem DecodeFrame.setMemo (c : Nat) (m : Option Memo) (s : State) : DecodeFrame s (s.setMemo c m) := by
  constructor <;> simp

theorem DecodeFrame.setLsp {l : List F32} {s : State} (h : l.length = s.lsp.length) : DecodeFrame s (s.setLsp l) := by
  constructor <;> simp [h]

theorem DecodeFrame.setPcm {p : List (List F32)} {s : State} (h : p.map List.length = s.pcm.map List.length) :
    DecodeFrame s (s.setPcm p) := by
  constructor <;> simp [h]

theorem DecodeFrame.widenPair (p : Nat × Nat) (s : State) : DecodeFrame s (s.widenPair p) := by
  unfold State.widenPair
  split
  · exact (DecodeFrame.setNonzero _ _ _).trans (DecodeFrame.setNonzero _ _ _)
  · exact .refl s

theorem fillFirst_length {α : Type} (n : Nat) (v : α) (l : List α) : (fillFirst n v l).length = l.length := by
  simp [fillFirst]; omega

theorem DecodeFrame.silenceAll (n : Nat) (s : State) : DecodeFrame s (s.silenceAll n) := by
  constructor <;> simp [fillFirst_length]

theorem overwrite_length {α : Type} (new l : List α) : (overwrite new l).length = l.length := by
  simp [overwrite]; omega

theorem DecodeFrame.setPcmRow {c : Nat} {row : List F32} {s : State} (h : row.length = (s.pcmRow c).length) :
    DecodeFrame s (s.setPcmRow c row) := by
  refine DecodeFrame.setPcm ?_
  rw [List.map_set, h]
  refine List.ext_getElem (by simp) fun i h1 h2 => ?_
  by_cases hi : c = i
  · subst hi
    simp only [List.length_map] at h2
    simp [State.pcmRow, List.getD, List.getElem?_eq_getElem h2]
  · simp [List.getElem_set_ne hi]

theorem DecodeFrame.storeRow (c : Nat) (words : List F32) (s : State) : DecodeFrame s (s.storeRow c words) :=
  DecodeFrame.setPcmRow (overwrite_length _ _)

theorem DecodeFrame.scaleRow (c : Nat) (factors : List F32) (s : State) : DecodeFrame s (s.scaleRow c factors) :=
  DecodeFrame.setPcmRow (by simp; omega)

theorem DecodeFrame.pcmModify (c i : Nat) (f : F32 → F32) (s : State) : DecodeFrame s (s.pcmModify c i f) := by
  unfold State.pcmModify
  split
  · refine DecodeFrame.setPcm ?_
    refine List.ext_getElem (by simp) fun k h1 h2 => ?_
    simp only [List.getElem_map, List.getElem_modify]
    split <;> simp
  · exact .refl s

theorem DecodeFrame.lspModify (i : Nat) (f : F32 → F32) (s : State) : DecodeFrame s (s.lspModify i f) := by
  unfold State.lspModify
  split
  · exact DecodeFrame.setLsp (by simp)
  · exact .refl s

theorem DecodeFrame.targetModify (d : Target) (i : Nat) (f : F32 → F32) (s : State) :
    DecodeFrame s (targetModify d i f s) := by
  cases d
  · exact DecodeFrame.pcmModify _ _ _ _
  · exact DecodeFrame.lspModify _ _ _

theorem DecodeFrame.storeRun (d : Target) (m : CombineMode) (step : Nat) :
    ∀ (vs : List F32) (i : Nat) (s : State), DecodeFrame s (storeRun d m step i vs s)
  | [], _, s => .refl s
  | _ :: vs, i, s => (DecodeFrame.targetModify d i _ s).trans (DecodeFrame.storeRun d m step vs _ _)

theorem DecodeFrame.addInterleaved (chlist : List Nat) :
    ∀ (vs : List F32) (p : Nat) (s : State), DecodeFrame s (addInterleaved chlist p vs s)
  | [], _, s => .refl s
  | _ :: vs, _, s => (DecodeFrame.pcmModify _ _ _ s).trans (DecodeFrame.addInterleaved chlist vs _ _)

theorem DecodeFrame.decouple (h : Nat) (pair : Nat × Nat) (s : State) : DecodeFrame s (s.decouple h pair) :=
  (DecodeFrame.storeRow _ _ s).trans (DecodeFrame.storeRow _ _ _)

/-! ### Decoding keeps it -/

theorem readBits_frame (n : Nat) : Keeps DecodeFrame (readBits n) :=
  Keeps.readBits DecodeFrame.rel DecodeFrame.advance DecodeFrame.setEoff n

theorem readBit_frame : Keeps DecodeFrame readBit :=
  Keeps.bind DecodeFrame.rel (readBits_frame 1) fun _ => Keeps.pure DecodeFrame.rel _

theorem decodeFrom_frame (words : List (Option Codeword)) : ∀ (fuel : Nat) (w : Codeword),
    Keeps DecodeFrame (decodeFrom words fuel w)
  | 0, _ => Keeps.raise DecodeFrame.rel _
  | fuel + 1, w => by
    refine Keeps.bind DecodeFrame.rel readBit_frame fun bit => ?_
    dsimp only
    split
    · exact Keeps.pure DecodeFrame.rel _
    · exact Keeps.ite (decodeFrom_frame words fuel _) (Keeps.raise DecodeFrame.rel _)

theorem cbDecode_frame (b : Nat) : Keeps DecodeFrame (cbDecode b) :=
  Keeps.bind DecodeFrame.rel (Keeps.get DecodeFrame.rel) fun _ =>
  Keeps.bind DecodeFrame.rel (Keeps.need DecodeFrame.rel _) fun _ => decodeFrom_frame _ _ _

theorem decodeValues_frame (b : Nat) : Keeps DecodeFrame (decodeValues b) :=
  Keeps.bind DecodeFrame.rel (Keeps.get DecodeFrame.rel) fun _ =>
  Keeps.bind DecodeFrame.rel (Keeps.need DecodeFrame.rel _) fun _ =>
  Keeps.bind DecodeFrame.rel (Keeps.get DecodeFrame.rel) fun _ =>
  Keeps.bind DecodeFrame.rel (Keeps.need DecodeFrame.rel _) fun _ =>
  Keeps.bind DecodeFrame.rel (cbDecode_frame b) fun _ => Keeps.pure DecodeFrame.rel _

theorem decodeFill_frame (b : Nat) (d : Target) (m : CombineMode) (offset n : Nat) : ∀ fuel i : Nat,
    Keeps DecodeFrame (decodeFill b d m offset n fuel i)
  | 0, _ => Keeps.pure DecodeFrame.rel ()
  | fuel + 1, i => by
    unfold decodeFill
    refine Keeps.ite ?_ (Keeps.pure DecodeFrame.rel ())
    exact Keeps.bind DecodeFrame.rel (decodeValues_frame b) fun _ =>
      Keeps.bind DecodeFrame.rel (Keeps.modify (DecodeFrame.storeRun d m 1 _ _)) fun _ => decodeFill_frame b d m offset n fuel _

theorem decodeInterleaved_frame (b : Nat) (chlist : List Nat) (stop : Nat) : ∀ fuel p : Nat,
    Keeps DecodeFrame (decodeInterleaved b chlist stop fuel p)
  | 0, _ => Keeps.pure DecodeFrame.rel ()
  | fuel + 1, p => by
    unfold decodeInterleaved
    refine Keeps.ite ?_ (Keeps.pure DecodeFrame.rel ())
    exact Keeps.bind DecodeFrame.rel (decodeValues_frame b) fun _ =>
      Keeps.bind DecodeFrame.rel (Keeps.modify (DecodeFrame.addInterleaved chlist _ _)) fun _ =>
        decodeInterleaved_frame b chlist stop fuel _

theorem cbDecodeVs_frame (b : Nat) (d : Target) (m : CombineMode) (index step : Nat) :
    Keeps DecodeFrame (cbDecodeVs b d m index step) :=
  Keeps.bind DecodeFrame.rel (decodeValues_frame b) fun _ =>
  Keeps.bind DecodeFrame.rel (Keeps.modify (DecodeFrame.storeRun d m step _ _)) fun _ => Keeps.pure DecodeFrame.rel _

theorem readCoefficients_frame (b m dim : Nat) : ∀ fuel j : Nat, Keeps DecodeFrame (readCoefficients b m dim fuel j)
  | 0, _ => Keeps.pure DecodeFrame.rel ()
  | fuel + 1, j => by
    unfold readCoefficients
    refine Keeps.ite ?_ (Keeps.pure DecodeFrame.rel ())
    exact Keeps.bind DecodeFrame.rel (cbDecodeVs_frame _ _ _ _ _) fun _ => readCoefficients_frame b m dim fuel _

theorem runningSum_length (dim : Nat) : ∀ (l : List F32) (k : Nat) (last : F32), (runningSum dim k last l).length = l.length
  | [], _, _ => rfl
  | x :: l, k, last => by
    simp only [runningSum, List.length_cons]
    split <;> simp [runningSum_length]

theorem f0Pass1_frame (f c : Nat) (F : Floor0) : Keeps DecodeFrame (f0Pass1 f c F) := by
  have r := DecodeFrame.rel
  unfold f0Pass1
  refine Keeps.bind r (readBits_frame _) fun _ => Keeps.ite (Keeps.pure r _) ?_
  refine Keeps.bind r (readBits_frame _) fun _ => Keeps.ite (Keeps.pure r _) ?_
  refine Keeps.bind r (Keeps.need r _) fun _ => Keeps.bind r (Keeps.get r) fun _ => Keeps.bind r (Keeps.need r _) fun _ => ?_
  refine Keeps.bind r (readCoefficients_frame _ _ _ _ _) fun _ => Keeps.bind r (Keeps.modify fun s => ?_) fun _ => ?_
  · exact DecodeFrame.setLsp (by simp [runningSum_length]; omega)
  · exact Keeps.bind r (Keeps.modify fun s => DecodeFrame.setMemo _ _ s) fun _ => Keeps.pure r _

theorem f0Inverse1_frame (f c : Nat) : Keeps DecodeFrame (f0Inverse1 f c) :=
  have r := DecodeFrame.rel
  Keeps.bind r (Keeps.modify (DecodeFrame.setMemo _ _)) fun _ => Keeps.bind r (Keeps.get r) fun _ =>
  Keeps.bind r (Keeps.need r _) fun _ => Keeps.absorb r (f0Pass1_frame _ _ _) (Keeps.pure r _)

theorem f0Inverse2_frame (P : Params) (f c : Nat) : Keeps DecodeFrame (f0Inverse2 P f c) := by
  have r := DecodeFrame.rel
  unfold f0Inverse2
  refine Keeps.bind r (Keeps.get r) fun s => ?_
  dsimp only
  split
  · exact Keeps.bind r (Keeps.modify (DecodeFrame.storeRow _ _)) fun _ => Keeps.pure r _
  · exact Keeps.bind r (Keeps.need r _) fun _ => Keeps.bind r (Keeps.need r _) fun _ =>
      Keeps.bind r (Keeps.modify (DecodeFrame.scaleRow _ _)) fun _ => Keeps.pure r _

theorem readPost_frame (cls : FloorClass) (cval : Nat) : Keeps DecodeFrame (readPost cls cval) := by
  unfold readPost
  split
  · exact cbDecode_frame _
  · exact Keeps.pure DecodeFrame.rel _

theorem readClassValue_frame (cls : FloorClass) : Keeps DecodeFrame (readClassValue cls) := by
  have r := DecodeFrame.rel
  unfold readClassValue
  exact Keeps.ite (Keeps.pure r _) (Keeps.bind r (Keeps.need r _) fun _ => cbDecode_frame _)

theorem readPosts_frame (cls : FloorClass) : ∀ left cval : Nat, Keeps DecodeFrame (readPosts cls left cval)
  | 0, _ => Keeps.pure DecodeFrame.rel _
  | left + 1, cval => by
    have r := DecodeFrame.rel
    unfold readPosts
    exact Keeps.bind r (readPost_frame _ _) fun _ => Keeps.bind r (readPosts_frame cls left _) fun _ => Keeps.pure r _

theorem readPartitions_frame (F : Floor1) : ∀ l : List Nat, Keeps DecodeFrame (readPartitions F l)
  | [] => Keeps.pure DecodeFrame.rel _
  | cl :: l => by
    have r := DecodeFrame.rel
    unfold readPartitions
    exact Keeps.bind r (Keeps.need r _) fun _ => Keeps.bind r (readClassValue_frame _) fun _ =>
      Keeps.bind r (readPosts_frame _ _ _) fun _ => Keeps.bind r (readPartitions_frame F l) fun _ => Keeps.pure r _

theorem f1Pass1_frame (f c : Nat) (F : Floor1) (T : Floor1Table) : Keeps DecodeFrame (f1Pass1 f c F T) := by
  have r := DecodeFrame.rel
  unfold f1Pass1
  refine Keeps.bind r readBit_frame fun _ => Keeps.ite (Keeps.pure r _) ?_
  exact Keeps.bind r (readBits_frame _) fun _ => Keeps.bind r (readBits_frame _) fun _ =>
    Keeps.bind r (readPartitions_frame _ _) fun _ => Keeps.bind r (Keeps.modify (DecodeFrame.setMemo _ _)) fun _ =>
    Keeps.pure r _

theorem f1Inverse1_frame (f c : Nat) : Keeps DecodeFrame (f1Inverse1 f c) :=
  have r := DecodeFrame.rel
  Keeps.bind r (Keeps.modify (DecodeFrame.setMemo _ _)) fun _ => Keeps.bind r (Keeps.get r) fun _ =>
  Keeps.bind r (Keeps.need r _) fun _ => Keeps.bind r (Keeps.get r) fun _ => Keeps.bind r (Keeps.need r _) fun _ =>
  Keeps.absorb r (f1Pass1_frame _ _ _ _) (Keeps.pure r _)

theorem f1Inverse2_frame (P : Params) (f c : Nat) : Keeps DecodeFrame (f1Inverse2 P f c) := by
  have r := DecodeFrame.rel
  unfold f1Inverse2
  refine Keeps.bind r (Keeps.get r) fun s => ?_
  dsimp only
  split
  · exact Keeps.bind r (Keeps.modify (DecodeFrame.storeRow _ _)) fun _ => Keeps.pure r _
  · exact Keeps.bind r (Keeps.need r _) fun _ => Keeps.bind r (Keeps.need r _) fun _ =>
      Keeps.bind r (Keeps.modify (DecodeFrame.scaleRow _ _)) fun _ => Keeps.pure r _

/-! ### Residue -/

theorem readPhrase_frame (b : Nat) (T : ResTable) : Keeps DecodeFrame (readPhrase b T) :=
  Keeps.bind DecodeFrame.rel (cbDecode_frame b) fun _ =>
    Keeps.ite (Keeps.pure DecodeFrame.rel _) (Keeps.raise DecodeFrame.rel _)

theorem layout0_frame (used : List Nat) (R : Residue) (v offset sb : Nat) :
    Keeps DecodeFrame (layout0 used R v offset sb) :=
  have r := DecodeFrame.rel
  Keeps.bind r (Keeps.get r) fun _ => Keeps.bind r (Keeps.need r _) fun _ =>
    Keeps.forEach r (fun _ => Keeps.bind r (cbDecodeVs_frame _ _ _ _ _) fun _ => Keeps.pure r _) _

theorem layout1_frame (used : List Nat) (R : Residue) (v offset sb : Nat) :
    Keeps DecodeFrame (layout1 used R v offset sb) := decodeFill_frame _ _ _ _ _ _ _

theorem layout2_frame (chlist : List Nat) (R : Residue) (v offset sb : Nat) :
    Keeps DecodeFrame (layout2 chlist R v offset sb) := decodeInterleaved_frame _ _ _ _ _

section Skeleton

variable {layout : Nat → Nat → Nat → Op Unit} (hl : ∀ v o b, Keeps DecodeFrame (layout v o b))
include hl

theorem decodeOne_frame (R : Residue) (T : ResTable) (stage i v cls : Nat) :
    Keeps DecodeFrame (decodeOne R T layout stage i v cls) := by
  unfold decodeOne
  exact Keeps.ite (Keeps.bind DecodeFrame.rel (Keeps.need DecodeFrame.rel _) fun _ => hl _ _ _) (Keeps.pure DecodeFrame.rel _)

theorem decodeGroup_frame (R : Residue) (T : ResTable) (stage : Nat) (words : List (List Nat)) :
    ∀ left k i : Nat, Keeps DecodeFrame (decodeGroup R T layout stage words left k i)
  | 0, _, _ => Keeps.pure DecodeFrame.rel _
  | left + 1, k, i =>
    Keeps.bind DecodeFrame.rel (Keeps.forEach DecodeFrame.rel (fun _ => decodeOne_frame hl R T _ _ _ _) _) fun _ =>
      decodeGroup_frame R T stage words left (k + 1) (i + 1)

theorem decodeFirstStage_frame (R : Residue) (T : ResTable) (pdim vecs nparts : Nat) :
    ∀ fuel i : Nat, Keeps DecodeFrame (decodeFirstStage R T layout pdim vecs nparts fuel i)
  | 0, _ => Keeps.pure DecodeFrame.rel _
  | fuel + 1, i => by
    have r := DecodeFrame.rel
    unfold decodeFirstStage
    refine Keeps.ite ?_ (Keeps.pure r _)
    exact Keeps.bind r (Keeps.collect r (fun _ => readPhrase_frame _ _) _) fun _ =>
      Keeps.bind r (decodeGroup_frame hl R T _ _ _ _ _) fun _ =>
      Keeps.bind r (decodeFirstStage_frame R T pdim vecs nparts fuel _) fun _ => Keeps.pure r _

theorem decodeLaterStage_frame (R : Residue) (T : ResTable) (pdim nparts stage : Nat) :
    ∀ (l : List (List (List Nat))) (i : Nat), Keeps DecodeFrame (decodeLaterStage R T layout pdim nparts stage l i)
  | [], _ => Keeps.pure DecodeFrame.rel _
  | _ :: l, _ =>
    Keeps.bind DecodeFrame.rel (decodeGroup_frame hl R T _ _ _ _ _) fun _ =>
      decodeLaterStage_frame R T pdim nparts stage l _

theorem decodeStages_frame (R : Residue) (T : ResTable) (pdim vecs nparts : Nat) :
    Keeps DecodeFrame (decodeStages R T layout pdim vecs nparts) := by
  have r := DecodeFrame.rel
  unfold decodeStages
  refine Keeps.ite (Keeps.pure r _) ?_
  exact Keeps.bind r (decodeFirstStage_frame hl R T _ _ _ _ _) fun _ =>
    Keeps.bind r (Keeps.forEach r (fun _ => decodeLaterStage_frame hl R T _ _ _ _ _) _) fun _ => Keeps.pure r _

end Skeleton

theorem resDecode_frame {layout : Residue → Nat → Nat → Nat → Op Unit}
    (hl : ∀ R v o b, Keeps DecodeFrame (layout R v o b)) (r vecs limit : Nat) :
    Keeps DecodeFrame (resDecode r layout vecs limit) :=
  have k := DecodeFrame.rel
  Keeps.bind k (Keeps.get k) fun _ => Keeps.bind k (Keeps.need k _) fun R => Keeps.bind k (Keeps.get k) fun _ =>
  Keeps.bind k (Keeps.need k _) fun _ => Keeps.bind k (Keeps.get k) fun _ => Keeps.bind k (Keeps.need k _) fun _ =>
  Keeps.absorb k (decodeStages_frame (hl R) _ _ _ _ _) (Keeps.pure k _)

theorem res0Inverse_frame (r : Nat) (chlist : List Nat) : Keeps DecodeFrame (res0Inverse r chlist) :=
  Keeps.bind DecodeFrame.rel (Keeps.get DecodeFrame.rel) fun _ => resDecode_frame (fun _ _ _ _ => layout0_frame _ _ _ _ _) _ _ _

theorem res1Inverse_frame (r : Nat) (chlist : List Nat) : Keeps DecodeFrame (res1Inverse r chlist) :=
  Keeps.bind DecodeFrame.rel (Keeps.get DecodeFrame.rel) fun _ => resDecode_frame (fun _ _ _ _ => layout1_frame _ _ _ _ _) _ _ _

theorem res2Inverse_frame (r : Nat) (chlist : List Nat) : Keeps DecodeFrame (res2Inverse r chlist) :=
  Keeps.bind DecodeFrame.rel (Keeps.get DecodeFrame.rel) fun _ => resDecode_frame (fun _ _ _ _ => layout2_frame _ _ _ _ _) _ _ _

/-! ### Transform, window, mapping -/

theorem mdctBackward_frame (w c : Nat) : Keeps DecodeFrame (mdctBackward w c) :=
  have r := DecodeFrame.rel
  Keeps.bind r (Keeps.get r) fun _ => Keeps.bind r (Keeps.need r _) fun _ => Keeps.modify fun _ => DecodeFrame.storeRow _ _ _

theorem winApply_frame (c : Nat) : Keeps DecodeFrame (winApply c) :=
  have r := DecodeFrame.rel
  Keeps.bind r (Keeps.get r) fun _ => Keeps.bind r (Keeps.need r _) fun _ =>
    Keeps.ite (Keeps.modify (DecodeFrame.scaleRow _ _)) (Keeps.modify (DecodeFrame.storeRow _ _))

theorem floorInverse1_frame (f c : Nat) : Keeps DecodeFrame (floorInverse1 f c) :=
  have r := DecodeFrame.rel
  Keeps.bind r (Keeps.get r) fun _ => Keeps.bind r (Keeps.need r _) fun _ =>
    Keeps.ite (f0Inverse1_frame _ _) (f1Inverse1_frame _ _)

theorem floorInverse2_frame (P : Params) (f c : Nat) : Keeps DecodeFrame (floorInverse2 P f c) :=
  have r := DecodeFrame.rel
  Keeps.bind r (Keeps.get r) fun _ => Keeps.bind r (Keeps.need r _) fun _ =>
    Keeps.ite (f0Inverse2_frame _ _ _) (f1Inverse2_frame _ _ _)

theorem mapFloorPass1_frame (M : Mapping) (c : Nat) : Keeps DecodeFrame (mapFloorPass1 M c) :=
  have r := DecodeFrame.rel
  Keeps.bind r (floorInverse1_frame _ _) fun _ => Keeps.bind r (Keeps.modify (DecodeFrame.setNonzero _ _)) fun _ =>
    Keeps.ite (Keeps.modify DecodeFrame.setTrunc) (Keeps.pure r _)

theorem resInverse_frame (r : Nat) (chlist : List Nat) : Keeps DecodeFrame (resInverse r chlist) :=
  have k := DecodeFrame.rel
  Keeps.bind k (Keeps.get k) fun _ => Keeps.bind k (Keeps.need k _) fun _ =>
    Keeps.ite (res0Inverse_frame _ _) (Keeps.ite (res1Inverse_frame _ _) (res2Inverse_frame _ _))

theorem mapResidues_frame (M : Mapping) (channels : Nat) : ∀ l : List Nat, Keeps DecodeFrame (mapResidues M channels l)
  | [] => Keeps.pure DecodeFrame.rel _
  | s :: l => by
    have r := DecodeFrame.rel
    have ih := mapResidues_frame M channels l
    unfold mapResidues
    refine Keeps.ite ih (Keeps.bind r (resInverse_frame _ _) fun e => Keeps.ite ?_ ih)
    refine Keeps.bind r (Keeps.modify DecodeFrame.setTrunc) fun _ => Keeps.bind r (Keeps.get r) fun t => ?_
    split
    · exact Keeps.raise r _
    · exact Keeps.modify (DecodeFrame.silenceAll _)
    · exact ih

theorem mapFloorPass2_frame (P : Params) (M : Mapping) (c : Nat) : Keeps DecodeFrame (mapFloorPass2 P M c) :=
  Keeps.bind DecodeFrame.rel (floorInverse2_frame _ _ _) fun _ => Keeps.pure DecodeFrame.rel _

theorem currentMapping_frame : Keeps DecodeFrame currentMapping :=
  have r := DecodeFrame.rel
  Keeps.bind r (Keeps.get r) fun _ => Keeps.bind r (Keeps.need r _) fun _ => Keeps.need r _

/-- `MAP0.INVERSE` and all it runs stay inside the frame of decoding. -/
theorem map0Inverse_frame (P : Params) : Keeps DecodeFrame (map0Inverse P) := by
  have r := DecodeFrame.rel
  unfold map0Inverse
  refine Keeps.bind r currentMapping_frame fun M => Keeps.bind r (Keeps.get r) fun _ => Keeps.bind r (Keeps.need r _) fun ch =>
    Keeps.bind r (Keeps.get r) fun _ => ?_
  refine Keeps.bind r (Keeps.forEach r (fun _ => mapFloorPass1_frame _ _) _) fun _ => ?_
  refine Keeps.bind r (Keeps.forEach r (fun _ => Keeps.modify (DecodeFrame.widenPair _)) _) fun _ => ?_
  refine Keeps.bind r (Keeps.forEach r (fun _ => Keeps.modify (DecodeFrame.storeRow _ _)) _) fun _ => ?_
  refine Keeps.bind r (mapResidues_frame _ _ _) fun _ => ?_
  refine Keeps.bind r (Keeps.forEach r (fun _ => Keeps.modify (DecodeFrame.decouple _ _)) _) fun _ => ?_
  refine Keeps.bind r (Keeps.forEach r (fun _ => mapFloorPass2_frame _ _ _) _) fun _ => ?_
  refine Keeps.bind r (Keeps.forEach r (fun _ => Keeps.bind r (Keeps.get r) fun _ => mdctBackward_frame _ _) _) fun _ => ?_
  exact Keeps.forEach r (fun _ => winApply_frame _) _

end Sys2Proof.Machine
end

