-- ==== Sys2Proof/Laws/Complete.lean ====
section
/-! SUPPORT. Under a valid configuration decoding never misses a field or a table: what is left to end it early is the packet
(`Eof`, `BadCode`), which the floor and residue operations absorb. -/

namespace Sys2Proof.Machine

/-- The state carries this configuration, these tables and this parameter. -/
structure State.On (c : Cfg) (T : Tab) (x : EofInResidue) (s : State) : Prop where
  cfg : s.cfg = c
  tab : s.tab = T
  eofInResidue : s.eofInResidue = x

theorem DecodeFrame.on {c : Cfg} {T : Tab} {x : EofInResidue} {s t : State} (h : DecodeFrame s t) (k : s.On c T x) :
    t.On c T x := ⟨h.cfg.trans k.cfg, h.tab.trans k.tab, h.eofInResidue.trans k.eofInResidue⟩

/-- Started with this configuration, the operation ends with it, and raises only what `E` allows. -/
def Within {α : Type} (c : Cfg) (T : Tab) (x : EofInResidue) (E : Failure → Prop) (op : Op α) : Prop :=
  ∀ s : State, s.On c T x → Sat op s (fun _ t => t.On c T x) (fun e t => t.On c T x ∧ E e)

/-- What the packet's bits can end a decode with. -/
def PacketEnds (e : Failure) : Prop := e = .eof ∨ e = .badCode

/-- What ends an operation that raises nothing. -/
def Never (_ : Failure) : Prop := False

/-- What ends `MAP0.INVERSE` early: `Eof` under `fail_packet` (44_residue.md R270). -/
def MappingEnds (x : EofInResidue) (e : Failure) : Prop := e = .eof ∧ x = .failPacket

variable {α β : Type} {c : Cfg} {T : Tab} {x : EofInResidue} {E E' : Failure → Prop}

theorem Within.pure (a : α) : Within c T x E (Pure.pure a : Op α) := fun _ h => h

theorem Within.modify {f : State → State} (h : ∀ s, DecodeFrame s (f s)) : Within c T x E (modify f : Op Unit) :=
  fun s k => (h s).on k

theorem Within.bind {op : Op α} {f : α → Op β} (h : Within c T x E op) (k : ∀ a, Within c T x E (f a)) :
    Within c T x E (op >>= f) := fun s hs => Sat.bind (h s hs) fun a t ht => k a t ht

theorem Within.get_bind {f : State → Op β} (k : ∀ s : State, s.On c T x → Within c T x E (f s)) :
    Within c T x E ((MonadStateOf.get : Op State) >>= f) := fun s hs => k s hs s hs

theorem Within.need_bind {o : Option α} {v : α} {f : α → Op β} (h : o = some v) (k : Within c T x E (f v)) :
    Within c T x E (need o >>= f) := by subst h; exact k

theorem Within.mono {op : Op α} (h : Within c T x E op) (k : ∀ e, E e → E' e) : Within c T x E' op := fun s hs =>
  (h s hs).mono (fun _ _ h => h) fun e _ h => ⟨h.1, k e h.2⟩

theorem Within.ite {p : Prop} [Decidable p] {op op' : Op α} (h : p → Within c T x E op) (k : ¬ p → Within c T x E op') :
    Within c T x E (if p then op else op') := by
  split
  · exact h ‹_›
  · exact k ‹_›

theorem Within.raise {f : Failure} (h : E f) : Within c T x E (Machine.raise f : Op α) := fun _ hs => ⟨hs, h⟩

theorem Within.absorb {op handler : Op α} (h : Within c T x PacketEnds op) (k : Within c T x Never handler) :
    Within c T x Never (Machine.absorb op handler) := fun s hs =>
  sat_absorb.2 <| (h s hs).mono (fun _ _ h => h) fun _ t he =>
    ⟨fun _ => k t he.1, fun hn => absurd he.2 hn⟩

theorem Within.forEach {body : β → Op Unit} : ∀ l : List β, (∀ y ∈ l, Within c T x E (body y)) →
    Within c T x E (Machine.forEach l body)
  | [], _ => Within.pure ()
  | y :: l, h => Within.bind (h y (by simp)) fun _ => Within.forEach l fun z hz => h z (by simp [hz])

theorem Within.collect {body : β → Op α} : ∀ l : List β, (∀ y ∈ l, Within c T x E (body y)) →
    Within c T x E (Machine.collect l body)
  | [], _ => Within.pure []
  | y :: l, h => Within.bind (h y (by simp)) fun _ =>
      Within.bind (Within.collect l fun z hz => h z (by simp [hz])) fun _ => Within.pure _

/-! ## Scalar and vector decode -/

theorem readBits_within (n : Nat) : Within c T x PacketEnds (readBits n) := fun s hs =>
  sat_readBits.2 ⟨fun _ => (DecodeFrame.advance n s).on hs, fun _ => ⟨((DecodeFrame.advance n s).trans (DecodeFrame.setEoff _)).on hs, .inl rfl⟩⟩

theorem decodeFrom_within (words : List (Option Codeword)) : ∀ (fuel : Nat) (w : Codeword),
    Within c T x PacketEnds (decodeFrom words fuel w)
  | 0, _ => Within.raise (.inr rfl)
  | fuel + 1, w => by
    refine Within.bind (Within.bind (readBits_within 1) fun _ => Within.pure _) fun bit => ?_
    dsimp only
    split
    · exact Within.pure _
    · exact Within.ite (fun _ => decodeFrom_within words fuel _) fun _ => Within.raise (.inr rfl)

theorem cbDecode_within {b : Nat} (h : HasWords T b) : Within c T x PacketEnds (cbDecode b) :=
  Within.get_bind fun _ hs => Within.need_bind (by rw [hs.tab]; exact h.choose_spec) (decodeFrom_within _ _ _)

theorem decodeValues_within {b : Nat} (h : HasValues c T b) : Within c T x PacketEnds (decodeValues b) :=
  Within.get_bind fun _ hs => Within.need_bind (by rw [hs.cfg]; exact h.2.1.choose_spec) <|
  Within.get_bind fun _ hs => Within.need_bind (by rw [hs.tab]; exact h.2.2.choose_spec) <|
  Within.bind (cbDecode_within h.1) fun _ => Within.pure _

theorem decodeFill_within {b : Nat} (h : HasValues c T b) (d : Target) (m : CombineMode) (offset n : Nat) :
    ∀ fuel i : Nat, Within c T x PacketEnds (decodeFill b d m offset n fuel i)
  | 0, _ => Within.pure ()
  | fuel + 1, i => by
    unfold decodeFill
    exact Within.ite (fun _ => Within.bind (decodeValues_within h) fun _ =>
      Within.bind (Within.modify (DecodeFrame.storeRun d m 1 _ _)) fun _ => decodeFill_within h d m offset n fuel _)
      fun _ => Within.pure ()

theorem decodeInterleaved_within {b : Nat} (h : HasValues c T b) (chlist : List Nat) (stop : Nat) :
    ∀ fuel p : Nat, Within c T x PacketEnds (decodeInterleaved b chlist stop fuel p)
  | 0, _ => Within.pure ()
  | fuel + 1, p => by
    unfold decodeInterleaved
    exact Within.ite (fun _ => Within.bind (decodeValues_within h) fun _ =>
      Within.bind (Within.modify (DecodeFrame.addInterleaved chlist _ _)) fun _ => decodeInterleaved_within h chlist stop fuel _)
      fun _ => Within.pure ()

theorem cbDecodeVs_within {b : Nat} (h : HasValues c T b) (d : Target) (m : CombineMode) (index step : Nat) :
    Within c T x PacketEnds (cbDecodeVs b d m index step) :=
  Within.bind (decodeValues_within h) fun _ =>
  Within.bind (Within.modify (DecodeFrame.storeRun d m step _ _)) fun _ => Within.pure _

/-! ## Floors -/

theorem readCoefficients_within {b : Nat} (h : HasValues c T b) (m dim : Nat) :
    ∀ fuel j : Nat, Within c T x PacketEnds (readCoefficients b m dim fuel j)
  | 0, _ => Within.pure ()
  | fuel + 1, j => by
    unfold readCoefficients
    exact Within.ite (fun _ => Within.bind (cbDecodeVs_within h _ _ _ _) fun _ => readCoefficients_within h m dim fuel _)
      fun _ => Within.pure ()

theorem f0Inverse1_within {f ch : Nat} {F : Floor0} (hF : fieldAt c.floor f = some (.type0 F))
    (hn : F.books.length = F.numbooks) (hb : ∀ b ∈ F.books, HasValues c T b) :
    Within c T x Never (f0Inverse1 f ch) := by
  refine Within.bind (Within.modify (DecodeFrame.setMemo _ _)) fun _ => Within.get_bind fun s hs => ?_
  refine Within.need_bind (v := F) (by simp [State.floor0At, hs.cfg, hF]) (Within.absorb ?_ (Within.pure _))
  unfold f0Pass1
  refine Within.bind (readBits_within _) fun _ => Within.ite (fun _ => Within.pure _) fun _ => ?_
  refine Within.bind (readBits_within _) fun k => Within.ite (fun _ => Within.pure _) fun hk => ?_
  have hk' : k < F.books.length := by omega
  have h := hb _ (List.getElem_mem hk')
  refine Within.need_bind (List.getElem?_eq_getElem hk') (Within.get_bind fun s hs => ?_)
  refine Within.need_bind (by rw [hs.cfg]; exact h.2.1.choose_spec) ?_
  refine Within.bind (readCoefficients_within h _ _ _ _) fun _ => Within.bind (fun s hs => ?_) fun _ => ?_
  · exact ⟨hs.cfg, hs.tab, hs.eofInResidue⟩
  · exact Within.bind (Within.modify fun s => DecodeFrame.setMemo _ _ s) fun _ => Within.pure _

theorem readPost_within {k : FloorClass} (h : ClassUsable T k) (cval : Nat) :
    Within c T x PacketEnds (readPost k cval) := by
  unfold readPost
  split
  · rename_i b hb
    refine cbDecode_within (h.2 b ?_)
    exact List.mem_of_getElem? (Option.join_eq_some_iff.1 hb)
  · exact Within.pure _

theorem readPosts_within {k : FloorClass} (h : ClassUsable T k) :
    ∀ left cval : Nat, Within c T x PacketEnds (readPosts k left cval)
  | 0, _ => Within.pure _
  | left + 1, cval => by
    unfold readPosts
    exact Within.bind (readPost_within h _) fun _ => Within.bind (readPosts_within h left _) fun _ => Within.pure _

theorem readPartitions_within {F : Floor1} : ∀ l : List Nat, (∀ n ∈ l, ∃ k, F.classes[n]? = some k ∧ ClassUsable T k) →
    Within c T x PacketEnds (readPartitions F l)
  | [], _ => Within.pure _
  | n :: l, h => by
    obtain ⟨k, hk, hu⟩ := h n (by simp)
    unfold readPartitions
    refine Within.need_bind hk (Within.bind ?_ fun _ => Within.bind (readPosts_within hu _ _) fun _ =>
      Within.bind (readPartitions_within l fun m hm => h m (by simp [hm])) fun _ => Within.pure _)
    unfold readClassValue
    refine Within.ite (fun _ => Within.pure _) fun hs => ?_
    obtain ⟨b, hb, hw⟩ := hu.1 hs
    exact Within.need_bind hb (cbDecode_within hw)

theorem f1Inverse1_within {f ch : Nat} {F : Floor1} {T1 : Floor1Table} (hF : fieldAt c.floor f = some (.type1 F))
    (hT : fieldAt T.floor1 f = some T1)
    (hk : ∀ n ∈ F.partitionclass, ∃ k, F.classes[n]? = some k ∧ ClassUsable T k) :
    Within c T x Never (f1Inverse1 f ch) := by
  refine Within.bind (Within.modify (DecodeFrame.setMemo _ _)) fun _ => Within.get_bind fun s hs => ?_
  refine Within.need_bind (v := F) (by simp [State.floor1At, hs.cfg, hF]) (Within.get_bind fun s hs => ?_)
  refine Within.need_bind (hs.tab ▸ hT) (Within.absorb ?_ (Within.pure _))
  unfold f1Pass1
  refine Within.bind (Within.bind (readBits_within 1) fun _ => Within.pure _) fun _ =>
    Within.ite (fun _ => Within.pure _) fun _ => ?_
  exact Within.bind (readBits_within _) fun _ => Within.bind (readBits_within _) fun _ =>
    Within.bind (readPartitions_within _ hk) fun _ => Within.bind (Within.modify (DecodeFrame.setMemo _ _)) fun _ =>
    Within.pure _

theorem floorInverse1_within {f ch : Nat} (h : FloorUsable c T f) : Within c T x Never (floorInverse1 f ch) := by
  refine Within.get_bind fun s hs => ?_
  rcases h with ⟨ht, F, hF, hn, hb, -, -⟩ | ⟨ht, F, hF, ⟨T1, hT⟩, hk⟩
  · exact Within.need_bind (hs.cfg ▸ ht) (Within.ite (fun _ => f0Inverse1_within hF hn hb) fun h => absurd rfl h)
  · exact Within.need_bind (hs.cfg ▸ ht) (Within.ite (fun h => by simp at h) fun _ => f1Inverse1_within hF hT hk)

theorem floorInverse2_within {P : Params} {f ch : Nat} (h : FloorUsable c T f) :
    Within c T x Never (floorInverse2 P f ch) := by
  refine Within.get_bind fun s hs => ?_
  rcases h with ⟨ht, F, hF, -, -, ⟨T0, h0⟩, T1, h1⟩ | ⟨ht, F, hF, ⟨T1, hT⟩, -⟩
  · refine Within.need_bind (hs.cfg ▸ ht) (Within.ite (fun _ => Within.get_bind fun s hs => ?_) fun h => absurd rfl h)
    dsimp only
    split
    · exact Within.bind (Within.modify (DecodeFrame.storeRow _ _)) fun _ => Within.pure _
    · refine Within.need_bind (v := F) (by simp [State.floor0At, hs.cfg, hF]) ?_
      refine Within.need_bind (v := if s.w then T1 else T0) (by rw [hs.tab]; split <;> assumption) ?_
      exact Within.bind (Within.modify (DecodeFrame.scaleRow _ _)) fun _ => Within.pure _
  · refine Within.need_bind (hs.cfg ▸ ht) (Within.ite (fun h => by simp at h) fun _ => Within.get_bind fun s hs => ?_)
    dsimp only
    split
    · exact Within.bind (Within.modify (DecodeFrame.storeRow _ _)) fun _ => Within.pure _
    · refine Within.need_bind (v := F) (by simp [State.floor1At, hs.cfg, hF]) (Within.need_bind (hs.tab ▸ hT) ?_)
      exact Within.bind (Within.modify (DecodeFrame.scaleRow _ _)) fun _ => Within.pure _

/-! ## Residues -/

section Skeleton

variable {R : Residue} {Q : ResTable} {layout : Nat → Nat → Nat → Op Unit}
  (hl : ∀ v o b, HasValues c T b → Within c T x PacketEnds (layout v o b)) (hg : HasWords T R.groupbook)
  (hb : ∀ cls stage, (R.secondstages.getD cls 0).testBit stage = true →
    ∃ b, (Q.partbooks.getD cls []).getD stage none = some b ∧ HasValues c T b)
include hl hb

theorem decodeGroup_within (stage : Nat) (words : List (List Nat)) :
    ∀ left k i : Nat, Within c T x PacketEnds (decodeGroup R Q layout stage words left k i)
  | 0, _, _ => Within.pure _
  | left + 1, k, i =>
    Within.bind (Within.forEach _ fun v _ => by
      unfold decodeOne
      refine Within.ite (fun h => ?_) fun _ => Within.pure _
      obtain ⟨b, h1, h2⟩ := hb _ _ h
      exact Within.need_bind h1 (hl _ _ _ h2)) fun _ => decodeGroup_within stage words left (k + 1) (i + 1)

theorem decodeLaterStage_within (pdim nparts stage : Nat) :
    ∀ (l : List (List (List Nat))) (i : Nat),
      Within c T x PacketEnds (decodeLaterStage R Q layout pdim nparts stage l i)
  | [], _ => Within.pure _
  | _ :: l, _ => Within.bind (decodeGroup_within hl hb _ _ _ _ _) fun _ => decodeLaterStage_within pdim nparts stage l _

include hg

theorem decodeFirstStage_within (pdim vecs nparts : Nat) :
    ∀ fuel i : Nat, Within c T x PacketEnds (decodeFirstStage R Q layout pdim vecs nparts fuel i)
  | 0, _ => Within.pure _
  | fuel + 1, i => by
    unfold decodeFirstStage
    refine Within.ite (fun _ => ?_) fun _ => Within.pure _
    refine Within.bind (Within.collect _ fun _ _ => ?_) fun _ => Within.bind (decodeGroup_within hl hb _ _ _ _ _) fun _ =>
      Within.bind (decodeFirstStage_within pdim vecs nparts fuel _) fun _ => Within.pure _
    exact Within.bind (cbDecode_within hg) fun _ =>
      Within.ite (fun _ => Within.pure _) fun _ => Within.raise (.inr rfl)

theorem decodeStages_within (pdim vecs nparts : Nat) :
    Within c T x PacketEnds (decodeStages R Q layout pdim vecs nparts) := by
  unfold decodeStages
  refine Within.ite (fun _ => Within.pure _) fun _ => ?_
  exact Within.bind (decodeFirstStage_within hl hg hb _ _ _ _ _) fun _ =>
    Within.bind (Within.forEach _ fun _ _ => decodeLaterStage_within hl hb _ _ _ _ _) fun _ => Within.pure _

end Skeleton

theorem resDecode_within {r : Nat} (h : ResidueUsable c T r) {layout : Residue → Nat → Nat → Nat → Op Unit}
    (hl : ∀ R v o b, HasValues c T b → Within c T x PacketEnds (layout R v o b)) (vecs limit : Nat) :
    Within c T x Never (resDecode r layout vecs limit) := by
  obtain ⟨R, Q, -, hR, hQ, hg, ⟨phrase, hp⟩, hb⟩ := h
  refine Within.get_bind fun _ hs => Within.need_bind (hs.cfg ▸ hR) (Within.get_bind fun _ hs => ?_)
  refine Within.need_bind (hs.tab ▸ hQ) (Within.get_bind fun _ hs => Within.need_bind (hs.cfg ▸ hp) ?_)
  exact Within.absorb (decodeStages_within (hl R) hg hb _ _ _) (Within.pure _)

theorem layout0_within (used : List Nat) (R : Residue) (v offset b : Nat) (h : HasValues c T b) :
    Within c T x PacketEnds (layout0 used R v offset b) :=
  Within.get_bind fun _ hs => Within.need_bind (by rw [hs.cfg]; exact h.2.1.choose_spec) <|
    Within.forEach _ fun _ _ => Within.bind (cbDecodeVs_within h _ _ _ _) fun _ => Within.pure _

theorem res0Inverse_within {r : Nat} (h : ResidueUsable c T r) (chlist : List Nat) :
    Within c T x Never (res0Inverse r chlist) :=
  Within.get_bind fun _ _ => resDecode_within h (fun R v o b hb => layout0_within _ R v o b hb) _ _

theorem res1Inverse_within {r : Nat} (h : ResidueUsable c T r) (chlist : List Nat) :
    Within c T x Never (res1Inverse r chlist) :=
  Within.get_bind fun _ _ => resDecode_within h (fun _ _ _ _ hb => decodeFill_within hb _ _ _ _ _ _) _ _

theorem res2Inverse_within {r : Nat} (h : ResidueUsable c T r) (chlist : List Nat) :
    Within c T x Never (res2Inverse r chlist) :=
  Within.get_bind fun _ _ => resDecode_within h (fun _ _ _ _ hb => decodeInterleaved_within hb _ _ _ _) _ _

theorem resInverse_within {r : Nat} (h : ResidueUsable c T r) (chlist : List Nat) :
    Within c T x Never (resInverse r chlist) :=
  Within.get_bind fun _ hs => Within.need_bind (by rw [hs.cfg]; exact h.choose_spec.choose_spec.1.choose_spec.1) <|
    Within.ite (fun _ => res0Inverse_within h _) fun _ =>
      Within.ite (fun _ => res1Inverse_within h _) fun _ => res2Inverse_within h _

/-! ## The mapping -/

theorem mapFloorPass1_within {M : Mapping} {ch : Nat} (h : FloorUsable c T (floorOf M ch)) :
    Within c T x Never (mapFloorPass1 M ch) :=
  Within.bind (floorInverse1_within h) fun _ => Within.bind (Within.modify (DecodeFrame.setNonzero _ _)) fun _ =>
    Within.ite (fun _ => Within.modify DecodeFrame.setTrunc) fun _ => Within.pure _

theorem mapResidues_within {M : Mapping} (channels : Nat) (h : ∀ i, ResidueUsable c T (M.residuesubmap.getD i 0)) :
    ∀ l : List Nat, Within c T x (MappingEnds x) (mapResidues M channels l)
  | [] => Within.pure _
  | s :: l => by
    have ih := mapResidues_within channels h l
    unfold mapResidues
    refine Within.ite (fun _ => ih) fun _ => Within.bind ((resInverse_within (h s) _).mono fun _ h => h.elim) fun e =>
      Within.ite (fun _ => ?_) fun _ => ih
    refine Within.bind (Within.modify DecodeFrame.setTrunc) fun _ => Within.get_bind fun t ht => ?_
    rw [ht.eofInResidue]
    cases x
    · exact ih
    · exact Within.modify (DecodeFrame.silenceAll _)
    · exact Within.raise ⟨rfl, rfl⟩

/-- What a packet of the given mode needs of the configuration and the tables. -/
structure Decodable (c : Cfg) (T : Tab) (r : Mode) : Prop where
  channels : ∃ n, c.channels = some n
  map : ∃ M, fieldAt c.map r.mapping = some M ∧ (∀ ch, FloorUsable c T (floorOf M ch)) ∧
    ∀ i, ResidueUsable c T (M.residuesubmap.getD i 0)
  mdct : (∃ t, T.mdct0 = some t) ∧ ∃ t, T.mdct1 = some t
  windows : ∀ s : State, s.tab = T → (s.w = false → s.lw = false ∧ s.nw = false) →
    ∃ win, s.windowAt s.w s.lw s.nw = some win

/-- A valid configuration has all that its modes need. -/
theorem State.Configured.decodable {s : State} (h : s.Configured) {k n : Nat} {r : Mode} (hn : s.cfg.modes = some n)
    (hk : k < n) (hr : fieldAt s.cfg.mode k = some r) : Decodable s.cfg s.tab r := by
  obtain ⟨n', hn', -, -, -, hmode⟩ := h.modes
  obtain ⟨nm, hnm, hmap⟩ := h.maps
  obtain ⟨nf, hnf, -, hfloor⟩ := h.floors
  obtain ⟨nr, hnr, -, hres⟩ := h.residues
  rw [hn] at hn'
  cases hn'
  obtain ⟨r', hr', hlt⟩ := hmode k hk
  rw [hr] at hr'
  cases hr'
  rw [hnm] at hlt
  obtain ⟨M, hM, hf, hs, -⟩ := hmap _ hlt
  refine ⟨⟨_, h.channels.choose_spec.1⟩, ⟨M, hM, fun ch => hfloor _ ?_, fun i => hres _ ?_⟩, h.transforms, ?_⟩
  · simpa [hnf] using hf ch
  · simpa [hnr] using hs i
  · intro t ht hw
    obtain ⟨win, hwin⟩ := h.windows t.w t.lw t.nw hw
    refine ⟨win, ?_⟩
    rw [← hwin]
    unfold State.windowAt
    rw [ht]

/-- Once its mapping is known, `MAP0.INVERSE` ends early only as `MappingEnds` says. -/
theorem map0Inverse_ends {P : Params} {s : State} {r : Mode} (hm : fieldAt s.cfg.mode s.mode.toNat = some r)
    (h : Decodable s.cfg s.tab r) (hw : s.w = r.blockflag) (hs : s.w = false → s.lw = false ∧ s.nw = false) :
    Sat (map0Inverse P) s (fun _ _ => True) fun e _ => MappingEnds s.eofInResidue e := by
  obtain ⟨⟨n, hn⟩, ⟨M, hM, hf, hr⟩, hmd, hwin⟩ := h
  -- carry the frame along, so that `w`, `lw` and `nw` stay known
  have key : Sat (map0Inverse P) s (fun _ t => DecodeFrame s t ∧ t.On s.cfg s.tab s.eofInResidue)
      fun e t => DecodeFrame s t ∧ MappingEnds s.eofInResidue e := by
    have on : s.On s.cfg s.tab s.eofInResidue := ⟨rfl, rfl, rfl⟩
    have part : ∀ {α : Type} {op : Op α}, Keeps DecodeFrame op →
        (∀ t, DecodeFrame s t → t.On s.cfg s.tab s.eofInResidue →
          Sat op t (fun _ u => u.On s.cfg s.tab s.eofInResidue)
            (fun e u => u.On s.cfg s.tab s.eofInResidue ∧ MappingEnds s.eofInResidue e)) →
        ∀ t, DecodeFrame s t ∧ t.On s.cfg s.tab s.eofInResidue →
          Sat op t (fun _ u => DecodeFrame s u ∧ u.On s.cfg s.tab s.eofInResidue)
            (fun e u => DecodeFrame s u ∧ MappingEnds s.eofInResidue e) := by
      intro α op hk hop t ht
      exact ((hk t).and (hop t ht.1 ht.2)).mono (fun _ _ h => ⟨ht.1.trans h.1, h.2⟩)
        fun _ _ h => ⟨ht.1.trans h.1, h.2.2⟩
    have wi : ∀ {α : Type} {op : Op α} {E : Failure → Prop}, Keeps DecodeFrame op →
        Within s.cfg s.tab s.eofInResidue E op → (∀ e, E e → MappingEnds s.eofInResidue e) →
        ∀ t, DecodeFrame s t ∧ t.On s.cfg s.tab s.eofInResidue →
          Sat op t (fun _ u => DecodeFrame s u ∧ u.On s.cfg s.tab s.eofInResidue)
            (fun e u => DecodeFrame s u ∧ MappingEnds s.eofInResidue e) := by
      intro α op E hk hop hE
      exact part hk fun t _ ht => (hop.mono hE) t ht
    have k := DecodeFrame.rel
    have stop : ∀ e, Never e → MappingEnds s.eofInResidue e := fun _ h => h.elim
    have start : Sat currentMapping s (fun m t => m = M ∧ DecodeFrame s t ∧ t.On s.cfg s.tab s.eofInResidue)
        (fun e t => DecodeFrame s t ∧ MappingEnds s.eofInResidue e) := by
      refine sat_bind.2 (sat_get.2 (sat_bind.2 ?_))
      rw [sat_need]
      refine ⟨fun v hv => ?_, fun hv => by simp [hm] at hv⟩
      rw [hm] at hv
      cases hv
      rw [sat_need]
      refine ⟨fun v hv => ?_, fun hv => by simp [hM] at hv⟩
      rw [hM] at hv
      cases hv
      exact ⟨rfl, .refl s, on⟩
    unfold map0Inverse
    refine Sat.bind start fun m t ht => ?_
    obtain ⟨rfl, ht⟩ := ht
    refine sat_bind.2 (sat_get.2 (sat_bind.2 (sat_need.2 ⟨fun ch hch => ?_, fun hv => by simp [ht.2.cfg, hn] at hv⟩)))
    refine sat_bind.2 (sat_get.2 ?_)
    refine Sat.bind (wi (Keeps.forEach k (fun _ => mapFloorPass1_frame _ _) _)
      (Within.forEach _ fun c _ => mapFloorPass1_within (hf c)) stop t ht) fun _ t ht => ?_
    refine Sat.bind (wi (Keeps.forEach k (fun _ => Keeps.modify (DecodeFrame.widenPair _)) _)
      (Within.forEach _ fun _ _ => Within.modify (DecodeFrame.widenPair _)) stop t ht) fun _ t ht => ?_
    refine Sat.bind (wi (Keeps.forEach k (fun _ => Keeps.modify (DecodeFrame.storeRow _ _)) _)
      (Within.forEach _ fun _ _ => Within.modify (DecodeFrame.storeRow _ _)) stop t ht) fun _ t ht => ?_
    refine Sat.bind (wi (mapResidues_frame _ _ _) (mapResidues_within _ hr _) (fun _ h => h) t ht) fun _ t ht => ?_
    refine Sat.bind (wi (Keeps.forEach k (fun _ => Keeps.modify (DecodeFrame.decouple _ _)) _)
      (Within.forEach _ fun _ _ => Within.modify (DecodeFrame.decouple _ _)) stop t ht) fun _ t ht => ?_
    refine Sat.bind (wi (Keeps.forEach k (fun _ => mapFloorPass2_frame _ _ _) _)
      (Within.forEach _ fun c _ => Within.bind (floorInverse2_within (hf c)) fun _ => Within.pure _) stop t ht)
      fun _ t ht => ?_
    refine Sat.bind (sat_forEach (I := fun t => DecodeFrame s t ∧ t.On s.cfg s.tab s.eofInResidue) _ ht fun c _ t ht => ?_)
      fun _ t ht => ?_
    · refine sat_bind.2 (sat_get.2 ?_)
      refine part (mdctBackward_frame _ _) (fun u hu hon => ?_) t ht
      refine sat_bind.2 (sat_get.2 (sat_bind.2 (sat_need.2 ⟨fun M _ => ?_, fun hnone => ?_⟩)))
      · exact (DecodeFrame.storeRow _ _ u).on hon
      · exfalso
        rw [ht.1.w, hw] at hnone
        obtain ⟨⟨t0, h0⟩, t1, h1⟩ := hmd
        cases hb : r.blockflag <;> simp [State.mdctTableAt, bitValue, hon.tab, h0, h1, hb] at hnone
    · refine sat_forEach (I := fun t => DecodeFrame s t ∧ t.On s.cfg s.tab s.eofInResidue) _ ht fun c _ t ht => ?_
      refine part (winApply_frame _) (fun u hu hon => ?_) t ht
      refine sat_bind.2 (sat_get.2 (sat_bind.2 (sat_need.2 ⟨fun win _ => ?_, fun hnone => ?_⟩)))
      · refine sat_ite.2 ⟨fun _ => (DecodeFrame.scaleRow _ _ u).on hon, fun _ => (DecodeFrame.storeRow _ _ u).on hon⟩
      · exfalso
        obtain ⟨win, h⟩ := hwin u hon.tab (by rw [hu.w, hu.lw, hu.nw]; exact hs)
        simp [h] at hnone
  exact key.mono (fun _ _ _ => trivial) fun _ _ h => h.2

end Sys2Proof.Machine
end

