-- ==== Sys2Proof/Laws/Blind.lean ====
section
/-! SUPPORT. The parameter `EOF_IN_RESIDUE` is seen in one place only: every operation that `MAP0.INVERSE` is made of does the
same under each of its values. Then a loop of operations that never end early is a fold of the states they leave. -/

namespace Sys2Proof.Machine

/-- A result with its state under another value of the parameter. -/
def withParameter {α : Type} (x : EofInResidue) : EStateM.Result Failure State α → EStateM.Result Failure State α
  | .ok a t => .ok a (t.withEofInResidue x)
  | .error e t => .error e (t.withEofInResidue x)

/-- The operation does the same whatever the parameter is. -/
def Blind {α : Type} (op : Op α) : Prop :=
  ∀ (x : EofInResidue) (s : State), op (s.withEofInResidue x) = withParameter x (op s)

variable {α β : Type}

/-! ## The calculus -/

theorem Blind.pure (a : α) : Blind (Pure.pure a : Op α) := fun _ _ => rfl

theorem Blind.raise (f : Failure) : Blind (Machine.raise f : Op α) := fun _ _ => rfl

theorem Blind.modify {f : State → State} (h : ∀ x s, f (s.withEofInResidue x) = (f s).withEofInResidue x) :
    Blind (modify f : Op Unit) := fun x s => congrArg (EStateM.Result.ok ()) (h x s)

theorem Blind.bind {op : Op α} {f : α → Op β} (h : Blind op) (hf : ∀ a, Blind (f a)) : Blind (op >>= f) := by
  intro x s
  have hx := h x s
  cases hs : op s with
  | ok a t =>
    rw [hs] at hx
    rw [bind_ok hx, bind_ok hs]
    exact hf a x t
  | error e t =>
    rw [hs] at hx
    rw [bind_error hx, bind_error hs]
    rfl

/-- A state read that sees only what the parameter is not. -/
theorem Blind.get_bind {f : State → Op β} (hs : ∀ x s, f (s.withEofInResidue x) = f s) (hf : ∀ s, Blind (f s)) :
    Blind ((MonadStateOf.get : Op State) >>= f) := fun x s => by
  show f (s.withEofInResidue x) (s.withEofInResidue x) = _
  rw [hs]
  exact hf s x s

theorem Blind.need (o : Option α) : Blind (Machine.need o) := fun _ _ => by cases o <;> rfl

theorem Blind.need_bind {o : Option α} {f : α → Op β} (hf : ∀ v, o = some v → Blind (f v)) :
    Blind (Machine.need o >>= f) := by
  cases o with
  | none => exact fun _ _ => rfl
  | some v => exact hf v rfl

theorem Blind.ite {p : Prop} [Decidable p] {op op' : Op α} (h : Blind op) (k : Blind op') :
    Blind (if p then op else op') := by split <;> assumption

theorem Blind.absorb {op handler : Op α} (h : Blind op) (k : Blind handler) : Blind (Machine.absorb op handler) := by
  intro x s
  unfold Machine.absorb
  rw [h x s]
  rcases op s with ⟨a, t⟩ | ⟨e, t⟩
  · rfl
  · cases e <;> first | exact k x t | rfl

theorem Blind.forEach {body : β → Op Unit} (h : ∀ y, Blind (body y)) : ∀ l : List β, Blind (Machine.forEach l body)
  | [] => Blind.pure ()
  | y :: l => Blind.bind (h y) fun _ => Blind.forEach h l

theorem Blind.collect {body : β → Op α} (h : ∀ y, Blind (body y)) : ∀ l : List β, Blind (Machine.collect l body)
  | [] => Blind.pure []
  | y :: l => Blind.bind (h y) fun _ => Blind.bind (Blind.collect h l) fun _ => Blind.pure _

/-! ## Reads and decodes -/

theorem readBits_blind (n : Nat) : Blind (readBits n) := fun x s => by
  show (if s.avail n then _ else _) = withParameter x (if s.avail n then _ else _)
  split <;> rfl

theorem decodeFrom_blind (words : List (Option Codeword)) : ∀ (fuel : Nat) (w : Codeword), Blind (decodeFrom words fuel w)
  | 0, _ => Blind.raise _
  | fuel + 1, w => by
    refine Blind.bind (Blind.bind (readBits_blind 1) fun _ => Blind.pure _) fun bit => ?_
    dsimp only
    split
    · exact Blind.pure _
    · exact Blind.ite (decodeFrom_blind words fuel _) (Blind.raise _)

theorem cbDecode_blind (b : Nat) : Blind (cbDecode b) :=
  Blind.get_bind (fun _ _ => rfl) fun _ => Blind.need_bind fun _ _ => decodeFrom_blind _ _ _

theorem decodeValues_blind (b : Nat) : Blind (decodeValues b) :=
  Blind.get_bind (fun _ _ => rfl) fun _ => Blind.need_bind fun _ _ =>
  Blind.get_bind (fun _ _ => rfl) fun _ => Blind.need_bind fun _ _ =>
  Blind.bind (cbDecode_blind b) fun _ => Blind.pure _

theorem pcmModify_withEofInResidue (c i : Nat) (f : F32 → F32) (x : EofInResidue) (s : State) :
    (s.withEofInResidue x).pcmModify c i f = (s.pcmModify c i f).withEofInResidue x := by
  unfold State.pcmModify
  by_cases h : i < s.pcmend.toNat ∧ c < s.cfg.channels.getD 0
  · rw [if_pos h]; exact if_pos h
  · rw [if_neg h]; exact if_neg h

theorem targetModify_withEofInResidue (d : Target) (i : Nat) (f : F32 → F32) (x : EofInResidue) (s : State) :
    targetModify d i f (s.withEofInResidue x) = (targetModify d i f s).withEofInResidue x := by
  cases d with
  | pcm c => exact pcmModify_withEofInResidue c i f x s
  | lsp =>
    show State.lspModify i f _ = (State.lspModify i f s).withEofInResidue x
    unfold State.lspModify
    split <;> rfl

theorem storeRun_withEofInResidue (d : Target) (m : CombineMode) (step : Nat) (x : EofInResidue) :
    ∀ (vs : List F32) (i : Nat) (s : State),
      storeRun d m step i vs (s.withEofInResidue x) = (storeRun d m step i vs s).withEofInResidue x
  | [], _, _ => rfl
  | v :: vs, i, s => by
    unfold storeRun
    rw [targetModify_withEofInResidue, storeRun_withEofInResidue d m step x vs]

theorem addInterleaved_withEofInResidue (chlist : List Nat) (x : EofInResidue) :
    ∀ (vs : List F32) (p : Nat) (s : State),
      addInterleaved chlist p vs (s.withEofInResidue x) = (addInterleaved chlist p vs s).withEofInResidue x
  | [], _, _ => rfl
  | v :: vs, p, s => by
    unfold addInterleaved
    rw [pcmModify_withEofInResidue, addInterleaved_withEofInResidue chlist x vs]

theorem decodeFill_blind (b : Nat) (d : Target) (m : CombineMode) (offset n : Nat) :
    ∀ fuel i : Nat, Blind (decodeFill b d m offset n fuel i)
  | 0, _ => Blind.pure ()
  | fuel + 1, i => by
    unfold decodeFill
    exact Blind.ite (Blind.bind (decodeValues_blind b) fun _ => Blind.bind
      (Blind.modify fun x s => storeRun_withEofInResidue d m 1 x _ _ s) fun _ => decodeFill_blind b d m offset n fuel _)
      (Blind.pure ())

theorem decodeInterleaved_blind (b : Nat) (chlist : List Nat) (stop : Nat) :
    ∀ fuel p : Nat, Blind (decodeInterleaved b chlist stop fuel p)
  | 0, _ => Blind.pure ()
  | fuel + 1, p => by
    unfold decodeInterleaved
    exact Blind.ite (Blind.bind (decodeValues_blind b) fun _ => Blind.bind
      (Blind.modify fun x s => addInterleaved_withEofInResidue chlist x _ _ s) fun _ =>
        decodeInterleaved_blind b chlist stop fuel _) (Blind.pure ())

theorem cbDecodeVs_blind (b : Nat) (d : Target) (m : CombineMode) (index step : Nat) :
    Blind (cbDecodeVs b d m index step) :=
  Blind.bind (decodeValues_blind b) fun _ =>
  Blind.bind (Blind.modify fun x s => storeRun_withEofInResidue d m step x _ _ s) fun _ => Blind.pure _

/-! ## Floors -/

theorem readCoefficients_blind (b m dim : Nat) : ∀ fuel j : Nat, Blind (readCoefficients b m dim fuel j)
  | 0, _ => Blind.pure ()
  | fuel + 1, j => by
    unfold readCoefficients
    exact Blind.ite (Blind.bind (cbDecodeVs_blind _ _ _ _ _) fun _ => readCoefficients_blind b m dim fuel _) (Blind.pure ())

theorem f0Inverse1_blind (f c : Nat) : Blind (f0Inverse1 f c) := by
  refine Blind.bind (Blind.modify fun _ _ => rfl) fun _ => Blind.get_bind (fun _ _ => rfl) fun _ =>
    Blind.need_bind fun F _ => Blind.absorb ?_ (Blind.pure _)
  unfold f0Pass1
  refine Blind.bind (readBits_blind _) fun _ => Blind.ite (Blind.pure _) ?_
  refine Blind.bind (readBits_blind _) fun _ => Blind.ite (Blind.pure _) (Blind.need_bind fun b _ => ?_)
  refine Blind.get_bind (fun _ _ => rfl) fun _ => Blind.need_bind fun _ _ => Blind.bind (readCoefficients_blind _ _ _ _ _) fun _ => ?_
  exact Blind.bind (Blind.modify fun _ _ => rfl) fun _ => Blind.bind (Blind.modify fun _ _ => rfl) fun _ => Blind.pure _

theorem readPosts_blind (k : FloorClass) : ∀ left cval : Nat, Blind (readPosts k left cval)
  | 0, _ => Blind.pure _
  | left + 1, cval => by
    refine Blind.bind ?_ fun _ => Blind.bind (readPosts_blind k left _) fun _ => Blind.pure _
    unfold readPost
    split
    · exact cbDecode_blind _
    · exact Blind.pure _

theorem readPartitions_blind (F : Floor1) : ∀ l : List Nat, Blind (readPartitions F l)
  | [] => Blind.pure _
  | _ :: l => Blind.need_bind fun _ _ =>
    Blind.bind (Blind.ite (Blind.pure _) (Blind.need_bind fun _ _ => cbDecode_blind _)) fun _ =>
    Blind.bind (readPosts_blind _ _ _) fun _ => Blind.bind (readPartitions_blind F l) fun _ => Blind.pure _

theorem f1Inverse1_blind (f c : Nat) : Blind (f1Inverse1 f c) := by
  refine Blind.bind (Blind.modify fun _ _ => rfl) fun _ => Blind.get_bind (fun _ _ => rfl) fun _ =>
    Blind.need_bind fun F _ => Blind.get_bind (fun _ _ => rfl) fun _ => Blind.need_bind fun T _ =>
    Blind.absorb ?_ (Blind.pure _)
  unfold f1Pass1
  refine Blind.bind (Blind.bind (readBits_blind 1) fun _ => Blind.pure _) fun _ => Blind.ite (Blind.pure _) ?_
  exact Blind.bind (readBits_blind _) fun _ => Blind.bind (readBits_blind _) fun _ =>
    Blind.bind (readPartitions_blind F _) fun _ => Blind.bind (Blind.modify fun _ _ => rfl) fun _ => Blind.pure _

theorem f0Inverse2_blind (P : Params) (f c : Nat) : Blind (f0Inverse2 P f c) := by
  refine Blind.get_bind (fun _ _ => rfl) fun s => ?_
  dsimp only
  split
  · exact Blind.bind (Blind.modify fun _ _ => rfl) fun _ => Blind.pure _
  · exact Blind.need_bind fun _ _ => Blind.need_bind fun _ _ => Blind.bind (Blind.modify fun _ _ => rfl) fun _ => Blind.pure _

theorem f1Inverse2_blind (P : Params) (f c : Nat) : Blind (f1Inverse2 P f c) := by
  refine Blind.get_bind (fun _ _ => rfl) fun s => ?_
  dsimp only
  split
  · exact Blind.bind (Blind.modify fun _ _ => rfl) fun _ => Blind.pure _
  · exact Blind.need_bind fun _ _ => Blind.need_bind fun _ _ => Blind.bind (Blind.modify fun _ _ => rfl) fun _ => Blind.pure _

/-! ## Residues -/

section Skeleton

variable {R : Residue} {Q : ResTable} {layout : Nat → Nat → Nat → Op Unit} (hl : ∀ v o b, Blind (layout v o b))
include hl

theorem decodeGroup_blind (stage : Nat) (words : List (List Nat)) :
    ∀ left k i : Nat, Blind (decodeGroup R Q layout stage words left k i)
  | 0, _, _ => Blind.pure _
  | left + 1, k, i => Blind.bind (Blind.forEach (fun _ => Blind.ite (Blind.need_bind fun _ _ => hl _ _ _) (Blind.pure _)) _)
      fun _ => decodeGroup_blind stage words left (k + 1) (i + 1)

theorem decodeLaterStage_blind (pdim nparts stage : Nat) :
    ∀ (l : List (List (List Nat))) (i : Nat), Blind (decodeLaterStage R Q layout pdim nparts stage l i)
  | [], _ => Blind.pure _
  | _ :: l, _ => Blind.bind (decodeGroup_blind hl _ _ _ _ _) fun _ => decodeLaterStage_blind pdim nparts stage l _

theorem decodeFirstStage_blind (pdim vecs nparts : Nat) :
    ∀ fuel i : Nat, Blind (decodeFirstStage R Q layout pdim vecs nparts fuel i)
  | 0, _ => Blind.pure _
  | fuel + 1, i => by
    unfold decodeFirstStage
    refine Blind.ite (Blind.bind (Blind.collect (fun _ => ?_) _) fun _ => Blind.bind (decodeGroup_blind hl _ _ _ _ _)
      fun _ => Blind.bind (decodeFirstStage_blind pdim vecs nparts fuel _) fun _ => Blind.pure _) (Blind.pure _)
    exact Blind.bind (cbDecode_blind _) fun _ => Blind.ite (Blind.pure _) (Blind.raise _)

theorem decodeStages_blind (pdim vecs nparts : Nat) : Blind (decodeStages R Q layout pdim vecs nparts) :=
  Blind.ite (Blind.pure _) (Blind.bind (decodeFirstStage_blind hl _ _ _ _ _) fun _ =>
    Blind.bind (Blind.forEach (fun _ => decodeLaterStage_blind hl _ _ _ _ _) _) fun _ => Blind.pure _)

end Skeleton

theorem resDecode_blind (r : Nat) {layout : Residue → Nat → Nat → Nat → Op Unit} (hl : ∀ R v o b, Blind (layout R v o b))
    (vecs limit : Nat) : Blind (resDecode r layout vecs limit) :=
  Blind.get_bind (fun _ _ => rfl) fun _ => Blind.need_bind fun _ _ =>
  Blind.get_bind (fun _ _ => rfl) fun _ => Blind.need_bind fun _ _ =>
  Blind.get_bind (fun _ _ => rfl) fun _ => Blind.need_bind fun _ _ =>
  Blind.absorb (decodeStages_blind (hl _) _ _ _) (Blind.pure _)

theorem res0Inverse_blind (r : Nat) (chlist : List Nat) : Blind (res0Inverse r chlist) :=
  Blind.get_bind (fun _ _ => rfl) fun _ => resDecode_blind r (fun _ _ _ _ => Blind.get_bind (fun _ _ => rfl) fun _ =>
    Blind.need_bind fun _ _ => Blind.forEach (fun _ => Blind.bind (cbDecodeVs_blind _ _ _ _ _) fun _ => Blind.pure _) _) _ _

theorem res1Inverse_blind (r : Nat) (chlist : List Nat) : Blind (res1Inverse r chlist) :=
  Blind.get_bind (fun _ _ => rfl) fun _ => resDecode_blind r (fun _ _ _ _ => decodeFill_blind _ _ _ _ _ _ _) _ _

theorem res2Inverse_blind (r : Nat) (chlist : List Nat) : Blind (res2Inverse r chlist) :=
  Blind.get_bind (fun _ _ => rfl) fun _ => resDecode_blind r (fun _ _ _ _ => decodeInterleaved_blind _ _ _ _ _) _ _

/-! ## Transform and window -/

theorem mdctBackward_blind (w c : Nat) : Blind (mdctBackward w c) :=
  Blind.get_bind (fun _ _ => rfl) fun _ => Blind.need_bind fun _ _ => Blind.modify fun _ _ => rfl

theorem winApply_blind (c : Nat) : Blind (winApply c) :=
  Blind.get_bind (fun _ _ => rfl) fun _ => Blind.need_bind fun _ _ =>
    Blind.ite (Blind.modify fun _ _ => rfl) (Blind.modify fun _ _ => rfl)

/-! ## The parts of the mapping -/

theorem floorInverse1_blind (f c : Nat) : Blind (floorInverse1 f c) :=
  Blind.get_bind (fun _ _ => rfl) fun _ => Blind.need_bind fun _ _ => Blind.ite (f0Inverse1_blind f c) (f1Inverse1_blind f c)

theorem mapFloorPass1_blind (M : Mapping) (c : Nat) : Blind (mapFloorPass1 M c) :=
  Blind.bind (floorInverse1_blind _ c) fun _ => Blind.bind (Blind.modify fun _ _ => rfl) fun _ =>
    Blind.ite (Blind.modify fun _ _ => rfl) (Blind.pure ())

theorem resInverse_blind (r : Nat) (chlist : List Nat) : Blind (resInverse r chlist) :=
  Blind.get_bind (fun _ _ => rfl) fun _ => Blind.need_bind fun _ _ => Blind.ite (res0Inverse_blind r chlist)
    (Blind.ite (res1Inverse_blind r chlist) (res2Inverse_blind r chlist))

theorem mapFloorPass2_blind (P : Params) (M : Mapping) (c : Nat) : Blind (mapFloorPass2 P M c) :=
  Blind.bind (Blind.get_bind (fun _ _ => rfl) fun _ => Blind.need_bind fun _ _ =>
    Blind.ite (f0Inverse2_blind P _ c) (f1Inverse2_blind P _ c)) fun _ => Blind.pure _

/-! ## Loops as folds -/

/-- The state a blind operation leaves does not depend on the parameter, but for the parameter. -/
theorem Blind.leftBy {op : Op α} (h : Blind op) (x : EofInResidue) (s : State) :
    (s.withEofInResidue x).leftBy op = (s.leftBy op).withEofInResidue x := by
  unfold State.leftBy
  rw [h x s]
  cases op s <;> rfl

/-- An operation that does not end early returns, leaving what `leftBy` says. -/
theorem ok_leftBy {op : Op Unit} {s : State} {Q : Unit → State → Prop} (h : Sat op s Q fun _ _ => False) :
    op s = .ok () (s.leftBy op) := by
  unfold Sat at h
  unfold State.leftBy
  split at h
  · rename_i e; rw [e]
  · exact h.elim

/-- A loop whose body never ends early, from states that carry a configuration and its tables, is a fold. -/
theorem forEach_fold {c : Cfg} {T : Tab} {x : EofInResidue} {body : β → Op Unit} :
    ∀ (l : List β) (s : State), s.On c T x → (∀ y ∈ l, Within c T x Never (body y)) →
      forEach l body s = .ok () (l.foldl (fun t y => t.leftBy (body y)) s) ∧
        (l.foldl (fun t y => t.leftBy (body y)) s).On c T x
  | [], _, hs, _ => ⟨rfl, hs⟩
  | y :: l, s, hs, h => by
    have hy := (h y (by simp) s hs).mono (Q' := fun _ t => t.On c T x) (E' := fun _ _ => False) (fun _ _ h => h)
      fun _ _ h => h.2
    have ho := ok_leftBy hy
    have ih := forEach_fold l (s.leftBy (body y)) (hy.ok ho) fun z hz => h z (by simp [hz])
    refine ⟨?_, ih.2⟩
    unfold forEach
    rw [bind_ok ho]
    exact ih.1

/-- A loop of plain updates is a fold. -/
theorem forEach_modify {f : β → State → State} : ∀ (l : List β) (s : State),
    forEach l (fun y => (modify (f y) : Op Unit)) s = .ok () (l.foldl (fun t y => f y t) s)
  | [], _ => rfl
  | y :: l, s => forEach_modify l (f y s)

end Sys2Proof.Machine
end

