-- ==== Sys2Proof/Laws/Blocks.lean ====
section
/-! SUPPORT. `SYNTHESIS` as a whole (47_block.md R322): its opening, the head of the packet, and the block. -/

namespace Sys2Proof.Machine

/-- The state after the opening lines of `SYNTHESIS` (R322), for `n` channels. -/
def State.opened (eos bos : Bool) (n : Nat) (s : State) : State :=
  ((((((s.setBState .await).initCursor s.arg0 s.arg1).latch s.granuleOperand eos bos).setSamples 0).setTrunc false).clearChannels n)

theorem openPacket_eq {eos bos : Bool} {s : State} {n : Nat} (h : s.cfg.channels = some n) :
    openPacket eos bos s = .ok () (s.opened eos bos n) := by
  unfold openPacket
  rw [bind_ok (x := (get : Op State)) (s := s) (a := s) rfl, h]
  rfl

/-! ## The head -/

/-- What reading the head leaves alone: all but `POS`, `EOFF` and, on a failure, `BSTATE`. -/
structure HeadFrame (s t : State) : Prop where
  same : t = { s with pos := t.pos, eoff := t.eoff, bstate := t.bstate }
  bstate : t.bstate = s.bstate ∨ t.bstate = .failed

/-- A head that ends early: a failed packet with a status. -/
def HeadEnds (s : State) (e : Failure) (t : State) : Prop :=
  t = { s with pos := t.pos, eoff := t.eoff, bstate := t.bstate } ∧
  t.bstate = .failed ∧ (e = .eof ∨ e = .badType ∨ ∃ m, e = .badMode m)

/-- The head of a packet under a valid configuration: a mode in range with its flags, or a failed packet. -/
theorem readHead_sat {s : State} {modes bits : Nat} (hb : s.tab.modebits = some bits) (hm : s.cfg.modes = some modes)
    (hr : ∀ m < modes, ∃ r, fieldAt s.cfg.mode m = some r) :
    Sat readHead s (fun x t => t = { s with pos := t.pos, eoff := t.eoff } ∧ x.1 < modes ∧
      fieldAt s.cfg.mode x.1 = some x.2.1 ∧ (x.2.1.blockflag = false → x.2.2 = (false, false))) (HeadEnds s) := by
  have read : ∀ {n : Nat} {t : State}, t = { s with pos := t.pos, eoff := t.eoff } →
      Sat (headRead n) t (fun _ u => u = { s with pos := u.pos, eoff := u.eoff }) (HeadEnds s) := by
    intro n t ht
    refine sat_absorb.2 (sat_readBits.2 ⟨fun _ => ?_, fun _ => ?_⟩)
    · rw [ht]; rfl
    · refine ⟨fun _ => ?_, fun h => absurd (.inl rfl) h⟩
      exact ⟨by rw [ht]; rfl, rfl, .inl rfl⟩
  unfold readHead
  refine Sat.bind (read rfl) fun t u hu => sat_ite.2 ⟨fun _ => ⟨by rw [hu]; rfl, rfl, .inr (.inl rfl)⟩, fun _ => ?_⟩
  refine sat_bind.2 (sat_get.2 (sat_bind.2 (sat_need.2 ⟨fun n _ => ?_, fun h => by rw [hu] at h; simp [hb] at h⟩)))
  refine Sat.bind (read hu) fun m u hu => ?_
  refine sat_bind.2 (sat_get.2 (sat_bind.2 (sat_need.2 ⟨fun n hn => ?_, fun h => by rw [hu] at h; simp [hm] at h⟩)))
  have hn' : n = modes := by rw [hu] at hn; simp [hm] at hn; exact hn.symm
  subst hn'
  refine sat_ite.2 ⟨fun _ => ⟨by rw [hu]; rfl, rfl, .inr (.inr ⟨m, rfl⟩)⟩, fun hlt => ?_⟩
  have hcfg : u.cfg = s.cfg := by rw [hu]
  obtain ⟨r, hr⟩ := hr m (by omega)
  refine sat_bind.2 (sat_get.2 (sat_bind.2 (sat_need.2 ⟨fun mode hmode => ?_, fun h => by rw [hcfg, hr] at h; simp at h⟩)))
  rw [hcfg] at hmode
  refine sat_ite.2 ⟨fun hl => ?_, fun hs => ?_⟩
  · refine Sat.bind (read hu) fun _ u hu => Sat.bind (read hu) fun _ u hu => ?_
    exact ⟨hu, by omega, hmode, fun h => by simp [hl] at h⟩
  · exact ⟨hu, by omega, hmode, fun _ => rfl⟩

/-! ## The block -/

/-- The state after a good head (R322), before the mapping: `n` words for each of `ch` channels. -/
def State.headed (m : Nat) (mode : Mode) (lw nw : Bool) (n ch : Nat) (s : State) : State :=
  (((s.setHead (BitVec.ofNat 6 m) mode.blockflag lw nw (BitVec.ofNat 16 n)).setPcm
    (List.replicate ch (List.replicate (BitVec.ofNat 16 n).toNat 0))).setBState .dispatched)

theorem openBlock_eq {m n ch : Nat} {mode : Mode} {lw nw : Bool} {s : State} (hn : s.blocksize mode.blockflag = some n)
    (hc : s.cfg.channels = some ch) : openBlock m mode lw nw s = .ok () (s.headed m mode lw nw n ch) := by
  unfold openBlock
  rw [bind_ok (x := (get : Op State)) (s := s) (a := s) rfl, hn, bind_ok (x := need (some n)) (s := s) (a := n) rfl,
    bind_ok (x := (get : Op State)) (s := s) (a := s) rfl, hc]
  rfl

/-- The block that a good head opens, in the parts above. -/
theorem openedBlock_eq {eos bos : Bool} {bits m n ch : Nat} {r : Mode} {lw nw : Bool} {s : State} (h : n < 2 ^ 16) :
    s.openedBlock eos bos bits m r lw nw n ch = ((s.opened eos bos ch).advance bits).headed m r lw nw n ch := by
  unfold State.headed
  rw [BitVec.toNat_ofNat, Nat.mod_eq_of_lt h]
  rfl

/-- What `SYNTHESIS` leaves alone, whatever it ends with, and what it has set. -/
structure BlockFrame (eos bos : Bool) (s t : State) : Prop where
  base : t.base = s.arg0
  len : t.len = s.arg1
  granule : t.granule = s.granuleOperand
  eos : t.eos = eos
  bos : t.bos = bos
  nonzero : t.nonzero.length = s.nonzero.length
  memo : t.memo.length = s.memo.length
  lsp : t.lsp.length = s.lsp.length
  phase : t.phase = s.phase
  arg0 : t.arg0 = s.arg0
  arg1 : t.arg1 = s.arg1
  arg2 : t.arg2 = s.arg2
  arg3 : t.arg3 = s.arg3
  cfg : t.cfg = s.cfg
  tab : t.tab = s.tab
  pkt : t.pkt = s.pkt
  issuer : t.issuer = s.issuer
  eofInResidue : t.eofInResidue = s.eofInResidue

/-- The registers and the words of the last block are as they were. -/
structure HeadKept (s t : State) : Prop where
  mode : t.mode = s.mode
  w : t.w = s.w
  lw : t.lw = s.lw
  nw : t.nw = s.nw
  pcmend : t.pcmend = s.pcmend
  pcm : t.pcm = s.pcm

/-- A new block is in place: some mode of the configuration, its size, and rows of that size. -/
def BlockOpen (s t : State) : Prop :=
  ∃ m mode lw nw n ch, fieldAt s.cfg.mode m = some mode ∧ s.blocksize mode.blockflag = some n ∧
    s.cfg.channels = some ch ∧ (mode.blockflag = false → lw = false ∧ nw = false) ∧
    t.mode = BitVec.ofNat 6 m ∧ t.w = mode.blockflag ∧ t.lw = lw ∧ t.nw = nw ∧ t.pcmend = BitVec.ofNat 16 n ∧
    t.pcm.length = ch ∧ ∀ row ∈ t.pcm, row.length = (BitVec.ofNat 16 n).toNat

theorem BlockFrame.of_opened {eos bos : Bool} {n : Nat} {s t : State}
    (h : t = { s.opened eos bos n with pos := t.pos, eoff := t.eoff, bstate := t.bstate }) :
    BlockFrame eos bos s t ∧ HeadKept s t ∧ t.samples = 0 := by
  refine ⟨?_, ?_, by rw [h]; rfl⟩
  · constructor <;> rw [h] <;>
      first | rfl | (simp [State.opened, fillFirst_length])
  · constructor <;> rw [h] <;> rfl

theorem DecodeFrame.blockFrame {eos bos : Bool} {s t u : State} (h : BlockFrame eos bos s t) (k : DecodeFrame t u) :
    BlockFrame eos bos s u :=
  ⟨k.base.trans h.base, k.len.trans h.len, k.granule.trans h.granule, k.eos.trans h.eos, k.bos.trans h.bos,
    k.nonzero.trans h.nonzero, k.memo.trans h.memo, k.lsp.trans h.lsp, k.phase.trans h.phase, k.arg0.trans h.arg0,
    k.arg1.trans h.arg1, k.arg2.trans h.arg2, k.arg3.trans h.arg3, k.cfg.trans h.cfg, k.tab.trans h.tab,
    k.pkt.trans h.pkt, k.issuer.trans h.issuer, k.eofInResidue.trans h.eofInResidue⟩

/-- Every way `SYNTHESIS` ends under a valid configuration. -/
theorem synthesis_sat {P : Params} {s : State} {eos bos : Bool} (h : s.Configured) :
    Sat (synthesis P eos bos) s
      (fun v t => BlockFrame eos bos s t ∧ BlockOpen s t ∧ t.bstate = .emitted ∧ t.samples = t.pcmend ∧
        v = t.pcmend.setWidth 32)
      (fun _ t => BlockFrame eos bos s t ∧ (HeadKept s t ∨ BlockOpen s t) ∧ t.bstate = .failed ∧ t.samples = 0) := by
  obtain ⟨ch, hch, hch1, hch2⟩ := h.channels
  obtain ⟨modes, hmodes, hm1, hm64, hbits, hmode⟩ := h.modes
  obtain ⟨e0, e1, hb0, hb1, -⟩ := h.blocksizes
  unfold synthesis
  refine Sat.step (openPacket_eq hch) ?_
  have hhead := readHead_sat (s := s.opened eos bos ch) hbits hmodes fun m hm => (hmode m hm).imp fun _ h => h.1
  refine Sat.bind (hhead.mono (fun _ _ h => h) fun e t ht => ?_) fun x t ht => ?_
  · obtain ⟨hf, hk, h0⟩ := BlockFrame.of_opened ht.1
    exact ⟨hf, .inl hk, ht.2.1, h0⟩
  · obtain ⟨m, mode, lw, nw⟩ := x
    obtain ⟨ht, hlt, hmd, hfl⟩ := ht
    simp only at hlt hmd hfl
    obtain ⟨hf, hk, h0⟩ := BlockFrame.of_opened (eos := eos) (bos := bos) (n := ch) (s := s) (t := t) (by
      have hbst : t.bstate = (s.opened eos bos ch).bstate := by rw [ht]
      conv => lhs; rw [ht]
      rw [hbst])
    have hflags : mode.blockflag = false → lw = false ∧ nw = false := fun e => by simpa using hfl e
    have hsize : ∃ n, s.blocksize mode.blockflag = some n := by
      unfold State.blocksize
      split
      · exact ⟨_, hb1⟩
      · exact ⟨_, hb0⟩
    obtain ⟨n, hn⟩ := hsize
    have hn' : t.blocksize mode.blockflag = some n := by
      unfold State.blocksize at *
      rw [hf.cfg]
      exact hn
    have hch' : t.cfg.channels = some ch := by rw [hf.cfg]; exact hch
    show Sat (openBlock m mode lw nw >>= _) t _ _
    refine Sat.step (openBlock_eq hn' hch') ?_
    have hmode' : (BitVec.ofNat 6 m).toNat = m := by simp; omega
    have hbf : BlockFrame eos bos s (t.headed m mode lw nw n ch) := { hf with }
    have hends := map0Inverse_ends (P := P) (s := t.headed m mode lw nw n ch) (r := mode)
      (by
        show fieldAt t.cfg.mode (BitVec.ofNat 6 m).toNat = some mode
        rw [hmode', hf.cfg]
        exact hmd)
      (by
        show Decodable t.cfg t.tab mode
        rw [hf.cfg, hf.tab]
        exact h.decodable hmodes hlt hmd) rfl hflags
    have hframe := map0Inverse_frame P (t.headed m mode lw nw n ch)
    have hopen : ∀ u, DecodeFrame (t.headed m mode lw nw n ch) u → BlockOpen s u := by
      intro u hu
      refine ⟨m, mode, lw, nw, n, ch, hmd, hn, hch, hflags, hu.mode, hu.w, hu.lw, hu.nw, hu.pcmend, ?_, ?_⟩
      · have := congrArg List.length hu.pcm
        simpa [State.headed] using this
      · intro row hr
        have : row.length ∈ u.pcm.map List.length := List.mem_map_of_mem hr
        rw [hu.pcm] at this
        simp [State.headed] at this
        simpa using this.2
    refine sat_bind.2 (sat_absorb.2 ((hframe.and hends).mono (fun _ u hu => ?_) fun e u hu => ⟨fun _ => ?_, fun hn => ?_⟩))
    · have hbu := hu.1.blockFrame hbf
      refine ⟨{ hbu with }, hopen u hu.1, rfl, rfl, ?_⟩
      show BitVec.ofNat 32 u.pcmend.toNat = u.pcmend.setWidth 32
      apply BitVec.eq_of_toNat_eq
      simp
    · refine ⟨{ hu.1.blockFrame hbf with }, .inr (hopen u hu.1), rfl, ?_⟩
      show u.samples = 0
      rw [hu.1.samples]
      exact h0
    · exact absurd (.inl hu.2.1) hn

end Sys2Proof.Machine
end

