-- ==== Sys2Proof/Laws/Encoding.lean ====
section
/-! SUPPORT. Command words: their fields, and what the decoder makes of each operation code. -/

namespace Sys2Proof

/-! ## Fields -/

/-- The bits of a word made of fields. -/
theorem commandWord_bit (o a b c : BitVec 8) (i : Nat) :
    (commandWord o a b c).getLsbD i =
      if i < 8 then o.getLsbD i else if i < 16 then a.getLsbD (i - 8)
      else if i < 24 then b.getLsbD (i - 16) else c.getLsbD (i - 24) := by
  have : (commandWord o a b c).getLsbD i = (c ++ b ++ a ++ o).getLsbD i := rfl
  rw [this, BitVec.getLsbD_append, BitVec.getLsbD_append, BitVec.getLsbD_append]
  by_cases h1 : i < 8
  · simp [h1]
  by_cases h2 : i < 16
  · simp [h1, h2, show i - 8 < 8 by omega]
  by_cases h3 : i < 24
  · simp [h1, h2, h3, show ¬ i - 8 < 8 by omega, show i - 16 < 8 by omega, Nat.sub_sub]
  · simp [h1, h2, h3, show ¬ i - 8 < 8 by omega, show ¬ i - 16 < 8 by omega, Nat.sub_sub]

theorem fieldOpc_word (o a b c : BitVec 8) : fieldOpc (commandWord o a b c) = o := by
  apply BitVec.eq_of_getLsbD_eq
  intro i hi
  simp [fieldOpc, commandWord_bit, hi]

theorem fieldA_word (o a b c : BitVec 8) : fieldA (commandWord o a b c) = a := by
  apply BitVec.eq_of_getLsbD_eq
  intro i hi
  simp [fieldA, commandWord_bit, hi, show 8 + i < 16 by omega]

theorem fieldB_word (o a b c : BitVec 8) : fieldB (commandWord o a b c) = b := by
  apply BitVec.eq_of_getLsbD_eq
  intro i hi
  simp [fieldB, commandWord_bit, hi, show 16 + i < 24 by omega, show ¬ 16 + i < 16 by omega, show ¬ 16 + i < 8 by omega]

theorem fieldC_word (o a b c : BitVec 8) : fieldC (commandWord o a b c) = c := by
  apply BitVec.eq_of_getLsbD_eq
  intro i hi
  simp [fieldC, commandWord_bit, hi, show ¬ 24 + i < 24 by omega, show ¬ 24 + i < 16 by omega,
    show ¬ 24 + i < 8 by omega]

/-- A word is made of its fields. -/
theorem commandWord_fields (w : Word32) : commandWord (fieldOpc w) (fieldA w) (fieldB w) (fieldC w) = w := by
  apply BitVec.eq_of_getLsbD_eq
  intro i hi
  rw [commandWord_bit]
  simp only [fieldOpc, fieldA, fieldB, fieldC, BitVec.getLsbD_extractLsb']
  by_cases h1 : i < 8
  · simp [h1]
  by_cases h2 : i < 16
  · simp [h1, h2, show i - 8 < 8 by omega, show 8 + (i - 8) = i by omega]
  by_cases h3 : i < 24
  · simp [h1, h2, h3, show i - 16 < 8 by omega, show 16 + (i - 16) = i by omega]
  · simp [h1, h2, h3, show i - 24 < 8 by omega, show 24 + (i - 24) = i by omega]

/-! ## Operand forms -/

theorem decodeCount_ok {n : BitVec 6} (h : n.toNat ≤ 32) : decodeCount (n.setWidth 8) = .ok n := by
  have : (n.setWidth 8).toNat = n.toNat := by simp; omega
  unfold decodeCount
  rw [this, if_pos h]
  congr 1
  apply BitVec.eq_of_toNat_eq
  simp; omega

theorem decodeDst_encodeDst {d : Dst} (h : d.ok = true) : decodeDst (encodeDst d) = d := by
  cases d with
  | lsp => rfl
  | pcm c =>
    simp only [Dst.ok, decide_eq_true_eq] at h
    show (if c = 255 then Dst.lsp else Dst.pcm c) = _
    rw [if_neg]; intro hc; subst hc; simp at h

theorem decodeMode_encodeMode (m : CombineMode) : decodeMode (encodeMode m) = .ok m := by cases m <;> rfl

/-! ## What each operation code decodes to -/

theorem decode_reset {w : Word32} (h : fieldOpc w = 0x00) :
    decode w = whenZero ((fieldA w) == 0 && (fieldB w) == 0 && (fieldC w) == 0) .reset := by
  unfold decode; rw [h]; rfl

theorem decode_headerin {w : Word32} (h : fieldOpc w = 0x01) :
    decode w = decodeFlags .headerin (fieldA w) (fieldB w) (fieldC w) := by
  unfold decode; rw [h]; rfl

theorem decode_synthesis {w : Word32} (h : fieldOpc w = 0x02) :
    decode w = decodeFlags .synthesis (fieldA w) (fieldB w) (fieldC w) := by
  unfold decode; rw [h]; rfl

theorem decode_bcInit {w : Word32} (h : fieldOpc w = 0x10) :
    decode w = whenZero ((fieldA w) == 0 && (fieldB w) == 0 && (fieldC w) == 0) .bcInit := by
  unfold decode; rw [h]; rfl

theorem decode_bcRead {w : Word32} (h : fieldOpc w = 0x11) :
    decode w = decodeCursor .bcRead (fieldA w) (fieldB w) (fieldC w) := by
  unfold decode; rw [h]; rfl

theorem decode_bcLook {w : Word32} (h : fieldOpc w = 0x12) :
    decode w = decodeCursor .bcLook (fieldA w) (fieldB w) (fieldC w) := by
  unfold decode; rw [h]; rfl

theorem decode_bcAdv {w : Word32} (h : fieldOpc w = 0x13) :
    decode w = decodeCursor .bcAdv (fieldA w) (fieldB w) (fieldC w) := by
  unfold decode; rw [h]; rfl

theorem decode_bcRead1 {w : Word32} (h : fieldOpc w = 0x14) :
    decode w = whenZero ((fieldA w) == 0 && (fieldB w) == 0 && (fieldC w) == 0) .bcRead1 := by
  unfold decode; rw [h]; rfl

theorem decode_cbUnquantize {w : Word32} (h : fieldOpc w = 0x20) :
    decode w = whenZeroInt ((fieldB w) == 0 && (fieldC w) == 0) (.cbUnquantize (fieldA w)) := by
  unfold decode; rw [h]; rfl

theorem decode_cbMakeWords {w : Word32} (h : fieldOpc w = 0x21) :
    decode w = whenZeroInt ((fieldB w) == 0 && (fieldC w) == 0) (.cbMakeWords (fieldA w)) := by
  unfold decode; rw [h]; rfl

theorem decode_cbMakeTree {w : Word32} (h : fieldOpc w = 0x22) :
    decode w = whenZeroInt ((fieldB w) == 0 && (fieldC w) == 0) (.cbMakeTree (fieldA w)) := by
  unfold decode; rw [h]; rfl

theorem decode_cbDecode {w : Word32} (h : fieldOpc w = 0x23) :
    decode w = whenZero ((fieldB w) == 0 && (fieldC w) == 0) (.cbDecode (fieldA w)) := by
  unfold decode; rw [h]; rfl

theorem decode_cbDecodeSet {w : Word32} (h : fieldOpc w = 0x24) :
    decode w = whenZero ((fieldC w) == 0) (.cbDecodeSet (fieldA w) (decodeDst (fieldB w))) := by
  unfold decode; rw [h]; rfl

theorem decode_cbDecodeAdd {w : Word32} (h : fieldOpc w = 0x25) :
    decode w = whenZero ((fieldC w) == 0) (.cbDecodeAdd (fieldA w) (decodeDst (fieldB w))) := by
  unfold decode; rw [h]; rfl

theorem decode_cbDecodeVvAdd {w : Word32} (h : fieldOpc w = 0x26) :
    decode w = .ok (.cbDecodeVvAdd (fieldA w) (fieldB w) (fieldC w)) := by
  unfold decode; rw [h]; rfl

theorem decode_cbDecodeVs {w : Word32} (h : fieldOpc w = 0x27) :
    decode w = match decodeMode (fieldC w) with
      | .ok m => .ok (.cbDecodeVs (fieldA w) (decodeDst (fieldB w)) m)
      | .error e => .error e := by
  unfold decode; rw [h]; rfl

theorem decode_f0Unpack {w : Word32} (h : fieldOpc w = 0x30) :
    decode w = whenZeroInt ((fieldB w) == 0 && (fieldC w) == 0) (.f0Unpack (fieldA w)) := by
  unfold decode; rw [h]; rfl

theorem decode_f0Look {w : Word32} (h : fieldOpc w = 0x31) :
    decode w = whenZeroInt ((fieldC w) == 0) (.f0Look (fieldA w) (fieldB w)) := by
  unfold decode; rw [h]; rfl

theorem decode_f0Inverse1 {w : Word32} (h : fieldOpc w = 0x32) :
    decode w = whenZero ((fieldC w) == 0) (.f0Inverse1 (fieldA w) (fieldB w)) := by
  unfold decode; rw [h]; rfl

theorem decode_f0Inverse2 {w : Word32} (h : fieldOpc w = 0x33) :
    decode w = whenZero ((fieldC w) == 0) (.f0Inverse2 (fieldA w) (fieldB w)) := by
  unfold decode; rw [h]; rfl

theorem decode_f1Unpack {w : Word32} (h : fieldOpc w = 0x34) :
    decode w = whenZeroInt ((fieldB w) == 0 && (fieldC w) == 0) (.f1Unpack (fieldA w)) := by
  unfold decode; rw [h]; rfl

theorem decode_f1Look {w : Word32} (h : fieldOpc w = 0x35) :
    decode w = whenZeroInt ((fieldB w) == 0 && (fieldC w) == 0) (.f1Look (fieldA w)) := by
  unfold decode; rw [h]; rfl

theorem decode_f1Inverse1 {w : Word32} (h : fieldOpc w = 0x36) :
    decode w = whenZero ((fieldC w) == 0) (.f1Inverse1 (fieldA w) (fieldB w)) := by
  unfold decode; rw [h]; rfl

theorem decode_f1Inverse2 {w : Word32} (h : fieldOpc w = 0x37) :
    decode w = whenZero ((fieldC w) == 0) (.f1Inverse2 (fieldA w) (fieldB w)) := by
  unfold decode; rw [h]; rfl

theorem decode_resUnpack {w : Word32} (h : fieldOpc w = 0x40) :
    decode w = whenZeroInt ((fieldB w) == 0 && (fieldC w) == 0) (.resUnpack (fieldA w)) := by
  unfold decode; rw [h]; rfl

theorem decode_resLook {w : Word32} (h : fieldOpc w = 0x41) :
    decode w = whenZeroInt ((fieldB w) == 0 && (fieldC w) == 0) (.resLook (fieldA w)) := by
  unfold decode; rw [h]; rfl

theorem decode_res0Inverse {w : Word32} (h : fieldOpc w = 0x42) :
    decode w = .ok (.res0Inverse (fieldA w) (fieldB w) (fieldC w)) := by
  unfold decode; rw [h]; rfl

theorem decode_res1Inverse {w : Word32} (h : fieldOpc w = 0x43) :
    decode w = .ok (.res1Inverse (fieldA w) (fieldB w) (fieldC w)) := by
  unfold decode; rw [h]; rfl

theorem decode_res2Inverse {w : Word32} (h : fieldOpc w = 0x44) :
    decode w = .ok (.res2Inverse (fieldA w) (fieldB w) (fieldC w)) := by
  unfold decode; rw [h]; rfl

theorem decode_map0Unpack {w : Word32} (h : fieldOpc w = 0x50) :
    decode w = whenZeroInt ((fieldB w) == 0 && (fieldC w) == 0) (.map0Unpack (fieldA w)) := by
  unfold decode; rw [h]; rfl

theorem decode_map0Look {w : Word32} (h : fieldOpc w = 0x51) :
    decode w = whenZeroInt ((fieldB w) == 0 && (fieldC w) == 0) (.map0Look (fieldA w)) := by
  unfold decode; rw [h]; rfl

theorem decode_map0Inverse {w : Word32} (h : fieldOpc w = 0x52) :
    decode w = whenZero ((fieldA w) == 0 && (fieldB w) == 0 && (fieldC w) == 0) .map0Inverse := by
  unfold decode; rw [h]; rfl

theorem decode_mdctInit {w : Word32} (h : fieldOpc w = 0x60) :
    decode w = whenZeroInt ((fieldB w) == 0 && (fieldC w) == 0) (.mdctInit (fieldA w)) := by
  unfold decode; rw [h]; rfl

theorem decode_mdctBackward {w : Word32} (h : fieldOpc w = 0x61) :
    decode w = whenZero ((fieldC w) == 0) (.mdctBackward (fieldA w) (fieldB w)) := by
  unfold decode; rw [h]; rfl

theorem decode_winInit {w : Word32} (h : fieldOpc w = 0x70) :
    decode w = whenZeroInt ((fieldA w) == 0 && (fieldB w) == 0 && (fieldC w) == 0) .winInit := by
  unfold decode; rw [h]; rfl

theorem decode_winApply {w : Word32} (h : fieldOpc w = 0x71) :
    decode w = whenZero ((fieldA w) == 0 && (fieldC w) == 0) (.winApply (fieldB w)) := by
  unfold decode; rw [h]; rfl

theorem decode_hdrIdent {w : Word32} (h : fieldOpc w = 0x80) :
    decode w = whenZeroInt ((fieldA w) == 0 && (fieldB w) == 0 && (fieldC w) == 0) .hdrIdent := by
  unfold decode; rw [h]; rfl

theorem decode_hdrComment {w : Word32} (h : fieldOpc w = 0x81) :
    decode w = whenZeroInt ((fieldA w) == 0 && (fieldB w) == 0 && (fieldC w) == 0) .hdrComment := by
  unfold decode; rw [h]; rfl

theorem decode_hdrSetup {w : Word32} (h : fieldOpc w = 0x82) :
    decode w = whenZeroInt ((fieldA w) == 0 && (fieldB w) == 0 && (fieldC w) == 0) .hdrSetup := by
  unfold decode; rw [h]; rfl

theorem decode_hdrBook {w : Word32} (h : fieldOpc w = 0x83) :
    decode w = whenZeroInt ((fieldB w) == 0 && (fieldC w) == 0) (.hdrBook (fieldA w)) := by
  unfold decode; rw [h]; rfl

theorem decode_hdrTime {w : Word32} (h : fieldOpc w = 0x84) :
    decode w = whenZeroInt ((fieldB w) == 0 && (fieldC w) == 0) (.hdrTime (fieldA w)) := by
  unfold decode; rw [h]; rfl

theorem decode_hdrMode {w : Word32} (h : fieldOpc w = 0x85) :
    decode w = whenZeroInt ((fieldB w) == 0 && (fieldC w) == 0) (.hdrMode (fieldA w)) := by
  unfold decode; rw [h]; rfl

end Sys2Proof
end

