-- ==== Sys2Proof/Laws/HeaderFrame.lean ====
section
/-! SUPPORT. What the header and table operations leave alone. -/

namespace Sys2Proof.Machine

/-- What every operation below `HEADERIN` leaves alone: all but `POS` and `EOFF` (which only grow), `cfg` and `tab`. -/
structure HeaderFrame (s t : State) : Prop where
  pos : s.pos ≤ t.pos
  eoff : s.eoff = true → t.eoff = true
  base : t.base = s.base
  len : t.len = s.len
  mode : t.mode = s.mode
  w : t.w = s.w
  lw : t.lw = s.lw
  nw : t.nw = s.nw
  pcmend : t.pcmend = s.pcmend
  granule : t.granule = s.granule
  eos : t.eos = s.eos
  bos : t.bos = s.bos
  nonzero : t.nonzero = s.nonzero
  memo : t.memo = s.memo
  lsp : t.lsp = s.lsp
  phase : t.phase = s.phase
  bstate : t.bstate = s.bstate
  status : t.status = s.status
  cause : t.cause = s.cause
  res : t.res = s.res
  samples : t.samples = s.samples
  trunc : t.trunc = s.trunc
  arg0 : t.arg0 = s.arg0
  arg1 : t.arg1 = s.arg1
  arg2 : t.arg2 = s.arg2
  arg3 : t.arg3 = s.arg3
  cmd : t.cmd = s.cmd
  pkt : t.pkt = s.pkt
  pcm : t.pcm = s.pcm
  issuer : t.issuer = s.issuer
  eofInResidue : t.eofInResidue = s.eofInResidue

theorem HeaderFrame.refl (s : State) : HeaderFrame s s := by constructor <;> simp

theorem HeaderFrame.trans {s t u : State} (h : HeaderFrame s t) (k : HeaderFrame t u) : HeaderFrame s u where
  pos := le_trans h.pos k.pos
  eoff := fun e => k.eoff (h.eoff e)
  base := k.base.trans h.base
  len := k.len.trans h.len
  mode := k.mode.trans h.mode
  w := k.w.trans h.w
  lw := k.lw.trans h.lw
  nw := k.nw.trans h.nw
  pcmend := k.pcmend.trans h.pcmend
  granule := k.granule.trans h.granule
  eos := k.eos.trans h.eos
  bos := k.bos.trans h.bos
  nonzero := k.nonzero.trans h.nonzero
  memo := k.memo.trans h.memo
  lsp := k.lsp.trans h.lsp
  phase := k.phase.trans h.phase
  bstate := k.bstate.trans h.bstate
  status := k.status.trans h.status
  cause := k.cause.trans h.cause
  res := k.res.trans h.res
  samples := k.samples.trans h.samples
  trunc := k.trunc.trans h.trunc
  arg0 := k.arg0.trans h.arg0
  arg1 := k.arg1.trans h.arg1
  arg2 := k.arg2.trans h.arg2
  arg3 := k.arg3.trans h.arg3
  cmd := k.cmd.trans h.cmd
  pkt := k.pkt.trans h.pkt
  pcm := k.pcm.trans h.pcm
  issuer := k.issuer.trans h.issuer
  eofInResidue := k.eofInResidue.trans h.eofInResidue

theorem HeaderFrame.rel : FrameRel HeaderFrame := ⟨HeaderFrame.refl, HeaderFrame.trans⟩

theorem HeaderFrame.advance (n : Nat) (s : State) : HeaderFrame s (s.advance n) := by constructor <;> simp

theorem HeaderFrame.setEoff (s : State) : HeaderFrame s s.setEoff := by constructor <;> simp

theorem HeaderFrame.setCfg (c : Cfg) (s : State) : HeaderFrame s (s.setCfg c) := by constructor <;> simp

theorem HeaderFrame.setTab (t : Tab) (s : State) : HeaderFrame s (s.setTab t) := by constructor <;> simp

theorem headerRead_frame (n : Nat) : Keeps HeaderFrame (headerRead n) :=
  Keeps.headerRead HeaderFrame.rel HeaderFrame.advance HeaderFrame.setEoff n

theorem optionalRead_frame (p : Bool) (n d : Nat) : Keeps HeaderFrame (optionalRead p n d) := by
  unfold optionalRead
  exact Keeps.ite (headerRead_frame n) (Keeps.pure HeaderFrame.rel d)

theorem headerCheck_frame (p : Bool) (k : HeaderCause) : Keeps HeaderFrame (headerCheck p k) :=
  Keeps.headerCheck HeaderFrame.rel p k

theorem loadCfg_frame (f : Cfg → Cfg) : Keeps HeaderFrame (loadCfg f) := Keeps.modify fun _ => HeaderFrame.setCfg _ _

theorem advanceBits_frame (n : Nat) : Keeps HeaderFrame (advanceBits n) := Keeps.modify fun _ => HeaderFrame.advance _ _

theorem readFraming_frame : Keeps HeaderFrame readFraming :=
  Keeps.bind HeaderFrame.rel (headerRead_frame 1) fun _ => headerCheck_frame _ _

section

variable {α β : Type}

/-- One step of a header operation, then the rest. -/
theorem HeaderFrame.bind {x : Op α} {f : α → Op β} (hx : Keeps HeaderFrame x) (hf : ∀ a, Keeps HeaderFrame (f a)) :
    Keeps HeaderFrame (x >>= f) := Keeps.bind HeaderFrame.rel hx hf

theorem HeaderFrame.pure (a : α) : Keeps HeaderFrame (Pure.pure a : Op α) := Keeps.pure HeaderFrame.rel a

theorem HeaderFrame.need (o : Option α) : Keeps HeaderFrame (Machine.need o) := Keeps.need HeaderFrame.rel o

theorem HeaderFrame.get : Keeps HeaderFrame (MonadStateOf.get : Op State) := Keeps.get HeaderFrame.rel

theorem HeaderFrame.collect {body : β → Op α} (hb : ∀ x, Keeps HeaderFrame (body x)) (l : List β) :
    Keeps HeaderFrame (Machine.collect l body) := Keeps.collect HeaderFrame.rel hb l

theorem HeaderFrame.forEach {body : β → Op Unit} (hb : ∀ x, Keeps HeaderFrame (body x)) (l : List β) :
    Keeps HeaderFrame (Machine.forEach l body) := Keeps.forEach HeaderFrame.rel hb l

end

theorem hdrIdent_frame : Keeps HeaderFrame hdrIdent := by
  unfold hdrIdent
  repeat first
    | apply HeaderFrame.bind (headerRead_frame _); intro _
    | apply HeaderFrame.bind (loadCfg_frame _); intro _
    | apply HeaderFrame.bind (headerCheck_frame _ _); intro _
    | exact headerCheck_frame _ _

theorem skipComments_frame : ∀ k : Nat, Keeps HeaderFrame (skipComments k)
  | 0 => HeaderFrame.pure _
  | k + 1 => HeaderFrame.bind (headerRead_frame _) fun _ => HeaderFrame.bind (advanceBits_frame _) fun _ => skipComments_frame k

theorem hdrComment_frame : Keeps HeaderFrame hdrComment :=
  HeaderFrame.bind (headerRead_frame _) fun _ => HeaderFrame.bind (advanceBits_frame _) fun _ =>
  HeaderFrame.bind (headerRead_frame _) fun _ => HeaderFrame.bind (skipComments_frame _) fun _ => readFraming_frame

theorem readLength_frame (sparse : Bool) : Keeps HeaderFrame (readLength sparse) :=
  HeaderFrame.bind (optionalRead_frame _ _ _) fun _ => Keeps.ite (HeaderFrame.pure _) <|
    HeaderFrame.bind (headerRead_frame _) fun _ => HeaderFrame.pure _

theorem readRuns_frame (entries : Nat) : ∀ fuel len e : Nat, Keeps HeaderFrame (readRuns entries fuel len e)
  | 0, _, _ => HeaderFrame.pure _
  | fuel + 1, len, e => by
    unfold readRuns
    refine Keeps.ite ?_ (HeaderFrame.pure _)
    exact HeaderFrame.bind (headerRead_frame _) fun _ => HeaderFrame.bind (headerCheck_frame _ _) fun _ =>
      HeaderFrame.bind (readRuns_frame entries fuel _ _) fun _ => HeaderFrame.pure _

theorem readLengths_frame (entries : Nat) : Keeps HeaderFrame (readLengths entries) :=
  HeaderFrame.bind (headerRead_frame _) fun _ => Keeps.ite
    (HeaderFrame.bind (headerRead_frame _) fun _ => HeaderFrame.collect (fun _ => readLength_frame _) _)
    (HeaderFrame.bind (headerRead_frame _) fun _ => readRuns_frame _ _ _ _)

theorem readQuant_frame (maptype dim entries : Nat) : Keeps HeaderFrame (readQuant maptype dim entries) := by
  unfold readQuant
  refine Keeps.ite (HeaderFrame.pure _) ?_
  exact HeaderFrame.bind (headerRead_frame _) fun _ => HeaderFrame.bind (headerRead_frame _) fun _ =>
    HeaderFrame.bind (headerRead_frame _) fun _ => HeaderFrame.bind (headerRead_frame _) fun _ =>
    HeaderFrame.bind (HeaderFrame.collect (fun _ => headerRead_frame _) _) fun _ => HeaderFrame.pure _

theorem cbMakeWords_frame (b : Nat) : Keeps HeaderFrame (cbMakeWords b) := by
  unfold cbMakeWords
  refine HeaderFrame.bind HeaderFrame.get fun _ => HeaderFrame.bind (HeaderFrame.need _) fun _ => ?_
  split
  · exact Keeps.raise HeaderFrame.rel _
  · exact Keeps.modify fun _ => HeaderFrame.setTab _ _

theorem hdrBook_frame (b : Nat) : Keeps HeaderFrame (hdrBook b) :=
  HeaderFrame.bind (headerRead_frame _) fun _ => HeaderFrame.bind (headerCheck_frame _ _) fun _ =>
  HeaderFrame.bind (headerRead_frame _) fun _ => HeaderFrame.bind (headerRead_frame _) fun _ =>
  HeaderFrame.bind (headerCheck_frame _ _) fun _ => HeaderFrame.bind (readLengths_frame _) fun _ =>
  HeaderFrame.bind (headerRead_frame _) fun _ => HeaderFrame.bind (headerCheck_frame _ _) fun _ =>
  HeaderFrame.bind (readQuant_frame _ _ _) fun _ => HeaderFrame.bind (loadCfg_frame _) fun _ => cbMakeWords_frame _

theorem hdrTime_frame (t : Nat) : Keeps HeaderFrame (hdrTime t) :=
  HeaderFrame.bind (headerRead_frame _) fun _ => HeaderFrame.bind (loadCfg_frame _) fun _ => headerCheck_frame _ _

theorem hdrMode_frame (k : Nat) : Keeps HeaderFrame (hdrMode k) :=
  HeaderFrame.bind (headerRead_frame _) fun _ => HeaderFrame.bind (headerRead_frame _) fun _ =>
  HeaderFrame.bind (headerCheck_frame _ _) fun _ => HeaderFrame.bind (headerRead_frame _) fun _ =>
  HeaderFrame.bind (headerCheck_frame _ _) fun _ => HeaderFrame.bind (headerRead_frame _) fun _ =>
  HeaderFrame.bind HeaderFrame.get fun _ => HeaderFrame.bind (HeaderFrame.need _) fun _ =>
  HeaderFrame.bind (headerCheck_frame _ _) fun _ => loadCfg_frame _

theorem checkBook_frame (b : Nat) : Keeps HeaderFrame (checkBook b) :=
  HeaderFrame.bind HeaderFrame.get fun _ => HeaderFrame.bind (HeaderFrame.need _) fun _ => headerCheck_frame _ _

theorem checkValueBook_frame (b : Nat) : Keeps HeaderFrame (checkValueBook b) :=
  HeaderFrame.bind (checkBook_frame b) fun _ => HeaderFrame.bind HeaderFrame.get fun _ =>
  HeaderFrame.bind (HeaderFrame.need _) fun _ => headerCheck_frame _ _

theorem f0Unpack_frame (f : Nat) : Keeps HeaderFrame (f0Unpack f) := by
  unfold f0Unpack
  repeat first
    | apply HeaderFrame.bind (headerRead_frame _); intro _
    | apply HeaderFrame.bind (headerCheck_frame _ _); intro _
  refine HeaderFrame.bind (HeaderFrame.collect (fun _ => ?_) _) fun _ => Keeps.modify fun _ => HeaderFrame.setCfg _ _
  exact HeaderFrame.bind (headerRead_frame _) fun _ => HeaderFrame.bind (checkValueBook_frame _) fun _ => HeaderFrame.pure _

theorem f1ReadSubbook_frame : Keeps HeaderFrame f1ReadSubbook :=
  HeaderFrame.bind (headerRead_frame _) fun _ => Keeps.ite (HeaderFrame.pure _)
    (HeaderFrame.bind (checkBook_frame _) fun _ => HeaderFrame.pure _)

theorem f1ReadClassBook_frame (subs : Nat) : Keeps HeaderFrame (f1ReadClassBook subs) := by
  unfold f1ReadClassBook
  exact Keeps.ite (HeaderFrame.pure _) (HeaderFrame.bind (headerRead_frame _) fun _ =>
    HeaderFrame.bind (checkBook_frame _) fun _ => HeaderFrame.pure _)

theorem f1ReadClass_frame : Keeps HeaderFrame f1ReadClass :=
  HeaderFrame.bind (headerRead_frame _) fun _ => HeaderFrame.bind (headerRead_frame _) fun _ =>
  HeaderFrame.bind (f1ReadClassBook_frame _) fun _ =>
  HeaderFrame.bind (HeaderFrame.collect (fun _ => f1ReadSubbook_frame) _) fun _ => HeaderFrame.pure _

theorem f1Unpack_frame (f : Nat) : Keeps HeaderFrame (f1Unpack f) := by
  unfold f1Unpack
  refine HeaderFrame.bind (headerRead_frame _) fun _ => ?_
  refine HeaderFrame.bind (HeaderFrame.collect (fun _ => headerRead_frame _) _) fun _ => ?_
  refine HeaderFrame.bind (HeaderFrame.collect (fun _ => f1ReadClass_frame) _) fun _ => ?_
  refine HeaderFrame.bind (headerRead_frame _) fun _ => HeaderFrame.bind (headerRead_frame _) fun _ => ?_
  refine HeaderFrame.bind (HeaderFrame.collect (fun _ => ?_) _) fun _ => ?_
  · exact HeaderFrame.bind (headerRead_frame _) fun _ => HeaderFrame.bind (headerCheck_frame _ _) fun _ => HeaderFrame.pure _
  · exact HeaderFrame.bind (headerCheck_frame _ _) fun _ => HeaderFrame.bind (headerCheck_frame _ _) fun _ =>
      Keeps.modify fun _ => HeaderFrame.setCfg _ _

theorem readCascade_frame : Keeps HeaderFrame readCascade :=
  HeaderFrame.bind (headerRead_frame _) fun _ => HeaderFrame.bind (headerRead_frame _) fun _ =>
  HeaderFrame.bind (optionalRead_frame _ _ _) fun _ => HeaderFrame.pure _

theorem resUnpack_frame (r : Nat) : Keeps HeaderFrame (resUnpack r) := by
  unfold resUnpack
  refine HeaderFrame.bind (headerRead_frame _) fun _ => HeaderFrame.bind (headerRead_frame _) fun _ => ?_
  refine HeaderFrame.bind (headerRead_frame _) fun _ => HeaderFrame.bind (headerRead_frame _) fun _ => ?_
  refine HeaderFrame.bind (headerRead_frame _) fun _ => HeaderFrame.bind (checkBook_frame _) fun _ => ?_
  refine HeaderFrame.bind HeaderFrame.get fun _ => HeaderFrame.bind (HeaderFrame.need _) fun _ => ?_
  refine HeaderFrame.bind (headerCheck_frame _ _) fun _ => ?_
  refine HeaderFrame.bind (HeaderFrame.collect (fun _ => readCascade_frame) _) fun _ => ?_
  refine HeaderFrame.bind (HeaderFrame.collect (fun _ => ?_) _) fun _ => Keeps.modify fun _ => HeaderFrame.setCfg _ _
  exact HeaderFrame.bind (headerRead_frame _) fun _ => HeaderFrame.bind (checkValueBook_frame _) fun _ => HeaderFrame.pure _

theorem readCount_frame (n d : Nat) : Keeps HeaderFrame (readCount n d) :=
  HeaderFrame.bind (headerRead_frame _) fun _ => Keeps.ite
    (HeaderFrame.bind (headerRead_frame _) fun _ => HeaderFrame.pure _) (HeaderFrame.pure _)

theorem readCoupling_frame (channels : Nat) : Keeps HeaderFrame (readCoupling channels) :=
  HeaderFrame.bind (headerRead_frame _) fun _ => HeaderFrame.bind (headerRead_frame _) fun _ =>
  HeaderFrame.bind (headerCheck_frame _ _) fun _ => HeaderFrame.pure _

theorem readMux_frame (submaps : Nat) : Keeps HeaderFrame (readMux submaps) :=
  HeaderFrame.bind (headerRead_frame _) fun _ => HeaderFrame.bind (headerCheck_frame _ _) fun _ => HeaderFrame.pure _

theorem readMuxList_frame (submaps channels : Nat) : Keeps HeaderFrame (readMuxList submaps channels) := by
  unfold readMuxList
  exact Keeps.ite (HeaderFrame.collect (fun _ => readMux_frame _) _) (HeaderFrame.pure _)

theorem readSubmap_frame : Keeps HeaderFrame readSubmap :=
  HeaderFrame.bind HeaderFrame.get fun _ => HeaderFrame.bind (HeaderFrame.need _) fun _ =>
  HeaderFrame.bind HeaderFrame.get fun _ => HeaderFrame.bind (HeaderFrame.need _) fun _ =>
  HeaderFrame.bind HeaderFrame.get fun _ => HeaderFrame.bind (HeaderFrame.need _) fun _ =>
  HeaderFrame.bind (headerRead_frame _) fun _ => HeaderFrame.bind (headerCheck_frame _ _) fun _ =>
  HeaderFrame.bind (headerRead_frame _) fun _ => HeaderFrame.bind (headerCheck_frame _ _) fun _ =>
  HeaderFrame.bind (headerRead_frame _) fun _ => HeaderFrame.bind (headerCheck_frame _ _) fun _ => HeaderFrame.pure _

theorem map0Unpack_frame (m : Nat) : Keeps HeaderFrame (map0Unpack m) :=
  HeaderFrame.bind HeaderFrame.get fun _ => HeaderFrame.bind (HeaderFrame.need _) fun _ =>
  HeaderFrame.bind (readCount_frame _ _) fun _ => HeaderFrame.bind (readCount_frame _ _) fun _ =>
  HeaderFrame.bind (HeaderFrame.collect (fun _ => readCoupling_frame _) _) fun _ =>
  HeaderFrame.bind (headerRead_frame _) fun _ => HeaderFrame.bind (headerCheck_frame _ _) fun _ =>
  HeaderFrame.bind (readMuxList_frame _ _) fun _ =>
  HeaderFrame.bind (HeaderFrame.collect (fun _ => readSubmap_frame) _) fun _ => Keeps.modify fun _ => HeaderFrame.setCfg _ _

theorem readFloor_frame (f : Nat) : Keeps HeaderFrame (readFloor f) :=
  HeaderFrame.bind (headerRead_frame _) fun _ => HeaderFrame.bind (loadCfg_frame _) fun _ =>
    Keeps.ite (f0Unpack_frame f) (Keeps.ite (f1Unpack_frame f) (Keeps.raise HeaderFrame.rel _))

theorem readResidue_frame (r : Nat) : Keeps HeaderFrame (readResidue r) :=
  HeaderFrame.bind (headerRead_frame _) fun _ => HeaderFrame.bind (loadCfg_frame _) fun _ =>
  HeaderFrame.bind (headerCheck_frame _ _) fun _ => resUnpack_frame r

theorem readMapping_frame (m : Nat) : Keeps HeaderFrame (readMapping m) :=
  HeaderFrame.bind (headerRead_frame _) fun _ => HeaderFrame.bind (loadCfg_frame _) fun _ =>
  HeaderFrame.bind (headerCheck_frame _ _) fun _ => map0Unpack_frame m

theorem hdrSetup_frame : Keeps HeaderFrame hdrSetup :=
  HeaderFrame.bind (headerRead_frame _) fun _ => HeaderFrame.bind (loadCfg_frame _) fun _ =>
  HeaderFrame.bind (HeaderFrame.forEach hdrBook_frame _) fun _ =>
  HeaderFrame.bind (headerRead_frame _) fun _ => HeaderFrame.bind (loadCfg_frame _) fun _ =>
  HeaderFrame.bind (HeaderFrame.forEach hdrTime_frame _) fun _ =>
  HeaderFrame.bind (headerRead_frame _) fun _ => HeaderFrame.bind (loadCfg_frame _) fun _ =>
  HeaderFrame.bind (HeaderFrame.forEach readFloor_frame _) fun _ =>
  HeaderFrame.bind (headerRead_frame _) fun _ => HeaderFrame.bind (loadCfg_frame _) fun _ =>
  HeaderFrame.bind (HeaderFrame.forEach readResidue_frame _) fun _ =>
  HeaderFrame.bind (headerRead_frame _) fun _ => HeaderFrame.bind (loadCfg_frame _) fun _ =>
  HeaderFrame.bind (HeaderFrame.forEach readMapping_frame _) fun _ =>
  HeaderFrame.bind (headerRead_frame _) fun _ => HeaderFrame.bind (loadCfg_frame _) fun _ =>
  HeaderFrame.bind (HeaderFrame.forEach hdrMode_frame _) fun _ => readFraming_frame

/-! ### Tables -/

theorem cbUnquantize_frame (b : Nat) : Keeps HeaderFrame (cbUnquantize b) := by
  unfold cbUnquantize
  refine HeaderFrame.bind HeaderFrame.get fun _ => HeaderFrame.bind (HeaderFrame.need _) fun _ => ?_
  split
  · exact HeaderFrame.pure _
  · exact Keeps.modify fun _ => HeaderFrame.setTab _ _

theorem f0Look_frame (P : Params) (f w : Nat) : Keeps HeaderFrame (f0Look P f w) :=
  HeaderFrame.bind HeaderFrame.get fun _ => HeaderFrame.bind (HeaderFrame.need _) fun _ =>
  HeaderFrame.bind HeaderFrame.get fun _ => HeaderFrame.bind (HeaderFrame.need _) fun _ => Keeps.modify fun _ => by
    split <;> exact HeaderFrame.setTab _ _

theorem f1Look_frame (f : Nat) : Keeps HeaderFrame (f1Look f) :=
  HeaderFrame.bind HeaderFrame.get fun _ => HeaderFrame.bind (HeaderFrame.need _) fun _ =>
    Keeps.modify fun _ => HeaderFrame.setTab _ _

theorem resLook_frame (r : Nat) : Keeps HeaderFrame (resLook r) :=
  HeaderFrame.bind HeaderFrame.get fun _ => HeaderFrame.bind (HeaderFrame.need _) fun _ =>
  HeaderFrame.bind HeaderFrame.get fun _ => HeaderFrame.bind (HeaderFrame.need _) fun _ =>
    Keeps.modify fun _ => HeaderFrame.setTab _ _

theorem mdctInit_frame (P : Params) (w : Nat) : Keeps HeaderFrame (mdctInit P w) :=
  HeaderFrame.bind HeaderFrame.get fun _ => HeaderFrame.bind (HeaderFrame.need _) fun _ => Keeps.modify fun _ => by
    split <;> exact HeaderFrame.setTab _ _

theorem winInit_frame (P : Params) : Keeps HeaderFrame (winInit P) :=
  HeaderFrame.bind HeaderFrame.get fun _ => HeaderFrame.bind (HeaderFrame.need _) fun _ =>
  HeaderFrame.bind HeaderFrame.get fun _ => HeaderFrame.bind (HeaderFrame.need _) fun _ =>
    Keeps.modify fun _ => HeaderFrame.setTab _ _

theorem lookFloor_frame (P : Params) (f : Nat) : Keeps HeaderFrame (lookFloor P f) :=
  HeaderFrame.bind HeaderFrame.get fun _ => HeaderFrame.bind (HeaderFrame.need _) fun _ =>
    Keeps.ite (HeaderFrame.bind (f0Look_frame _ _ _) fun _ => f0Look_frame _ _ _) (f1Look_frame _)

theorem buildTables_frame (P : Params) : Keeps HeaderFrame (buildTables P) :=
  HeaderFrame.bind HeaderFrame.get fun _ => HeaderFrame.bind (HeaderFrame.need _) fun _ => HeaderFrame.bind (HeaderFrame.need _) fun _ =>
  HeaderFrame.bind (HeaderFrame.need _) fun _ => HeaderFrame.bind (HeaderFrame.need _) fun _ =>
  HeaderFrame.bind (HeaderFrame.forEach cbUnquantize_frame _) fun _ =>
  HeaderFrame.bind (HeaderFrame.forEach (lookFloor_frame P) _) fun _ =>
  HeaderFrame.bind (HeaderFrame.forEach resLook_frame _) fun _ =>
  HeaderFrame.bind (mdctInit_frame P _) fun _ => HeaderFrame.bind (mdctInit_frame P _) fun _ =>
  HeaderFrame.bind (winInit_frame P) fun _ => Keeps.modify fun _ => HeaderFrame.setTab _ _

theorem readMagic_frame (l : List Nat) : Keeps HeaderFrame (readMagic l) :=
  HeaderFrame.forEach (fun _ => HeaderFrame.bind (headerRead_frame _) fun _ => headerCheck_frame _ _) l

end Sys2Proof.Machine
end

