-- ==== Sys2Proof/Laws/Reads.lean ====
section
/-! SUPPORT. Reading what was sent. `Reads k op fs v k'` says that `op`, at a payload that holds the fields `fs` and with
the configuration and tables `k`, returns `v` with the cursor past them and `k'` loaded; one lemma for each way reading
operations are put together. -/

namespace Sys2Proof.Machine

/-! ## Fields, one after the other -/

@[simp] theorem fieldBits_nil : fieldBits [] = 0 := rfl

@[simp] theorem fieldBits_cons (f : Nat × Nat) (fs : List (Nat × Nat)) : fieldBits (f :: fs) = f.1 + fieldBits fs := by
  simp [fieldBits]

@[simp] theorem fieldBits_append (fs gs : List (Nat × Nat)) : fieldBits (fs ++ gs) = fieldBits fs + fieldBits gs := by
  simp [fieldBits]

theorem fieldsAt_append {m : Memory} {base : Nat} : ∀ {fs gs : List (Nat × Nat)} {p : Nat},
    fieldsAt m base p (fs ++ gs) ↔ fieldsAt m base p fs ∧ fieldsAt m base (p + fieldBits fs) gs
  | [], gs, p => by simp [fieldsAt]
  | (n, v) :: fs, gs, p => by
    simp only [List.cons_append, fieldsAt, fieldBits_cons, fieldsAt_append (fs := fs), and_assoc, Nat.add_assoc]

@[simp] theorem State.advance_zero (s : State) : s.advance 0 = s := rfl

@[simp] theorem State.advance_advance (s : State) (m n : Nat) : (s.advance m).advance n = s.advance (m + n) := by
  simp [State.advance, Nat.add_assoc]

theorem State.Sends.nil {s : State} (h : s.pos ≤ 8 * s.len.toNat) : s.Sends [] :=
  ⟨trivial, by simpa using h⟩

theorem State.Sends.left {s : State} {fs gs : List (Nat × Nat)} (h : s.Sends (fs ++ gs)) : s.Sends fs :=
  ⟨(fieldsAt_append.1 h.fields).1, by have := h.within; simp at this; omega⟩

theorem State.Sends.right {s : State} {fs gs : List (Nat × Nat)} (h : s.Sends (fs ++ gs)) :
    (s.advance (fieldBits fs)).Sends gs :=
  ⟨(fieldsAt_append.1 h.fields).2, by have := h.within; simp at this ⊢; omega⟩

theorem State.Sends.value {s : State} {n v : Nat} (h : s.Sends [(n, v)]) : s.cursorField n = v := h.fields.1

theorem State.Sends.value_lt {s : State} {n v : Nat} {fs : List (Nat × Nat)} (h : s.Sends ((n, v) :: fs)) : v < 2 ^ n := by
  rw [← h.fields.1]
  exact payloadField_lt _ _ _ _

theorem State.Sends.avail {s : State} {n v : Nat} (h : s.Sends [(n, v)]) : s.avail n = true := by
  have := h.within
  simp [fieldBits] at this
  simp [State.avail, this]

/-- The payload, the cursor and its limits are as before: what is sent is sent still. -/
theorem State.Sends.congr {s t : State} {fs : List (Nat × Nat)} (h : s.Sends fs) (hp : t.pkt = s.pkt)
    (hb : t.base = s.base) (hl : t.len = s.len) (hpos : t.pos = s.pos) : t.Sends fs := by
  refine ⟨?_, ?_⟩
  · rw [hp, hb, hpos]; exact h.fields
  · rw [hpos, hl]; exact h.within

theorem readBits_sends {s : State} {n v : Nat} (h : s.Sends [(n, v)]) : readBits n s = .ok v (s.advance n) := by
  rw [readBits_ok h.avail, h.value]

theorem headerRead_sends {s : State} {n v : Nat} (h : s.Sends [(n, v)]) : headerRead n s = .ok v (s.advance n) := by
  rw [headerRead_ok h.avail, h.value]

theorem readBit_sends {s : State} {b : Bool} (h : s.Sends [(1, bitValue b)]) : readBit s = .ok b (s.advance 1) := by
  rw [readBit, bind_ok (readBits_sends h)]
  cases b <;> rfl

/-! ## Reading operations -/

/-- The configuration and its tables. -/
abbrev Loaded := Cfg × Tab

/-- The state with this configuration and these tables. -/
def State.with (k : Loaded) (s : State) : State := (s.setCfg k.1).setTab k.2

/-- The state carries this configuration and these tables. -/
def State.has (k : Loaded) (s : State) : Prop := s.cfg = k.1 ∧ s.tab = k.2

theorem State.with_self {s : State} {k : Loaded} (h : s.has k) : s.with k = s := by
  obtain ⟨c, T⟩ := k
  obtain ⟨rfl, rfl⟩ : s.cfg = c ∧ s.tab = T := h
  rfl

/-- At a payload that holds `fs`, and with `k` loaded, the operation returns `v`, the cursor past the fields and `k'` loaded,
and changes nothing else. -/
def Reads {α : Type} (k : Loaded) (op : Op α) (fs : List (Nat × Nat)) (v : α) (k' : Loaded) : Prop :=
  ∀ s : State, s.has k → s.Sends fs → op s = .ok v ((s.advance (fieldBits fs)).with k')

variable {α β : Type} {k k' k'' : Loaded} {fs gs : List (Nat × Nat)}

theorem Reads.pure (v : α) : Reads k (Pure.pure v : Op α) [] v k := fun s h _ => by
  rw [State.with_self (by exact h)]; rfl

theorem Reads.headerRead (n v : Nat) : Reads k (Machine.headerRead n) [(n, v)] v k := fun s h hs => by
  rw [State.with_self (by exact h)]; simpa using headerRead_sends hs

theorem Reads.bind {op : Op α} {f : α → Op β} {v : α} {w : β} (h : Reads k op fs v k') (hf : Reads k' (f v) gs w k'') :
    Reads k (op >>= f) (fs ++ gs) w k'' := fun s hc hs => by
  rw [bind_ok (h s hc hs.left), fieldBits_append]
  refine (hf ((s.advance (fieldBits fs)).with k') ⟨rfl, rfl⟩ (hs.right.congr rfl rfl rfl rfl)).trans ?_
  simp [State.with, State.advance, State.setCfg, State.setTab, Nat.add_assoc]

/-- A step that reads nothing, then the rest. -/
theorem Reads.step_bind {op : Op α} {f : α → Op β} {v : α} {w : β} (h : Reads k op [] v k')
    (hf : Reads k' (f v) gs w k'') : Reads k (op >>= f) gs w k'' := Reads.bind (fs := []) h hf

/-- A read, then the rest. -/
theorem Reads.read_bind {n v : Nat} {f : Nat → Op β} {w : β} (hf : v < 2 ^ n → Reads k (f v) gs w k'') :
    Reads k (Machine.headerRead n >>= f) ((n, v) :: gs) w k'' := fun s hc hs =>
  Reads.bind (fs := [(n, v)]) (Reads.headerRead n v) (hf hs.value_lt) s hc hs

/-- A check that passes. -/
theorem Reads.check_bind {p : Bool} {e : HeaderCause} {f : Unit → Op β} {w : β} (hp : p = true)
    (hf : Reads k (f ()) gs w k'') : Reads k (headerCheck p e >>= f) gs w k'' := by subst hp; exact hf

theorem Reads.check {p : Bool} {e : HeaderCause} (hp : p = true) : Reads k (headerCheck p e) [] () k := by
  subst hp; exact Reads.pure ()

theorem Reads.get_bind {f : State → Op β} {w : β} (hf : ∀ s : State, s.has k → Reads k (f s) gs w k'') :
    Reads k ((MonadStateOf.get : Op State) >>= f) gs w k'' := fun s hc hs => hf s hc s hc hs

theorem Reads.need_bind {o : Option α} {v : α} {f : α → Op β} {w : β} (ho : o = some v) (hf : Reads k (f v) gs w k'') :
    Reads k (need o >>= f) gs w k'' := by subst ho; exact hf

theorem Reads.pure_bind {op : Op α} {f : α → β} {v : α} (h : Reads k op fs v k') :
    Reads k (op >>= fun a => Pure.pure (f a)) fs (f v) k' := by
  have := Reads.bind (f := fun a => Pure.pure (f a)) h (Reads.pure (f v))
  simpa using this

/-- Loading the configuration. -/
theorem Reads.load {f : State → Cfg} {c c' : Cfg} {T : Tab} (h : ∀ s : State, s.has (c, T) → f s = c') :
    Reads (c, T) (modify fun s => s.setCfg (f s) : Op Unit) [] () (c', T) := fun s hs _ => by
  obtain ⟨rfl, rfl⟩ : s.cfg = c ∧ s.tab = T := hs
  show EStateM.Result.ok () (s.setCfg (f s)) = _
  rw [h s ⟨rfl, rfl⟩]
  rfl

/-- Loading the tables. -/
theorem Reads.tabulate {f : State → Tab} {c : Cfg} {T T' : Tab} (h : ∀ s : State, s.has (c, T) → f s = T') :
    Reads (c, T) (modify fun s => s.setTab (f s) : Op Unit) [] () (c, T') := fun s hs _ => by
  obtain ⟨rfl, rfl⟩ : s.cfg = c ∧ s.tab = T := hs
  show EStateM.Result.ok () (s.setTab (f s)) = _
  rw [h s ⟨rfl, rfl⟩]
  rfl

/-- At a payload that holds `fs`, and with `k` loaded, the operation goes on as `rest`, the cursor past the fields and `k'`
loaded. -/
def Leads {α : Type} (k : Loaded) (op : Op α) (fs : List (Nat × Nat)) (k' : Loaded) (rest : Op α) : Prop :=
  ∀ s : State, s.has k → s.Sends fs → op s = rest ((s.advance (fieldBits fs)).with k')

theorem Leads.refl (op : Op α) : Leads k op [] k op := fun s h _ => by
  rw [State.with_self (by exact h)]; rfl

theorem Leads.bind {op : Op α} {f : α → Op β} {v : α} {rest : Op β} (h : Reads k op fs v k')
    (hf : Leads k' (f v) gs k'' rest) : Leads k (op >>= f) (fs ++ gs) k'' rest := fun s hc hs => by
  rw [bind_ok (h s hc hs.left), fieldBits_append]
  refine (hf ((s.advance (fieldBits fs)).with k') ⟨rfl, rfl⟩ (hs.right.congr rfl rfl rfl rfl)).trans ?_
  simp [State.with, State.advance, State.setCfg, State.setTab, Nat.add_assoc]

theorem Leads.read_bind {n v : Nat} {f : Nat → Op β} {rest : Op β} (hf : v < 2 ^ n → Leads k (f v) gs k'' rest) :
    Leads k (Machine.headerRead n >>= f) ((n, v) :: gs) k'' rest := fun s hc hs =>
  Leads.bind (fs := [(n, v)]) (Reads.headerRead n v) (hf hs.value_lt) s hc hs

theorem Leads.check_bind {p : Bool} {e : HeaderCause} {f : Unit → Op β} {rest : Op β} (hp : p = true)
    (hf : Leads k (f ()) gs k'' rest) : Leads k (headerCheck p e >>= f) gs k'' rest := by subst hp; exact hf

/-- The rest reads on. -/
theorem Leads.reads {op rest : Op α} {v : α} (h : Leads k op fs k' rest) (hr : Reads k' rest gs v k'') :
    Reads k op (fs ++ gs) v k'' := fun s hc hs => by
  refine (h s hc hs.left).trans ?_
  refine (hr ((s.advance (fieldBits fs)).with k') ⟨rfl, rfl⟩ (hs.right.congr rfl rfl rfl rfl)).trans ?_
  simp [State.with, State.advance, State.setCfg, State.setTab, Nat.add_assoc]

/-- A loop over items, each sent as `g` says. -/
theorem Reads.collect {ι : Type} {body : ι → Op β} {g : β → List (Nat × Nat)} :
    ∀ (l : List ι) (vs : List β), l.length = vs.length → (∀ i ∈ l, ∀ v ∈ vs, Reads k (body i) (g v) v k) →
      Reads k (Machine.collect l body) (vs.flatMap g) vs k
  | [], [], _, _ => Reads.pure []
  | i :: l, v :: vs, hl, h => by
    refine Reads.bind (h i (by simp) v (by simp)) ?_
    exact Reads.pure_bind (Reads.collect l vs (by simpa using hl) fun j hj w hw => h j (by simp [hj]) w (by simp [hw]))
  | [], _ :: _, hl, _ => by simp at hl
  | _ :: _, [], hl, _ => by simp at hl

/-- The same when each item is one field. -/
theorem Reads.collect_fields {ι : Type} {body : ι → Op β} {g : β → Nat × Nat} (l : List ι) (vs : List β)
    (hl : l.length = vs.length) (h : ∀ i ∈ l, ∀ v ∈ vs, Reads k (body i) [g v] v k) :
    Reads k (Machine.collect l body) (vs.map g) vs k := by
  have := Reads.collect (g := fun v => [g v]) l vs hl h
  have e : ∀ l : List β, l.flatMap (fun v => [g v]) = l.map g := fun l => by induction l <;> simp_all
  rwa [e] at this

/-- A loop that loads one item after the other: `at' done` is what is loaded once the items `done` are. -/
theorem Reads.forEach {ι : Type} {body : Nat → Op Unit} {g : ι → List (Nat × Nat)} (at' : List ι → Loaded) (items : List ι)
    (h : ∀ done x rest, items = done ++ x :: rest →
      Reads (at' done) (body done.length) (g x) () (at' (done ++ [x]))) :
    Reads (at' []) (Machine.forEach (List.range items.length) body) (items.flatMap g) () (at' items) := by
  have key : ∀ (todo done : List ι), items = done ++ todo →
      Reads (at' done) (Machine.forEach (List.range' done.length todo.length) body) (todo.flatMap g) () (at' items) := by
    intro todo
    induction todo with
    | nil =>
      intro done hd
      rw [hd, List.append_nil]
      exact Reads.pure ()
    | cons x rest ih =>
      intro done hd
      rw [List.length_cons, List.range'_succ]
      have := ih (done ++ [x]) (by simp [hd])
      rw [List.length_append, List.length_singleton] at this
      exact Reads.bind (h done x rest hd) this
  have := key items [] rfl
  rwa [List.length_nil, ← List.range_eq_range'] at this

/-! ## Indexed fields -/

theorem fieldAt_nil {α : Type} (i : Nat) : fieldAt ([] : List (Option α)) i = none := by simp [fieldAt]

theorem fieldAt_putAt {α : Type} : ∀ (l : List (Option α)) (i j : Nat) (v : α),
    fieldAt (putAt l i v) j = if j = i then some v else fieldAt l j
  | [], 0, j, v => by cases j <;> simp [putAt, fieldAt]
  | [], i + 1, 0, v => by simp [putAt, fieldAt]
  | [], i + 1, j + 1, v => by
    have := fieldAt_putAt ([] : List (Option α)) i j v
    simp only [fieldAt, putAt, List.getElem?_cons_succ] at *
    simpa using this
  | _ :: l, 0, j, v => by cases j <;> simp [putAt, fieldAt]
  | x :: l, i + 1, 0, v => by simp [putAt, fieldAt]
  | x :: l, i + 1, j + 1, v => by
    have := fieldAt_putAt l i j v
    simp only [fieldAt, putAt, List.getElem?_cons_succ] at *
    simpa using this

/-- A field loaded right after the last. -/
theorem putAt_end {α : Type} : ∀ (l : List (Option α)) (v : α), putAt l l.length v = l ++ [some v]
  | [], _ => rfl
  | x :: l, v => by simp [putAt, putAt_end l v]

/-- Fields loaded in order make the list of them. -/
theorem putAt_map {ι α : Type} (f : ι → Option α) (done : List ι) {x : ι} {v : α} (h : f x = some v) :
    putAt (done.map f) done.length v = (done ++ [x]).map f := by
  have := putAt_end (done.map f) v
  rw [List.length_map] at this
  rw [this, List.map_append, List.map_singleton, h]

theorem fieldAt_map_some {α : Type} (l : List α) (i : Nat) : fieldAt (l.map some) i = l[i]? := by
  rcases h : l[i]? with _ | x <;> simp [fieldAt, h]

end Sys2Proof.Machine
end

