-- ==== Sys2Proof/Laws/Records.lean ====
section
/-! SUPPORT. What each record reader makes of a payload that holds a legal record. -/

namespace Sys2Proof.Machine

variable {c : Cfg} {T : Tab} {k : Loaded}

theorem loadCfg_reads (f : Cfg → Cfg) : Reads (c, T) (loadCfg f) [] () (f c, T) :=
  Reads.load fun s hs => by rw [hs.1]

theorem readFraming_reads : Reads k readFraming [(1, 1)] () k :=
  Reads.read_bind fun _ => Reads.check rfl

/-! ## Identification and comment headers -/

/-- What the identification header loads. -/
def Cfg.withIdent (c : Cfg) (channels rate upper nominal lower e0 e1 : Nat) : Cfg :=
  { c with
    version := some 0, channels := some channels, rate := some rate,
    bitrateUpper := some (sext32 upper), bitrateNominal := some (sext32 nominal), bitrateLower := some (sext32 lower),
    blocksize0 := some (2 ^ e0), blocksize1 := some (2 ^ e1) }

theorem hdrIdent_reads {channels rate upper nominal lower e0 e1 : Nat} (hc : 1 ≤ channels) (hr : 1 ≤ rate) (h0 : 3 ≤ e0)
    (h1 : e0 ≤ e1) :
    Reads (c, T) hdrIdent (identFields channels rate upper nominal lower e0 e1) ()
      (c.withIdent channels rate upper nominal lower e0 e1, T) := by
  unfold hdrIdent identFields
  refine Reads.read_bind fun _ => Reads.step_bind (loadCfg_reads _) (Reads.check_bind rfl ?_)
  refine Reads.read_bind fun _ => Reads.step_bind (loadCfg_reads _) (Reads.check_bind (by simp; omega) ?_)
  refine Reads.read_bind fun _ => Reads.step_bind (loadCfg_reads _) (Reads.check_bind (by simp; omega) ?_)
  refine Reads.read_bind fun _ => Reads.step_bind (loadCfg_reads _) ?_
  refine Reads.read_bind fun _ => Reads.step_bind (loadCfg_reads _) ?_
  refine Reads.read_bind fun _ => Reads.step_bind (loadCfg_reads _) ?_
  refine Reads.read_bind fun _ => Reads.read_bind fun _ => Reads.step_bind (loadCfg_reads _) ?_
  refine Reads.check_bind (decide_eq_true ?_) (Reads.check_bind (decide_eq_true ?_) readFraming_reads)
  · exact Nat.pow_le_pow_right (n := 2) (by omega) h0
  · exact Nat.pow_le_pow_right (n := 2) (by omega) h1

theorem fieldBits_identFields (channels rate upper nominal lower e0 e1 : Nat) :
    fieldBits (identFields channels rate upper nominal lower e0 e1) = 177 := by simp [identFields]

/-- Skipping over what is sent. -/
theorem advanceBits_reads (n v : Nat) : Reads k (advanceBits n) [(n, v)] () k := fun s hs _ => by
  rw [State.with_self (by exact hs)]; simp [advanceBits_eq]

theorem skipComments_reads : ∀ l : List (Nat × Nat), Reads k (skipComments l.length) (l.flatMap textFields) () k
  | [] => Reads.pure ()
  | (n, v) :: l => Reads.read_bind fun _ =>
      Reads.bind (fs := [(8 * n, v)]) (advanceBits_reads _ _) (skipComments_reads l)

theorem hdrComment_reads (vendor : Nat × Nat) (comments : List (Nat × Nat)) :
    Reads k hdrComment (commentFields vendor comments) () k := by
  obtain ⟨n, v⟩ := vendor
  simp only [commentFields, textFields, List.cons_append, List.nil_append]
  exact Reads.read_bind fun _ => Reads.bind (fs := [(8 * n, v)]) (advanceBits_reads _ _) <|
    Reads.read_bind fun _ => Reads.bind (skipComments_reads comments) readFraming_reads

/-! ## Codebook records -/

theorem readLength_dense {len : Nat} (h : 1 ≤ len) : Reads k (readLength false) [(5, len - 1)] len k := by
  refine Reads.step_bind (v := 1) (Reads.pure 1) ?_
  rw [if_neg (by omega)]
  have := Reads.pure_bind (f := (· + 1)) (Reads.headerRead (k := k) 5 (len - 1))
  rwa [Nat.sub_add_cancel h] at this

theorem readLength_sparse (len : Nat) : Reads k (readLength true) (sparseFields len) len k := by
  unfold sparseFields
  split
  · subst_vars
    exact Reads.bind (fs := [(1, 0)]) (Reads.headerRead 1 0) (Reads.pure 0)
  · refine Reads.bind (fs := [(1, 1)]) (Reads.headerRead 1 1) ?_
    have := Reads.pure_bind (f := (· + 1)) (Reads.headerRead (k := k) 5 (len - 1))
    rwa [Nat.sub_add_cancel (by omega)] at this

/-- The runs of an ordered length list, from any entry on. -/
theorem readRuns_reads (entries : Nat) : ∀ (runs : List Nat) (fuel len e : Nat), e ≤ entries →
    runsLegal (entries - e) len runs → 33 ≤ fuel + len →
    Reads k (readRuns entries fuel len e) (runFields (entries - e) runs) (runLengths len runs) k
  | [], fuel, len, e, he, hr, _ => by
    have : entries = e := by simp [runsLegal] at hr; omega
    subst this
    cases fuel <;> simp [readRuns, runFields, runLengths, Reads.pure]
  | num :: rest, 0, len, e, _, hr, hf => by simp [runsLegal] at hr; omega
  | num :: rest, fuel + 1, len, e, he, hr, hf => by
    simp only [runsLegal] at hr
    unfold readRuns
    rw [if_pos (by omega)]
    refine Reads.read_bind fun _ => Reads.check_bind (by simp; omega) ?_
    have ih := readRuns_reads entries rest fuel (len + 1) (e + num) (by omega)
      (by rw [show entries - (e + num) = entries - e - num by omega]; exact hr.2.2.2) (by omega)
    rw [show entries - (e + num) = entries - e - num by omega] at ih
    exact Reads.pure_bind ih

theorem readLengths_reads {layout : LengthLayout} (h : layout.legal) :
    Reads k (readLengths layout.lengths.length) layout.fields layout.lengths k := by
  unfold readLengths
  cases layout with
  | dense ls =>
    refine Reads.read_bind fun _ => ?_
    rw [if_pos rfl]
    exact Reads.read_bind fun _ => Reads.collect_fields _ _ (by simp [LengthLayout.lengths])
      fun _ _ len hl => readLength_dense (h len hl).1
  | sparse ls =>
    refine Reads.read_bind fun _ => ?_
    rw [if_pos rfl]
    exact Reads.read_bind fun _ => Reads.collect _ _ (by simp [LengthLayout.lengths])
      fun _ _ len _ => readLength_sparse len
  | ordered first runs =>
    refine Reads.read_bind fun _ => ?_
    rw [if_neg (by omega)]
    refine Reads.read_bind fun _ => ?_
    obtain ⟨h1, h2, h3⟩ := h
    rw [Nat.sub_add_cancel h1]
    exact readRuns_reads (runLengths first runs).length runs 33 first 0 (by omega) h3 (by omega)

theorem bitValue_beq (b : Bool) : (bitValue b == 1) = b := by cases b <;> rfl

theorem readQuant_reads {layout : LengthLayout} {r : Book} (h : BookLegal layout r) :
    Reads k (readQuant r.maptype r.dim r.entries) (quantFields r.quant) r.quant k := by
  unfold readQuant
  by_cases hm : r.maptype = 0
  · rw [if_pos hm, h.absent hm]
    exact Reads.pure none
  · rw [if_neg hm]
    obtain ⟨q, hq, h1, h2, h3⟩ := h.present hm
    rw [hq]
    simp only [quantFields, List.cons_append, List.nil_append]
    refine Reads.read_bind fun _ => Reads.read_bind fun _ => Reads.read_bind fun _ => Reads.read_bind fun _ => ?_
    rw [Nat.sub_add_cancel h1]
    have := Reads.pure_bind (f := fun l => some <| show Quant from
      { qMin := BitVec.ofNat 32 q.qMin.toNat, qDelta := BitVec.ofNat 32 q.qDelta.toNat, qQuant := q.qQuant,
        qSequencep := bitValue q.qSequencep == 1, quantlist := l }) <|
      Reads.collect_fields (k := k) (g := fun v => (q.qQuant, v))
        (List.range (quantvals r.maptype r.dim r.entries)) q.quantlist (by simp [h3])
        (body := fun _ => headerRead q.qQuant) fun _ _ v _ => Reads.headerRead _ v
    simpa [bitValue_beq] using this

/-- `HDR.BOOK b` up to its codewords. -/
theorem hdrBook_leads (b : Nat) {layout : LengthLayout} {r : Book} (h : BookLegal layout r) :
    Leads (c, T) (hdrBook b) (bookFields layout r) ({ c with book := putAt c.book b r }, T) (cbMakeWords b) := by
  unfold hdrBook bookFields
  simp only [List.cons_append, List.nil_append, List.append_assoc]
  refine Leads.read_bind fun _ => Leads.check_bind rfl (Leads.read_bind fun _ => Leads.read_bind fun _ => ?_)
  refine Leads.check_bind (by have := h.dim; have := h.entries; simp; omega) ?_
  have hl := readLengths_reads (k := (c, T)) h.layout.1
  rw [h.layout.2, h.count] at hl
  refine Leads.bind hl (Leads.read_bind fun _ => Leads.check_bind (by simpa using h.maptype) ?_)
  rw [← List.append_nil (quantFields r.quant)]
  exact Leads.bind (readQuant_reads h) <| Leads.bind (fs := []) (loadCfg_reads _) (Leads.refl _)

theorem cbMakeWords_reads {b : Nat} {r : Book} {ws : List (Option Codeword)} (hr : fieldAt c.book b = some r)
    (hw : makeWords r.lengthlist = some ws) :
    Reads (c, T) (cbMakeWords b) [] () (c, { T with bookWords := putAt T.bookWords b ws }) := by
  refine Reads.get_bind fun s hs => Reads.need_bind (by rw [hs.1]; exact hr) ?_
  rw [hw]
  exact Reads.tabulate fun s hs => by rw [hs.2]

theorem hdrBook_reads (b : Nat) {layout : LengthLayout} {r : Book} {ws : List (Option Codeword)} (h : BookLegal layout r)
    (hw : makeWords r.lengthlist = some ws) :
    Reads (c, T) (hdrBook b) (bookFields layout r) ()
      ({ c with book := putAt c.book b r }, { T with bookWords := putAt T.bookWords b ws }) := by
  have := (hdrBook_leads (c := c) (T := T) b h).reads (cbMakeWords_reads (r := r) (by simp [fieldAt_putAt]) hw)
  simpa using this

/-! ## Books checked -/

theorem checkBook_reads {b : Nat} (h : c.hasBook b) : Reads (c, T) (checkBook b) [] () (c, T) := by
  obtain ⟨n, hn, hb⟩ := h
  exact Reads.get_bind fun s hs => Reads.need_bind (by rw [hs.1]; exact hn) (Reads.check (by simpa using hb))

theorem checkValueBook_reads {b : Nat} (h : c.hasValueBook b) : Reads (c, T) (checkValueBook b) [] () (c, T) := by
  obtain ⟨hb, r, hr, hm⟩ := h
  exact Reads.step_bind (checkBook_reads hb) <|
    Reads.get_bind fun s hs => Reads.need_bind (by rw [hs.1]; exact hr) (Reads.check (by simpa using hm))

/-- A book number, checked. -/
theorem readValueBook_reads {b : Nat} (h : c.hasValueBook b) :
    Reads (c, T) (do let b ← headerRead 8; checkValueBook b; pure b) [(8, b)] b (c, T) :=
  Reads.read_bind fun _ => Reads.pure_bind (f := fun _ => b) (checkValueBook_reads h)

/-! ## Floors -/

theorem f0Unpack_reads {f : Nat} {F : Floor0} (h : Floor0Legal c F) :
    Reads (c, T) (f0Unpack f) (floor0Fields F) () ({ c with floor := putAt c.floor f (.type0 F) }, T) := by
  unfold f0Unpack floor0Fields
  refine Reads.read_bind fun _ => Reads.check_bind (by simpa using h.order) ?_
  refine Reads.read_bind fun _ => Reads.check_bind (by simpa using h.rate) ?_
  refine Reads.read_bind fun _ => Reads.check_bind (by simpa using h.barkmap) ?_
  refine Reads.read_bind fun _ => Reads.check_bind (by simpa using h.ampbits) ?_
  refine Reads.read_bind fun _ => Reads.read_bind fun _ => ?_
  rw [Nat.sub_add_cancel h.numbooks]
  have hb := Reads.collect_fields (k := (c, T)) (g := fun b => (8, b)) (List.range F.numbooks) F.books (by simp [h.count])
    (body := fun _ => do let b ← headerRead 8; checkValueBook b; pure b)
    fun _ _ b hb => readValueBook_reads (h.books b hb)
  have := Reads.bind hb (f := fun books => modify fun s => s.setCfg
    { s.cfg with floor := putAt s.cfg.floor f (.type0
      { order := F.order, rate := F.rate, barkmap := F.barkmap, ampbits := F.ampbits, ampdB := F.ampdB,
        numbooks := F.numbooks, books := books }) }) (Reads.load fun s hs => by rw [hs.1])
  simpa using this

theorem f1ReadSubbook_reads {o : Option Nat} (h : ∀ b, o = some b → c.hasBook b) :
    Reads (c, T) f1ReadSubbook [(8, subbookField o)] o (c, T) := by
  refine Reads.read_bind fun _ => ?_
  cases o with
  | none => exact Reads.pure none
  | some b =>
    rw [if_neg (show ¬ subbookField (some b) = 0 from Nat.succ_ne_zero b)]
    exact Reads.pure_bind (f := fun _ => some b) (checkBook_reads (h b rfl))

theorem f1ReadClass_reads {K : FloorClass} (h : FloorClassLegal c K) :
    Reads (c, T) f1ReadClass (floorClassFields K) K (c, T) := by
  unfold f1ReadClass floorClassFields
  simp only [List.cons_append, List.nil_append]
  refine Reads.read_bind fun _ => Reads.read_bind fun _ => ?_
  have hb : Reads (c, T) (f1ReadClassBook K.subs) (K.book.toList.map fun b => (8, b)) K.book (c, T) := by
    unfold f1ReadClassBook
    by_cases h0 : K.subs = 0
    · rw [if_pos h0, h.book h0]
      exact Reads.pure none
    · obtain ⟨b, hb, hc⟩ := h.bookSome h0
      rw [if_neg h0, hb]
      exact Reads.read_bind fun _ => Reads.pure_bind (f := fun _ => some b) (checkBook_reads hc)
  refine Reads.bind hb ?_
  rw [Nat.sub_add_cancel h.dim]
  have := Reads.pure_bind (f := fun l => FloorClass.mk K.dim K.subs K.book l) <|
    Reads.collect_fields (k := (c, T)) (g := fun o => (8, subbookField o))
      (List.range (2 ^ K.subs)) K.subbook (by simp [h.subCount]) (body := fun _ => f1ReadSubbook)
      fun _ _ o ho => f1ReadSubbook_reads fun b hb => h.subbook b (hb ▸ ho)
  exact this

theorem f1Unpack_reads {f : Nat} {F : Floor1} (h : Floor1Legal c F) :
    Reads (c, T) (f1Unpack f) (floor1Fields F) () ({ c with floor := putAt c.floor f (.type1 F) }, T) := by
  unfold f1Unpack floor1Fields
  simp only [List.cons_append, List.nil_append, List.append_assoc]
  refine Reads.read_bind fun _ => ?_
  refine Reads.bind (Reads.collect_fields (g := fun x => (4, x)) (List.range F.partitions) F.partitionclass
    (by simp [h.partitions]) fun _ _ x _ => Reads.headerRead 4 x) ?_
  refine Reads.bind (Reads.collect (g := floorClassFields) _ F.classes (by simp [h.classes])
    fun _ _ K hK => f1ReadClass_reads (h.classLegal K hK)) ?_
  refine Reads.read_bind fun _ => Reads.read_bind fun _ => ?_
  rw [Nat.sub_add_cancel h.mult]
  have hpost : F.postlist = 0 :: 2 ^ F.rangebits :: F.postlist.drop 2 := by
    have := List.take_append_drop 2 F.postlist
    rw [h.first] at this
    exact this.symm
  have hsent := Reads.collect_fields (k := (c, T)) (g := fun x => (F.rangebits, x))
    (List.range (postCount F.classes F.partitionclass - 2)) (F.postlist.drop 2) (by simp [h.posts])
    (body := fun _ => do
      let x ← headerRead F.rangebits
      headerCheck (x < 2 ^ F.rangebits) .floor1
      pure x)
    fun _ _ x _ => Reads.read_bind fun hx => Reads.check_bind (by simpa using hx) (Reads.pure x)
  have := Reads.bind hsent (f := fun sent => do
    headerCheck (postCount F.classes F.partitionclass ≤ 65) .floor1
    headerCheck (0 :: 2 ^ F.rangebits :: sent).Nodup .floor1
    modify fun s => s.setCfg { s.cfg with floor := putAt s.cfg.floor f (.type1
      { partitions := F.partitions, partitionclass := F.partitionclass, classes := F.classes, mult := F.mult,
        rangebits := F.rangebits, postlist := 0 :: 2 ^ F.rangebits :: sent }) })
    (Reads.check_bind (by simpa using h.posts ▸ h.few) <| Reads.check_bind (by rw [← hpost]; simpa using h.distinct) <|
      Reads.load (c' := { c with floor := putAt c.floor f (.type1 F) }) fun s hs => by rw [hs.1, ← hpost])
  simpa using this

/-! ## Residues -/

/-- `cappedPow` is the power, as long as that does not matter above the cap. -/
theorem cappedPow_eq {base : Nat} (hb : 1 ≤ base) (cap : Nat) : ∀ n, cappedPow base cap n = min (base ^ n) (cap + 1)
  | 0 => rfl
  | n + 1 => by
    rw [cappedPow, cappedPow_eq hb cap n, pow_succ]
    rcases Nat.le_total (base ^ n) (cap + 1) with h | h
    · rw [min_eq_left h, Nat.mul_comm]
    · have h1 : cap + 1 ≤ base * (cap + 1) := Nat.le_mul_of_pos_left _ hb
      have h2 : cap + 1 ≤ base ^ n * base := le_trans h (Nat.le_mul_of_pos_right _ hb)
      rw [min_eq_right h, min_eq_right h1, min_eq_right h2]

theorem cappedPow_le {base cap n : Nat} (hb : 1 ≤ base) : cappedPow base cap n ≤ cap ↔ base ^ n ≤ cap := by
  rw [cappedPow_eq hb]
  omega

theorem optionalRead_reads {p : Bool} {n d v : Nat} (h : p = false → v = d) :
    Reads k (optionalRead p n d) (if p then [(n, v)] else []) v k := by
  unfold optionalRead
  cases p
  · rw [h rfl]; exact Reads.pure d
  · exact Reads.headerRead n v

theorem readCascade_reads {x : Nat × Bool} (h : x.2 = false → x.1 < 8) :
    Reads k readCascade (cascadeFields x) x.1 k := by
  unfold readCascade cascadeFields
  refine Reads.read_bind fun _ => Reads.read_bind fun _ => ?_
  rw [bitValue_beq]
  have := Reads.pure_bind (f := fun high => high * 8 + x.1 % 8) <|
    optionalRead_reads (k := k) (p := x.2) (n := 5) (d := 0) (v := x.1 / 8) fun e => by have := h e; omega
  rwa [show x.1 / 8 * 8 + x.1 % 8 = x.1 by omega] at this

theorem resUnpack_reads {r : Nat} {long : List Bool} {R : Residue} (h : ResidueLegal c long R) :
    Reads (c, T) (resUnpack r) (residueFields long R) () ({ c with residue := putAt c.residue r R }, T) := by
  unfold resUnpack residueFields
  simp only [List.cons_append, List.nil_append]
  refine Reads.read_bind fun _ => Reads.read_bind fun _ => Reads.read_bind fun _ => Reads.read_bind fun _ =>
    Reads.read_bind fun _ => Reads.step_bind (checkBook_reads h.groupbook) (Reads.get_bind fun s hs => ?_)
  obtain ⟨b, hb, hp⟩ := h.phrase
  refine Reads.need_bind (by rw [hs.1]; exact hb) ?_
  rw [Nat.sub_add_cancel h.partitions, Nat.sub_add_cancel h.grouping]
  refine Reads.check_bind (decide_eq_true ((cappedPow_le h.partitions).2 hp)) ?_
  have hz : (R.secondstages.zip long).map Prod.fst = R.secondstages :=
    List.map_fst_zip (by simp [h.count, h.longCount])
  have hc : Reads (c, T) (collect (List.range R.partitions) fun _ => readCascade)
      ((R.secondstages.zip long).flatMap cascadeFields) R.secondstages (c, T) := by
    have key : ∀ (l : List Nat) (xs : List (Nat × Bool)), l.length = xs.length → (∀ x ∈ xs, x.2 = false → x.1 < 8) →
        Reads (c, T) (collect l fun _ => readCascade) (xs.flatMap cascadeFields) (xs.map Prod.fst) (c, T) := by
      intro l
      induction l with
      | nil => intro xs hl _; cases xs <;> simp_all; exact Reads.pure []
      | cons i l ih =>
        intro xs hl hx
        cases xs with
        | nil => simp at hl
        | cons x xs =>
          refine Reads.bind (readCascade_reads (hx x (by simp))) ?_
          exact Reads.pure_bind (ih xs (by simpa using hl) fun y hy => hx y (by simp [hy]))
    have := key (List.range R.partitions) (R.secondstages.zip long) (by simp [h.count, h.longCount]) h.short
    rwa [hz] at this
  refine Reads.bind hc ?_
  have hb := Reads.collect_fields (k := (c, T)) (g := fun b => (8, b))
    (List.range (R.secondstages.map icount).sum) R.booklist (by simp [h.booklist])
    (body := fun _ => do let b ← headerRead 8; checkValueBook b; pure b)
    fun _ _ b hb => readValueBook_reads (h.books b hb)
  have := Reads.bind hb (f := fun booklist => modify fun s => s.setCfg
    { s.cfg with residue := putAt s.cfg.residue r (Residue.mk R.rangeBegin R.rangeEnd R.grouping R.partitions R.groupbook
        R.secondstages booklist) })
    (Reads.load fun s hs => by rw [hs.1])
  simpa using this

/-! ## Mappings and modes -/

theorem readCount_reads {flag : Bool} {n d v : Nat} (h1 : flag = true → 1 ≤ v) (h0 : flag = false → v = d) :
    Reads k (readCount n d) (countFields flag n v) v k := by
  unfold readCount countFields
  cases flag
  · refine Reads.read_bind fun _ => ?_
    rw [h0 rfl]
    exact Reads.pure d
  · refine Reads.read_bind fun _ => ?_
    have := Reads.pure_bind (f := (· + 1)) (Reads.headerRead (k := k) n (v - 1))
    rwa [Nat.sub_add_cancel (h1 rfl)] at this

theorem readCoupling_reads {channels : Nat} {x : Nat × Nat} (h : x.1 < channels ∧ x.2 < channels ∧ x.1 ≠ x.2) :
    Reads k (readCoupling channels) [(ilog (channels - 1), x.1), (ilog (channels - 1), x.2)] x k :=
  Reads.read_bind fun _ => Reads.read_bind fun _ => Reads.check_bind (by simp [h]) (Reads.pure x)

theorem readMuxList_reads {submaps channels : Nat} {l : List Nat} (hl : l.length = channels)
    (hx : ∀ s ∈ l, s < submaps) (h1 : submaps = 1 → l = List.replicate channels 0) (hs : 1 ≤ submaps) :
    Reads k (readMuxList submaps channels) (if 1 < submaps then l.map fun s => (4, s) else []) l k := by
  unfold readMuxList
  split
  · exact Reads.collect_fields (g := fun s => (4, s)) _ _ (by simp [hl]) fun _ _ s h =>
      Reads.read_bind fun _ => Reads.check_bind (by simpa using hx s h) (Reads.pure s)
  · rw [h1 (by omega)]
    exact Reads.pure _

theorem readSubmap_reads {nt nf nr : Nat} (ht : c.times = some nt) (hf : c.floors = some nf) (hr : c.residues = some nr)
    {x : Nat × Nat × Nat} (h : x.1 < nt ∧ x.2.1 < nf ∧ x.2.2 < nr) :
    Reads (c, T) readSubmap [(8, x.1), (8, x.2.1), (8, x.2.2)] x (c, T) := by
  refine Reads.get_bind fun s hs => Reads.need_bind (by rw [hs.1]; exact ht) ?_
  refine Reads.get_bind fun s hs => Reads.need_bind (by rw [hs.1]; exact hf) ?_
  refine Reads.get_bind fun s hs => Reads.need_bind (by rw [hs.1]; exact hr) ?_
  exact Reads.read_bind fun _ => Reads.check_bind (by simp [h]) <| Reads.read_bind fun _ =>
    Reads.check_bind (by simp [h]) <| Reads.read_bind fun _ => Reads.check_bind (by simp [h]) (Reads.pure x)

theorem map0Unpack_reads {m channels : Nat} {submapsFlag couplingFlag : Bool} {M : Mapping}
    (h : MappingLegal c channels submapsFlag couplingFlag M) :
    Reads (c, T) (map0Unpack m) (mappingFields channels submapsFlag couplingFlag M) ()
      ({ c with map := putAt c.map m M }, T) := by
  unfold map0Unpack mappingFields
  simp only [List.append_assoc, List.cons_append, List.nil_append]
  refine Reads.get_bind fun s hs => Reads.need_bind (by rw [hs.1]; exact h.channelCount) ?_
  refine Reads.bind (readCount_reads (fun _ => h.submaps) h.submapsOne) ?_
  refine Reads.bind (readCount_reads (fun e => List.length_pos_iff.2 (h.couplingSome e))
    fun e => by simp [h.couplingNone e]) ?_
  refine Reads.bind (Reads.collect (g := fun x => [(ilog (channels - 1), x.1), (ilog (channels - 1), x.2)])
    (List.range M.coupling.length) M.coupling (by simp) fun _ _ x hx => readCoupling_reads (h.coupling x hx)) ?_
  refine Reads.read_bind fun _ => Reads.check_bind rfl ?_
  refine Reads.bind (readMuxList_reads h.muxCount h.mux h.muxOne h.submaps) ?_
  obtain ⟨nt, ht, hts⟩ := h.times
  obtain ⟨nf, hf, hfs⟩ := h.floors
  obtain ⟨nr, hr, hrs⟩ := h.residues
  have h1 : M.submapNumbers.map (fun x => x.1) = M.timesubmap :=
    List.map_fst_zip (by simp [h.timeCount, h.floorCount, h.residueCount])
  have h2' : M.submapNumbers.map Prod.snd = M.floorsubmap.zip M.residuesubmap :=
    List.map_snd_zip (by simp [h.timeCount, h.floorCount, h.residueCount])
  have h2 : M.submapNumbers.map (fun x => x.2.1) = M.floorsubmap := by
    have := congrArg (List.map Prod.fst) h2'
    rw [List.map_map, List.map_fst_zip (by simp [h.floorCount, h.residueCount])] at this
    exact this
  have h3 : M.submapNumbers.map (fun x => x.2.2) = M.residuesubmap := by
    have := congrArg (List.map Prod.snd) h2'
    rw [List.map_map, List.map_snd_zip (by simp [h.floorCount, h.residueCount])] at this
    exact this
  have hs := Reads.collect (k := (c, T)) (g := fun x : Nat × Nat × Nat => [(8, x.1), (8, x.2.1), (8, x.2.2)])
    (List.range M.submaps) M.submapNumbers
    (by simp [Mapping.submapNumbers, h.timeCount, h.floorCount, h.residueCount])
    (body := fun _ => readSubmap) fun _ _ x hx =>
      readSubmap_reads ht hf hr ⟨hts _ (h1 ▸ List.mem_map_of_mem hx), hfs _ (h2 ▸ List.mem_map_of_mem (f := fun x => x.2.1) hx),
        hrs _ (h3 ▸ List.mem_map_of_mem (f := fun x => x.2.2) hx)⟩
  have := Reads.bind hs (f := fun subs => modify fun s => s.setCfg
    { s.cfg with map := putAt s.cfg.map m (Mapping.mk M.submaps M.coupling M.chmuxlist (subs.map fun x => x.1)
        (subs.map fun x => x.2.1) (subs.map fun x => x.2.2)) })
    (Reads.load (c' := { c with map := putAt c.map m M }) fun s hs => by rw [hs.1, h1, h2, h3])
  simpa using this

theorem hdrTime_reads (t : Nat) :
    Reads (c, T) (hdrTime t) [(16, 0)] () ({ c with timeType := putAt c.timeType t 0 }, T) :=
  Reads.read_bind fun _ => Reads.step_bind (loadCfg_reads _) (Reads.check rfl)

theorem hdrMode_reads {i : Nat} {r : Mode} (h : ModeLegal c r) :
    Reads (c, T) (hdrMode i) (modeFields r) () ({ c with mode := putAt c.mode i r }, T) := by
  unfold hdrMode modeFields
  refine Reads.read_bind fun _ => Reads.read_bind fun _ => Reads.check_bind rfl ?_
  refine Reads.read_bind fun _ => Reads.check_bind rfl (Reads.read_bind fun _ => ?_)
  obtain ⟨n, hn, hm⟩ := h.mapping
  refine Reads.get_bind fun s hs => Reads.need_bind (by rw [hs.1]; exact hn) (Reads.check_bind (by simpa using hm) ?_)
  refine Reads.load fun s hs => ?_
  obtain ⟨flag, wt, tt, mp⟩ := r
  obtain rfl : wt = 0 := h.windowtype
  obtain rfl : tt = 0 := h.transformtype
  rw [hs.1, bitValue_beq]

end Sys2Proof.Machine
end

