-- ==== Sys2Proof/Laws/Setup.lean ====
section
/-! SUPPORT. The setup header as a whole: its records, one table after the other. -/

namespace Sys2Proof.Machine

/-! ## Legality depends on little of the configuration -/

theorem Cfg.hasValueBook_congr {c c' : Cfg} {b : Nat} (h : c.hasValueBook b) (hn : c'.books = c.books)
    (hb : c'.book = c.book) : c'.hasValueBook b := by
  obtain ⟨⟨n, h1, h2⟩, r, h3⟩ := h
  exact ⟨⟨n, hn.trans h1, h2⟩, r, hb ▸ h3⟩

theorem Cfg.hasBook_congr {c c' : Cfg} {b : Nat} (h : c.hasBook b) (hn : c'.books = c.books) : c'.hasBook b :=
  h.imp fun _ h => ⟨hn.trans h.1, h.2⟩

theorem Floor0Legal.congr {c c' : Cfg} {F : Floor0} (h : Floor0Legal c F) (hn : c'.books = c.books)
    (hb : c'.book = c.book) : Floor0Legal c' F :=
  ⟨h.order, h.rate, h.barkmap, h.ampbits, h.numbooks, h.count, fun b hm => (h.books b hm).imp
    (fun h => Cfg.hasBook_congr h hn) fun h => by rw [hb]; exact h⟩

theorem Floor1Legal.congr {c c' : Cfg} {F : Floor1} (h : Floor1Legal c F) (hn : c'.books = c.books) : Floor1Legal c' F :=
  ⟨h.partitions, h.classes, fun k hk => have l := h.classLegal k hk
    ⟨l.dim, l.book, fun h0 => (l.bookSome h0).imp fun _ h => ⟨h.1, Cfg.hasBook_congr h.2 hn⟩, l.subCount,
      fun b hb => Cfg.hasBook_congr (l.subbook b hb) hn⟩, h.mult, h.posts, h.few, h.first, h.distinct⟩

theorem ResidueLegal.congr {c c' : Cfg} {long : List Bool} {R : Residue} (h : ResidueLegal c long R)
    (hn : c'.books = c.books) (hb : c'.book = c.book) : ResidueLegal c' long R :=
  ⟨h.grouping, h.partitions, Cfg.hasBook_congr h.groupbook hn, by rw [hb]; exact h.phrase, h.count, h.longCount, h.masks,
    h.short, h.booklist, fun b hm => Cfg.hasValueBook_congr (h.books b hm) hn hb⟩

theorem MappingLegal.congr {c c' : Cfg} {n : Nat} {p q : Bool} {M : Mapping} (h : MappingLegal c n p q M)
    (hc : c'.channels = c.channels) (ht : c'.times = c.times) (hf : c'.floors = c.floors)
    (hr : c'.residues = c.residues) : MappingLegal c' n p q M :=
  ⟨hc.trans h.channelCount, h.submaps, h.submapsOne, h.couplingNone, h.couplingSome, h.coupling, h.muxCount, h.mux,
    h.muxOne, h.timeCount, h.floorCount, h.residueCount, by rw [ht]; exact h.times, by rw [hf]; exact h.floors,
    by rw [hr]; exact h.residues⟩

/-! ## Typed records -/

variable {c : Cfg} {T : Tab} {k : Loaded}

theorem readFloor_reads {f : Nat} {F : Floor} (h : FloorLegal c F) :
    Reads (c, T) (readFloor f) (floorFields F) ()
      ({ c with floorType := putAt c.floorType f F.typeNumber, floor := putAt c.floor f F }, T) := by
  cases F with
  | type0 F =>
    refine Reads.read_bind fun _ => Reads.step_bind (loadCfg_reads _) ?_
    rw [if_pos rfl]
    exact f0Unpack_reads (h.congr rfl rfl)
  | type1 F =>
    refine Reads.read_bind fun _ => Reads.step_bind (loadCfg_reads _) ?_
    rw [if_neg (by simp), if_pos rfl]
    exact f1Unpack_reads (h.congr rfl)

theorem readResidue_reads {r t : Nat} {long : List Bool} {R : Residue} (ht : t ≤ 2) (h : ResidueLegal c long R) :
    Reads (c, T) (readResidue r) ((16, t) :: residueFields long R) ()
      ({ c with residueType := putAt c.residueType r t, residue := putAt c.residue r R }, T) :=
  Reads.read_bind fun _ => Reads.step_bind (loadCfg_reads _) <|
    Reads.check_bind (by simpa using ht) (resUnpack_reads (h.congr rfl rfl))

theorem readMapping_reads {m n : Nat} {p q : Bool} {M : Mapping} (h : MappingLegal c n p q M) :
    Reads (c, T) (readMapping m) ((16, 0) :: mappingFields n p q M) ()
      ({ c with mapType := putAt c.mapType m 0, map := putAt c.map m M }, T) :=
  Reads.read_bind fun _ => Reads.step_bind (loadCfg_reads _) <|
    Reads.check_bind rfl (map0Unpack_reads (h.congr rfl rfl rfl rfl))

/-! ## The header -/

/-- A loop that loads one item after the other, started from what is loaded. -/
theorem Reads.forEach' {ι : Type} {body : Nat → Op Unit} {g : ι → List (Nat × Nat)} {k' : Loaded} (at' : List ι → Loaded)
    (items : List ι) (h0 : at' [] = k) (h1 : at' items = k')
    (h : ∀ done x rest, items = done ++ x :: rest →
      Reads (at' done) (body done.length) (g x) () (at' (done ++ [x]))) :
    Reads k (Machine.forEach (List.range items.length) body) (items.flatMap g) () k' := by
  subst h0 h1
  exact Reads.forEach at' items h

theorem readBooks_reads (l : List (LengthLayout × Book)) (h0 : c.book = []) (h1 : T.bookWords = [])
    (hl : ∀ x ∈ l, BookLegal x.1 x.2 ∧ makeWords x.2.lengthlist ≠ none) :
    Reads (c, T) (Machine.forEach (List.range l.length) hdrBook) (l.flatMap fun x => bookFields x.1 x.2) ()
      ({ c with book := l.map fun x => some x.2 }, { T with bookWords := l.map fun x => makeWords x.2.lengthlist }) := by
  refine Reads.forEach' (fun done => ({ c with book := done.map fun x => some x.2 },
    { T with bookWords := done.map fun x => makeWords x.2.lengthlist })) l (by simp [← h0, ← h1]) rfl
    fun done x rest hx => ?_
  obtain ⟨hl, hw⟩ := hl x (by simp [hx])
  obtain ⟨ws, hws⟩ := Option.ne_none_iff_exists'.1 hw
  have := hdrBook_reads (c := { c with book := done.map fun x => some x.2 })
    (T := { T with bookWords := done.map fun x => makeWords x.2.lengthlist }) done.length hl hws
  simpa only [putAt_map (fun x : LengthLayout × Book => some x.2) done (x := x) rfl,
    putAt_map (fun x : LengthLayout × Book => makeWords x.2.lengthlist) done hws] using this

theorem readTimes_reads (n : Nat) (h : c.timeType = []) :
    Reads (c, T) (Machine.forEach (List.range n) hdrTime) (List.replicate n (16, 0)) ()
      ({ c with timeType := List.replicate n (some 0) }, T) := by
  have := Reads.forEach' (k := (c, T)) (g := fun _ => [(16, 0)]) (body := hdrTime)
    (fun done => ({ c with timeType := done.map fun _ => some 0 }, T)) (List.replicate n ()) (by simp [← h]) rfl
    fun done x rest _ => by
      have := hdrTime_reads (c := { c with timeType := done.map fun _ => some 0 }) (T := T) done.length
      simpa only [putAt_map (fun _ : Unit => some 0) done (x := x) rfl] using this
  have e : ∀ n, (List.replicate n ()).flatMap (fun _ => [((16, 0) : Nat × Nat)]) = List.replicate n (16, 0) := by
    intro n
    induction n with
    | zero => rfl
    | succ n ih => simp [List.replicate_succ, ih]
  rw [e] at this
  simpa using this

theorem readFloors_reads (l : List Floor) (h0 : c.floorType = []) (h1 : c.floor = []) (hl : ∀ x ∈ l, FloorLegal c x) :
    Reads (c, T) (Machine.forEach (List.range l.length) readFloor) (l.flatMap floorFields) ()
      ({ c with floorType := l.map fun x => some x.typeNumber, floor := l.map some }, T) := by
  refine Reads.forEach' (fun done => ({ c with
    floorType := done.map fun x => some x.typeNumber, floor := done.map some }, T)) l (by simp [← h0, ← h1]) rfl
    fun done x rest hx => ?_
  have hl : FloorLegal { c with floorType := done.map fun x => some x.typeNumber, floor := done.map some } x := by
    have := hl x (by simp [hx])
    cases x with
    | type0 F => exact Floor0Legal.congr this rfl rfl
    | type1 F => exact Floor1Legal.congr this rfl
  have := readFloor_reads (T := T) (f := done.length) hl
  simpa only [putAt_map (fun x : Floor => some x.typeNumber) done (x := x) rfl,
    putAt_map (fun x : Floor => some x) done (x := x) rfl] using this

theorem readResidues_reads (l : List (Nat × List Bool × Residue)) (h0 : c.residueType = []) (h1 : c.residue = [])
    (hl : ∀ x ∈ l, x.1 ≤ 2 ∧ ResidueLegal c x.2.1 x.2.2) :
    Reads (c, T) (Machine.forEach (List.range l.length) readResidue)
      (l.flatMap fun x => (16, x.1) :: residueFields x.2.1 x.2.2) ()
      ({ c with residueType := l.map fun x => some x.1, residue := l.map fun x => some x.2.2 }, T) := by
  refine Reads.forEach' (fun done => ({ c with
    residueType := done.map fun x => some x.1, residue := done.map fun x => some x.2.2 }, T)) l (by simp [← h0, ← h1]) rfl
    fun done x rest hx => ?_
  obtain ⟨ht, h2⟩ := hl x (by simp [hx])
  have hl : ResidueLegal { c with
    residueType := done.map fun x => some x.1, residue := done.map fun x => some x.2.2 } x.2.1 x.2.2 := h2.congr rfl rfl
  have := readResidue_reads (T := T) (r := done.length) ht hl
  simpa only [putAt_map (fun x : Nat × List Bool × Residue => some x.1) done (x := x) rfl,
    putAt_map (fun x : Nat × List Bool × Residue => some x.2.2) done (x := x) rfl] using this

theorem readMappings_reads {n : Nat} (l : List (Bool × Bool × Mapping)) (h0 : c.mapType = []) (h1 : c.map = [])
    (hl : ∀ x ∈ l, MappingLegal c n x.1 x.2.1 x.2.2) :
    Reads (c, T) (Machine.forEach (List.range l.length) readMapping)
      (l.flatMap fun x => (16, 0) :: mappingFields n x.1 x.2.1 x.2.2) ()
      ({ c with mapType := l.map fun _ => some 0, map := l.map fun x => some x.2.2 }, T) := by
  refine Reads.forEach' (fun done => ({ c with
    mapType := done.map fun _ => some 0, map := done.map fun x => some x.2.2 }, T)) l (by simp [← h0, ← h1]) rfl
    fun done x rest hx => ?_
  have hl : MappingLegal { c with
    mapType := done.map fun _ => some 0, map := done.map fun x => some x.2.2 } n x.1 x.2.1 x.2.2 :=
    (hl x (by simp [hx])).congr rfl rfl rfl rfl
  have := readMapping_reads (T := T) (m := done.length) hl
  simpa only [putAt_map (fun _ : Bool × Bool × Mapping => some 0) done (x := x) rfl,
    putAt_map (fun x : Bool × Bool × Mapping => some x.2.2) done (x := x) rfl] using this

theorem readModes_reads (l : List Mode) (h0 : c.mode = []) (hl : ∀ x ∈ l, ModeLegal c x) :
    Reads (c, T) (Machine.forEach (List.range l.length) hdrMode) (l.flatMap modeFields) ()
      ({ c with mode := l.map some }, T) := by
  refine Reads.forEach' (fun done => ({ c with mode := done.map some }, T)) l (by simp [← h0]) rfl
    fun done x rest hx => ?_
  have h2 := hl x (by simp [hx])
  have hl : ModeLegal { c with mode := done.map some } x := ⟨h2.windowtype, h2.transformtype, h2.mapping⟩
  have := hdrMode_reads (T := T) (i := done.length) hl
  simpa only [putAt_map (fun x : Mode => some x) done (x := x) rfl] using this

/-! The configuration after each table of the header. -/

/-- After the codebooks. -/
def SetupLayout.load1 (S : SetupLayout) (c : Cfg) : Cfg :=
  { c with books := some S.books.length, book := S.books.map fun x => some x.2 }

/-- After the time records. -/
def SetupLayout.load2 (S : SetupLayout) (c : Cfg) : Cfg :=
  { S.load1 c with times := some S.times, timeType := List.replicate S.times (some 0) }

/-- After the floors. -/
def SetupLayout.load3 (S : SetupLayout) (c : Cfg) : Cfg :=
  { S.load2 c with
    floors := some S.floors.length, floorType := S.floors.map fun x => some x.typeNumber, floor := S.floors.map some }

/-- After the residues. -/
def SetupLayout.load4 (S : SetupLayout) (c : Cfg) : Cfg :=
  { S.load3 c with
    residues := some S.residues.length, residueType := S.residues.map fun x => some x.1
    residue := S.residues.map fun x => some x.2.2 }

/-- After the mappings. -/
def SetupLayout.load5 (S : SetupLayout) (c : Cfg) : Cfg :=
  { S.load4 c with
    maps := some S.maps.length, mapType := S.maps.map fun _ => some 0, map := S.maps.map fun x => some x.2.2 }

theorem SetupLayout.load_eq (S : SetupLayout) (c : Cfg) :
    { S.load5 c with modes := some S.modes.length, mode := S.modes.map some } = S.load c := rfl

/-- A whole legal setup header. -/
theorem hdrSetup_reads {channels : Nat} {S : SetupLayout} (hi : c.identOnly)
    (hT : T.bookWords = []) (h : SetupLegal S c channels) :
    Reads (c, T) hdrSetup (S.fields channels) ()
      (S.load c, { T with bookWords := S.books.map fun x => makeWords x.2.lengthlist }) := by
  obtain ⟨i1, i2, i3, i4, i5, i6, i7, i8, i9⟩ := hi
  unfold hdrSetup SetupLayout.fields
  simp only [List.cons_append, List.nil_append, List.append_assoc]
  refine Reads.read_bind fun _ => Reads.step_bind (loadCfg_reads _) ?_
  rw [Nat.sub_add_cancel h.books]
  refine Reads.bind (k' := (S.load1 c, _)) (readBooks_reads S.books i1 hT h.book) ?_
  refine Reads.read_bind fun _ => Reads.step_bind (loadCfg_reads _) ?_
  rw [Nat.sub_add_cancel h.times]
  refine Reads.bind (k' := (S.load2 c, _)) (readTimes_reads S.times i2) ?_
  refine Reads.read_bind fun _ => Reads.step_bind (loadCfg_reads _) ?_
  rw [Nat.sub_add_cancel h.floors]
  refine Reads.bind (k' := (S.load3 c, _)) (readFloors_reads S.floors i3 i4 fun x hx => ?_) ?_
  · cases x with
    | type0 F => exact Floor0Legal.congr (h.floor _ hx) rfl rfl
    | type1 F => exact Floor1Legal.congr (h.floor _ hx) rfl
  refine Reads.read_bind fun _ => Reads.step_bind (loadCfg_reads _) ?_
  rw [Nat.sub_add_cancel h.residues]
  refine Reads.bind (k' := (S.load4 c, _)) (readResidues_reads S.residues i5 i6 fun x hx => ?_) ?_
  · exact ⟨(h.residue x hx).1, (h.residue x hx).2.congr rfl rfl⟩
  refine Reads.read_bind fun _ => Reads.step_bind (loadCfg_reads _) ?_
  rw [Nat.sub_add_cancel h.maps]
  refine Reads.bind (k' := (S.load5 c, _)) (readMappings_reads S.maps i7 i8 fun x hx => ?_) ?_
  · exact (h.map x hx).congr rfl rfl rfl rfl
  refine Reads.read_bind fun _ => Reads.step_bind (loadCfg_reads _) ?_
  rw [Nat.sub_add_cancel h.modes]
  exact Reads.bind (k' := (S.load c, _)) (readModes_reads S.modes i9 fun x hx =>
    have h2 := h.mode x hx; ⟨h2.windowtype, h2.transformtype, h2.mapping⟩) readFraming_reads

end Sys2Proof.Machine
end

