-- ==== Sys2Proof/Laws/Valid.lean ====
section
/-! SUPPORT. What an accepted setup header is known to have loaded, whatever was sent. `Parses k op Q` says that `op`, with
`k` loaded, either returns a value and leaves loaded what `Q` says, or ends `BadHeader`. -/

namespace Sys2Proof.Machine

/-! ## The calculus -/

/-- How a header can end early. -/
def HeaderEnds (e : Failure) : Prop := ∃ h, e = .badHeader h

/-- The outcomes of a header's operation. -/
def Parses {α : Type} (k : Loaded) (op : Op α) (Q : α → Loaded → Prop) : Prop :=
  ∀ s : State, s.has k → Sat op s (fun v t => ∃ k', t.has k' ∧ Q v k') (fun e _ => HeaderEnds e)

variable {α β : Type} {k : Loaded} {Q : α → Loaded → Prop}

theorem Parses.pure {v : α} (h : Q v k) : Parses k (Pure.pure v : Op α) Q := fun _ hs => ⟨k, hs, h⟩

theorem Parses.mono {Q' : α → Loaded → Prop} {op : Op α} (h : Parses k op Q) (hq : ∀ v k', Q v k' → Q' v k') :
    Parses k op Q' := fun s hs =>
  (h s hs).mono (fun _ _ h => h.imp fun _ h => ⟨h.1, hq _ _ h.2⟩) fun _ _ h => h

theorem Parses.bind {op : Op α} {f : α → Op β} {R : β → Loaded → Prop} (h : Parses k op Q)
    (hf : ∀ v k', Q v k' → Parses k' (f v) R) : Parses k (op >>= f) R := fun s hs =>
  Sat.bind (h s hs) fun _ t ⟨_, ht, hq⟩ => hf _ _ hq t ht

theorem Parses.raise {h : HeaderCause} : Parses k (Machine.raise (.badHeader h) : Op α) Q := fun _ _ => ⟨h, rfl⟩

theorem Parses.headerRead (n : Nat) : Parses k (Machine.headerRead n) fun v k' => k' = k ∧ v < 2 ^ n := fun _ hs =>
  sat_headerRead.2 ⟨fun _ => ⟨k, hs, rfl, payloadField_lt _ _ _ _⟩, fun _ => ⟨_, rfl⟩⟩

theorem Parses.read_bind {n : Nat} {f : Nat → Op β} {R : β → Loaded → Prop} (hf : ∀ v, v < 2 ^ n → Parses k (f v) R) :
    Parses k (Machine.headerRead n >>= f) R :=
  Parses.bind (Parses.headerRead n) fun v _ h => by obtain ⟨rfl, hv⟩ := h; exact hf v hv

theorem Parses.check_bind {p : Bool} {e : HeaderCause} {f : Unit → Op β} {R : β → Loaded → Prop}
    (hf : p = true → Parses k (f ()) R) : Parses k (headerCheck p e >>= f) R := by
  cases p
  · exact Parses.bind (Q := fun _ _ => False) Parses.raise fun _ _ h => h.elim
  · exact hf rfl

theorem Parses.check {p : Bool} {e : HeaderCause} : Parses k (headerCheck p e) fun _ k' => k' = k ∧ p = true := by
  cases p
  · exact Parses.raise
  · exact Parses.pure ⟨rfl, rfl⟩

theorem Parses.get_bind {f : State → Op β} {R : β → Loaded → Prop} (hf : ∀ s : State, s.has k → Parses k (f s) R) :
    Parses k ((MonadStateOf.get : Op State) >>= f) R := fun s hs => hf s hs s hs

theorem Parses.need_bind {o : Option α} {v : α} {f : α → Op β} {R : β → Loaded → Prop} (ho : o = some v)
    (hf : Parses k (f v) R) : Parses k (need o >>= f) R := by subst ho; exact hf

theorem Parses.load {f : State → Cfg} {c : Cfg} {T : Tab} {R : Unit → Loaded → Prop}
    (h : ∀ s : State, s.has (c, T) → R () (f s, T)) : Parses (c, T) (modify fun s => s.setCfg (f s) : Op Unit) R :=
  fun s hs => ⟨(f s, T), ⟨rfl, hs.2⟩, h s hs⟩

theorem Parses.tabulate {f : State → Tab} {c : Cfg} {T : Tab} {R : Unit → Loaded → Prop}
    (h : ∀ s : State, s.has (c, T) → R () (c, f s)) : Parses (c, T) (modify fun s => s.setTab (f s) : Op Unit) R :=
  fun s hs => ⟨(c, f s), ⟨hs.1, rfl⟩, h s hs⟩

theorem Parses.collect {body : β → Op α} {P : α → Prop} (l : List β)
    (h : ∀ y ∈ l, Parses k (body y) fun v k' => k' = k ∧ P v) :
    Parses k (Machine.collect l body) fun vs k' => k' = k ∧ vs.length = l.length ∧ ∀ v ∈ vs, P v := by
  induction l with
  | nil => exact Parses.pure ⟨rfl, rfl, by simp⟩
  | cons y l ih =>
    refine Parses.bind (h y (by simp)) fun v k' hv => ?_
    obtain ⟨e, hv⟩ := hv
    subst e
    refine Parses.bind (ih fun z hz => h z (by simp [hz])) fun vs k' hvs => ?_
    obtain ⟨e, hl, hvs⟩ := hvs
    subst e
    exact Parses.pure ⟨rfl, by simp [hl], by simpa using ⟨hv, hvs⟩⟩

/-- A loop that loads one item after the other: `I i` holds of what is loaded before item `i`. -/
theorem Parses.forEach {body : Nat → Op Unit} {I : Nat → Loaded → Prop} (n : Nat) (h0 : I 0 k)
    (h : ∀ i < n, ∀ k, I i k → Parses k (body i) fun _ k' => I (i + 1) k') :
    Parses k (Machine.forEach (List.range n) body) fun _ k' => I n k' := by
  have key : ∀ (m i : Nat) (k : Loaded), i + m = n → I i k →
      Parses k (Machine.forEach (List.range' i m) body) fun _ k' => I n k' := by
    intro m
    induction m with
    | zero => intro i k hi hk; exact Parses.pure (by rwa [show n = i by omega])
    | succ m ih =>
      intro i k hi hk
      rw [List.range'_succ]
      exact Parses.bind (h i (by omega) k hk) fun _ k' hk' => ih (i + 1) k' (by omega) hk'
  have := key n 0 k (by omega) h0
  rwa [← List.range_eq_range'] at this

/-! ## What is known of each record -/

/-- Book `b` is loaded, with codewords, and with quantised values if it has a value table. -/
def BookDone (c : Cfg) (T : Tab) (b : Nat) : Prop :=
  HasWords T b ∧ ∃ r, fieldAt c.book b = some r ∧ (r.maptype ≠ 0 → r.quant ≠ none)

/-- Floor `f` is loaded, with books in range. -/
def FloorDone (c : Cfg) (f : Nat) : Prop :=
  (fieldAt c.floorType f = some 0 ∧ ∃ F, fieldAt c.floor f = some (.type0 F) ∧ F.books.length = F.numbooks ∧
    (∀ b ∈ F.books, c.hasValueBook b) ∧ F.order ≤ 255) ∨
  (fieldAt c.floorType f = some 1 ∧ ∃ F, fieldAt c.floor f = some (.type1 F) ∧ Floor1InRange c F)

/-- The book list of a residue has a book for every stage of every class. -/
def ResidueBooks (c : Cfg) (R : Residue) : Prop :=
  c.hasBook R.groupbook ∧ (∃ r, fieldAt c.book R.groupbook = some r) ∧
  R.booklist.length = (R.secondstages.map icount).sum ∧ (∀ mask ∈ R.secondstages, mask < 256) ∧
  ∀ b ∈ R.booklist, c.hasValueBook b

/-- Residue `r` is loaded, with books in range. -/
def ResidueDone (c : Cfg) (r : Nat) : Prop :=
  (∃ t, fieldAt c.residueType r = some t ∧ t ≤ 2) ∧ ∃ R, fieldAt c.residue r = some R ∧ ResidueBooks c R

/-- Everything a setup header loads is loaded and refers to what exists. -/
structure Cfg.Valid (c : Cfg) (T : Tab) : Prop where
  books : ∃ n, c.books = some n ∧ ∀ b < n, BookDone c T b
  floors : ∃ n, c.floors = some n ∧ 1 ≤ n ∧ ∀ f < n, FloorDone c f
  residues : ∃ n, c.residues = some n ∧ 1 ≤ n ∧ ∀ r < n, ResidueDone c r
  maps : ∃ n, c.maps = some n ∧ ∀ m < n, ∃ M, fieldAt c.map m = some M ∧
    MappingUsable (c.channels.getD 0) (c.floors.getD 0) (c.residues.getD 0) M ∧
    MappingInRange (c.channels.getD 0) (c.times.getD 0) (c.floors.getD 0) (c.residues.getD 0) M
  modes : ∃ n, c.modes = some n ∧ 1 ≤ n ∧ n ≤ 64 ∧ ∀ i < n, ∃ r, fieldAt c.mode i = some r ∧ r.mapping < c.maps.getD 0

/-! ## The records -/

variable {c : Cfg} {T : Tab}

theorem loadCfg_parses {f : Cfg → Cfg} : Parses (c, T) (loadCfg f) fun _ k' => k' = (f c, T) :=
  Parses.load fun s hs => by rw [hs.1]

theorem loadCfg_bind {f : Cfg → Cfg} {g : Unit → Op β} {R : β → Loaded → Prop} (h : Parses (f c, T) (g ()) R) :
    Parses (c, T) (loadCfg f >>= g) R := Parses.bind loadCfg_parses fun _ _ e => by subst e; exact h

theorem checkBook_parses {n b : Nat} (hn : c.books = some n) :
    Parses (c, T) (checkBook b) fun _ k' => k' = (c, T) ∧ c.hasBook b :=
  Parses.get_bind fun s hs => Parses.need_bind (by rw [hs.1]; exact hn) <|
    Parses.check.mono fun _ _ h => ⟨h.1, n, hn, by simpa using h.2⟩

theorem checkValueBook_parses {n b : Nat} (hn : c.books = some n) (hb : ∀ b < n, BookDone c T b) :
    Parses (c, T) (checkValueBook b) fun _ k' => k' = (c, T) ∧ c.hasValueBook b := by
  refine Parses.bind (checkBook_parses hn) fun _ _ h => ?_
  obtain ⟨rfl, m, hm, hlt⟩ := h
  rw [hn] at hm
  cases hm
  obtain ⟨-, r, hr, -⟩ := hb b hlt
  exact Parses.get_bind fun s hs => Parses.need_bind (by rw [hs.1]; exact hr) <|
    Parses.check.mono fun _ _ h => ⟨h.1, ⟨n, hn, hlt⟩, r, hr, by simpa using h.2⟩

theorem readValueBook_parses {n : Nat} (hn : c.books = some n) (hb : ∀ b < n, BookDone c T b) :
    Parses (c, T) (do let b ← headerRead 8; checkValueBook b; pure b) fun b k' => k' = (c, T) ∧ c.hasValueBook b :=
  Parses.read_bind fun _ _ => Parses.bind (checkValueBook_parses hn hb) fun _ _ h => by
    obtain ⟨rfl, h⟩ := h; exact Parses.pure ⟨rfl, h⟩

theorem f0Unpack_parses {n f : Nat} (hn : c.books = some n) (hb : ∀ b < n, BookDone c T b) :
    Parses (c, T) (f0Unpack f) fun _ k' => ∃ F : Floor0, k' = ({ c with floor := putAt c.floor f (.type0 F) }, T) ∧
      F.books.length = F.numbooks ∧ (∀ b ∈ F.books, c.hasValueBook b) ∧ F.order ≤ 255 := by
  unfold f0Unpack
  refine Parses.read_bind fun _ ho => Parses.check_bind fun _ => Parses.read_bind fun _ _ => Parses.check_bind fun _ => ?_
  refine Parses.read_bind fun _ _ => Parses.check_bind fun _ => Parses.read_bind fun _ _ => Parses.check_bind fun _ => ?_
  refine Parses.read_bind fun _ _ => Parses.read_bind fun _ _ => ?_
  refine Parses.bind (Parses.collect (P := c.hasValueBook) _ fun _ _ => readValueBook_parses hn hb) fun bs _ h => ?_
  obtain ⟨rfl, hl, hbs⟩ := h
  exact Parses.load fun s hs => ⟨_, by rw [hs.1], by simpa using hl, hbs, Nat.le_of_lt_succ ho⟩

theorem f1ReadClass_parses {n : Nat} (hn : c.books = some n) :
    Parses (c, T) f1ReadClass fun K k' => k' = (c, T) ∧ ClassInRange c K := by
  unfold f1ReadClass
  refine Parses.read_bind fun _ _ => Parses.read_bind fun subs _ => ?_
  have hb : Parses (c, T) (f1ReadClassBook subs) fun o k' => k' = (c, T) ∧ (subs ≠ 0 → ∃ b, o = some b ∧ c.hasBook b) := by
    unfold f1ReadClassBook
    split
    · exact Parses.pure ⟨rfl, fun h => absurd ‹_› h⟩
    · refine Parses.read_bind fun b _ => Parses.bind (checkBook_parses hn) fun _ _ h => ?_
      obtain ⟨rfl, h⟩ := h
      exact Parses.pure ⟨rfl, fun _ => ⟨b, rfl, h⟩⟩
  refine Parses.bind hb fun o _ h => ?_
  obtain ⟨rfl, ho⟩ := h
  refine Parses.bind (Parses.collect (P := fun o => ∀ b, o = some b → c.hasBook b) _ fun _ _ => ?_) fun os _ h => ?_
  · refine Parses.read_bind fun b _ => ?_
    split
    · exact Parses.pure ⟨rfl, by simp⟩
    · refine Parses.bind (checkBook_parses hn) fun _ _ h => ?_
      obtain ⟨rfl, h⟩ := h
      exact Parses.pure ⟨rfl, fun _ e => by cases e; exact h⟩
  · obtain ⟨rfl, -, hos⟩ := h
    exact Parses.pure ⟨rfl, ho, fun b hb => hos _ hb b rfl⟩

theorem classCount_gt : ∀ {l : List Nat} {x a : Nat}, x ∈ l → x < l.foldl (fun n y => max n (y + 1)) a
  | y :: l, x, a, h => by
    have mono : ∀ (l : List Nat) (a : Nat), a ≤ l.foldl (fun n y => max n (y + 1)) a := by
      intro l
      induction l with
      | nil => simp
      | cons z l ih => intro a; exact le_trans (Nat.le_max_left a (z + 1)) (ih _)
    rcases List.mem_cons.1 h with rfl | h
    · exact lt_of_lt_of_le (by omega) (mono l (max a (x + 1)))
    · exact classCount_gt (l := l) (a := max a (y + 1)) h

theorem f1Unpack_parses {n f : Nat} (hn : c.books = some n) :
    Parses (c, T) (f1Unpack f) fun _ k' => ∃ F : Floor1, k' = ({ c with floor := putAt c.floor f (.type1 F) }, T) ∧
      Floor1InRange c F := by
  unfold f1Unpack
  refine Parses.read_bind fun _ _ => ?_
  refine Parses.bind (Parses.collect (P := fun _ => True) _ fun _ _ =>
    (Parses.headerRead 4).mono fun _ _ h => ⟨h.1, trivial⟩) fun pc _ h => ?_
  obtain ⟨rfl, -, -⟩ := h
  refine Parses.bind (Parses.collect (P := ClassInRange c) _ fun _ _ => f1ReadClass_parses hn) fun ks _ h => ?_
  obtain ⟨rfl, hl, hk⟩ := h
  refine Parses.read_bind fun _ _ => Parses.read_bind fun rb _ => ?_
  dsimp only
  refine Parses.bind (Parses.collect (P := fun x => x < 2 ^ rb) _ fun _ _ => Parses.read_bind fun x _ =>
    Parses.check_bind fun hx => Parses.pure ⟨rfl, of_decide_eq_true hx⟩) fun xs _ h => ?_
  obtain ⟨rfl, -, hxs⟩ := h
  refine Parses.check_bind fun _ => Parses.check_bind fun hd => Parses.load fun s hs => ⟨_, by rw [hs.1],
    ⟨of_decide_eq_true hd, rfl, _, rfl, ?_⟩, ?_⟩
  · simpa using fun x hx => (hxs x hx).le
  intro i hi
  have hlt : i < ks.length := by
    rw [hl, List.length_range]
    exact classCount_gt hi
  exact ⟨ks[i], List.getElem?_eq_getElem hlt, hk _ (List.getElem_mem hlt)⟩

theorem resUnpack_parses {n r : Nat} (hn : c.books = some n) (hb : ∀ b < n, BookDone c T b) :
    Parses (c, T) (resUnpack r) fun _ k' => ∃ R : Residue, k' = ({ c with residue := putAt c.residue r R }, T) ∧
      ResidueBooks c R := by
  unfold resUnpack
  refine Parses.read_bind fun _ _ => Parses.read_bind fun _ _ => Parses.read_bind fun _ _ => Parses.read_bind fun _ _ =>
    Parses.read_bind fun g _ => Parses.bind (checkBook_parses hn) fun _ _ h => ?_
  obtain ⟨rfl, m, hm, hlt⟩ := h
  rw [hn] at hm
  cases hm
  obtain ⟨-, p, hp, -⟩ := hb g hlt
  refine Parses.get_bind fun s hs => Parses.need_bind (by rw [hs.1]; exact hp) (Parses.check_bind fun _ => ?_)
  refine Parses.bind (Parses.collect (P := fun x => x < 256) _ fun _ _ => ?_) fun masks _ h => ?_
  · unfold readCascade optionalRead
    refine Parses.read_bind fun low hl => Parses.read_bind fun flag _ => ?_
    refine Parses.bind (Q := fun v k' => k' = (c, T) ∧ v < 32) ?_ fun v _ h => ?_
    · split
      · exact Parses.headerRead 5
      · exact Parses.pure ⟨rfl, by omega⟩
    · obtain ⟨rfl, hv⟩ := h
      exact Parses.pure ⟨rfl, by omega⟩
  obtain ⟨rfl, -, hm⟩ := h
  refine Parses.bind (Parses.collect (P := c.hasValueBook) _ fun _ _ => readValueBook_parses hn hb) fun bs _ h => ?_
  obtain ⟨rfl, hl, hbs⟩ := h
  exact Parses.load fun s hs => ⟨_, by rw [hs.1], ⟨n, hn, hlt⟩, ⟨p, hp⟩, by simpa using hl, hm, hbs⟩

theorem getD_lt {l : List Nat} {n : Nat} (hl : ∀ x ∈ l, x < n) (hn : 0 < n) (i : Nat) : l.getD i 0 < n := by
  rw [List.getD_eq_getElem?_getD]
  rcases h : l[i]? with _ | x
  · exact hn
  · exact hl x (List.mem_of_getElem? h)

theorem map0Unpack_parses {channels times floors residues m : Nat} (hc : c.channels = some channels)
    (ht : c.times = some times) (hf : c.floors = some floors) (hr : c.residues = some residues) (hf1 : 1 ≤ floors)
    (hr1 : 1 ≤ residues) :
    Parses (c, T) (map0Unpack m) fun _ k' => ∃ M : Mapping, k' = ({ c with map := putAt c.map m M }, T) ∧
      MappingUsable channels floors residues M ∧ MappingInRange channels times floors residues M := by
  unfold map0Unpack
  refine Parses.get_bind fun s hs => Parses.need_bind (by rw [hs.1]; exact hc) ?_
  have hcount : ∀ n d, Parses (c, T) (readCount n d) fun _ k' => k' = (c, T) := by
    intro n d
    refine Parses.read_bind fun _ _ => ?_
    split
    · exact Parses.read_bind fun _ _ => Parses.pure rfl
    · exact Parses.pure rfl
  have hone : Parses (c, T) (readCount 4 1) fun n k' => k' = (c, T) ∧ 1 ≤ n := by
    refine Parses.read_bind fun _ _ => ?_
    split
    · exact Parses.read_bind fun _ _ => Parses.pure ⟨rfl, by omega⟩
    · exact Parses.pure ⟨rfl, le_refl 1⟩
  refine Parses.bind hone fun submaps _ h => ?_
  obtain ⟨rfl, hsm⟩ := h
  refine Parses.bind (hcount _ _) fun steps _ h => ?_
  subst h
  refine Parses.bind (Parses.collect (P := fun x => x.1 < channels ∧ x.2 < channels ∧ x.1 ≠ x.2) _ fun _ _ => ?_)
    fun cp _ h => ?_
  · exact Parses.read_bind fun _ _ => Parses.read_bind fun _ _ => Parses.check_bind fun h =>
      Parses.pure ⟨rfl, by simpa [and_assoc] using h⟩
  obtain ⟨rfl, -, hcp⟩ := h
  refine Parses.read_bind fun _ _ => Parses.check_bind fun _ => ?_
  have hmux : Parses (c, T) (readMuxList submaps channels) fun l k' =>
      k' = (c, T) ∧ l.length = channels ∧ ∀ k ∈ l, k < submaps := by
    unfold readMuxList
    split
    · refine (Parses.collect (P := fun k => k < submaps) _ fun _ _ => ?_).mono fun _ _ h => by simpa using h
      exact Parses.read_bind fun _ _ => Parses.check_bind fun hk => Parses.pure ⟨rfl, of_decide_eq_true hk⟩
    · exact Parses.pure ⟨rfl, by simp, fun k hk => by rw [List.eq_of_mem_replicate hk]; omega⟩
  refine Parses.bind hmux fun mux _ h => ?_
  obtain ⟨rfl, hml, hmx⟩ := h
  refine Parses.bind (Parses.collect (P := fun x => x.1 < times ∧ x.2.1 < floors ∧ x.2.2 < residues) _ fun _ _ => ?_)
    fun subs _ h => ?_
  · refine Parses.get_bind fun s hs => Parses.need_bind (by rw [hs.1]; exact ht) ?_
    refine Parses.get_bind fun s hs => Parses.need_bind (by rw [hs.1]; exact hf) ?_
    refine Parses.get_bind fun s hs => Parses.need_bind (by rw [hs.1]; exact hr) ?_
    exact Parses.read_bind fun _ _ => Parses.check_bind fun h0 => Parses.read_bind fun _ _ => Parses.check_bind fun h1 =>
      Parses.read_bind fun _ _ => Parses.check_bind fun h2 =>
        Parses.pure ⟨rfl, by simpa using h0, by simpa using h1, by simpa using h2⟩
  obtain ⟨rfl, hsl, hsub⟩ := h
  rw [List.length_range] at hsl
  have htimes : ∀ t ∈ subs.map fun x => x.1, t < times := List.forall_mem_map.2 fun x hx => (hsub x hx).1
  have hfloors : ∀ f ∈ subs.map fun x => x.2.1, f < floors := List.forall_mem_map.2 fun x hx => (hsub x hx).2.1
  have hresidues : ∀ r ∈ subs.map fun x => x.2.2, r < residues := List.forall_mem_map.2 fun x hx => (hsub x hx).2.2
  refine Parses.load fun s hs => ⟨_, by rw [hs.1], ⟨fun ch => ?_, fun i => ?_, hcp⟩, hml, hmx, by simpa using hsl, htimes,
    by simpa using hsl, hfloors, by simpa using hsl, hresidues⟩
  · exact getD_lt hfloors hf1 _
  · exact getD_lt hresidues hr1 _

theorem hdrMode_parses {i maps : Nat} (hm : c.maps = some maps) :
    Parses (c, T) (hdrMode i) fun _ k' => ∃ r : Mode, k' = ({ c with mode := putAt c.mode i r }, T) ∧ r.mapping < maps := by
  unfold hdrMode
  refine Parses.read_bind fun _ _ => Parses.read_bind fun _ _ => Parses.check_bind fun _ => Parses.read_bind fun _ _ =>
    Parses.check_bind fun _ => Parses.read_bind fun _ _ => ?_
  refine Parses.get_bind fun s hs => Parses.need_bind (by rw [hs.1]; exact hm) (Parses.check_bind fun h => ?_)
  exact Parses.load fun s hs => ⟨_, by rw [hs.1], by simpa using h⟩

theorem hdrBook_parses {b : Nat} :
    Parses (c, T) (hdrBook b) fun _ k' => ∃ (r : Book) (ws : List (Option Codeword)),
      k' = ({ c with book := putAt c.book b r }, { T with bookWords := putAt T.bookWords b ws }) ∧
      (r.maptype ≠ 0 → r.quant ≠ none) := by
  unfold hdrBook
  refine Parses.read_bind fun _ _ => Parses.check_bind fun _ => Parses.read_bind fun dim _ => Parses.read_bind fun ent _ =>
    Parses.check_bind fun _ => ?_
  have hlen : ∀ sparse, Parses (c, T) (readLength sparse) fun _ k' => k' = (c, T) := by
    intro sparse
    unfold readLength optionalRead
    refine Parses.bind (Q := fun _ k' => k' = (c, T)) ?_ fun u _ h => ?_
    · split
      · exact (Parses.headerRead 1).mono fun _ _ h => h.1
      · exact Parses.pure rfl
    · subst h
      split
      · exact Parses.pure rfl
      · exact Parses.read_bind fun _ _ => Parses.pure rfl
  have hruns : ∀ fuel len e, Parses (c, T) (readRuns ent fuel len e) fun _ k' => k' = (c, T) := by
    intro fuel
    induction fuel with
    | zero => exact fun _ _ => Parses.pure rfl
    | succ fuel ih =>
      intro len e
      unfold readRuns
      split
      · refine Parses.read_bind fun _ _ => Parses.check_bind fun _ => Parses.bind (ih _ _) fun _ _ h => ?_
        subst h
        exact Parses.pure rfl
      · exact Parses.pure rfl
  have hlens : Parses (c, T) (readLengths ent) fun _ k' => k' = (c, T) := by
    unfold readLengths
    refine Parses.read_bind fun _ _ => ?_
    split
    · exact Parses.read_bind fun _ _ => (Parses.collect (P := fun _ => True) _ fun _ _ =>
        (hlen _).mono fun _ _ h => ⟨h, trivial⟩).mono fun _ _ h => h.1
    · exact Parses.read_bind fun _ _ => hruns _ _ _
  refine Parses.bind hlens fun ls _ h => ?_
  subst h
  refine Parses.read_bind fun mt _ => Parses.check_bind fun _ => ?_
  have hq : Parses (c, T) (readQuant mt dim ent) fun q k' => k' = (c, T) ∧ (mt ≠ 0 → q ≠ none) := by
    unfold readQuant
    split
    · exact Parses.pure ⟨rfl, fun h => absurd ‹_› h⟩
    · refine Parses.read_bind fun _ _ => Parses.read_bind fun _ _ => Parses.read_bind fun _ _ => Parses.read_bind fun _ _ =>
        Parses.bind (Parses.collect (P := fun _ => True) _ fun _ _ =>
          (Parses.headerRead _).mono fun _ _ h => ⟨h.1, trivial⟩) fun _ _ h => ?_
      obtain ⟨rfl, -, -⟩ := h
      exact Parses.pure ⟨rfl, by simp⟩
  refine Parses.bind hq fun q _ h => ?_
  obtain ⟨rfl, hq⟩ := h
  refine loadCfg_bind (Parses.get_bind fun s hs => Parses.need_bind (v := ⟨dim, ent, ls, mt, q⟩)
    (by rw [hs.1]; simp [fieldAt_putAt]) ?_)
  split
  · exact Parses.raise
  · exact Parses.tabulate fun s hs => ⟨_, _, by rw [hs.2], hq⟩

/-! ## The loops of the setup header -/

/-- The codebooks are loaded. -/
def BooksDone (k : Loaded) : Prop := ∃ n, k.1.books = some n ∧ ∀ b < n, BookDone k.1 k.2 b

theorem readBooks_parses (n : Nat) : Parses (c, T) (Machine.forEach (List.range n) hdrBook) fun _ k' =>
    ∃ bk bw, k' = ({ c with book := bk }, { T with bookWords := bw }) ∧ ∀ b < n, BookDone k'.1 k'.2 b := by
  refine Parses.forEach (I := fun i k => ∃ bk bw, k = ({ c with book := bk }, { T with bookWords := bw }) ∧
    ∀ b < i, BookDone k.1 k.2 b) n ⟨c.book, T.bookWords, rfl, by simp⟩ fun i _ k hk => ?_
  obtain ⟨bk, bw, rfl, h⟩ := hk
  refine hdrBook_parses.mono fun _ k' h' => ?_
  obtain ⟨r, ws, rfl, hr⟩ := h'
  refine ⟨_, _, rfl, fun b hb => ?_⟩
  by_cases hbi : b = i
  · subst hbi
    exact ⟨⟨ws, by simp [fieldAt_putAt]⟩, r, by simp [fieldAt_putAt], hr⟩
  · obtain ⟨⟨w, hw⟩, r', hr', hq⟩ := h b (by omega)
    exact ⟨⟨w, by simpa [fieldAt_putAt, hbi] using hw⟩, r', by simpa [fieldAt_putAt, hbi] using hr', hq⟩

theorem readTimes_parses (n : Nat) : Parses (c, T) (Machine.forEach (List.range n) hdrTime) fun _ k' =>
    ∃ tt, k' = ({ c with timeType := tt }, T) := by
  refine Parses.forEach (I := fun _ k => ∃ tt, k = ({ c with timeType := tt }, T)) n ⟨c.timeType, rfl⟩ fun i _ k hk => ?_
  obtain ⟨tt, rfl⟩ := hk
  exact Parses.read_bind fun _ _ => loadCfg_bind (Parses.check.mono fun _ _ h => ⟨_, h.1⟩)

theorem readFloor_parses {i : Nat} (hb : BooksDone (c, T)) : Parses (c, T) (readFloor i) fun _ k' =>
    ∃ t F, k' = ({ c with floorType := putAt c.floorType i t, floor := putAt c.floor i F }, T) ∧ FloorDone k'.1 i := by
  obtain ⟨n, hn, hd⟩ := hb
  refine Parses.read_bind fun t _ => loadCfg_bind ?_
  split
  · subst_vars
    refine (f0Unpack_parses (c := { c with floorType := putAt c.floorType i 0 }) hn hd).mono fun _ k' h => ?_
    obtain ⟨F, rfl, h⟩ := h
    exact ⟨0, .type0 F, rfl, .inl ⟨by simp [fieldAt_putAt], F, by simp [fieldAt_putAt], h⟩⟩
  · split
    · subst_vars
      refine (f1Unpack_parses (c := { c with floorType := putAt c.floorType i 1 }) hn).mono fun _ k' h => ?_
      obtain ⟨F, rfl, h1⟩ := h
      exact ⟨1, .type1 F, rfl, .inr ⟨by simp [fieldAt_putAt], F, by simp [fieldAt_putAt], h1⟩⟩
    · exact Parses.raise

/-- What is known of a floor does not depend on the floors loaded after it. -/
theorem FloorDone.putAt {f i t : Nat} {F : Floor} (h : FloorDone c f) (hf : f ≠ i) :
    FloorDone { c with floorType := putAt c.floorType i t, floor := Machine.putAt c.floor i F } f := by
  rcases h with ⟨h1, F', h2, h3⟩ | ⟨h1, F', h2, h3⟩
  · exact .inl ⟨by simpa [fieldAt_putAt, hf] using h1, F', by simpa [fieldAt_putAt, hf] using h2, h3⟩
  · exact .inr ⟨by simpa [fieldAt_putAt, hf] using h1, F', by simpa [fieldAt_putAt, hf] using h2, h3⟩

theorem readFloors_parses (n : Nat) (hb : BooksDone (c, T)) :
    Parses (c, T) (Machine.forEach (List.range n) readFloor) fun _ k' =>
      ∃ ft fl, k' = ({ c with floorType := ft, floor := fl }, T) ∧ ∀ f < n, FloorDone k'.1 f := by
  refine Parses.forEach (I := fun i k => ∃ ft fl, k = ({ c with floorType := ft, floor := fl }, T) ∧
    ∀ f < i, FloorDone k.1 f) n ⟨c.floorType, c.floor, rfl, by simp⟩ fun i _ k hk => ?_
  obtain ⟨ft, fl, rfl, h⟩ := hk
  refine (readFloor_parses (c := { c with floorType := ft, floor := fl }) hb).mono fun _ k' h' => ?_
  obtain ⟨t, F, rfl, hF⟩ := h'
  refine ⟨_, _, rfl, fun f hf => ?_⟩
  by_cases hfi : f = i
  · subst hfi; exact hF
  · exact (h f (by omega)).putAt hfi

theorem ResidueDone.putAt {r i t : Nat} {R : Residue} (h : ResidueDone c r) (hr : r ≠ i) :
    ResidueDone { c with residueType := putAt c.residueType i t, residue := Machine.putAt c.residue i R } r := by
  obtain ⟨⟨t', h1, h2⟩, R', h3, h4⟩ := h
  exact ⟨⟨t', by simpa [fieldAt_putAt, hr] using h1, h2⟩, R', by simpa [fieldAt_putAt, hr] using h3, h4⟩

theorem readResidues_parses (n : Nat) (hb : BooksDone (c, T)) :
    Parses (c, T) (Machine.forEach (List.range n) readResidue) fun _ k' =>
      ∃ rt rs, k' = ({ c with residueType := rt, residue := rs }, T) ∧ ∀ r < n, ResidueDone k'.1 r := by
  obtain ⟨nb, hn, hd⟩ := hb
  refine Parses.forEach (I := fun i k => ∃ rt rs, k = ({ c with residueType := rt, residue := rs }, T) ∧
    ∀ r < i, ResidueDone k.1 r) n ⟨c.residueType, c.residue, rfl, by simp⟩ fun i _ k hk => ?_
  obtain ⟨rt, rs, rfl, h⟩ := hk
  refine Parses.read_bind fun t _ => loadCfg_bind (Parses.check_bind fun ht => ?_)
  refine (resUnpack_parses (c := { c with residueType := putAt rt i t, residue := rs }) hn hd).mono fun _ k' h' => ?_
  obtain ⟨R, rfl, hR⟩ := h'
  refine ⟨_, _, rfl, fun r hr => ?_⟩
  by_cases hri : r = i
  · subst hri
    exact ⟨⟨t, by simp [fieldAt_putAt], by simpa using ht⟩, R, by simp [fieldAt_putAt], hR⟩
  · exact (h r (by omega)).putAt hri

theorem readMappings_parses {channels times floors residues : Nat} (n : Nat) (hc : c.channels = some channels)
    (ht : c.times = some times) (hf : c.floors = some floors) (hr : c.residues = some residues) (hf1 : 1 ≤ floors)
    (hr1 : 1 ≤ residues) :
    Parses (c, T) (Machine.forEach (List.range n) readMapping) fun _ k' =>
      ∃ mt mp, k' = ({ c with mapType := mt, map := mp }, T) ∧ ∀ m < n, ∃ M, fieldAt mp m = some M ∧
        MappingUsable channels floors residues M ∧ MappingInRange channels times floors residues M := by
  refine Parses.forEach (I := fun i k => ∃ mt mp, k = ({ c with mapType := mt, map := mp }, T) ∧
    ∀ m < i, ∃ M, fieldAt mp m = some M ∧ MappingUsable channels floors residues M ∧
      MappingInRange channels times floors residues M) n
    ⟨c.mapType, c.map, rfl, by simp⟩ fun i _ k hk => ?_
  obtain ⟨mt, mp, rfl, h⟩ := hk
  refine Parses.read_bind fun t _ => loadCfg_bind (Parses.check_bind fun _ => ?_)
  refine (map0Unpack_parses (c := { c with mapType := putAt mt i t, map := mp }) hc ht hf hr hf1 hr1).mono
    fun _ k' h' => ?_
  obtain ⟨M, rfl, hM⟩ := h'
  refine ⟨_, _, rfl, fun m hm => ?_⟩
  by_cases hmi : m = i
  · subst hmi
    exact ⟨M, by simp [fieldAt_putAt], hM⟩
  · obtain ⟨M', h1, h2⟩ := h m (by omega)
    exact ⟨M', by simpa [fieldAt_putAt, hmi] using h1, h2⟩

theorem readModes_parses {maps : Nat} (n : Nat) (hm : c.maps = some maps) :
    Parses (c, T) (Machine.forEach (List.range n) hdrMode) fun _ k' =>
      ∃ md, k' = ({ c with mode := md }, T) ∧ ∀ i < n, ∃ r, fieldAt md i = some r ∧ r.mapping < maps := by
  refine Parses.forEach (I := fun i k => ∃ md, k = ({ c with mode := md }, T) ∧
    ∀ j < i, ∃ r, fieldAt md j = some r ∧ r.mapping < maps) n ⟨c.mode, rfl, by simp⟩ fun i _ k hk => ?_
  obtain ⟨md, rfl, h⟩ := hk
  refine (hdrMode_parses (c := { c with mode := md }) hm).mono fun _ k' h' => ?_
  obtain ⟨r, rfl, hr⟩ := h'
  refine ⟨_, rfl, fun j hj => ?_⟩
  by_cases hji : j = i
  · subst hji
    exact ⟨r, by simp [fieldAt_putAt], hr⟩
  · obtain ⟨r', h1, h2⟩ := h j (by omega)
    exact ⟨r', by simpa [fieldAt_putAt, hji] using h1, h2⟩

/-! ## The setup header -/

/-- The identification header's part that decoding needs is as it was. -/
def SameIdent (c c' : Cfg) : Prop :=
  c'.channels = c.channels ∧ c'.blocksize0 = c.blocksize0 ∧ c'.blocksize1 = c.blocksize1

/-- Whatever a setup header holds, it ends `BadHeader` or leaves a valid configuration. -/
theorem hdrSetup_parses {channels : Nat} (hc : c.channels = some channels) :
    Parses (c, T) hdrSetup fun _ k' => SameIdent c k'.1 ∧ k'.1.Valid k'.2 := by
  unfold hdrSetup
  refine Parses.read_bind fun n1 _ => loadCfg_bind (Parses.bind (Q := fun _ k => SameIdent c k.1 ∧ BooksDone k)
    ((readBooks_parses _).mono fun _ k h => ?_) fun _ k1 h1 => ?_)
  · obtain ⟨bk, bw, rfl, h⟩ := h
    exact ⟨⟨rfl, rfl, rfl⟩, _, rfl, h⟩
  obtain ⟨c1, T1⟩ := k1
  refine Parses.read_bind fun n2 _ => loadCfg_bind (Parses.bind
    (Q := fun _ k => SameIdent c k.1 ∧ BooksDone k ∧ ∃ n, k.1.times = some n)
    ((readTimes_parses _).mono fun _ k h => ?_) fun _ k2 h2 => ?_)
  · obtain ⟨tt, rfl⟩ := h
    exact ⟨h1.1, h1.2, _, rfl⟩
  obtain ⟨c2, T2⟩ := k2
  refine Parses.read_bind fun n3 _ => loadCfg_bind (Parses.bind
    (Q := fun _ k => SameIdent c k.1 ∧ BooksDone k ∧ (∃ n, k.1.times = some n) ∧
      ∃ n, k.1.floors = some n ∧ 1 ≤ n ∧ ∀ f < n, FloorDone k.1 f)
    ((readFloors_parses (c := { c2 with floors := some (n3 + 1) }) _ h2.2.1).mono fun _ k h => ?_) fun _ k3 h3 => ?_)
  · obtain ⟨ft, fl, rfl, h⟩ := h
    exact ⟨h2.1, h2.2.1, h2.2.2, _, rfl, by omega, h⟩
  obtain ⟨c3, T3⟩ := k3
  refine Parses.read_bind fun n4 _ => loadCfg_bind (Parses.bind
    (Q := fun _ k => SameIdent c k.1 ∧ BooksDone k ∧ (∃ n, k.1.times = some n) ∧
      (∃ n, k.1.floors = some n ∧ 1 ≤ n ∧ ∀ f < n, FloorDone k.1 f) ∧
      ∃ n, k.1.residues = some n ∧ 1 ≤ n ∧ ∀ r < n, ResidueDone k.1 r)
    ((readResidues_parses (c := { c3 with residues := some (n4 + 1) }) _ h3.2.1).mono fun _ k h => ?_) fun _ k4 h4 => ?_)
  · obtain ⟨rt, rs, rfl, h⟩ := h
    exact ⟨h3.1, h3.2.1, h3.2.2.1, h3.2.2.2, _, rfl, by omega, h⟩
  obtain ⟨c4, T4⟩ := k4
  obtain ⟨i4, b4, ⟨nt, ht4⟩, ⟨nf, hf4, hf1, hfd⟩, nr, hr4, hr1, hrd⟩ := h4
  refine Parses.read_bind fun n5 _ => loadCfg_bind (Parses.bind
    (Q := fun _ k => SameIdent c k.1 ∧ BooksDone k ∧
      (∃ n, k.1.floors = some n ∧ 1 ≤ n ∧ ∀ f < n, FloorDone k.1 f) ∧
      (∃ n, k.1.residues = some n ∧ 1 ≤ n ∧ ∀ r < n, ResidueDone k.1 r) ∧
      ∃ n, k.1.maps = some n ∧ ∀ m < n, ∃ M, fieldAt k.1.map m = some M ∧
        MappingUsable (k.1.channels.getD 0) (k.1.floors.getD 0) (k.1.residues.getD 0) M ∧
        MappingInRange (k.1.channels.getD 0) (k.1.times.getD 0) (k.1.floors.getD 0) (k.1.residues.getD 0) M)
    ((readMappings_parses (c := { c4 with maps := some (n5 + 1) }) _ (i4.1.trans hc) ht4 hf4 hr4 hf1 hr1).mono fun _ k h => ?_) fun _ k5 h5 => ?_)
  · obtain ⟨mt, mp, rfl, h⟩ := h
    refine ⟨i4, b4, ⟨nf, hf4, hf1, hfd⟩, ⟨nr, hr4, hr1, hrd⟩, _, rfl, fun m hm => ?_⟩
    obtain ⟨M, h1, h2⟩ := h m hm
    refine ⟨M, h1, ?_⟩
    have e1 : c4.channels = some channels := i4.1.trans hc
    have e2 : c4.floors = some nf := hf4
    have e3 : c4.residues = some nr := hr4
    have e4 : c4.times = some nt := ht4
    simpa [e1, e2, e3, e4] using h2
  obtain ⟨c5, T5⟩ := k5
  obtain ⟨i5, b5, f5, r5, nm, hm5, hmap⟩ := h5
  refine Parses.read_bind fun n6 hn6 => loadCfg_bind (Parses.bind
    (Q := fun _ k => SameIdent c k.1 ∧ k.1.Valid k.2)
    ((readModes_parses (c := { c5 with modes := some (n6 + 1) }) _ hm5).mono fun _ k h => ?_) fun _ k6 h6 => ?_)
  · obtain ⟨md, rfl, h⟩ := h
    refine ⟨i5, b5, f5, r5, ⟨nm, hm5, hmap⟩, _, rfl, by omega, by omega, fun i hi => ?_⟩
    obtain ⟨r, h1, h2⟩ := h i hi
    have e1 : c5.maps = some nm := hm5
    exact ⟨r, h1, by simpa [e1] using h2⟩
  exact Parses.read_bind fun _ _ => Parses.check.mono fun _ _ h => by rw [h.1]; exact h6

end Sys2Proof.Machine
end

