-- ==== Sys2Proof/Laws/Tables.lean ====
section
/-! SUPPORT. Building the tables of a valid configuration (48_header.md R349) never fails and leaves a complete set. -/

namespace Sys2Proof.Machine

/-! ## The stage books of a residue (44_residue.md R262) -/

/-- How many of the bits `stage .. stage + left - 1` of a mask are set. -/
def bitsFrom (mask stage : Nat) : Nat → Nat
  | 0 => 0
  | left + 1 => (if mask.testBit stage then 1 else 0) + bitsFrom mask (stage + 1) left

theorem classBooks_rest (mask : Nat) : ∀ (left stage : Nat) (books : List Nat),
    (classBooks mask left stage books).2 = books.drop (bitsFrom mask stage left)
  | 0, _, _ => rfl
  | left + 1, stage, books => by
    unfold classBooks bitsFrom
    split
    · simp [classBooks_rest mask left (stage + 1), Nat.add_comm]
    · simp [classBooks_rest mask left (stage + 1)]

/-- A set bit has a book, as long as the list holds enough of them. -/
theorem classBooks_bit (mask : Nat) : ∀ (left stage : Nat) (books : List Nat), bitsFrom mask stage left ≤ books.length →
    ∀ j < left, mask.testBit (stage + j) = true →
      ∃ b ∈ books, (classBooks mask left stage books).1[j]? = some (some b)
  | 0, _, _, _, j, hj, _ => by omega
  | left + 1, stage, books, hl, 0, _, hb => by
    rw [Nat.add_zero] at hb
    unfold bitsFrom at hl
    rw [if_pos hb] at hl
    unfold classBooks
    rw [if_pos hb]
    have h0 : 0 < books.length := by omega
    exact ⟨books[0], List.getElem_mem h0, by simp [List.getElem?_eq_getElem h0]⟩
  | left + 1, stage, books, hl, j + 1, hj, hb => by
    unfold bitsFrom at hl
    rw [show stage + (j + 1) = stage + 1 + j by omega] at hb
    unfold classBooks
    split
    · rename_i h
      rw [if_pos h] at hl
      obtain ⟨b, hm, he⟩ := classBooks_bit mask left (stage + 1) (books.drop 1) (by simp; omega) j (by omega) hb
      exact ⟨b, List.mem_of_mem_drop hm, by simpa using he⟩
    · rename_i h
      rw [if_neg h] at hl
      obtain ⟨b, hm, he⟩ := classBooks_bit mask left (stage + 1) books (by omega) j (by omega) hb
      exact ⟨b, hm, by simpa using he⟩

theorem bitsFrom_eq (mask : Nat) : ∀ left stage : Nat,
    bitsFrom mask stage left = ((List.range' stage left).filter mask.testBit).length
  | 0, _ => rfl
  | left + 1, stage => by
    rw [bitsFrom, bitsFrom_eq mask left (stage + 1), List.range'_succ, List.filter_cons]
    split <;> simp; omega

/-- Bits at and above `ilog` are clear. -/
theorem testBit_lt_ilog {mask j : Nat} (h : mask.testBit j = true) : j < ilog mask := by
  unfold ilog
  have h0 : mask ≠ 0 := by rintro rfl; simp at h
  rw [if_neg h0]
  by_contra hj
  have := (Nat.log2_lt h0).1 (show mask.log2 < j by omega)
  simp [Nat.testBit_lt_two_pow this] at h

/-- An 8-bit mask has as many stages as `icount` says. -/
theorem bitsFrom_ilog {mask : Nat} (h : mask < 256) : bitsFrom mask 0 (ilog mask) = icount mask := by
  rw [bitsFrom_eq, icount, ← List.range_eq_range']
  have h8 : ilog mask ≤ 8 := by
    unfold ilog
    split
    · omega
    · rename_i h0
      have := (Nat.log2_lt h0).2 (show mask < 2 ^ 8 from h)
      omega
  have : List.range 8 = List.range (ilog mask) ++ List.range' (ilog mask) (8 - ilog mask) := by
    have e := List.range'_append_1 (s := 0) (m := ilog mask) (n := 8 - ilog mask)
    rw [Nat.zero_add, Nat.add_sub_cancel' h8] at e
    rw [List.range_eq_range', List.range_eq_range', e]
  rw [this, List.filter_append, List.length_append]
  have : (List.range' (ilog mask) (8 - ilog mask)).filter mask.testBit = [] := by
    rw [List.filter_eq_nil_iff]
    intro j hj hb
    have := testBit_lt_ilog hb
    simp at hj
    omega
  simp [this]

/-- Every stage of every class has a book of the list. -/
theorem partBooks_bit : ∀ (masks books : List Nat), (∀ mask ∈ masks, mask < 256) →
    (masks.map icount).sum ≤ books.length → ∀ cls stage, (masks.getD cls 0).testBit stage = true →
      ∃ b ∈ books, ((partBooks masks books).getD cls []).getD stage none = some b
  | [], _, _, _, cls, stage, h => by simp at h
  | mask :: masks, books, hm, hl, 0, stage, h => by
    simp only [List.getD_cons_zero] at h
    simp only [List.map_cons, List.sum_cons] at hl
    have h256 := hm mask (by simp)
    obtain ⟨b, hb, he⟩ := classBooks_bit mask (ilog mask) 0 books (by rw [bitsFrom_ilog h256]; omega) stage
      (testBit_lt_ilog h) (by simpa using h)
    refine ⟨b, hb, ?_⟩
    simp [partBooks, List.getD_eq_getElem?_getD, he]
  | mask :: masks, books, hm, hl, cls + 1, stage, h => by
    simp only [List.getD_cons_succ] at h
    simp only [List.map_cons, List.sum_cons] at hl
    have h256 := hm mask (by simp)
    have hrest := classBooks_rest mask (ilog mask) 0 books
    rw [bitsFrom_ilog h256] at hrest
    obtain ⟨b, hb, he⟩ := partBooks_bit masks (classBooks mask (ilog mask) 0 books).2 (fun x hx => hm x (by simp [hx]))
      (by rw [hrest]; simp; omega) cls stage h
    rw [hrest] at hb
    exact ⟨b, List.mem_of_mem_drop hb, by simpa [partBooks] using he⟩

/-! ## The loops -/

/-- The outcomes of building: the operation returns, changes nothing but what is loaded, and leaves loaded what `Q` says. -/
def Builds (k : Loaded) (op : Op Unit) (Q : Loaded → Prop) : Prop :=
  ∀ s : State, s.has k → Sat op s (fun _ t => ∃ k', t = s.with k' ∧ Q k') (fun _ _ => False)

variable {c : Cfg} {T : Tab} {k : Loaded} {Q R : Loaded → Prop}

theorem Builds.bind {op : Op Unit} {f : Unit → Op Unit} (h : Builds k op Q) (hf : ∀ k', Q k' → Builds k' (f ()) R) :
    Builds k (op >>= f) R := fun s hs => Sat.bind (h s hs) fun _ t ⟨k', ht, hq⟩ => by
  subst ht
  exact hf k' hq (s.with k') ⟨rfl, rfl⟩

theorem Builds.mono {op : Op Unit} (h : Builds k op Q) (hq : ∀ k', Q k' → R k') : Builds k op R := fun s hs =>
  (h s hs).mono (fun _ _ h => h.imp fun _ h => ⟨h.1, hq _ h.2⟩) fun _ _ h => h

theorem Builds.get_bind {f : State → Op Unit} (hf : ∀ s : State, s.has k → Builds k (f s) R) :
    Builds k ((MonadStateOf.get : Op State) >>= f) R := fun s hs => hf s hs s hs

theorem Builds.need_bind {α : Type} {o : Option α} {v : α} {f : α → Op Unit} (ho : o = some v) (hf : Builds k (f v) R) :
    Builds k (need o >>= f) R := by subst ho; exact hf

theorem Builds.pure (h : Q k) : Builds k (Pure.pure ()) Q := fun _ hs => ⟨k, (State.with_self hs).symm, h⟩

theorem Builds.tabulate {f : State → Tab} (h : ∀ s : State, s.has (c, T) → Q (c, f s)) :
    Builds (c, T) (modify fun s => s.setTab (f s) : Op Unit) Q := fun s hs =>
  ⟨(c, f s), by obtain ⟨rfl, -⟩ : s.cfg = c ∧ s.tab = T := hs; rfl, h s hs⟩

theorem Builds.forEach {body : Nat → Op Unit} {I : Nat → Loaded → Prop} (n : Nat) (h0 : I 0 k)
    (h : ∀ i < n, ∀ k, I i k → Builds k (body i) (I (i + 1))) :
    Builds k (Machine.forEach (List.range n) body) (I n) := by
  have key : ∀ (m i : Nat) (k : Loaded), i + m = n → I i k → Builds k (Machine.forEach (List.range' i m) body) (I n) := by
    intro m
    induction m with
    | zero => intro i k hi hk; exact Builds.pure (by rwa [show n = i by omega])
    | succ m ih =>
      intro i k hi hk
      rw [List.range'_succ]
      exact Builds.bind (h i (by omega) k hk) fun k' hk' => ih (i + 1) k' (by omega) hk'
  have := key n 0 k (by omega) h0
  rwa [← List.range_eq_range'] at this

/-- The value tables of the books before `n` are there. -/
def ValuesTo (c : Cfg) (T : Tab) (n : Nat) : Prop :=
  ∀ b < n, ∀ r, fieldAt c.book b = some r → r.maptype ≠ 0 → ∃ vs, fieldAt T.bookValues b = some vs

theorem unquantize_builds (n : Nat) (hb : ∀ b < n, BookDone c T b) :
    Builds (c, T) (forEach (List.range n) cbUnquantize) fun k' =>
      ∃ bv, k' = (c, { T with bookValues := bv }) ∧ ValuesTo c { T with bookValues := bv } n := by
  refine Builds.forEach (I := fun i k => ∃ bv, k = (c, { T with bookValues := bv }) ∧
    ValuesTo c { T with bookValues := bv } i) n ⟨T.bookValues, rfl, fun b hb => by omega⟩ fun i hi k hk => ?_
  obtain ⟨bv, rfl, h⟩ := hk
  obtain ⟨-, r, hr, hq⟩ := hb i hi
  refine Builds.get_bind fun s hs => Builds.need_bind (by rw [hs.1]; exact hr) ?_
  rcases hv : bookValues r with _ | vs
  · refine Builds.pure ⟨bv, rfl, fun b hb r' hr' hm => ?_⟩
    by_cases hbi : b = i
    · subst hbi
      rw [hr] at hr'
      cases hr'
      exfalso
      obtain ⟨q, hq'⟩ := Option.ne_none_iff_exists'.1 (hq hm)
      simp [bookValues, hq'] at hv
    · exact h b (by omega) r' hr' hm
  · refine Builds.tabulate fun s hs => ⟨putAt bv i vs, by rw [hs.2], fun b hb r' hr' hm => ?_⟩
    by_cases hbi : b = i
    · subst hbi
      exact ⟨vs, by simp [fieldAt_putAt]⟩
    · simpa [fieldAt_putAt, hbi] using h b (by omega) r' hr' hm

/-- The tables of floor `f` are there. -/
def FloorTables (c : Cfg) (T : Tab) (f : Nat) : Prop :=
  (fieldAt c.floorType f = some 0 ∧ (∃ t, fieldAt T.floor0Short f = some t) ∧ ∃ t, fieldAt T.floor0Long f = some t) ∨
  (fieldAt c.floorType f = some 1 ∧ ∃ t, fieldAt T.floor1 f = some t)

theorem lookFloors_builds {P : Params} {n0 n1 : Nat} (n : Nat) (h0 : c.blocksize0 = some n0) (h1 : c.blocksize1 = some n1)
    (hf : ∀ f < n, FloorDone c f) :
    Builds (c, T) (forEach (List.range n) (lookFloor P)) fun k' =>
      ∃ a b d, k' = (c, { T with floor0Short := a, floor0Long := b, floor1 := d }) ∧
        ∀ f < n, FloorTables c { T with floor0Short := a, floor0Long := b, floor1 := d } f := by
  refine Builds.forEach (I := fun i k => ∃ a b d, k = (c, { T with floor0Short := a, floor0Long := b, floor1 := d }) ∧
    ∀ f < i, FloorTables c { T with floor0Short := a, floor0Long := b, floor1 := d } f) n
    ⟨T.floor0Short, T.floor0Long, T.floor1, rfl, by simp⟩ fun i hi k hk => ?_
  obtain ⟨a, b, d, rfl, h⟩ := hk
  rcases hf i hi with ⟨ht, F, hF, -⟩ | ⟨ht, F, hF, -⟩
  · refine Builds.get_bind fun s hs => Builds.need_bind (by rw [hs.1]; exact ht) ?_
    rw [if_pos rfl]
    refine Builds.bind (Q := fun k' => k' = (c, { T with
      floor0Short := putAt a i (floor0Table P F n0), floor0Long := b, floor1 := d })) ?_ fun k' hk' => ?_
    · refine Builds.get_bind fun s hs => Builds.need_bind (v := n0) (by simp [State.blocksizeAt, hs.1, h0]) ?_
      refine Builds.get_bind fun s hs => Builds.need_bind (v := F) (by simp [State.floor0At, hs.1, hF]) ?_
      exact Builds.tabulate fun s hs => by rw [hs.2]
    · subst hk'
      refine Builds.get_bind fun s hs => Builds.need_bind (v := n1) (by simp [State.blocksizeAt, hs.1, h1]) ?_
      refine Builds.get_bind fun s hs => Builds.need_bind (v := F) (by simp [State.floor0At, hs.1, hF]) ?_
      refine Builds.tabulate fun s hs => ⟨_, _, _, by rw [hs.2], fun f hfi => ?_⟩
      by_cases hfe : f = i
      · subst hfe
        exact .inl ⟨ht, ⟨_, by simp [fieldAt_putAt]; rfl⟩, _, by simp [fieldAt_putAt]; rfl⟩
      · rcases h f (by omega) with ⟨g1, g2, g3⟩ | ⟨g1, g2⟩
        · exact .inl ⟨g1, by simpa [fieldAt_putAt, hfe] using g2, by simpa [fieldAt_putAt, hfe] using g3⟩
        · exact .inr ⟨g1, g2⟩
  · refine Builds.get_bind fun s hs => Builds.need_bind (by rw [hs.1]; exact ht) ?_
    rw [if_neg (by simp)]
    refine Builds.get_bind fun s hs => Builds.need_bind (v := F) (by simp [State.floor1At, hs.1, hF]) ?_
    refine Builds.tabulate fun s hs => ⟨_, _, _, by rw [hs.2], fun f hfi => ?_⟩
    by_cases hfe : f = i
    · subst hfe
      exact .inr ⟨ht, _, by simp [fieldAt_putAt]; rfl⟩
    · rcases h f (by omega) with ⟨g1, g2, g3⟩ | ⟨g1, g2⟩
      · exact .inl ⟨g1, g2, g3⟩
      · exact .inr ⟨g1, by simpa [fieldAt_putAt, hfe] using g2⟩

theorem resLooks_builds (n : Nat) (hr : ∀ r < n, ResidueDone c r) :
    Builds (c, T) (forEach (List.range n) resLook) fun k' =>
      ∃ rs, k' = (c, { T with res := rs }) ∧ ∀ r < n, ∀ R, fieldAt c.residue r = some R →
        ∃ pdim, fieldAt rs r = some (resTable R pdim) := by
  refine Builds.forEach (I := fun i k => ∃ rs, k = (c, { T with res := rs }) ∧ ∀ r < i, ∀ R, fieldAt c.residue r = some R →
    ∃ pdim, fieldAt rs r = some (resTable R pdim)) n ⟨T.res, rfl, by simp⟩ fun i hi k hk => ?_
  obtain ⟨rs, rfl, h⟩ := hk
  obtain ⟨-, R, hR, -, ⟨p, hp⟩, -⟩ := hr i hi
  refine Builds.get_bind fun s hs => Builds.need_bind (by rw [hs.1]; exact hR) ?_
  refine Builds.get_bind fun s hs => Builds.need_bind (by rw [hs.1]; exact hp) ?_
  refine Builds.tabulate fun s hs => ⟨_, by rw [hs.2], fun r hri R' hR' => ?_⟩
  by_cases hre : r = i
  · subst hre
    rw [hR] at hR'
    cases hR'
    exact ⟨p.dim, by simp [fieldAt_putAt]⟩
  · simpa [fieldAt_putAt, hre] using h r (by omega) R' hR'

/-! ## All the tables -/

/-- The identification header's fields are in range. -/
def Cfg.Identified (c : Cfg) : Prop :=
  (∃ n, c.channels = some n ∧ 1 ≤ n ∧ n ≤ 255) ∧
  ∃ e0 e1, c.blocksize0 = some (2 ^ e0) ∧ c.blocksize1 = some (2 ^ e1) ∧ 3 ≤ e0 ∧ e0 ≤ e1 ∧ e1 ≤ 15

/-- A valid configuration gets a complete set of tables; the codewords and the configuration stay. -/
theorem buildTables_builds {P : Params} (hi : c.Identified) (h : c.Valid T) :
    Builds (c, T) (buildTables P) fun k' => k'.1 = c ∧ k'.2.bookWords = T.bookWords ∧
      ∀ s : State, s.has k' → s.Configured ∧ s.IndicesInRange := by
  obtain ⟨⟨nc, hc, hc1, hc2⟩, e0, e1, hb0, hb1, he⟩ := hi
  obtain ⟨nb, hnb, hbook⟩ := h.books
  obtain ⟨nf, hnf, hf1, hfloor⟩ := h.floors
  obtain ⟨nr, hnr, hr1, hres⟩ := h.residues
  obtain ⟨nm, hnm, hn1, hn64, hmode⟩ := h.modes
  unfold buildTables
  refine Builds.get_bind fun s hs => ?_
  rw [show s.cfg = c from hs.1]
  refine Builds.need_bind hnb (Builds.need_bind hnf (Builds.need_bind hnr (Builds.need_bind hnm ?_)))
  refine Builds.bind (unquantize_builds nb hbook) fun k1 h1 => ?_
  obtain ⟨bv, rfl, hvals⟩ := h1
  refine Builds.bind (lookFloors_builds nf hb0 hb1 hfloor) fun k2 h2 => ?_
  obtain ⟨a, b, d, rfl, hft⟩ := h2
  refine Builds.bind (resLooks_builds nr hres) fun k3 h3 => ?_
  obtain ⟨rs, rfl, hrs⟩ := h3
  refine Builds.bind (Q := fun k' => k' = (c, { T with
    bookValues := bv, floor0Short := a, floor0Long := b, floor1 := d, res := rs,
    mdct0 := some (mdctTable P (2 ^ e0)) })) ?_ fun k4 h4 => ?_
  · refine Builds.get_bind fun s hs => Builds.need_bind (v := 2 ^ e0) (by simp [State.blocksizeAt, hs.1, hb0]) ?_
    exact Builds.tabulate fun s hs => by rw [hs.2]
  subst h4
  refine Builds.bind (Q := fun k' => k' = (c, { T with
    bookValues := bv, floor0Short := a, floor0Long := b, floor1 := d, res := rs,
    mdct0 := some (mdctTable P (2 ^ e0)), mdct1 := some (mdctTable P (2 ^ e1)) })) ?_ fun k5 h5 => ?_
  · refine Builds.get_bind fun s hs => Builds.need_bind (v := 2 ^ e1) (by simp [State.blocksizeAt, hs.1, hb1]) ?_
    exact Builds.tabulate fun s hs => by rw [hs.2]
  subst h5
  refine Builds.bind (Q := fun k' => ∃ w0 w1 w2 w3 w4, k' = (c, { T with
    bookValues := bv, floor0Short := a, floor0Long := b, floor1 := d, res := rs,
    mdct0 := some (mdctTable P (2 ^ e0)), mdct1 := some (mdctTable P (2 ^ e1)),
    win000 := some w0, win100 := some w1, win101 := some w2, win110 := some w3, win111 := some w4 })) ?_ fun k6 h6 => ?_
  · refine Builds.get_bind fun s hs => Builds.need_bind (v := 2 ^ e0) (by rw [hs.1]; exact hb0) ?_
    refine Builds.get_bind fun s hs => Builds.need_bind (v := 2 ^ e1) (by rw [hs.1]; exact hb1) ?_
    exact Builds.tabulate fun s hs => ⟨_, _, _, _, _, by rw [hs.2]⟩
  obtain ⟨w0, w1, w2, w3, w4, rfl⟩ := h6
  refine Builds.tabulate fun s hs => ⟨rfl, by rw [hs.2], fun t ht => ?_⟩
  rw [hs.2] at ht
  obtain ⟨tc, tt⟩ := ht
  have words : ∀ b < nb, HasWords t.tab b := fun b hb => by rw [tt]; exact (hbook b hb).1
  have inRange : ∀ b, c.hasBook b → b < nb := fun b ⟨n, hn, hlt⟩ => by rw [hnb] at hn; cases hn; exact hlt
  have values : ∀ b, c.hasValueBook b → HasValues t.cfg t.tab b := by
    intro b ⟨hb, r, hr, hm⟩
    have hlt := inRange b hb
    refine ⟨words b hlt, ⟨r, by rw [tc]; exact hr⟩, ?_⟩
    rw [tt]
    exact hvals b hlt r hr hm
  refine ⟨
    { channels := ⟨nc, by rw [tc]; exact hc, hc1, hc2⟩
      blocksizes := ⟨e0, e1, by rw [tc]; exact hb0, by rw [tc]; exact hb1, he⟩
      floors := ⟨nf, by rw [tc]; exact hnf, hf1, fun f hf => ?_⟩
      residues := ⟨nr, by rw [tc]; exact hnr, hr1, fun r hr => ?_⟩
      maps := by rw [tc]; exact h.maps.imp fun _ h => ⟨h.1, fun m hm => (h.2 m hm).imp fun _ h => ⟨h.1, h.2.1⟩⟩
      modes := ⟨nm, by rw [tc]; exact hnm, hn1, hn64, by rw [tt], by rw [tc]; exact hmode⟩
      transforms := by rw [tt]; exact ⟨⟨_, rfl⟩, _, rfl⟩
      windows := fun w lw nw hw => ?_ },
    { floor0 := fun f hf F hty hF => ?_
      floor1 := fun f hf F hty hF => ?_
      residueBooks := fun r hr R hR => ?_
      decodeMap := fun r hr Q hQ => ?_
      maps := fun m hm M hM => ?_ }⟩
  · rcases hfloor f hf with ⟨g1, F, g2, g3, g4, -⟩ | ⟨g1, F, g2, -, g3⟩
    · rcases hft f hf with ⟨-, q1, q2⟩ | ⟨q, -⟩
      · exact .inl ⟨by rw [tc]; exact g1, F, by rw [tc]; exact g2, g3, fun b hb => values b (g4 b hb),
          by rw [tt]; exact q1, by rw [tt]; exact q2⟩
      · rw [g1] at q; simp at q
    · rcases hft f hf with ⟨q, -⟩ | ⟨-, q1⟩
      · rw [g1] at q; simp at q
      · refine .inr ⟨by rw [tc]; exact g1, F, by rw [tc]; exact g2, by rw [tt]; exact q1, fun i hi => ?_⟩
        obtain ⟨K, hK, hs, hsub⟩ := g3 i hi
        exact ⟨K, hK, fun h0 => (hs h0).imp fun b hb => ⟨hb.1, words b (inRange b hb.2)⟩,
          fun b hb => words b (inRange b (hsub b hb))⟩
  · obtain ⟨⟨ty, g1, g2⟩, R, hR, hg, ⟨p, hp⟩, hlen, hmask, hbk⟩ := hres r hr
    obtain ⟨pdim, hQ⟩ := hrs r hr R hR
    refine ⟨R, resTable R pdim, ⟨ty, by rw [tc]; exact g1, g2⟩, by rw [tc]; exact hR, by rw [tt]; exact hQ,
      words _ (inRange _ hg), ⟨p, by rw [tc]; exact hp⟩, fun cls stage hbit => ?_⟩
    obtain ⟨b, hb, he⟩ := partBooks_bit R.secondstages R.booklist hmask (by omega) cls stage hbit
    exact ⟨b, he, values b (hbk b hb)⟩
  · unfold State.windowAt
    rw [tt]
    cases w <;> cases lw <;> cases nw <;> simp_all
  · rw [tc] at hf hty hF ⊢
    rcases hfloor f (by simpa [hnf] using hf) with ⟨-, F', g2, -, g4, g5⟩ | ⟨g1, -⟩
    · rw [hF] at g2
      cases g2
      exact ⟨g5, fun b hb => (g4 b hb).1⟩
    · rw [hty] at g1; simp at g1
  · rw [tc] at hf hty hF ⊢
    rcases hfloor f (by simpa [hnf] using hf) with ⟨g1, -⟩ | ⟨-, F', g2, g3⟩
    · rw [hty] at g1; simp at g1
    · rw [hF] at g2
      cases g2
      exact g3
  · rw [tc] at hr hR ⊢
    obtain ⟨-, R', hR', hg, -, -, -, hbk⟩ := hres r (by simpa [hnr] using hr)
    rw [hR] at hR'
    cases hR'
    exact ⟨hg, fun b hb => (hbk b hb).1⟩
  · rw [tc] at hr
    obtain ⟨-, R, hR, -⟩ := hres r (by simpa [hnr] using hr)
    obtain ⟨pdim, hQ'⟩ := hrs r (by simpa [hnr] using hr) R hR
    rw [tt] at hQ
    rw [show fieldAt rs r = some Q from hQ] at hQ'
    cases hQ'
    exact fun t ht => ⟨_, List.getElem?_eq_getElem (by simpa [resTable] using ht)⟩
  · rw [tc] at hm hM ⊢
    obtain ⟨n, hn, hmap⟩ := h.maps
    obtain ⟨M', hM', -, g⟩ := hmap m (by simpa [hn] using hm)
    rw [hM] at hM'
    cases hM'
    exact g

end Sys2Proof.Machine
end

