-- ==== Sys2Proof/Laws/Headers.lean ====
section
/-! SUPPORT. `HEADERIN` as a whole: whatever the packet holds, it moves on one phase with a configuration to match, or ends
`BadHeader` (48_header.md R340, R350, R361). -/

namespace Sys2Proof.Machine

variable {c : Cfg} {T : Tab} {k : Loaded}

theorem readFraming_parses : Parses k readFraming fun _ k' => k' = k :=
  Parses.read_bind fun _ _ => Parses.check.mono fun _ _ h => h.1

theorem hdrIdent_parses : Parses (c, T) hdrIdent fun _ k' => k'.2 = T ∧ k'.1.Identified := by
  unfold hdrIdent
  refine Parses.read_bind fun _ _ => loadCfg_bind (Parses.check_bind fun _ => ?_)
  refine Parses.read_bind fun ch hch => loadCfg_bind (Parses.check_bind fun hc => ?_)
  refine Parses.read_bind fun _ _ => loadCfg_bind (Parses.check_bind fun _ => ?_)
  refine Parses.read_bind fun _ _ => loadCfg_bind (Parses.read_bind fun _ _ => loadCfg_bind ?_)
  refine Parses.read_bind fun _ _ => loadCfg_bind (Parses.read_bind fun e0 _ => Parses.read_bind fun e1 h1 => ?_)
  refine loadCfg_bind (Parses.check_bind fun h8 => Parses.check_bind fun hle => readFraming_parses.mono fun _ k' h => ?_)
  subst h
  refine ⟨rfl, ⟨ch, rfl, Nat.one_le_iff_ne_zero.2 (by simpa using hc), by omega⟩, e0, e1, rfl, rfl, ?_, ?_, by omega⟩
  · by_contra h
    have : 2 ^ e0 < 2 ^ 3 := Nat.pow_lt_pow_right (by omega) (by omega)
    simp at h8
    omega
  · exact (Nat.pow_le_pow_iff_right (show 1 < 2 by omega)).1 (of_decide_eq_true hle)

theorem hdrComment_parses : Parses k hdrComment fun _ k' => k' = k := by
  have skip : ∀ n, Parses k (advanceBits n) fun _ k' => k' = k := fun n s hs => ⟨k, hs, rfl⟩
  have all : ∀ n, Parses k (skipComments n) fun _ k' => k' = k := by
    intro n
    induction n with
    | zero => exact Parses.pure rfl
    | succ n ih => exact Parses.read_bind fun _ _ => Parses.bind (skip _) fun _ _ h => by subst h; exact ih
  unfold hdrComment
  refine Parses.read_bind fun _ _ => Parses.bind (skip _) fun _ _ h => ?_
  subst h
  refine Parses.read_bind fun _ _ => Parses.bind (all _) fun _ _ h => ?_
  subst h
  exact readFraming_parses

theorem readMagic_parses (l : List Nat) : Parses k (readMagic l) fun _ k' => k' = k := by
  unfold readMagic
  induction l with
  | nil => exact Parses.pure rfl
  | cons x l ih =>
    refine Parses.bind (Q := fun _ k' => k' = k) (Parses.read_bind fun _ _ => Parses.check.mono fun _ _ h => h.1)
      fun _ _ h => ?_
    subst h
    exact ih

/-- The configuration is as far as the phase says. -/
def Loaded.fits (p : Phase) (k : Loaded) : Prop :=
  (p ≠ .needId → k.1.Identified) ∧ (p = .ready → ∀ s : State, s.has k → s.Configured ∧ s.IndicesInRange)

/-- What a header that is accepted leaves, from a state `s` whose configuration fits its phase. -/
structure Accepted (s t : State) : Prop where
  frame : HeaderFrame (s.setPhase t.phase) t
  phase : (s.phase = .needId ∧ s.bos = true ∧ t.phase = .needComment) ∨
    (s.phase = .needComment ∧ s.bos = false ∧ t.phase = .needSetup) ∨
    (s.phase = .needSetup ∧ s.bos = false ∧ t.phase = .ready)
  fits : Loaded.fits t.phase (t.cfg, t.tab)

/-- One body of a header. -/
theorem headerBody_sat {P : Params} {s : State} {t : Nat} (h : Loaded.fits s.phase (s.cfg, s.tab)) :
    Sat (headerBody P t) s (fun _ u => Accepted s u) (fun e u => HeaderFrame s u ∧ HeaderEnds e) := by
  -- an operation of the parser, with its frame
  have part : ∀ {op : Op Unit} {Q : Unit → Loaded → Prop}, Keeps HeaderFrame op → Parses (s.cfg, s.tab) op Q →
      Sat op s (fun v u => HeaderFrame s u ∧ ∃ k', u.has k' ∧ Q v k')
        (fun e u => HeaderFrame s u ∧ HeaderEnds e) := fun hk hp =>
    ((hk s).and (hp s ⟨rfl, rfl⟩)).mono (fun _ _ h => h) fun _ _ h => h
  have frame : ∀ {u : State} (p : Phase), HeaderFrame s u → HeaderFrame (s.setPhase p) (u.setPhase p) := fun p hu =>
    { hu with phase := rfl }
  unfold headerBody
  refine sat_bind.2 (sat_get.2 ?_)
  have check : ∀ {p : Bool} {e : HeaderCause} {f : Unit → Op Unit} {Q : Unit → State → Prop},
      (p = true → Sat (f ()) s Q (fun e u => HeaderFrame s u ∧ HeaderEnds e)) →
      Sat (headerCheck p e >>= f) s Q
        (fun e u => HeaderFrame s u ∧ HeaderEnds e) := by
    intro p e f Q hf
    refine sat_bind.2 (sat_headerCheck.2 ⟨hf, fun _ => ⟨.refl s, _, rfl⟩⟩)
  refine sat_ite.2 ⟨fun _ => check fun hp => ?_, fun _ => sat_ite.2 ⟨fun _ => check fun hp => ?_, fun _ => check fun hp => ?_⟩⟩
  · refine Sat.bind (part hdrIdent_frame hdrIdent_parses) fun _ u hu => ?_
    obtain ⟨hu, ⟨c', T'⟩, ⟨hc, hT⟩, -, hid⟩ := hu
    simp only [Bool.and_eq_true, beq_iff_eq] at hp
    refine ⟨frame .needComment hu, .inl ⟨hp.1, hp.2, rfl⟩, fun _ => ?_, fun e => by cases e⟩
    rw [State.setPhase_cfg, hc]
    exact hid
  · refine Sat.bind (part hdrComment_frame hdrComment_parses) fun _ u hu => ?_
    obtain ⟨hu, k', hk', rfl⟩ := hu
    simp only [Bool.and_eq_true, beq_iff_eq, Bool.not_eq_true'] at hp
    refine ⟨frame .needSetup hu, .inr (.inl ⟨hp.1, hp.2, rfl⟩), fun _ => ?_, fun e => by cases e⟩
    rw [State.setPhase_cfg, hk'.1]
    exact h.1 (by rw [hp.1]; simp)
  · simp only [Bool.and_eq_true, beq_iff_eq, Bool.not_eq_true'] at hp
    have hid := h.1 (by rw [hp.1]; simp)
    obtain ⟨⟨n, hn, hn1, hn2⟩, hbs⟩ := hid
    refine Sat.bind (part hdrSetup_frame (hdrSetup_parses hn)) fun _ u hu => ?_
    obtain ⟨hu, ⟨c', T'⟩, hk', ⟨hi1, hi2, hi3⟩, hv⟩ := hu
    have hid' : c'.Identified := ⟨⟨n, hi1.trans hn, hn1, hn2⟩, by rw [show c'.blocksize0 = _ from hi2, show c'.blocksize1 = _ from hi3]; exact hbs⟩
    have hb := (buildTables_frame P u).and (buildTables_builds (P := P) hid' hv u hk')
    refine sat_bind.2 (hb.mono (fun _ w hw => ?_) fun _ _ h => h.2.elim)
    obtain ⟨hw, ⟨c'', T''⟩, rfl, rfl, -, hconf⟩ := hw
    refine ⟨frame .ready (hu.trans hw), .inr (.inr ⟨hp.1, hp.2, rfl⟩), fun _ => ?_, fun _ t ht => ?_⟩
    · exact hid'
    · exact hconf t ht

/-- The state after the latching that opens `HEADERIN`. -/
def State.openHeader (eos bos : Bool) (s : State) : State :=
  (s.initCursor s.arg0 s.arg1).latch s.granuleOperand eos bos

/-- One header packet, from a state whose configuration fits its phase. -/
theorem headerPacket_sat {P : Params} {s : State} {eos bos : Bool} (h : Loaded.fits s.phase (s.cfg, s.tab)) :
    Sat (headerPacket P eos bos) s (fun v u => Accepted (s.openHeader eos bos) u ∧ v = u.phase.code.setWidth 32)
      (fun e u => HeaderFrame (s.openHeader eos bos) u ∧ HeaderEnds e) := by
  unfold headerPacket
  refine sat_bind.2 (sat_get.2 (sat_bind.2 (sat_bind.2 ?_)))
  show Sat _ (s.openHeader eos bos) _ _
  have part : ∀ {α : Type} {op : Op α} {Q : α → Loaded → Prop} {u : State}, Keeps HeaderFrame op → 
      HeaderFrame (s.openHeader eos bos) u → u.has (s.cfg, s.tab) → Parses (s.cfg, s.tab) op Q →
      Sat op u (fun v w => HeaderFrame (s.openHeader eos bos) w ∧ ∃ k', w.has k' ∧ Q v k')
        (fun e w => HeaderFrame (s.openHeader eos bos) w ∧ HeaderEnds e) := fun hk hu hc hp =>
    ((hk _).and (hp _ hc)).mono (fun _ _ h => ⟨hu.trans h.1, h.2⟩)
      fun _ _ h => ⟨hu.trans h.1, h.2⟩
  refine Sat.bind (part (headerRead_frame 8) (.refl _) ⟨rfl, rfl⟩ (Parses.headerRead 8)) fun t u hu => ?_
  obtain ⟨hu, k', hk', rfl, -⟩ := hu
  refine Sat.bind (part (headerCheck_frame _ _) hu hk' Parses.check) fun _ u hu => ?_
  obtain ⟨hu, k', hk', rfl, -⟩ := hu
  refine Sat.bind (part (readMagic_frame _) hu hk' (readMagic_parses _)) fun _ u hu => ?_
  obtain ⟨hu, k', hk', rfl⟩ := hu
  have hfit : Loaded.fits u.phase (u.cfg, u.tab) := by
    rw [hu.phase, hk'.1, hk'.2]
    exact h
  refine Sat.bind (M := fun _ w => Accepted u w) ((headerBody_sat (P := P) (t := t) hfit).mono (fun _ _ hw => hw)
    fun _ _ hw => ⟨hu.trans hw.1, hw.2⟩) fun _ w hw => ?_
  refine sat_bind.2 (sat_get.2 (sat_result.2 ⟨⟨?_, ?_, hw.fits⟩, ?_⟩))
  · exact { hu with phase := rfl : HeaderFrame ((s.openHeader eos bos).setPhase w.phase) (u.setPhase w.phase) }.trans hw.frame
  · have := hw.phase
    rwa [hu.phase, hu.bos] at this
  · cases w.phase <;> rfl

/-! ## The head of a header -/

theorem readMagic_reads (l : List Nat) : Reads k (readMagic l) (l.map fun b => (8, b)) () k := by
  unfold readMagic
  induction l with
  | nil => exact Reads.pure ()
  | cons x l ih =>
    exact Reads.bind (fs := [(8, x)]) (Reads.read_bind fun _ => Reads.check (by simp)) ih

/-- A header whose head is good goes on with its body. -/
theorem headerPacket_body {P : Params} {s : State} {eos bos : Bool} {t : Nat} {fs : List (Nat × Nat)}
    (ht : t = 1 ∨ t = 3 ∨ t = 5) (h : (s.initCursor s.arg0 s.arg1).Sends ((8, t) :: magicFields ++ fs)) :
    headerPacket P eos bos s = (do
      headerBody P t
      let u ← get
      result u.phase.code.toNat : Op (BitVec 32)) ((s.openHeader eos bos).advance 56) ∧
    ((s.openHeader eos bos).advance 56).Sends fs := by
  have h' : (s.openHeader eos bos).Sends ((8, t) :: (magicFields ++ fs)) := h.congr rfl rfl rfl rfl
  have hl : ((8, t) :: (magicFields ++ fs)) = [(8, t)] ++ (magicFields ++ fs) := rfl
  rw [hl] at h'
  have hm : ((s.openHeader eos bos).advance 8).Sends (magicFields ++ fs) := by simpa using h'.right
  refine ⟨?_, by simpa [magicFields, magicBytes] using hm.right⟩
  unfold headerPacket
  rw [bind_ok (x := (get : Op State)) (s := s) (a := s) rfl, bind_ok (x := initCursor s.arg0 s.arg1) (s := s) (a := ()) rfl,
    bind_ok (x := latchPacket eos bos) (a := ()) (t := s.openHeader eos bos) rfl, bind_ok (headerRead_sends h'.left)]
  rw [show headerCheck (t == 1 || t == 3 || t == 5) .type = (pure () : Op Unit) from by
    unfold headerCheck; rw [if_pos]; simpa [or_assoc] using ht]
  rw [bind_ok (x := (pure () : Op Unit)) (a := ()) rfl]
  have := readMagic_reads (k := (s.cfg, s.tab)) magicBytes ((s.openHeader eos bos).advance 8) ⟨rfl, rfl⟩ hm.left
  rw [bind_ok this]
  rfl

end Sys2Proof.Machine
end

