-- ==== Sys2Proof/Laws/PerInstr.lean ====
section
/-! SUPPORT. Statements made for every constructor of `Instr`, one lemma each. -/

namespace Sys2Proof.Laws

/-- The operation code of a command word is the one R94 gives the operation. -/
def OpcodeField.Statement (i : Instr) : Prop := fieldOpc (encode i) = i.opcode

/-- The operation code of a word made of fields. -/
theorem fieldOpc_commandWord (o a b c : BitVec 8) : fieldOpc (commandWord o a b c) = o := by
  simp only [fieldOpc, commandWord, BitVec.extractLsb'_append_eq_right]

theorem OpcodeField.reset : OpcodeField.Statement (.reset) := fieldOpc_commandWord _ _ _ _
theorem OpcodeField.headerin : ∀ a b, OpcodeField.Statement (.headerin a b) :=
  fun _ _ => fieldOpc_commandWord _ _ _ _
theorem OpcodeField.synthesis : ∀ a b, OpcodeField.Statement (.synthesis a b) :=
  fun _ _ => fieldOpc_commandWord _ _ _ _
theorem OpcodeField.bcInit : OpcodeField.Statement (.bcInit) := fieldOpc_commandWord _ _ _ _
theorem OpcodeField.bcRead : ∀ a, OpcodeField.Statement (.bcRead a) :=
  fun _ => fieldOpc_commandWord _ _ _ _
theorem OpcodeField.bcLook : ∀ a, OpcodeField.Statement (.bcLook a) :=
  fun _ => fieldOpc_commandWord _ _ _ _
theorem OpcodeField.bcAdv : ∀ a, OpcodeField.Statement (.bcAdv a) :=
  fun _ => fieldOpc_commandWord _ _ _ _
theorem OpcodeField.bcRead1 : OpcodeField.Statement (.bcRead1) := fieldOpc_commandWord _ _ _ _
theorem OpcodeField.cbUnquantize : ∀ a, OpcodeField.Statement (.cbUnquantize a) :=
  fun _ => fieldOpc_commandWord _ _ _ _
theorem OpcodeField.cbMakeWords : ∀ a, OpcodeField.Statement (.cbMakeWords a) :=
  fun _ => fieldOpc_commandWord _ _ _ _
theorem OpcodeField.cbMakeTree : ∀ a, OpcodeField.Statement (.cbMakeTree a) :=
  fun _ => fieldOpc_commandWord _ _ _ _
theorem OpcodeField.cbDecode : ∀ a, OpcodeField.Statement (.cbDecode a) :=
  fun _ => fieldOpc_commandWord _ _ _ _
theorem OpcodeField.cbDecodeSet : ∀ a b, OpcodeField.Statement (.cbDecodeSet a b) :=
  fun _ _ => fieldOpc_commandWord _ _ _ _
theorem OpcodeField.cbDecodeAdd : ∀ a b, OpcodeField.Statement (.cbDecodeAdd a b) :=
  fun _ _ => fieldOpc_commandWord _ _ _ _
theorem OpcodeField.cbDecodeVvAdd : ∀ a b c, OpcodeField.Statement (.cbDecodeVvAdd a b c) :=
  fun _ _ _ => fieldOpc_commandWord _ _ _ _
theorem OpcodeField.cbDecodeVs : ∀ a b c, OpcodeField.Statement (.cbDecodeVs a b c) :=
  fun _ _ _ => fieldOpc_commandWord _ _ _ _
theorem OpcodeField.f0Unpack : ∀ a, OpcodeField.Statement (.f0Unpack a) :=
  fun _ => fieldOpc_commandWord _ _ _ _
theorem OpcodeField.f0Look : ∀ a b, OpcodeField.Statement (.f0Look a b) :=
  fun _ _ => fieldOpc_commandWord _ _ _ _
theorem OpcodeField.f0Inverse1 : ∀ a b, OpcodeField.Statement (.f0Inverse1 a b) :=
  fun _ _ => fieldOpc_commandWord _ _ _ _
theorem OpcodeField.f0Inverse2 : ∀ a b, OpcodeField.Statement (.f0Inverse2 a b) :=
  fun _ _ => fieldOpc_commandWord _ _ _ _
theorem OpcodeField.f1Unpack : ∀ a, OpcodeField.Statement (.f1Unpack a) :=
  fun _ => fieldOpc_commandWord _ _ _ _
theorem OpcodeField.f1Look : ∀ a, OpcodeField.Statement (.f1Look a) :=
  fun _ => fieldOpc_commandWord _ _ _ _
theorem OpcodeField.f1Inverse1 : ∀ a b, OpcodeField.Statement (.f1Inverse1 a b) :=
  fun _ _ => fieldOpc_commandWord _ _ _ _
theorem OpcodeField.f1Inverse2 : ∀ a b, OpcodeField.Statement (.f1Inverse2 a b) :=
  fun _ _ => fieldOpc_commandWord _ _ _ _
theorem OpcodeField.resUnpack : ∀ a, OpcodeField.Statement (.resUnpack a) :=
  fun _ => fieldOpc_commandWord _ _ _ _
theorem OpcodeField.resLook : ∀ a, OpcodeField.Statement (.resLook a) :=
  fun _ => fieldOpc_commandWord _ _ _ _
theorem OpcodeField.res0Inverse : ∀ a b c, OpcodeField.Statement (.res0Inverse a b c) :=
  fun _ _ _ => fieldOpc_commandWord _ _ _ _
theorem OpcodeField.res1Inverse : ∀ a b c, OpcodeField.Statement (.res1Inverse a b c) :=
  fun _ _ _ => fieldOpc_commandWord _ _ _ _
theorem OpcodeField.res2Inverse : ∀ a b c, OpcodeField.Statement (.res2Inverse a b c) :=
  fun _ _ _ => fieldOpc_commandWord _ _ _ _
theorem OpcodeField.map0Unpack : ∀ a, OpcodeField.Statement (.map0Unpack a) :=
  fun _ => fieldOpc_commandWord _ _ _ _
theorem OpcodeField.map0Look : ∀ a, OpcodeField.Statement (.map0Look a) :=
  fun _ => fieldOpc_commandWord _ _ _ _
theorem OpcodeField.map0Inverse : OpcodeField.Statement (.map0Inverse) := fieldOpc_commandWord _ _ _ _
theorem OpcodeField.mdctInit : ∀ a, OpcodeField.Statement (.mdctInit a) :=
  fun _ => fieldOpc_commandWord _ _ _ _
theorem OpcodeField.mdctBackward : ∀ a b, OpcodeField.Statement (.mdctBackward a b) :=
  fun _ _ => fieldOpc_commandWord _ _ _ _
theorem OpcodeField.winInit : OpcodeField.Statement (.winInit) := fieldOpc_commandWord _ _ _ _
theorem OpcodeField.winApply : ∀ a, OpcodeField.Statement (.winApply a) :=
  fun _ => fieldOpc_commandWord _ _ _ _
theorem OpcodeField.hdrIdent : OpcodeField.Statement (.hdrIdent) := fieldOpc_commandWord _ _ _ _
theorem OpcodeField.hdrComment : OpcodeField.Statement (.hdrComment) := fieldOpc_commandWord _ _ _ _
theorem OpcodeField.hdrSetup : OpcodeField.Statement (.hdrSetup) := fieldOpc_commandWord _ _ _ _
theorem OpcodeField.hdrBook : ∀ a, OpcodeField.Statement (.hdrBook a) :=
  fun _ => fieldOpc_commandWord _ _ _ _
theorem OpcodeField.hdrTime : ∀ a, OpcodeField.Statement (.hdrTime a) :=
  fun _ => fieldOpc_commandWord _ _ _ _
theorem OpcodeField.hdrMode : ∀ a, OpcodeField.Statement (.hdrMode a) :=
  fun _ => fieldOpc_commandWord _ _ _ _

end Sys2Proof.Laws
end

