-- ==== Sys2Proof/Laws/Whole.lean ====
section
/-! SUPPORT. The frames of whole operations, class by class. -/

namespace Sys2Proof.Machine

/-- A unit operation other than `BC.INIT` stays inside the frame of decoding. -/
theorem opOf_unit_frame {i : Instr} (h : i.opClass = .unit) (hi : i ≠ .bcInit) (s : State) :
    Keeps DecodeFrame (opOf i s) := by
  have r := DecodeFrame.rel
  have fin : ∀ {α : Type} {op : Op α} {f : α → Nat}, Keeps DecodeFrame op → Keeps DecodeFrame (op >>= fun v => result (f v)) :=
    fun h => Keeps.bind r h fun _ => Keeps.result r _
  cases i <;> first | (simp [Instr.opClass] at h; done) | skip
  case bcInit => exact absurd rfl hi
  case bcRead n => exact fin (f := id) (readBits_frame _)
  case bcLook n =>
    refine fin (f := id) fun t => sat_lookBits.2 ⟨fun _ => .refl t, fun _ => .refl t⟩
  case bcAdv n => exact fin (f := fun _ => 0) (Keeps.modify (DecodeFrame.advance _))
  case bcRead1 => exact fin (f := id) (readBits_frame _)
  case cbDecode b => exact fin (f := id) (cbDecode_frame _)
  case cbDecodeSet b d => exact fin (f := fun _ => 0) (decodeFill_frame _ _ _ _ _ _ _)
  case cbDecodeAdd b d => exact fin (f := fun _ => 0) (decodeFill_frame _ _ _ _ _ _ _)
  case cbDecodeVvAdd b x y => exact fin (f := fun _ => 0) (decodeInterleaved_frame _ _ _ _ _)
  case cbDecodeVs b d m => exact fin (f := id) (cbDecodeVs_frame _ _ _ _ _)
  case f0Inverse1 f c => exact fin (f0Inverse1_frame _ _)
  case f0Inverse2 f c => exact fin (f0Inverse2_frame _ _ _)
  case f1Inverse1 f c => exact fin (f1Inverse1_frame _ _)
  case f1Inverse2 f c => exact fin (f1Inverse2_frame _ _ _)
  case res0Inverse r' x y => exact fin (res0Inverse_frame _ _)
  case res1Inverse r' x y => exact fin (res1Inverse_frame _ _)
  case res2Inverse r' x y => exact fin (res2Inverse_frame _ _)
  case map0Inverse => exact fin (f := fun _ => 0) (map0Inverse_frame _)
  case mdctBackward w c => exact fin (f := fun _ => 0) (mdctBackward_frame _ _)
  case winApply c => exact fin (f := fun _ => 0) (winApply_frame _)

/-- An internal operation stays inside the frame of the header parser. -/
theorem opOf_internal_frame {i : Instr} (h : i.opClass = .internal) (s : State) : Keeps HeaderFrame (opOf i s) := by
  have r := HeaderFrame.rel
  have fin : ∀ {op : Op Unit}, Keeps HeaderFrame op → Keeps HeaderFrame (op >>= fun _ => result 0) :=
    fun h => Keeps.bind r h fun _ => Keeps.result r _
  cases i <;> first | (simp [Instr.opClass] at h; done) | skip
  case cbUnquantize b => exact fin (cbUnquantize_frame _)
  case cbMakeWords b => exact fin (cbMakeWords_frame _)
  case cbMakeTree b => exact Keeps.result r _
  case f0Unpack f => exact fin (f0Unpack_frame _)
  case f0Look f w => exact fin (f0Look_frame _ _ _)
  case f1Unpack f => exact fin (f1Unpack_frame _)
  case f1Look f => exact fin (f1Look_frame _)
  case resUnpack r' => exact fin (resUnpack_frame _)
  case resLook r' => exact fin (resLook_frame _)
  case map0Unpack m => exact fin (map0Unpack_frame _)
  case map0Look m => exact Keeps.result r _
  case mdctInit w => exact fin (mdctInit_frame _ _)
  case winInit => exact fin (winInit_frame _)
  case hdrIdent => exact fin hdrIdent_frame
  case hdrComment => exact fin hdrComment_frame
  case hdrSetup => exact fin hdrSetup_frame
  case hdrBook b => exact fin (hdrBook_frame _)
  case hdrTime t => exact fin (hdrTime_frame _)
  case hdrMode k => exact fin (hdrMode_frame _)

/-- What a unit operation the host or the sequencer issues can end in: the frame of decoding, then a status. -/
theorem exec_unit_next {i : Instr} {s t : State} (h : i.opClass = .unit) (hi : i ≠ .bcInit) (he : exec i s = .next t) :
    ∃ u, DecodeFrame s u ∧ ((∃ v, t = u.completeOk v) ∨ ∃ f, t = u.completeFail f) := by
  rw [exec_eq] at he
  refine issue_next (P := fun t => ∃ u, DecodeFrame s u ∧ ((∃ v, t = u.completeOk v) ∨ ∃ f, t = u.completeFail f)) he
    ((opOf_unit_frame h hi s s).mono (fun v u hu => ⟨u, hu, .inl ⟨v, rfl⟩⟩)
    fun f u hu => ⟨u, hu, .inr ⟨f, rfl⟩⟩) fun f _ => ⟨s, .refl s, .inr ⟨f, rfl⟩⟩

/-- The same for an internal operation. -/
theorem exec_internal_next {i : Instr} {s t : State} (h : i.opClass = .internal) (he : exec i s = .next t) :
    ∃ u, HeaderFrame s u ∧ ((∃ v, t = u.completeOk v) ∨ ∃ f, t = u.completeFail f) := by
  rw [exec_eq] at he
  refine issue_next (P := fun t => ∃ u, HeaderFrame s u ∧ ((∃ v, t = u.completeOk v) ∨ ∃ f, t = u.completeFail f)) he
    ((opOf_internal_frame h s s).mono (fun v u hu => ⟨u, hu, .inl ⟨v, rfl⟩⟩)
    fun f u hu => ⟨u, hu, .inr ⟨f, rfl⟩⟩) fun f _ => ⟨s, .refl s, .inr ⟨f, rfl⟩⟩

/-- The host's internal operations are turned away. -/
theorem exec_internal_host {i : Instr} {s : State} (h : i.opClass = .internal) (hs : s.issuer = .host) :
    exec i s = .next (s.completeFail (.illegal .internalOperation)) := by
  rw [exec_eq]
  refine issue_rejected hs ?_
  cases i <;> first | rfl | simp [Instr.opClass] at h

end Sys2Proof.Machine
end

