-- ==== Sys2Proof/Tests/Slice0.lean ====
section
/-! SUPPORT. The package's own tests. Expected values are those of spec/95_test_vectors.md and spec/96_test_programs.md, or
worked out by hand from the rule a test names. The theorems `witness_…` show, for each statement with hypotheses, a concrete
state and operands that meet them all together. -/

namespace Sys2Proof.Tests

set_option Elab.async false

open Sys2Proof Sys2Proof.Machine

/-! ## Well-formedness: each check refuses an ill-formed term -/

theorem smoke_read_count : Instr.wellFormed (.bcRead 33) = false := by decide
theorem smoke_look_count : Instr.wellFormed (.bcLook 63) = false := by decide
theorem smoke_adv_count : Instr.wellFormed (.bcAdv 33) = false := by decide
theorem smoke_set_destination : Instr.wellFormed (.cbDecodeSet 0 (.pcm 255)) = false := by decide
theorem smoke_add_destination : Instr.wellFormed (.cbDecodeAdd 0 (.pcm 255)) = false := by decide
theorem smoke_vs_destination : Instr.wellFormed (.cbDecodeVs 0 (.pcm 255) .add) = false := by decide
theorem smoke_legal : Instr.wellFormed (.bcRead 32) = true ∧ Instr.wellFormed (.cbDecodeSet 0 (.pcm 254)) = true := by decide

/-! ## Decoding: a word of every operation, written out from 30_encoding.md R91 to R94

The bytes of a word literal, left to right, are the fields `C`, `B`, `A`, `OPC`. -/

theorem decode_word_reset : decode 0x00000000 = .ok .reset := by decide
theorem decode_word_headerin : decode 0x00010001 = .ok (.headerin false true) := by decide
theorem decode_word_synthesis : decode 0x00020002 = .ok (.synthesis true false) := by decide
theorem decode_word_bcInit : decode 0x00000010 = .ok .bcInit := by decide
theorem decode_word_bcRead : decode 0b00000000000000000010000000010001 = .ok (.bcRead 32) := by decide
theorem decode_word_bcLook : decode 0x00001F12 = .ok (.bcLook 31) := by decide
theorem decode_word_bcAdv : decode 0x00000113 = .ok (.bcAdv 1) := by decide
theorem decode_word_bcRead1 : decode 0x00000014 = .ok .bcRead1 := by decide
theorem decode_word_cbUnquantize : decode 0x0000FF20 = .ok (.cbUnquantize 255) := by decide
theorem decode_word_cbMakeWords : decode 0x00000121 = .ok (.cbMakeWords 1) := by decide
theorem decode_word_cbMakeTree : decode 0x00000222 = .ok (.cbMakeTree 2) := by decide
theorem decode_word_cbDecode : decode 0x00000323 = .ok (.cbDecode 3) := by decide
theorem decode_word_cbDecodeSet : decode 0x00FF0424 = .ok (.cbDecodeSet 4 .lsp) := by decide
theorem decode_word_cbDecodeAdd : decode 0x00FE0425 = .ok (.cbDecodeAdd 4 (.pcm 254)) := by decide
theorem decode_word_cbDecodeVvAdd : decode 0b00000010000000010000011100100110 = .ok (.cbDecodeVvAdd 7 1 2) := by decide
theorem decode_word_cbDecodeVs : decode 0x02050327 = .ok (.cbDecodeVs 3 (.pcm 5) .multiply) := by decide
theorem decode_word_f0Unpack : decode 0x00000130 = .ok (.f0Unpack 1) := by decide
theorem decode_word_f0Look : decode 0x00010231 = .ok (.f0Look 2 1) := by decide
theorem decode_word_f0Inverse1 : decode 0x00050132 = .ok (.f0Inverse1 1 5) := by decide
theorem decode_word_f0Inverse2 : decode 0x00050133 = .ok (.f0Inverse2 1 5) := by decide
theorem decode_word_f1Unpack : decode 0x00000134 = .ok (.f1Unpack 1) := by decide
theorem decode_word_f1Look : decode 0x00003F35 = .ok (.f1Look 63) := by decide
theorem decode_word_f1Inverse1 : decode 0b00000000000001010000000100110110 = .ok (.f1Inverse1 1 5) := by decide
theorem decode_word_f1Inverse2 : decode 0x00060237 = .ok (.f1Inverse2 2 6) := by decide
theorem decode_word_resUnpack : decode 0x00000340 = .ok (.resUnpack 3) := by decide
theorem decode_word_resLook : decode 0x00000341 = .ok (.resLook 3) := by decide
theorem decode_word_res0Inverse : decode 0x03020142 = .ok (.res0Inverse 1 2 3) := by decide
theorem decode_word_res1Inverse : decode 0x03020143 = .ok (.res1Inverse 1 2 3) := by decide
theorem decode_word_res2Inverse : decode 0b00000011000000100000000101000100 = .ok (.res2Inverse 1 2 3) := by decide
theorem decode_word_map0Unpack : decode 0x00000450 = .ok (.map0Unpack 4) := by decide
theorem decode_word_map0Look : decode 0x00000451 = .ok (.map0Look 4) := by decide
theorem decode_word_map0Inverse : decode 0x00000052 = .ok .map0Inverse := by decide
theorem decode_word_mdctInit : decode 0x00000160 = .ok (.mdctInit 1) := by decide
theorem decode_word_mdctBackward : decode 0x00070161 = .ok (.mdctBackward 1 7) := by decide
theorem decode_word_winInit : decode 0x00000070 = .ok .winInit := by decide
theorem decode_word_winApply : decode 0x00090071 = .ok (.winApply 9) := by decide
theorem decode_word_hdrIdent : decode 0x00000080 = .ok .hdrIdent := by decide
theorem decode_word_hdrComment : decode 0x00000081 = .ok .hdrComment := by decide
theorem decode_word_hdrSetup : decode 0x00000082 = .ok .hdrSetup := by decide
theorem decode_word_hdrBook : decode 0x00000583 = .ok (.hdrBook 5) := by decide
theorem decode_word_hdrTime : decode 0x00000684 = .ok (.hdrTime 6) := by decide
theorem decode_word_hdrMode : decode 0x00000785 = .ok (.hdrMode 7) := by decide
theorem decode_word_reserved : decode 0x00000003 = .error .reservedOpcode := by decide
theorem decode_word_unused_field : decode 0x01000023 = .error .badField := by decide
theorem decode_word_flag_bit_2 : decode 0x00040002 = .error .badField := by decide
theorem decode_word_mode_3 : decode 0x03000027 = .error .badField := by decide
theorem decode_word_internal_form : decode 0x00010021 = .error .internalForm := by decide

/-! ## Helpers -/

/-- The next state of an operation; the state itself where there is none. -/
def run (i : Instr) (s : State) : State :=
  match exec i s with
  | .next t => t
  | _ => s

/-- The bits of fields in read order. -/
def bitsOf (fs : List (Nat × Nat)) : List Bool := fs.flatMap fun x => (List.range x.1).map x.2.testBit

/-- Bits as bytes, the first bit least significant. -/
def packBits : Nat → List Bool → List Byte
  | 0, _ => []
  | n + 1, bits =>
    BitVec.ofNat 8 ((bits.take 8).foldr (fun b acc => bitValue b + 2 * acc) 0) :: packBits n (bits.drop 8)

/-- The bytes of a payload that holds these fields. -/
def payloadOf (fs : List (Nat × Nat)) : List Byte := packBits ((fieldBits fs + 7) / 8) (bitsOf fs)

/-- Bytes at address 0 of `PKT`, and the cursor on them. -/
def withBytes (bytes : List Byte) (s : State) : State :=
  { s with pkt := (s.hostWritePayload 0 bytes).pkt, base := 0, len := BitVec.ofNat 32 bytes.length, pos := 0, eoff := false }

/-- Bytes at address 0 of `PKT`, named by `ARG0` and `ARG1`. -/
def withPacket (bytes : List Byte) (s : State) : State :=
  { s with pkt := (s.hostWritePayload 0 bytes).pkt, arg0 := 0, arg1 := BitVec.ofNat 32 bytes.length }

/-- `State.Sends` as a check. -/
def fieldsCheck (m : Memory) (base : Nat) : Nat → List (Nat × Nat) → Bool
  | _, [] => true
  | p, (n, v) :: fs => payloadField m base p n == v && fieldsCheck m base (p + n) fs

theorem fieldsCheck_fieldsAt (m : Memory) (base : Nat) :
    ∀ (fs : List (Nat × Nat)) (p : Nat), fieldsCheck m base p fs = true → fieldsAt m base p fs
  | [], _, _ => trivial
  | (n, v) :: fs, p, h => by
    simp only [fieldsCheck, Bool.and_eq_true, beq_iff_eq] at h
    exact ⟨h.1, fieldsCheck_fieldsAt m base fs (p + n) h.2⟩

def sendsCheck (s : State) (fs : List (Nat × Nat)) : Bool :=
  fieldsCheck s.pkt s.base.toNat s.pos fs && decide (s.pos + fieldBits fs ≤ 8 * s.len.toNat)

theorem sends_of_check {s : State} {fs : List (Nat × Nat)} (h : sendsCheck s fs = true) : s.Sends fs := by
  simp only [sendsCheck, Bool.and_eq_true, decide_eq_true_eq] at h
  exact ⟨fieldsCheck_fieldsAt _ _ _ _ h.1, h.2⟩

/-! ## A small configured decoder

Two channels, block sizes 8 and 16, two books, one floor of each type, one residue of each type, a coupled mapping, one mode
of each block size. -/

/-- `dim` 1, codewords 0 and 1, no values. -/
def book0 : Book := { dim := 1, entries := 2, lengthlist := [1, 1], maptype := 0, quant := none }

/-- Book A of 95_test_vectors.md part 3.4: entries (−1,−1), (1,−1), (−1,1), (1,1). -/
def book1 : Book :=
  { dim := 2, entries := 4, lengthlist := [2, 2, 2, 2], maptype := 1,
    quant := some { qMin := 0xE2800001, qDelta := 0x62A00001, qQuant := 1, qSequencep := false, quantlist := [0, 1] } }

def floorA : Floor0 := { order := 3, rate := 8000, barkmap := 4, ampbits := 4, ampdB := 100, numbooks := 1, books := [1] }

def floorB : Floor1 :=
  { partitions := 1, partitionclass := [0], classes := [{ dim := 1, subs := 0, book := none, subbook := [some 1] }],
    mult := 1, rangebits := 3, postlist := [0, 8, 4] }

def residueA (last : Nat) : Residue :=
  { rangeBegin := 0, rangeEnd := last, grouping := 4, partitions := 2, groupbook := 0, secondstages := [0, 1], booklist := [1] }

def mappingA : Mapping :=
  { submaps := 1, coupling := [(0, 1)], chmuxlist := [0, 0], timesubmap := [0], floorsubmap := [1], residuesubmap := [1] }

def shortMode : Mode := { blockflag := false, windowtype := 0, transformtype := 0, mapping := 0 }
def longMode : Mode := { blockflag := true, windowtype := 0, transformtype := 0, mapping := 0 }

/-- What a setup header sends for this configuration: one dense and one ordered length list. -/
def layout : SetupLayout :=
  { books := [(.dense [1, 1], book0), (.ordered 2 [4], book1)], times := 1,
    floors := [.type0 floorA, .type1 floorB],
    residues := [(0, [false, false], residueA 4), (1, [false, true], residueA 8), (2, [false, false], residueA 16)],
    maps := [(false, true, mappingA)], modes := [shortMode, longMode] }

/-- The identification header's part. -/
def identCfg : Cfg :=
  { Cfg.absent with
    version := some 0, channels := some 2, rate := some 8000,
    bitrateUpper := some 0, bitrateNominal := some 0, bitrateLower := some 0,
    blocksize0 := some 8, blocksize1 := some 16 }

/-- The tables of the configuration, as `HEADERIN` builds them. -/
def benchTab : Tab where
  bookWords := [makeWords [1, 1], makeWords [2, 2, 2, 2]]
  bookValues := [none, bookValues book1]
  floor0Short := [some (floor0Table defaultParams floorA 8)]
  floor0Long := [some (floor0Table defaultParams floorA 16)]
  floor1 := [none, some (floor1Table floorB)]
  res := [some (resTable (residueA 4) 1), some (resTable (residueA 8) 1), some (resTable (residueA 16) 1)]
  mdct0 := some (mdctTable defaultParams 8)
  mdct1 := some (mdctTable defaultParams 16)
  win000 := some (windowArray defaultParams 8 4 4)
  win100 := some (windowArray defaultParams 16 4 4)
  win101 := some (windowArray defaultParams 16 4 8)
  win110 := some (windowArray defaultParams 16 8 4)
  win111 := some (windowArray defaultParams 16 8 8)
  modebits := some 1

/-- A decoder with this configuration and a short block of `+0.0`. -/
def bench : State :=
  { State.reset with
    phase := .ready, cfg := layout.load identCfg, tab := benchTab, pcmend := 8,
    pcm := List.replicate 2 (List.replicate 8 0), bstate := .emitted, samples := 8, res := 8 }

theorem bench_hasWords : HasWords bench.tab 0 ∧ HasWords bench.tab 1 := ⟨⟨_, rfl⟩, ⟨_, rfl⟩⟩

theorem bench_hasValues : HasValues bench.cfg bench.tab 1 := ⟨bench_hasWords.2, ⟨_, rfl⟩, ⟨_, rfl⟩⟩

theorem bench_residue {n t last : Nat} (ht : fieldAt bench.cfg.residueType n = some t) (h2 : t ≤ 2)
    (hr : fieldAt bench.cfg.residue n = some (residueA last))
    (hq : fieldAt bench.tab.res n = some (resTable (residueA last) 1)) : ResidueUsable bench.cfg bench.tab n := by
  refine ⟨_, _, ⟨t, ht, h2⟩, hr, hq, bench_hasWords.1, ⟨_, rfl⟩, fun cls stage h => ?_⟩
  match cls with
  | 0 => simp [residueA] at h
  | 1 =>
    have : stage = 0 := by
      simp only [residueA, List.getD_cons_succ, List.getD_cons_zero] at h
      rcases stage with _ | k
      · rfl
      · simp [Nat.testBit_succ] at h
    subst this
    exact ⟨1, rfl, bench_hasValues⟩
  | n + 2 => simp [residueA] at h

theorem bench_configured : bench.Configured where
  channels := ⟨2, rfl, by decide, by decide⟩
  blocksizes := ⟨3, 4, rfl, rfl, by decide, by decide, by decide⟩
  floors := by
    refine ⟨2, rfl, by decide, fun f hf => ?_⟩
    obtain rfl | rfl : f = 0 ∨ f = 1 := by omega
    · refine .inl ⟨rfl, floorA, rfl, rfl, fun b hb => ?_, ⟨_, rfl⟩, ⟨_, rfl⟩⟩
      obtain rfl : b = 1 := by simpa [floorA] using hb
      exact bench_hasValues
    · refine .inr ⟨rfl, floorB, rfl, ⟨_, rfl⟩, fun n hn => ?_⟩
      obtain rfl : n = 0 := by simpa [floorB] using hn
      refine ⟨_, rfl, fun h => absurd rfl h, fun b hb => ?_⟩
      obtain rfl : b = 1 := by simpa using hb
      exact bench_hasWords.2
  residues := by
    refine ⟨3, rfl, by decide, fun r hr => ?_⟩
    obtain rfl | rfl | rfl : r = 0 ∨ r = 1 ∨ r = 2 := by omega
    · exact bench_residue (last := 4) rfl (by decide) rfl rfl
    · exact bench_residue (last := 8) rfl (by decide) rfl rfl
    · exact bench_residue (last := 16) rfl (by decide) rfl rfl
  maps := by
    refine ⟨1, rfl, fun m hm => ?_⟩
    obtain rfl : m = 0 := by omega
    refine ⟨mappingA, rfl, fun c => ?_, fun i => ?_, fun x hx => ?_⟩
    · have : ∀ n, mappingA.floorsubmap.getD n 0 < 2 := by
        intro n
        rcases n with _ | n <;> simp [mappingA]
      exact this _
    · show mappingA.residuesubmap.getD i 0 < 3
      rcases i with _ | i <;> simp [mappingA]
    · obtain rfl : x = (0, 1) := by simpa [mappingA] using hx
      decide
  modes := by
    refine ⟨2, rfl, by decide, by decide, rfl, fun k hk => ?_⟩
    obtain rfl | rfl : k = 0 ∨ k = 1 := by omega
    · exact ⟨shortMode, rfl, by decide⟩
    · exact ⟨longMode, rfl, by decide⟩
  transforms := ⟨⟨_, rfl⟩, ⟨_, rfl⟩⟩
  windows := by
    rintro (_ | _) lw nw h
    · obtain ⟨rfl, rfl⟩ := h rfl
      exact ⟨_, rfl⟩
    · cases lw <;> cases nw <;> exact ⟨_, rfl⟩

theorem bench_arrays : bench.arraysShape :=
  ⟨List.length_replicate, List.length_replicate, List.length_replicate⟩

theorem bench_pcmShape : bench.pcmShape := .inr ⟨rfl, by decide⟩

theorem bench_inv : bench.Inv where
  issuer := rfl
  pkt := rfl
  pcm := bench_pcmShape
  noBlock h := absurd rfl h
  arrays := bench_arrays
  status := ⟨by decide, fun _ => rfl, fun h => absurd rfl h⟩
  bstate := .inr (.inl rfl)
  short _ := ⟨rfl, rfl⟩

theorem bench_inRange : bench.IndicesInRange where
  floor0 f hf F hty hF := by
    have hf : f < 2 := hf
    obtain rfl | rfl : f = 0 ∨ f = 1 := by omega
    · cases hF
      refine ⟨by decide, fun b hb => ⟨2, rfl, ?_⟩⟩
      obtain rfl : b = 1 := by simpa [floorA] using hb
      decide
    · cases hty
  floor1 f hf F hty hF := by
    have hf : f < 2 := hf
    obtain rfl | rfl : f = 0 ∨ f = 1 := by omega
    · cases hty
    · cases hF
      refine ⟨⟨by decide, rfl, 8, rfl, by decide⟩, fun n hn => ?_⟩
      obtain rfl : n = 0 := by simpa [floorB] using hn
      refine ⟨_, rfl, fun h => absurd rfl h, fun b hb => ⟨2, rfl, ?_⟩⟩
      obtain rfl : b = 1 := by simpa using hb
      decide
  residueBooks r hr R hR := by
    have book : ∀ b < 2, bench.cfg.hasBook b := fun b hb => ⟨2, rfl, hb⟩
    have all : ∀ last, bench.cfg.hasBook (residueA last).groupbook ∧ ∀ b ∈ (residueA last).booklist, bench.cfg.hasBook b :=
      fun last => ⟨book 0 (by decide), fun b hb => by
        obtain rfl : b = 1 := by simpa [residueA] using hb
        exact book 1 (by decide)⟩
    have hr : r < 3 := hr
    obtain rfl | rfl | rfl : r = 0 ∨ r = 1 ∨ r = 2 := by omega
    all_goals cases hR; exact all _
  decodeMap r hr Q hQ := by
    have row : ∀ R t, t < (resTable R 1).partvals → ∃ row, (resTable R 1).decodemap[t]? = some row := fun R t ht =>
      ⟨_, List.getElem?_eq_getElem (by simpa [resTable] using ht)⟩
    have hr : r < 3 := hr
    obtain rfl | rfl | rfl : r = 0 ∨ r = 1 ∨ r = 2 := by omega
    all_goals cases hQ; exact row _
  maps m hm M hM := by
    have hm : m < 1 := hm
    obtain rfl : m = 0 := by omega
    cases hM
    exact ⟨rfl, by decide, rfl, by decide, rfl, by decide, rfl, by decide⟩

theorem bench_configOk : bench.ConfigOk where
  identified _ := ⟨⟨2, rfl, by decide, by decide⟩, 3, 4, rfl, rfl, by decide, by decide, by decide⟩
  ready _ := bench_configured
  inRange _ := bench_inRange

/-! ## Vectors of 95_test_vectors.md -/

/-- The result triple `(STATUS, CAUSE, RES)` with `POS` and `EOFF`. -/
def outcome (s : State) : Nat × Nat × Nat × Nat × Bool := (s.status.toNat, s.cause.toNat, s.res.toNat, s.pos, s.eoff)

/-- `RES` of a failed command. -/
def allOnes : Nat := 0xFFFFFFFF

/-- The configured decoder with the cursor on these bytes and `ARG0`, `ARG1` set. -/
def benchOn (bytes : List Byte) (arg0 arg1 : Nat) : State :=
  { withBytes bytes bench with arg0 := BitVec.ofNat 32 arg0, arg1 := BitVec.ofNat 32 arg1 }

/-- The sequencer's turn. -/
def bySequencer (s : State) : State := { s with issuer := .sequencer }

/-- Part 2.1. -/
theorem test_read_3 : outcome (run (.bcRead 3) (withBytes [0xB5, 0x03] State.reset)) = (0, 0, 5, 3, false) := by decide
theorem test_read_past_end :
    outcome (run (.bcRead 17) (withBytes [0xB5, 0x03] State.reset)) = (1, 0, allOnes, 17, true) := by decide
theorem test_look_8 : outcome (run (.bcLook 8) (withBytes [0xB5, 0x03] State.reset)) = (0, 0, 0xB5, 0, false) := by decide
/-- Part 2.2, sequence a: four bytes, the first least significant. -/
theorem test_look_32 :
    outcome (run (.bcLook 32) (withBytes [0x78, 0x56, 0x34, 0x12] State.reset)) = (0, 0, 0x12345678, 0, false) := by decide
/-- Part 2.2, sequence b: advancing past the end is `OK` and sets no flag. -/
theorem test_adv_past_end : outcome (run (.bcAdv 32) (withBytes [0x78] State.reset)) = (0, 0, 0, 32, false) := by decide
/-- Part 2.5. -/
theorem test_read1 : outcome (run .bcRead1 ((withBytes [0x02] State.reset).advance 1)) = (0, 0, 1, 2, false) := by decide
theorem test_init :
    (run .bcInit { State.reset with arg0 := 5, arg1 := 7, pos := 9, eoff := true }) =
      { State.reset with arg0 := 5, arg1 := 7, base := 5, len := 7 } := rfl

/-- Part 3.1. -/
theorem test_packed_floats :
    [0xE2800001, 0x62600003, 0x00000000, 0x80000000, 0x629FFFFF, 0x72800001, 0x3D000001].map
        (fun raw => unpackFloat (BitVec.ofNat 32 raw)) =
      [0xBF800000, 0x3FC00000, 0, 0, 0x49FFFFF8, 0x7F800000, 0] := by decide +kernel
/-- Part 3.2. -/
theorem test_quantvals :
    [(81, 4), (8, 2), (1, 3), (15, 2), (16, 2), (26, 3), (16777215, 2), (16777215, 24)].map
        (fun x => quantvals 1 x.2 x.1) = [3, 2, 1, 3, 4, 2, 4095, 1] := by decide +kernel
/-- Part 3.3. -/
theorem test_make_words :
    makeWords [2, 4, 4, 4, 4, 2, 3, 3] =
      some [some [false, false], some [false, true, false, false], some [false, true, false, true],
        some [false, true, true, false], some [false, true, true, true], some [true, false], some [true, true, false],
        some [true, true, true]] := by decide
theorem test_make_words_overpopulated : makeWords [1, 2, 2, 3] = none ∧ makeWords [1, 1, 1] = none := by decide
theorem test_make_words_sparse :
    makeWords [3, 0, 1] = some [some [false, false, false], none, some [true]] := by decide
/-- Part 3.4, book A. -/
theorem test_unquantize :
    fieldAt (run (.cbUnquantize 1) (bySequencer { bench with tab := Tab.absent })).tab.bookValues 1 =
      some [0xBF800000, 0xBF800000, 0x3F800000, 0xBF800000, 0xBF800000, 0x3F800000, 0x3F800000, 0x3F800000] := by
  decide +kernel
/-- Part 3.4, book C with `q_seq` 1: the sum carries along the vector. -/
theorem test_unquantize_sequence :
    bookValues { dim := 3, entries := 2, lengthlist := [1, 1], maptype := 2,
                 quant := some { qMin := 0x62600003, qDelta := 0x60200001, qQuant := 2, qSequencep := true,
                                 quantlist := [0, 0, 0, 3, 1, 2] } } =
      some [0x3FC00000, 0x40400000, 0x40900000, 0x3FC00030, 0x40400020, 0x40900018] := by decide +kernel
/-- Part 10, cause 14. -/
theorem test_make_words_operation :
    outcome (run (.cbMakeWords 0) (bySequencer { bench with cfg := { bench.cfg with book := [some { book0 with lengthlist := [1, 1, 1] }] } })) =
      (4, 14, allOnes, 0, false) := by decide +kernel
/-- Part 3.5, book [3,0,1]. -/
def sparseBench (byte : Byte) : State :=
  withBytes [byte] { bench with tab := { bench.tab with bookWords := [makeWords [3, 0, 1]] } }
theorem test_decode_entry : outcome (run (.cbDecode 0) (sparseBench 1)) = (0, 0, 2, 1, false) := by decide +kernel
theorem test_decode_bad_code : outcome (run (.cbDecode 0) (sparseBench 4)) = (7, 0, allOnes, 3, false) := by decide +kernel
/-- Part 3.6: payload `36` is entries 1, 2, 3, 0. -/
theorem test_decode_set :
    ((run (.cbDecodeSet 1 (.pcm 0)) (benchOn [0x36] 1 3)).pcm[0]?) =
      some [0, 0x3F800000, 0xBF800000, 0xBF800000, 0x3F800000, 0, 0, 0] := by decide +kernel
theorem test_decode_set_eof :
    outcome (run (.cbDecodeSet 1 (.pcm 0)) (benchOn [0x06] 0 10)) = (1, 0, allOnes, 9, true) := by decide +kernel
theorem test_decode_add_drops :
    ((run (.cbDecodeAdd 1 (.pcm 0))
        { benchOn [0x36] 6 4 with pcm := List.replicate 2 (List.replicate 8 0x41200000) }).pcm[0]?).map (·.drop 5) =
      some [0x41200000, 0x41300000, 0x41100000] := by decide +kernel
theorem test_decode_vv_add :
    ((run (.cbDecodeVvAdd 1 0 2) (benchOn [0x36, 0] 3 4)).pcm.map (·.take 4)) =
      [[0, 0x3F800000, 0xBF800000, 0], [0, 0xBF800000, 0x3F800000, 0]] := by decide +kernel
/-- Part 3.7: entry 3 added, then multiplied, at index 1 and step 3. -/
theorem test_decode_vs_add :
    ((run (.cbDecodeVs 1 (.pcm 0) .add) { benchOn [0x03] 1 3 with pcm := [[0, 0x3F800000, 0, 0, 0xBF800000, 0, 0, 0]] }).pcm) =
      [[0, 0x40000000, 0, 0, 0, 0, 0, 0]] := by decide +kernel
theorem test_decode_vs_multiply :
    ((run (.cbDecodeVs 1 (.pcm 0) .multiply) { benchOn [0x00] 1 3 with pcm := [[0, 0x40000000, 0, 0, 0, 0, 0, 0]] }).pcm) =
      [[0, 0xC0000000, 0, 0, 0x80000000, 0, 0, 0]] := by decide +kernel

/-- Part 4.1. -/
theorem test_f0_look_short :
    (fieldAt (run (.f0Look 0 0) (bySequencer { bench with tab := Tab.absent })).tab.floor0Short 0).map (·.linearmap) =
      some [0, 1, 3, 3] := by decide +kernel
theorem test_f0_look_long : (floor0Table defaultParams floorA 16).linearmap = [0, 1, 1, 2, 3, 3, 3, 3] := by decide +kernel
/-- Part 4.2: amplitude 15, book 0, entries 2 and 1; here of book A. -/
theorem test_f0_inverse1 :
    (run (.f0Inverse1 0 1) (benchOn [0x2F, 0x01] 0 0)).hostReadMemo 1 =
      some (.floor0 0 [0xBF800000, 0x3F800000, 0x40000000] 0x42C80000) := by decide +kernel
theorem test_f0_inverse1_silent :
    outcome (run (.f0Inverse1 0 1) (benchOn [0x20] 0 0)) = (0, 0, 0, 4, false) := by decide +kernel
/-- Part 4.3. -/
theorem test_f0_curve :
    [0, 1, 3].map (fun k => defaultParams.f0Curve [0x3F000000, 0x3FC00000, 0x40400000] 3 0x42C80000 100 k 4) =
      [0x4832A780, 0x3EF142B6, 0x3D08A9B7] := by decide +kernel
theorem test_f0_inverse2 :
    ((run (.f0Inverse2 0 0)
        { bench with
          memo := [some (.floor0 0 [0x3F000000, 0x3FC00000, 0x40400000] 0x42C80000)]
          pcm := [List.replicate 8 0x3F800000] }).pcm) =
      [[0x4832A780, 0x3EF142B6, 0x3D08A9B7, 0x3D08A9B7, 0x3F800000, 0x3F800000, 0x3F800000, 0x3F800000]] := by decide +kernel

/-- Part 5.1. -/
theorem test_render_point :
    (renderPoint 0 8 100 140 4, renderPoint 0 8 0 255 4, renderPoint 0 8 255 0 4) = (120, 127, 128) := by decide
theorem test_render_line :
    (renderLine 8 0 8 255 0, renderLine 8 0 8 13 10, renderLine 16 0 7 0 (-20)) =
      ([255, 224, 192, 160, 128, 96, 64, 32], [13, 13, 13, 12, 12, 12, 11, 11], [0, -2, -5, -8, -11, -14, -17]) := by decide
/-- Part 5.2. -/
def floorC : Floor1 :=
  { partitions := 1, partitionclass := [0], classes := [{ dim := 4, subs := 0, book := none, subbook := [none] }],
    mult := 2, rangebits := 4, postlist := [0, 16, 8, 4, 12, 2] }
theorem test_f1_look :
    fieldAt (run (.f1Look 0) (bySequencer { bench with cfg := { bench.cfg with floor := [some (.type1 floorC)] } })).tab.floor1 0 =
      some { posts := 6, n := 16, quantQ := 128, forwardIndex := [0, 5, 3, 2, 4, 1],
             loneighbor := [0, 0, 2, 0], hineighbor := [1, 2, 1, 3] } := by decide +kernel
theorem test_unwrap :
    [31, 1, 2, 30].map (fun v => 120 + unwrap 256 120 v) = [104, 119, 121, 135] ∧
      [11, 12, 31].map (fun v => 250 + unwrap 256 250 v) = [244, 243, 224] := by decide
/-- Part 5.4, `cval` 0: post 3 stays unused. -/
theorem test_unwrap_posts :
    unwrapPosts { posts := 5, n := 16, quantQ := 128, forwardIndex := [0, 3, 2, 4, 1], loneighbor := [0, 0, 2], hineighbor := [1, 2, 1] }
      [0, 16, 8, 4, 12] [60, 20, 0, 0, 31] = ([60, 20, 40, 50, 14], [true, true, true, false, true]) := by decide
/-- R234: `nonzero` 1, endpoints 100 and 140 in 8 bits each, entry 3 of book A. -/
theorem test_f1_inverse1 :
    (run (.f1Inverse1 1 0) (benchOn [0xC9, 0x18, 0x07] 0 0)).hostReadMemo 0 =
      some (.floor1 1 [100, 140, 118] [true, true, true]) := by decide +kernel
theorem test_f1_inverse1_short_payload :
    outcome (run (.f1Inverse1 1 0) (benchOn [0xC9, 0x18] 0 0)) = (0, 0, 0, 17, true) := by decide +kernel
/-- Part 5.3: the curve from 100 to 120 over four words. -/
theorem test_f1_inverse2 :
    ((run (.f1Inverse2 1 0)
        { bench with
          memo := [some (.floor1 1 [100, 140, 120] [true, true, false])], pcm := [List.replicate 8 0x3F800000] }).pcm) =
      [[0x3872506E, 0x38A5FC09, 0x38E365D8, 0x391BC451, 0x3F800000, 0x3F800000, 0x3F800000, 0x3F800000]] := by decide +kernel

/-- Part 6.1. -/
theorem test_res_look :
    resTable { residueA 8 with partitions := 3, secondstages := [2, 5, 0], booklist := [2, 1, 2] } 2 =
      { stages := 3, partbooks := [[none, some 2], [some 1, none, some 2], []], partvals := 9,
        decodemap := [[0, 0], [0, 1], [0, 2], [1, 0], [1, 1], [1, 2], [2, 0], [2, 1], [2, 2]] } := by decide +kernel
/-- R265 to R267 on the phrase book of dimension 1: class 1, then entries 1 and 3 of book A. Type 0 lays them out at stride 2,
type 1 in a row. -/
def residueBench : State := { benchOn [0x1D] 0 0 with nonzero := [true, false] }
theorem test_res0 :
    (run (.res0Inverse 0 0 2) residueBench).pcm =
      [[0x3F800000, 0x3F800000, 0xBF800000, 0x3F800000, 0, 0, 0, 0], List.replicate 8 0] := by decide +kernel
theorem test_res1 :
    (run (.res1Inverse 1 0 2) { residueBench with nonzero := [false, true] }).pcm =
      [List.replicate 8 0, [0x3F800000, 0xBF800000, 0x3F800000, 0x3F800000, 0, 0, 0, 0]] := by decide +kernel
/-- R264, R269: the whole bundle is decoded when any member is not silent; positions alternate between the channels. -/
theorem test_res2 :
    ((run (.res2Inverse 2 0 2) residueBench).pcm.map (·.take 3)) =
      [[0x3F800000, 0x3F800000, 0], [0xBF800000, 0x3F800000, 0]] := by decide +kernel
theorem test_res1_stops :
    outcome (run (.res1Inverse 1 0 1) { benchOn [] 0 0 with nonzero := [true, false] }) = (0, 0, 1, 1, true) := by decide +kernel

/-- Part 7.1. -/
theorem test_decouple_signs :
    (decoupleSample 0x40400000 0xBF800000, decoupleSample 0xC0400000 0x3F800000, decoupleSample 0 0xC0A00000,
        decoupleSample 0x4B800000 0xBF800000) =
      ((0x40000000, 0x40400000), (0xC0400000, 0xC0000000), (0x40A00000, 0), (0x4B7FFFFF, 0x4B800000)) := by decide +kernel
theorem test_decouple_rounds :
    decoupleSample 0x3DCCCCCD 0x3E4CCCCD = (0x3DCCCCCD, 0xBDCCCCCD) := by decide +kernel

/-- Part 8.1. -/
theorem test_mdct_init :
    (run (.mdctInit 0) (bySequencer { bench with tab := Tab.absent })).tab.mdct0 =
      some { n := 8, log2n := 3, bitrev := [3, 0], scale := 0x3F000000,
             trig := [0x3F800000, 0x80000000, 0x00000000, 0xBF800000, 0x3F7B14BE, 0x3E47C5C2, 0x3F54DB31, 0x3F0E39DA,
                      0x3F3504F3, 0xBF3504F3] } := by decide +kernel
/-- Part 8.2, the input `1, 0, 0, 0`. -/
theorem test_mdct_backward :
    (run (.mdctBackward 0 1) { bench with pcm := [[], [0x3F800000, 0, 0, 0, 7, 7, 7, 7]] }).pcm =
      [[], [0x3E8E39DA, 0x3DC7C5C2, 0xBDC7C5C2, 0xBE8E39DA, 0xBED4DB31, 0xBEFB14BE, 0xBEFB14BE, 0xBED4DB31]] := by
  decide +kernel
/-- Part 8.3. -/
theorem test_mdct_16 :
    mdctTransform (mdctTable defaultParams 16)
        [0x3F800000, 0x40000000, 0x40400000, 0x40800000, 0x40A00000, 0x40C00000, 0x40E00000, 0x41000000] =
      [0x3FA77132, 0xBF9F0EB0, 0x3F8B956A, 0xBF897326, 0x3F897326, 0xBF8B956A, 0x3F9F0EB0, 0xBFA77132, 0x3FE5BE75,
        0xC0006088, 0x408BD6C8, 0xC08BB4EF, 0xC08BB4EF, 0x408BD6C8, 0xC0006088, 0x3FE5BE75] := by decide +kernel

/-- Part 9.2: the window from a short to a long block. -/
theorem test_win_init :
    (run .winInit (bySequencer { bench with tab := Tab.absent })).tab.win101 =
      some [0, 0, 0x3D74BBA6, 0x3EEEA03A, 0x3F627EF7, 0x3F7F8AEA, 0x3F800000, 0x3F800000, 0x3F7FF88A, 0x3F7DC2BD, 0x3F708FF4,
        0x3F4E86CE, 0x3F174541, 0x3EAF1BD8, 0x3E07250E, 0x3C773EB3] := by decide +kernel
theorem test_win_apply :
    (run (.winApply 0) { bench with nonzero := [true, false], pcm := [List.replicate 8 0x3F800000] }).pcm =
      [[0x3D74BBA6, 0x3EEEA03A, 0x3F627EF7, 0x3F7F8AEA, 0x3F7F8AEA, 0x3F627EF7, 0x3EEEA03A, 0x3D74BBA6]] := by decide +kernel
theorem test_win_apply_silent :
    (run (.winApply 0) { bench with pcm := [List.replicate 8 0x3F800000] }).pcm = [List.replicate 8 0] := by decide +kernel

/-! ## Headers and packets -/

/-- The headers of program P1 in 96_test_programs.md. -/
def identP1 : List Byte :=
  [1, 118, 111, 114, 98, 105, 115, 0, 0, 0, 0, 1, 68, 172, 0, 0, 0, 0, 0, 0, 0, 0, 0, 0, 0, 0, 0, 0, 184, 1]
def commentP1 : List Byte := [3, 118, 111, 114, 98, 105, 115, 0, 0, 0, 0, 0, 0, 0, 0, 1]
def setupP1 : List Byte :=
  [5, 118, 111, 114, 98, 105, 115, 0, 66, 67, 86, 1, 0, 1, 0, 0, 0, 0, 0, 0, 128, 0, 128, 0, 32, 128, 3, 2, 0, 0, 0, 0, 0, 0, 0,
    0, 0, 0, 0, 0, 0, 0, 0, 0, 0, 0, 0, 0, 0, 0, 0, 0, 0, 8]

theorem test_ident_header :
    let t := run (.headerin false true) (withPacket identP1 State.reset)
    outcome t = (0, 0, 1, 233, false) ∧ t.phase = .needComment ∧ t.cfg.channels = some 1 ∧ t.cfg.rate = some 44100 ∧
      t.cfg.blocksize0 = some 256 ∧ t.cfg.blocksize1 = some 2048 := by decide +kernel
/-- Part 10, cause 7: nothing of the stream is left. -/
theorem test_ident_rate_zero :
    let t := run (.headerin false true) (withPacket ((identP1.take 12) ++ [0, 0] ++ identP1.drop 14) State.reset)
    outcome t = (4, 7, allOnes, 128, false) ∧ t.cfg = Cfg.absent := by decide +kernel
theorem test_comment_header :
    outcome (run (.headerin false false) (withPacket commentP1 { State.reset with phase := .needComment })) =
      (0, 0, 2, 121, false) := by decide +kernel
/-- Part 10, cause 1: a vendor length that passes the end of the payload. -/
theorem test_comment_long_vendor :
    outcome (run (.headerin false false)
        (withPacket (commentP1.take 7 ++ [255, 255, 255, 255] ++ commentP1.drop 11) { State.reset with phase := .needComment })) =
      (4, 1, allOnes, 34359738480, true) := by decide +kernel
/-- Part 10: the setup header's records, and cause 9. -/
theorem test_setup_records :
    let s := { withBytes setupP1 State.reset with
      issuer := .sequencer, pos := 56, cfg := { Cfg.absent with channels := some 1, blocksize0 := some 256, blocksize1 := some 2048 } }
    let t := run .hdrSetup s
    outcome t = (0, 0, 0, 428, false) ∧ t.cfg.books = some 1 ∧ t.cfg.modes = some 1 ∧ fieldAt t.cfg.floorType 0 = some 1 := by
  decide +kernel
theorem test_setup_framing :
    outcome (run .hdrSetup { withBytes (setupP1.take 53 ++ [0]) State.reset with
      issuer := .sequencer, pos := 56, cfg := { Cfg.absent with channels := some 1 } }) = (4, 9, allOnes, 428, false) := by
  decide +kernel
/-- 47_block.md R331: both channels silent; the block is `+0.0`. -/
theorem test_synthesis_silent :
    let t := run (.synthesis false true) (withPacket [0] { bench with pcm := [[7], [7]] })
    outcome t = (0, 0, 8, 4, false) ∧ t.pcm = [List.replicate 8 0, List.replicate 8 0] ∧ t.bstate = .emitted := by
  decide +kernel
/-- Part 9.3: mode index 3 of fewer modes, in two mode bits. -/
theorem test_synthesis_bad_mode :
    let t := run (.synthesis false false) (withPacket [6] { bench with tab := { bench.tab with modebits := some 2 } })
    outcome t = (3, 3, allOnes, 3, false) ∧ t.bstate = .failed ∧ t.pcmend = 8 ∧ t.samples = 0 := by decide +kernel
theorem test_map0_inverse :
    let t := run .map0Inverse (benchOn [0] 0 0)
    outcome t = (0, 0, 0, 2, false) ∧ t.pcm = [List.replicate 8 0, List.replicate 8 0] := by decide +kernel
/-- 70_reset_and_hazards.md R402. -/
theorem test_reset_keeps_operands : (run .reset { bench with arg2 := 5 }) = { State.reset with arg2 := 5 } := rfl
/-- The unpacking and record operations on fields of 31_header_layouts.md R130 to R137. -/
def recordBench (fs : List (Nat × Nat)) : State := bySequencer (withBytes (payloadOf fs) { bench with tab := Tab.absent })
theorem test_f0_unpack :
    fieldAt (run (.f0Unpack 5) (recordBench [(8, 3), (16, 8000), (16, 4), (6, 4), (8, 100), (4, 0), (8, 1)])).cfg.floor 5 =
      some (.type0 floorA) := by decide +kernel
theorem test_f0_unpack_ampbits :
    outcome (run (.f0Unpack 0) (recordBench [(8, 3), (16, 8000), (16, 4), (6, 33), (8, 100), (4, 0), (8, 1)])) =
      (4, 17, allOnes, 46, false) := by decide +kernel
theorem test_f1_unpack :
    fieldAt (run (.f1Unpack 2) (recordBench [(5, 1), (4, 0), (3, 0), (2, 0), (8, 2), (2, 0), (4, 3), (3, 4)])).cfg.floor 2 =
      some (.type1 floorB) := by decide +kernel
theorem test_f1_unpack_same_post :
    outcome (run (.f1Unpack 2) (recordBench [(5, 1), (4, 0), (3, 0), (2, 0), (8, 2), (2, 0), (4, 3), (3, 0)])) =
      (4, 18, allOnes, 31, false) := by decide +kernel
theorem test_res_unpack :
    fieldAt (run (.resUnpack 0)
        (recordBench [(24, 0), (24, 8), (24, 3), (6, 1), (8, 0), (3, 0), (1, 0), (3, 1), (1, 1), (5, 0), (8, 1)])).cfg.residue 0 =
      some (residueA 8) := by decide +kernel
theorem test_res_unpack_no_values :
    outcome (run (.resUnpack 0)
        (recordBench [(24, 0), (24, 8), (24, 3), (6, 1), (8, 0), (3, 0), (1, 0), (3, 1), (1, 0), (8, 0)])) =
      (4, 27, allOnes, 102, false) := by decide +kernel
theorem test_map0_unpack :
    fieldAt (run (.map0Unpack 0)
        (recordBench [(1, 0), (1, 1), (8, 0), (1, 0), (1, 1), (2, 0), (8, 0), (8, 1), (8, 1)])).cfg.map 0 = some mappingA := by
  decide +kernel
theorem test_map0_unpack_same_channel :
    outcome (run (.map0Unpack 0) (recordBench [(1, 0), (1, 1), (8, 0), (1, 0), (1, 0)])) = (4, 22, allOnes, 12, false) := by
  decide +kernel
theorem test_hdr_ident :
    let t := run .hdrIdent { withBytes identP1 State.reset with issuer := .sequencer, pos := 56 }
    outcome t = (0, 0, 0, 233, false) ∧ t.cfg.blocksize1 = some 2048 := by decide +kernel
/-- Part 10, cause 8: both exponents are read before either is checked (log 29). -/
theorem test_hdr_ident_blocksize :
    outcome (run .hdrIdent { withBytes (identP1.take 28 ++ [0xB2, 1]) State.reset with issuer := .sequencer, pos := 56 }) =
      (4, 8, allOnes, 232, false) := by decide +kernel
theorem test_hdr_comment :
    outcome (run .hdrComment { withBytes commentP1 State.reset with issuer := .sequencer, pos := 56 }) = (0, 0, 0, 121, false) := by
  decide +kernel
theorem test_hdr_book :
    let t := run (.hdrBook 1) (recordBench [(24, 0x564342), (16, 2), (24, 4), (1, 1), (5, 1), (3, 4), (4, 1), (32, 0xE2800001),
      (32, 0x62A00001), (4, 0), (1, 0), (1, 0), (1, 1)])
    fieldAt t.cfg.book 1 = some book1 ∧ fieldAt t.tab.bookWords 1 = makeWords [2, 2, 2, 2] := by decide +kernel
/-- Part 10, cause 11: `entries` is read before `dim` is checked (log 29). -/
theorem test_hdr_book_shape :
    outcome (run (.hdrBook 0) (recordBench [(24, 0x564342), (16, 0), (24, 1)])) = (4, 11, allOnes, 64, false) := by decide +kernel
theorem test_hdr_time : outcome (run (.hdrTime 0) (recordBench [(16, 1)])) = (4, 15, allOnes, 16, false) := by decide +kernel
theorem test_hdr_mode :
    fieldAt (run (.hdrMode 3) (recordBench [(1, 1), (16, 0), (16, 0), (8, 0)])).cfg.mode 3 = some longMode := by decide +kernel
theorem test_hdr_mode_mapping :
    outcome (run (.hdrMode 3) (recordBench [(1, 1), (16, 0), (16, 0), (8, 1)])) = (4, 26, allOnes, 41, false) := by decide +kernel

/-- Part 11: the judging of command words. -/
theorem test_step_reserved : outcome (run .reset bench) = (0, 0, 0, 0, false) ∧
    step (bench.hostWriteCmd 3) = .next (bench.completeFail (.illegal .reservedOpcode)) := ⟨rfl, rfl⟩
theorem test_step_internal : step (bench.hostWriteCmd 0x10021) = .next (bench.completeFail (.illegal .internalOperation)) := rfl
theorem test_step_not_ready :
    step (State.reset.hostWriteCmd 0x323) = .next (State.reset.completeFail (.notReady .needId)) := rfl
theorem test_step_book_range : step (bench.hostWriteCmd 0x323) = .next (bench.completeFail (.illegal .badOperand)) := rfl
theorem test_step_no_values : step (bench.hostWriteCmd 0x24) = .next (bench.completeFail (.illegal .noValues)) := rfl
theorem test_step_wrong_floor_type : step (bench.hostWriteCmd 0x132) = .next (bench.completeFail (.illegal .badOperand)) := rfl

/-- 20_memory.md R60: the canonical form of `PKT`. -/
theorem test_memory_canonical :
    Memory.write (Memory.write (Memory.write [] 5 9) 2 7) 5 0 = [(2, 7)] ∧ Memory.wf [(2, 7), (5, 9)] = true ∧
      Memory.wf [(5, 9), (2, 7)] = false ∧ Memory.wf [(2, 0)] = false := by decide

/-! ## Witnesses: for each statement with hypotheses, states and operands that meet them all together -/

/-- The operation gives a next state. -/
def steps (i : Instr) (s : State) : Prop := ∃ t, exec i s = .next t

/-- A check that it does. -/
def stepsCheck (i : Instr) (s : State) : Bool :=
  match exec i s with
  | .next _ => true
  | _ => false

theorem steps_of_check {i : Instr} {s : State} (h : stepsCheck i s = true) : steps i s := by
  unfold stepsCheck at h
  split at h
  · exact ⟨_, by assumption⟩
  · cases h

theorem witness_DecodeAfterEncode :
    Instr.wellFormed (.bcRead 32) = true ∧ Instr.wellFormed (.cbDecodeVs 255 (.pcm 254) .multiply) = true ∧
      Instr.wellFormed (.headerin true true) = true := by decide

theorem witness_LegalWordHasOneMeaning : decode 0x02FF0327 = .ok (.cbDecodeVs 3 .lsp .multiply) := by decide

/-- One word for each clause; the last is `BC.READ 33`. -/
theorem witness_IllegalWordsAreTurnedAway :
    bench.issuer = .host ∧ (bench.hostWriteCmd 0x2111).cmd = some 0x2111 ∧
      (fieldOpc 0x03).toNat ∉ commandCodes ++ unitCodes ++ internalCodes ∧ (fieldOpc 0x21).toNat ∈ internalCodes ∧
      (fieldOpc 0x2111).toNat ∈ commandCodes ++ unitCodes ∧
      ∀ i : Instr, i.wellFormed = true → encode i ≠ 0x2111 := by
  refine ⟨rfl, rfl, by decide, by decide, by decide, fun i hi h => ?_⟩
  have ho : fieldOpc (encode i) = 0x11 := by rw [h]; decide
  have ha : fieldA (encode i) = 0x21 := by rw [h]; decide
  cases i with
  | bcRead n =>
    simp only [encode, fieldA_word] at ha
    have hn : n.toNat ≤ 32 := by simpa [Instr.wellFormed, bitCountOk] using hi
    have := congrArg BitVec.toNat ha
    rw [BitVec.toNat_setWidth] at this
    simp at this
    omega
  | _ => simp only [encode, fieldOpc_word] at ho; exact absurd ho (by decide)

theorem witness_StepRunsTheDecodedInstruction :
    (bench.hostWriteCmd 0x2011).cmd = some 0x2011 ∧ decode 0x2011 = .ok (.bcRead 32) ∧ steps (.bcAdv 32) bench ∧
      bench.cmd = none := ⟨rfl, by decide, ⟨_, rfl⟩, rfl⟩

theorem bench_cmd_inv (w : BitVec 32) : (bench.hostWriteCmd w).Inv ∧ (bench.hostWriteCmd w).ConfigOk :=
  ⟨⟨rfl, rfl, bench_inv.pcm, bench_inv.noBlock, bench_inv.arrays, bench_inv.status, bench_inv.bstate, bench_inv.short⟩,
    ⟨bench_configOk.identified, fun _ =>
      { channels := bench_configured.channels, blocksizes := bench_configured.blocksizes, floors := bench_configured.floors
        residues := bench_configured.residues, maps := bench_configured.maps, modes := bench_configured.modes
        transforms := bench_configured.transforms, windows := bench_configured.windows },
      fun _ =>
      { floor0 := bench_inRange.floor0, floor1 := bench_inRange.floor1, residueBooks := bench_inRange.residueBooks
        decodeMap := bench_inRange.decodeMap, maps := bench_inRange.maps }⟩⟩

/-- `BC.ADV 32` by a ready decoder; the same state serves StepKeepsAValidConfiguration. -/
theorem witness_StepKeepsTheInvariant :
    (bench.hostWriteCmd 0x2013).Inv ∧ (bench.hostWriteCmd 0x2013).ConfigOk ∧
      ∃ t, step (bench.hostWriteCmd 0x2013) = .next t := ⟨(bench_cmd_inv _).1, (bench_cmd_inv _).2, ⟨_, rfl⟩⟩

theorem witness_StepKeepsAValidConfiguration :
    (State.reset.hostWriteCmd 0x10001).Inv ∧ (State.reset.hostWriteCmd 0x10001).ConfigOk ∧
      ∃ t, step (State.reset.hostWriteCmd 0x10001) = .next t :=
  ⟨⟨rfl, rfl, .inl ⟨rfl, rfl⟩, fun _ => ⟨rfl, rfl⟩,
      ⟨List.length_replicate, List.length_replicate, List.length_replicate⟩,
      ⟨by decide, fun _ => rfl, fun h => absurd rfl h⟩, .inl rfl, fun _ => ⟨rfl, rfl⟩⟩,
    ⟨fun h => absurd rfl h, fun h => (by cases h), fun h => (by cases h)⟩, ⟨_, rfl⟩⟩

/-- A decoder with a command and one without. -/
theorem witness_EveryStepCompletes : (bench.hostWriteCmd 3).cmd ≠ none ∧ bench.cmd = none := ⟨nofun, rfl⟩

theorem witness_HostWritesWhatItNames :
    bench.pkt.wf = true ∧ (24 : Nat) ≤ 27 ∧ (23 : Nat) ∉ [24, 25, 26, 27, 31] ∧
      (0xFFFFFFFE : BitVec 32).toNat + [(7 : Byte), 9].length ≤ 2 ^ 32 := by decide

theorem witness_InternalAndEarlyOperationsAreTurnedAway :
    State.reset.issuer = .host ∧ Instr.opClass .hdrSetup = .internal ∧ Instr.opClass (.f0Look 1 1) = .internal ∧
      State.reset.phase ≠ .ready ∧ Instr.needsConfiguration (.synthesis false false) = true ∧
      Instr.needsConfiguration (.winApply 0) = true := ⟨rfl, rfl, rfl, by decide, rfl, rfl⟩

/-- The first number out of range for each operand, a book without values with a channel in range, and a block that does not
fit. -/
theorem witness_OperandsOutOfRange :
    bench.issuer = .host ∧ 32 < (33 : BitVec 6).toNat ∧ bench.phase = .ready ∧
      bench.cfg.books = some 2 ∧ bench.cfg.floors = some 2 ∧ bench.cfg.residues = some 3 ∧ bench.cfg.channels = some 2 ∧
      2 ≤ (2 : BitVec 8).toNat ∧ (1 : BitVec 8).toNat < 2 ∧
      fieldAt bench.cfg.book (0 : BitVec 8).toNat = some book0 ∧ book0.maptype = 0 ∧
      (1 ≤ (2 : BitVec 8).toNat ∧ (0 : BitVec 8).toNat + (2 : BitVec 8).toNat ≤ 2) ∧
      fieldAt bench.cfg.floorType (1 : BitVec 8).toNat = some 1 ∧ fieldAt bench.cfg.floorType (0 : BitVec 8).toNat = some 0 ∧
      3 ≤ (3 : BitVec 8).toNat ∧ (2 : BitVec 8).toNat < 3 ∧ fieldAt bench.cfg.residueType (2 : BitVec 8).toNat = some 2 ∧
      ((0 : BitVec 8).toNat = 0 ∧ 2 < (1 : BitVec 8).toNat + (2 : BitVec 8).toNat) ∧ 1 < (2 : BitVec 8).toNat ∧
      (bench.blocksizeAt 1 = some 16 ∧ 16 ≠ bench.pcmend.toNat) ∧
      (({ bench with w := true } : State).blocksize true = some 16 ∧ 16 ≠ ({ bench with w := true } : State).pcmend.toNat) ∧
      (bench.blocksize bench.w = some 8 ∧ ({ bench with lw := true } : State).lw = true) ∧ bench.cfg.modes = some 2 ∧
      2 ≤ ({ bench with mode := 2 } : State).mode.toNat ∧ fieldAt bench.cfg.mode bench.mode.toNat = some shortMode ∧
      ({ bench with w := true } : State).w ≠ shortMode.blockflag := by
  refine ⟨rfl, by decide, rfl, rfl, rfl, rfl, rfl, by decide, by decide, rfl, rfl, by decide, rfl, rfl, by decide, by decide, rfl,
    by decide, by decide, ⟨rfl, by decide⟩, ⟨rfl, by decide⟩, ⟨rfl, rfl⟩, rfl, by decide, rfl, by decide⟩

theorem witness_IllegalChangesNothingElse : ∃ t, exec (.cbDecode 2) bench = .next t ∧ t.status = 6 := ⟨_, rfl, rfl⟩

theorem witness_CursorIsSetAndMoved : (0 : BitVec 6).toNat ≤ 32 ∧ (32 : BitVec 6).toNat ≤ 32 := by decide

/-- A cursor on 5 bytes. -/
def onFive : State := withBytes [0xB5, 0x03, 0xFF, 0x00, 0xA5] State.reset

/-- Reads of 0, 1 and 32 bits, the last two up to the last bit of the payload. -/
theorem witness_ReadAndLookDeliverBits :
    (0 : BitVec 6).toNat ≤ 32 ∧ (onFive.advance 40).pos + (0 : BitVec 6).toNat ≤ 8 * onFive.len.toNat ∧
      (32 : BitVec 6).toNat ≤ 32 ∧ (onFive.advance 8).pos + (32 : BitVec 6).toNat ≤ 8 * onFive.len.toNat ∧
      (onFive.advance 39).pos + (1 : BitVec 6).toNat ≤ 8 * onFive.len.toNat := by
  decide

/-- A read of no bits past the end, one of 1 bit at the end, one of 32 bits that crosses it. -/
theorem witness_ReadPastTheEndIsSticky :
    8 * onFive.len.toNat < (onFive.advance 41).pos + (0 : BitVec 6).toNat ∧
      8 * onFive.len.toNat < (onFive.advance 40).pos + (1 : BitVec 6).toNat ∧
      8 * onFive.len.toNat < (onFive.advance 9).pos + (32 : BitVec 6).toNat ∧ (32 : BitVec 6).toNat ≤ 32 := by decide

theorem witness_PeekThenAdvance :
    (32 : BitVec 6).toNat ≤ 32 ∧ (32 : BitVec 6).toNat ≤ (32 : BitVec 6).toNat ∧ (0 : BitVec 6).toNat ≤ (32 : BitVec 6).toNat ∧
      ∃ t, exec (.bcLook 32) onFive = .next t ∧ t.status = 0 :=
  ⟨by decide, by decide, by decide, _, rfl, rfl⟩

theorem witness_ReadsConcatenate :
    (1 : BitVec 6).toNat + (31 : BitVec 6).toNat ≤ 32 ∧
      (onFive.advance 8).pos + ((1 : BitVec 6).toNat + (31 : BitVec 6).toNat) ≤ 8 * onFive.len.toNat ∧
      (32 : BitVec 6).toNat + (0 : BitVec 6).toNat ≤ 32 := by decide

theorem witness_PositionNeverDecreases :
    Instr.opClass (.cbDecode 1) ≠ .command ∧ Instr.cbDecode 1 ≠ .bcInit ∧ steps (.cbDecode 1) (benchOn [0x36] 0 0) ∧
      (32 : BitVec 6).toNat ≤ 32 ∧ steps (.bcLook 32) onFive ∧ steps (.bcRead 32) onFive ∧ steps (.bcAdv 32) onFive ∧
      steps .bcRead1 onFive :=
  ⟨by decide, by decide, steps_of_check (by decide +kernel), by decide, ⟨_, rfl⟩, ⟨_, rfl⟩, ⟨_, rfl⟩, ⟨_, rfl⟩⟩

/-- The bytes before and after the two that 9 bits from bit 4 span are different. -/
theorem witness_ReadsAreLocal :
    (9 : BitVec 6).toNat ≤ 32 ∧
      (∀ a, 0 + 4 / 8 ≤ a → a ≤ 0 + (4 + (9 : BitVec 6).toNat - 1) / 8 →
        Memory.byteAt [(0, 0xB5), (1, 0x03), (2, 0x11)] a = (onFive.advance 4).pkt.byteAt a) ∧
      steps (.bcRead 9) (onFive.advance 4) := by
  refine ⟨by decide, fun a _ h => ?_, ⟨_, rfl⟩⟩
  have : a ≤ 1 := h
  obtain rfl | rfl : a = 0 ∨ a = 1 := by omega
  · rfl
  · rfl

/-! ### Codebooks -/

/-- A list with an unused entry, and one whose third entry finds no string free. -/
theorem witness_CodewordsArePrefixFreeAndSmallest :
    makeWords [3, 0, 1] = some [some [false, false, false], none, some [true]] ∧
      [3, 0, 1][1]? = some 0 ∧ [3, 0, 1][0]? = some 3 ∧ (0 : Nat) ≠ 2 ∧
      makeWords [1, 1, 2] = none ∧ [1, 1, 2][2]? = some 2 ∧ makeWords [1, 1] = some [some [false], some [true]] := by decide

theorem witness_LatticeSideIsLargest : 1 ≤ 1 ∧ (2 : Nat) ^ 3 ≤ 8 ∧ 1 ≤ 8 := by decide

theorem witness_ValueTableFollowsTheFormula :
    ∃ q vs, book1.quant = some q ∧ bookValues book1 = some vs ∧ 3 < book1.entries ∧ 1 < book1.dim := ⟨_, _, rfl, rfl, by decide, by decide⟩

/-- The configured decoder in the sequencer's hands; the overpopulated length list is another configuration. -/
theorem witness_TableOperations :
    (bySequencer bench).issuer = .sequencer ∧
      fieldAt bench.cfg.book 1 = some book1 ∧ (∃ vs, bookValues book1 = some vs) ∧ (∃ ws, makeWords book1.lengthlist = some ws) ∧
      bookValues book0 = none ∧ fieldAt [some { book0 with lengthlist := [1, 1, 1] }] 0 = some { book0 with lengthlist := [1, 1, 1] } ∧
      makeWords [1, 1, 1] = none ∧ bench.floor0At 0 = some floorA ∧ bench.floor1At 1 = some floorB ∧
      fieldAt bench.cfg.residue 1 = some (residueA 8) ∧ fieldAt bench.cfg.book (residueA 8).groupbook = some book0 ∧
      bench.cfg.blocksize0 = some 8 ∧ bench.cfg.blocksize1 = some 16 :=
  ⟨rfl, rfl, ⟨_, rfl⟩, ⟨_, rfl⟩, rfl, rfl, by decide, rfl, rfl, rfl, rfl, rfl, rfl⟩

/-- Book 1 of the configured decoder, whatever is placed in `PKT`. -/
theorem bench_codes (e : Nat) (he : e < 4) (bytes : List Byte) (a b : Nat) : (benchOn bytes a b).codes 1 e := by
  refine ⟨[2, 2, 2, 2], _, rfl, rfl, by decide, ?_⟩
  obtain rfl | rfl | rfl | rfl : e = 0 ∨ e = 1 ∨ e = 2 ∨ e = 3 := by omega
  all_goals exact ⟨_, rfl⟩

theorem bench_vectorBook (bytes : List Byte) (a b : Nat) : (benchOn bytes a b).vectorBook 1 2 :=
  ⟨⟨2, rfl, by decide⟩, ⟨_, rfl⟩, book1, rfl, by decide, rfl, by decide⟩

/-- Entries 1, 2, 3, 0 of book 1. -/
def onCodes (a b : Nat) : State := benchOn [0x36] a b

theorem witness_DecodeReturnsTheEntry :
    (onCodes 0 0).phase = .ready ∧ (onCodes 0 0).cfg.books = some 2 ∧ (1 : BitVec 8).toNat < 2 ∧
      (onCodes 0 0).codes (1 : BitVec 8).toNat 1 ∧ (onCodes 0 0).Sends ((onCodes 0 0).codeFields (1 : BitVec 8).toNat 1) :=
  ⟨rfl, rfl, by decide, bench_codes 1 (by decide) _ _ _, sends_of_check (by decide +kernel)⟩

/-- Part 3.5: in the book [3,0,1] the bits 0, 0, 1 rule out every codeword at the third. -/
theorem witness_DecodeOfNoCodeword :
    (sparseBench 4).phase = .ready ∧ (sparseBench 4).cfg.books = some 2 ∧ (0 : BitVec 8).toNat < 2 ∧
      fieldAt (sparseBench 4).tab.bookWords (0 : BitVec 8).toNat = some [some [false, false, false], none, some [true]] ∧
      [false, false].length < 32 ∧ (sparseBench 4).Sends (codewordFields ([false, false] ++ [true])) ∧
      (∀ u, u <+: [false, false] → u ≠ [] →
        (∃ v, some v ∈ [some [false, false, false], none, some [true]] ∧ u <+: v ∧ u ≠ v) ∧
          some u ∉ [some [false, false, false], none, some [true]]) ∧
      ∀ v, some v ∈ [some [false, false, false], none, some [true]] → ¬ [false, false] ++ [true] <+: v := by
  refine ⟨rfl, rfl, by decide, by decide +kernel, by decide, sends_of_check (by decide +kernel), fun u hu hne => ?_, fun v hv => ?_⟩
  · refine ⟨⟨[false, false, false], by simp, hu.trans (by decide), ?_⟩, ?_⟩
    · rintro rfl
      exact absurd hu (by decide)
    · have hl := hu.length_le
      intro h
      simp only [List.mem_cons, Option.some.injEq, List.not_mem_nil, or_false, reduceCtorEq, false_or] at h
      obtain rfl | rfl := h
      · simp at hl
      · exact absurd hu (by decide)
  · simp only [List.mem_cons, Option.some.injEq, List.not_mem_nil, or_false, reduceCtorEq, false_or] at hv
    obtain rfl | rfl := hv <;> decide

/-- Three words from index 1 on: two codewords; and no word at all. -/
theorem witness_VectorDecodeFills :
    (onCodes 1 3).phase = .ready ∧ (onCodes 1 3).vectorBook (1 : BitVec 8).toNat 2 ∧
      (∀ c, Dst.pcm 1 = .pcm c → ∃ n, (onCodes 1 3).cfg.channels = some n ∧ c.toNat < n) ∧
      (∃ ws, fieldAt (onCodes 1 3).tab.bookWords (1 : BitVec 8).toNat = some ws) ∧
      [1, 2].length = codewordsFor (onCodes 1 3).arg1.toNat 2 ∧ (∀ e ∈ [1, 2], (onCodes 1 3).codes (1 : BitVec 8).toNat e) ∧
      (onCodes 1 3).Sends ((onCodes 1 3).codesFields (1 : BitVec 8).toNat [1, 2]) ∧
      ([] : List Nat).length = codewordsFor (onCodes 1 0).arg1.toNat 2 := by
  refine ⟨rfl, bench_vectorBook _ _ _, fun c h => ⟨2, rfl, ?_⟩, ⟨_, rfl⟩, by decide, fun e he => ?_, sends_of_check (by decide +kernel),
    by decide⟩
  · cases h
    decide
  · refine bench_codes e ?_ _ _ _
    simp only [List.mem_cons, List.not_mem_nil, or_false] at he
    omega

/-- Offset 3, four values, over two channels: positions 2 to 5. -/
theorem witness_VectorDecodeAcrossChannels :
    (onCodes 3 4).phase = .ready ∧ (onCodes 3 4).vectorBook (1 : BitVec 8).toNat 2 ∧ (onCodes 3 4).cfg.channels = some 2 ∧
      1 ≤ (2 : BitVec 8).toNat ∧ (0 : BitVec 8).toNat + (2 : BitVec 8).toNat ≤ 2 ∧
      (∃ ws, fieldAt (onCodes 3 4).tab.bookWords (1 : BitVec 8).toNat = some ws) ∧
      [1, 2].length = codewordsFor
        (((onCodes 3 4).arg0.toNat + (onCodes 3 4).arg1.toNat) / (2 : BitVec 8).toNat * (2 : BitVec 8).toNat -
          (onCodes 3 4).arg0.toNat / (2 : BitVec 8).toNat * (2 : BitVec 8).toNat) 2 ∧
      (∀ e ∈ [1, 2], (onCodes 3 4).codes (1 : BitVec 8).toNat e) ∧
      (onCodes 3 4).Sends ((onCodes 3 4).codesFields (1 : BitVec 8).toNat [1, 2]) := by
  refine ⟨rfl, bench_vectorBook _ _ _, rfl, by decide, by decide, ⟨_, rfl⟩, by decide, fun e he => ?_, sends_of_check (by decide +kernel)⟩
  refine bench_codes e ?_ _ _ _
  simp only [List.mem_cons, List.not_mem_nil, or_false] at he
  omega

/-- Step 0 and the scratch `LSP`. -/
theorem witness_VectorDecodeStepped :
    (onCodes 255 0).phase = .ready ∧ (onCodes 255 0).vectorBook (1 : BitVec 8).toNat 2 ∧
      (∀ c, Dst.lsp = .pcm c → ∃ n, (onCodes 255 0).cfg.channels = some n ∧ c.toNat < n) ∧
      (onCodes 255 0).codes (1 : BitVec 8).toNat 1 ∧ (onCodes 255 0).Sends ((onCodes 255 0).codeFields (1 : BitVec 8).toNat 1) :=
  ⟨rfl, bench_vectorBook _ _ _, nofun, bench_codes 1 (by decide) _ _ _, sends_of_check (by decide +kernel)⟩

/-- A block whose words are there; what step 0 and a run across two channels combine. -/
theorem witness_StoresGoWhereTheyAreSent :
    bench.pcmShape ∧ bench.arraysShape ∧ 1 ≤ 2 ∧ bench.hostReadPcm 1 7 = some 0 ∧
      combineAll .add [0x3F800000, 0x3F800000] (fun j => 7 = 7 + j * 0) 0 = 0x40000000 ∧
      combineAll .add [0x3F800000, 0x40000000] (fun j => 1 = 0 + (15 + j) % 2 ∧ 7 = (15 + j) / 2) 0 = 0x3F800000 :=
  ⟨bench_pcmShape, bench_arrays, by decide, rfl, by decide +kernel, by decide +kernel⟩

/-! ### Frames -/

theorem witness_UnitOperationsKeepTheContext :
    Instr.opClass (.cbDecodeSet 1 (.pcm 0)) = .unit ∧ Instr.cbDecodeSet 1 (.pcm 0) ≠ .bcInit ∧
      steps (.cbDecodeSet 1 (.pcm 0)) (onCodes 1 3) := ⟨rfl, by decide, steps_of_check (by decide +kernel)⟩

/-- One operation of each clause. -/
theorem witness_OnlyTheNamedArrayChanges :
    (Instr.isCursor .bcRead1 = true ∧ steps .bcRead1 onFive) ∧ steps (.cbDecode 1) (onCodes 0 0) ∧
      steps (.cbDecodeSet 1 (.pcm 0)) (onCodes 1 3) ∧ steps (.cbDecodeVs 1 .lsp .declare) (onCodes 0 1) ∧
      (steps (.cbDecodeVvAdd 1 0 2) (onCodes 3 4) ∧ 1 ≤ (2 : BitVec 8).toNat) ∧ steps (.f0Inverse1 0 1) (benchOn [0x2F, 1] 0 0) ∧
      steps (.f1Inverse1 1 0) (benchOn [0] 0 0) ∧ steps (.mdctBackward 0 1) bench ∧
      (1 ≤ (1 : BitVec 8).toNat ∧ steps (.res1Inverse 1 0 1) residueBench) :=
  ⟨⟨rfl, ⟨_, rfl⟩⟩, steps_of_check (by decide +kernel), steps_of_check (by decide +kernel), steps_of_check (by decide +kernel),
    ⟨steps_of_check (by decide +kernel), by decide⟩, steps_of_check (by decide +kernel), steps_of_check (by decide +kernel),
    steps_of_check (by decide +kernel), by decide, steps_of_check (by decide +kernel)⟩

theorem witness_InternalOperationsKeepTheRest :
    Instr.opClass (.hdrTime 0) = .internal ∧ (recordBench [(16, 0)]).issuer = .sequencer ∧
      steps (.hdrTime 0) (recordBench [(16, 0)]) ∧ steps (.cbUnquantize 1) (bySequencer bench) :=
  ⟨rfl, rfl, steps_of_check (by decide +kernel), steps_of_check (by decide +kernel)⟩

theorem witness_CommandsKeepWhatIsNotTheirs :
    steps (.synthesis false false) (withPacket [0] bench) ∧ bench.issuer = .host ∧
      (∀ eos bos, Instr.synthesis false false ≠ .headerin eos bos) ∧ Instr.synthesis false false ≠ .reset :=
  ⟨steps_of_check (by decide +kernel), rfl, nofun, by decide⟩

/-! ### Floors -/

theorem configured_congr {s t : State} (hc : t.cfg = s.cfg) (ht : t.tab = s.tab) (h : s.Configured) : t.Configured := by
  have hw : ∀ w lw nw, t.windowAt w lw nw = s.windowAt w lw nw := by
    intro w lw nw
    unfold State.windowAt
    rw [ht]
  constructor
  · rw [hc]; exact h.channels
  · rw [hc]; exact h.blocksizes
  · rw [hc, ht]; exact h.floors
  · rw [hc, ht]; exact h.residues
  · rw [hc]; exact h.maps
  · rw [hc, ht]; exact h.modes
  · rw [ht]; exact h.transforms
  · simp only [hw]; exact h.windows

theorem benchOn_configured (bytes : List Byte) (a b : Nat) : (benchOn bytes a b).Configured :=
  configured_congr (s := bench) rfl rfl bench_configured

/-- An empty payload, and each floor type. -/
theorem witness_FloorPassOneAlwaysCompletes :
    (benchOn [] 0 0).phase = .ready ∧ (benchOn [] 0 0).Configured ∧
      (benchOn [] 0 0).arraysShape ∧ (benchOn [] 0 0).cfg.floors = some 2 ∧ (1 : BitVec 8).toNat < 2 ∧
      (benchOn [] 0 0).cfg.channels = some 2 ∧ fieldAt (benchOn [] 0 0).cfg.floorType (0 : BitVec 8).toNat = some 0 ∧
      fieldAt (benchOn [] 0 0).cfg.floorType (1 : BitVec 8).toNat = some 1 :=
  ⟨rfl, benchOn_configured _ _ _, bench_arrays, rfl, by decide, rfl, rfl, rfl⟩

/-- Amplitude 15, book 0 of the floor, entries 1 and 2. -/
def onFloor0 : State := benchOn [0xCF, 0x00] 0 0

theorem witness_FloorZeroPassOneReads :
    onFloor0.phase = .ready ∧ onFloor0.arraysShape ∧ onFloor0.cfg.floors = some 2 ∧ (0 : BitVec 8).toNat < 2 ∧
      onFloor0.cfg.channels = some 2 ∧ (1 : BitVec 8).toNat < 2 ∧ 2 ≤ 255 ∧
      fieldAt onFloor0.cfg.floorType (0 : BitVec 8).toNat = some 0 ∧ onFloor0.floor0At (0 : BitVec 8).toNat = some floorA ∧
      (benchOn [0xF0] 0 0).Sends [(floorA.ampbits, 0)] ∧
      (15 ≠ 0 ∧ 0 < floorA.numbooks ∧ floorA.books[0]? = some 1 ∧ floorA.order ≤ 255 ∧ onFloor0.vectorBook 1 2 ∧
        [1, 2].length = codewordsFor floorA.order 2 ∧ (∀ e ∈ [1, 2], onFloor0.codes 1 e) ∧
        onFloor0.Sends ([(floorA.ampbits, 15), (ilog floorA.numbooks, 0)] ++ onFloor0.codesFields 1 [1, 2])) := by
  refine ⟨rfl, bench_arrays, rfl, by decide, rfl, by decide, by decide, rfl, rfl, sends_of_check (by decide +kernel), by decide,
    by decide, rfl, by decide, bench_vectorBook _ _ _, by decide, fun e he => ?_, sends_of_check (by decide +kernel)⟩
  refine bench_codes e ?_ _ _ _
  simp only [List.mem_cons, List.not_mem_nil, or_false] at he
  omega

/-- Endpoints 100 and 140, then entry 3 of book 1 for the one post. -/
def onFloor1 : State := benchOn [0xC9, 0x18, 0x07] 0 0

theorem witness_FloorOnePassOneReads :
    onFloor1.phase = .ready ∧ onFloor1.cfg.floors = some 2 ∧ (1 : BitVec 8).toNat < 2 ∧ onFloor1.cfg.channels = some 2 ∧
      (0 : BitVec 8).toNat < 2 ∧ fieldAt onFloor1.cfg.floorType (1 : BitVec 8).toNat = some 1 ∧
      onFloor1.floor1At (1 : BitVec 8).toNat = some floorB ∧
      fieldAt onFloor1.tab.floor1 (1 : BitVec 8).toNat = some (floor1Table floorB) ∧ (benchOn [0] 0 0).Sends [(1, 0)] ∧
      [(0, 0, [3])].map Prod.fst = floorB.partitionclass ∧ onFloor1.partitionsSendable floorB [(0, 0, [3])] ∧
      onFloor1.Sends ([(1, 1), (ilog ((floor1Table floorB).quantQ - 1), 100), (ilog ((floor1Table floorB).quantQ - 1), 140)] ++
        onFloor1.partitionFields floorB [(0, 0, [3])]) := by
  refine ⟨rfl, rfl, by decide, rfl, by decide, rfl, rfl, rfl, sends_of_check (by decide +kernel), rfl, fun x hx => ?_,
    sends_of_check (by decide +kernel)⟩
  obtain rfl : x = (0, 0, [3]) := by simpa using hx
  exact ⟨_, rfl, rfl, rfl, bench_codes 3 (by decide) _ _ _, trivial⟩

/-- One state for each clause: a memo of either floor type, and a block of each window. -/
theorem witness_RowOperations :
    bench.phase = .ready ∧ bench.cfg.channels = some 2 ∧ (1 : BitVec 8).toNat < 2 ∧ bench.cfg.floors = some 2 ∧
      fieldAt bench.cfg.floorType (0 : BitVec 8).toNat = some 0 ∧ fieldAt bench.cfg.floorType (1 : BitVec 8).toNat = some 1 ∧
      bench.floor0Memo 0 1 = none ∧ bench.floor1Memo 1 1 = none ∧
      (bench.setMemo 1 (some (.floor0 0 [0, 0, 0] 0))).floor0Memo 0 1 = some ([0, 0, 0], 0) ∧ bench.floor0At 0 = some floorA ∧
      fieldAt (if bench.w then bench.tab.floor0Long else bench.tab.floor0Short) 0 = some (floor0Table defaultParams floorA 8) ∧
      (bench.setMemo 1 (some (.floor1 1 [1, 2, 3] [true, true, true]))).floor1Memo 1 1 = some ([1, 2, 3], [true, true, true]) ∧
      bench.floor1At 1 = some floorB ∧ fieldAt bench.tab.floor1 1 = some (floor1Table floorB) ∧
      (0 : BitVec 8).toNat ≤ 1 ∧ bench.blocksizeAt 0 = some bench.pcmend.toNat ∧
      bench.mdctTableAt 0 = some (mdctTable defaultParams 8) ∧ bench.blocksize bench.w = some bench.pcmend.toNat ∧
      bench.windowAt bench.w bench.lw bench.nw = some (windowArray defaultParams 8 4 4) ∧
      (bench.setNonzero 1 true).isNonzero 1 = true ∧ bench.isNonzero 1 = false :=
  ⟨rfl, rfl, by decide, rfl, rfl, rfl, rfl, rfl, rfl, rfl, rfl, rfl, rfl, rfl, by decide, rfl, rfl, rfl, rfl, rfl, rfl⟩

/-- A falling line, cut by the end of the spectrum. -/
theorem witness_LineIsPointwise : 3 < 8 ∧ 2 < min 6 8 - 3 := by decide

theorem floorB_legal : Floor1Legal bench.cfg floorB where
  partitions := rfl
  classes := rfl
  classLegal k hk := by
    obtain rfl := List.mem_singleton.1 hk
    refine ⟨by decide, fun _ => rfl, fun h => absurd rfl h, rfl, fun b hb => ⟨2, rfl, ?_⟩⟩
    obtain rfl : b = 1 := by simpa using hb
    decide
  mult := by decide
  posts := rfl
  few := by decide
  first := rfl
  distinct := by decide

theorem witness_FloorOneCurveCoversTheSpectrum : Floor1Legal bench.cfg floorB := floorB_legal

/-! ### Residue, mapping, window -/

/-- Each type, with a participant and with none, and a residue of no whole partition. -/
theorem witness_ResidueAlwaysCompletes :
    residueBench.phase = .ready ∧ residueBench.Configured ∧ residueBench.cfg.residues = some 3 ∧
      (2 : BitVec 8).toNat < 3 ∧ residueBench.cfg.channels = some 2 ∧ 1 ≤ (2 : BitVec 8).toNat ∧
      (0 : BitVec 8).toNat + (2 : BitVec 8).toNat ≤ 2 ∧ fieldAt residueBench.cfg.residueType (0 : BitVec 8).toNat = some 0 ∧
      fieldAt residueBench.cfg.residueType (1 : BitVec 8).toNat = some 1 ∧
      fieldAt residueBench.cfg.residueType (2 : BitVec 8).toNat = some 2 ∧
      (∀ c, (0 : BitVec 8).toNat ≤ c → c < (0 : BitVec 8).toNat + (2 : BitVec 8).toNat → bench.isNonzero c = false) ∧
      partitionCount (residueA 8) (({ bench with pcmend := 6 } : State).pcmend.toNat / 2) = 0 := by
  refine ⟨rfl, configured_congr (s := bench) rfl rfl bench_configured, rfl, by decide, rfl,
    by decide, by decide, rfl, rfl, rfl, fun c _ h => ?_, by decide⟩
  have : c < 2 := h
  obtain rfl | rfl : c = 0 ∨ c = 1 := by omega
  · rfl
  · rfl

/-- Class 1 for the one partition, then entries 1 and 3 of book 1. -/
def phrasesA : List (List Nat) := [[1]]
def entriesA (_stage _i _v : Nat) : List Nat := [1, 3]
def planA (type last : Nat) (s : State) : ResiduePlan := s.residuePlan type (residueA last) (resTable (residueA last) 1) 1 [0, 1]

theorem residueBench_sendable (type last : Nat)
    (hp : (planA type last residueBench).nparts = 1) (hv : (planA type last residueBench).vecs = 1)
    (hw : (planA type last residueBench).wordCount 2 0 = 2)
    (hb : (planA type last residueBench).bookAt phrasesA 0 0 0 = some 1) :
    residueBench.ResidueSendable (planA type last residueBench) phrasesA entriesA where
  phrase i hi := by
    obtain rfl : i = 0 := by omega
    rw [Nat.zero_div]
    refine ⟨hv.symm, fun t ht => ?_⟩
    obtain rfl : t = 1 := by simpa [phrasesA] using ht
    exact ⟨(by decide : 1 < 2 ^ 1), [1, 1], _, rfl, rfl, by decide, _, rfl⟩
  book stage hs i hi v hv' _ := by
    have hs1 : stage < 1 := hs
    obtain rfl : i = 0 := by omega
    obtain rfl : v = 0 := by omega
    obtain rfl : stage = 0 := by omega
    refine ⟨1, 2, hb, bench_vectorBook [0x1D] 0 0, hw.symm, fun e he => bench_codes e ?_ [0x1D] 0 0⟩
    have : e = 1 ∨ e = 3 := by simpa [entriesA] using he
    omega

/-- A phrase book with more entries than the decode map has rows. -/
def residueB : Residue :=
  { rangeBegin := 0, rangeEnd := 4, grouping := 4, partitions := 1, groupbook := 1, secondstages := [1], booklist := [1] }

/-- Each type; a payload that ends before the phrase symbol; and a phrase symbol without a row. -/
theorem witness_ResidueAddsItsCodewords :
    (residueBench.phase = .ready ∧ residueBench.cfg.residues = some 3 ∧ residueBench.cfg.channels = some 2 ∧
      1 ≤ (2 : BitVec 8).toNat ∧ (0 : BitVec 8).toNat + (2 : BitVec 8).toNat ≤ 2 ∧
      fieldAt residueBench.cfg.residueType 1 = some 1 ∧ fieldAt residueBench.cfg.residue 1 = some (residueA 8) ∧
      fieldAt residueBench.tab.res 1 = some (resTable (residueA 8) 1) ∧ fieldAt residueBench.cfg.book 0 = some book0 ∧
      1 ≤ book0.dim ∧ channelRun 0 2 = [0, 1]) ∧
    (residueBench.ResidueSendable (planA 0 4 residueBench) phrasesA entriesA ∧
      residueBench.ResidueSendable (planA 1 8 residueBench) phrasesA entriesA ∧
      residueBench.Sends (residueBench.wordsFields (residueBench.residueWords (planA 1 8 residueBench) phrasesA entriesA))) ∧
    (residueBench.residueWords (planA 1 8 residueBench) phrasesA entriesA)[0]? = some ⟨0, 1, .phrase⟩ ∧
    (benchOn [] 0 0).pos + fieldBits ((benchOn [] 0 0).wordsFields []) = 8 * (benchOn [] 0 0).len.toNat ∧
    ((resTable residueB 2).partvals ≤ 3 ∧ (benchOn [0x03] 0 0).codes residueB.groupbook 3 ∧
      (benchOn [0x03] 0 0).Sends ((benchOn [0x03] 0 0).wordsFields [] ++ (benchOn [0x03] 0 0).codeFields residueB.groupbook 3)) :=
  ⟨⟨rfl, rfl, rfl, by decide, by decide, rfl, rfl, rfl, rfl, by decide, rfl⟩,
    ⟨residueBench_sendable 0 4 (by decide +kernel) (by decide +kernel) (by decide +kernel) (by decide +kernel),
      residueBench_sendable 1 8 (by decide +kernel) (by decide +kernel) (by decide +kernel) (by decide +kernel),
      sends_of_check (by decide +kernel)⟩,
    by decide +kernel, by decide, by decide, bench_codes 3 (by decide) _ _ _, sends_of_check (by decide +kernel)⟩

theorem witness_DecodeMapRowsAreDigits : 1 ≤ (residueA 8).partitions ∧ 7 < (residueA 8).partitions ^ 3 := by decide

/-- Floor data for channel 0, none for channel 1, both phrase symbols and one codeword of residue 1; then the payload ends. -/
def onCut : State := benchOn [0x01, 0x00, 0x30] 0 0

/-- A payload whose residue stops early, and an empty one, where no residue is read. -/
theorem witness_MappingAlwaysCompletes :
    (onCut.phase = .ready ∧ onCut.Configured ∧ onCut.pcmShape ∧ onCut.cfg.modes = some 2 ∧ onCut.cfg.channels = some 2 ∧
      onCut.mode.toNat < 2 ∧ fieldAt onCut.cfg.mode onCut.mode.toNat = some shortMode ∧
      fieldAt onCut.cfg.map shortMode.mapping = some mappingA ∧ onCut.w = shortMode.blockflag ∧
      onCut.blocksize onCut.w = some onCut.pcmend.toNat ∧ (onCut.w = false → onCut.lw = false ∧ onCut.nw = false)) ∧
    onCut.residueStops mappingA 2 = true ∧ (benchOn [] 0 0).residueStops mappingA 2 = false :=
  ⟨⟨rfl, benchOn_configured _ _ _, bench_pcmShape, rfl, rfl, by decide, rfl, rfl, rfl, rfl, fun _ => ⟨rfl, rfl⟩⟩,
    by decide +kernel, by decide +kernel⟩

/-- The same states, one with a memo and a flag raised by a pair, one with neither. -/
theorem witness_MappingMarksSilence :
    (onCut.phase = .ready ∧ onCut.Configured ∧ onCut.arraysShape ∧ onCut.cfg.modes = some 2 ∧
      onCut.cfg.channels = some 2 ∧ onCut.mode.toNat < 2 ∧ fieldAt onCut.cfg.mode onCut.mode.toNat = some shortMode ∧
      fieldAt onCut.cfg.map shortMode.mapping = some mappingA ∧ onCut.w = shortMode.blockflag ∧
      onCut.blocksize onCut.w = some onCut.pcmend.toNat ∧ (onCut.w = false → onCut.lw = false ∧ onCut.nw = false)) ∧
    widenFlags mappingA.coupling (fun k => ((onCut.floorStep mappingA 0).hostReadMemo k).isSome) 1 = true :=
  ⟨⟨rfl, benchOn_configured _ _ _, bench_arrays, rfl, rfl, by decide, rfl, rfl, rfl, rfl, fun _ => ⟨rfl, rfl⟩⟩,
    by decide +kernel⟩

/-- R270 on the cut payload, under `stop_and_keep`, `silence_block` and `fail_packet`: `(STATUS, TRUNC, NONZERO 0 and 1)`. -/
theorem test_early_stop :
    ([EofInResidue.stopAndKeep, .silenceBlock, .failPacket].map fun x =>
      let t := run .map0Inverse (onCut.withEofInResidue x)
      (t.status.toNat, t.trunc, t.hostReadNonzero 0, t.hostReadNonzero 1)) =
      [(0, true, true, true), (0, true, false, false), (1, true, true, true)] := by decide +kernel

theorem witness_DecouplingIsSampleBySample :
    (0 : Nat) ≠ 1 ∧ bench.pcm[0]? = some (List.replicate 8 0) ∧ bench.pcm[1]? = some (List.replicate 8 0) ∧ 3 < 4 ∧
      (List.replicate 8 (0 : F32))[3]? = some 0 := ⟨by decide, rfl, rfl, by decide, rfl⟩

theorem witness_TransformHasItsSymmetries : 4 ∣ 8 ∧ 1 < 8 / 4 := by decide

/-- A long block between a short and a long one, and one whose slopes fill it. -/
theorem witness_WindowTiles :
    (4 ∣ 16 ∧ 2 ∣ 4 ∧ 2 ∣ 8 ∧ 4 ≤ 16 / 2 ∧ 8 ≤ 16 / 2) ∧ (4 ∣ 8 ∧ 2 ∣ 4 ∧ 4 ≤ 8 / 2) := by decide

/-! ### Headers -/

/-- A state in the sequencer's hands whose payload is these fields, with the small configuration and no tables. -/
theorem recordBench_sends {fs gs : List (Nat × Nat)} (h : sendsCheck (recordBench fs) gs = true) : (recordBench fs).Sends gs :=
  sends_of_check h

/-- The comment header: a vendor string of two bytes, an empty comment and one of one byte. -/
theorem witness_IdentCommentTimeAndModeRecordsParse :
    (recordBench [(16, 0)]).issuer = .sequencer ∧ 1 ≤ 255 ∧ 1 ≤ 4294967295 ∧ 3 ≤ 3 ∧ 3 ≤ 15 ∧
      (recordBench (identFields 255 4294967295 4294967295 0 1 3 15)).Sends (identFields 255 4294967295 4294967295 0 1 3 15) ∧
      (recordBench [(16, 0)]).Sends [(16, 0)] ∧ 1 ≠ 0 ∧ (recordBench [(16, 1)]).Sends [(16, 1)] ∧
      ModeLegal (recordBench (modeFields longMode)).cfg longMode ∧
      (recordBench (modeFields longMode)).Sends (modeFields longMode) ∧
      (recordBench (commentFields (2, 0x6261) [(0, 0), (1, 0x61)])).Sends (commentFields (2, 0x6261) [(0, 0), (1, 0x61)]) :=
  ⟨rfl, by decide, by decide, by decide, by decide, sends_of_check (by decide +kernel), sends_of_check (by decide +kernel),
    by decide, sends_of_check (by decide +kernel), ⟨rfl, rfl, 1, rfl, by decide⟩, sends_of_check (by decide +kernel),
    sends_of_check (by decide +kernel)⟩

theorem book0_legal : BookLegal (.dense [1, 1]) book0 :=
  ⟨by decide, by decide, rfl, ⟨by unfold LengthLayout.legal; decide, rfl⟩, by decide, fun _ => rfl, fun h => absurd rfl h⟩

theorem book1_legal : BookLegal (.ordered 2 [4]) book1 :=
  ⟨by decide, by decide, rfl, ⟨⟨by decide, by decide, by decide, by decide, by decide, rfl⟩, rfl⟩, by decide, nofun,
    fun _ => ⟨_, rfl, by decide, by decide, by decide⟩⟩

/-- An overpopulated sparse list, which a record may send. -/
def book2 : Book := { dim := 1, entries := 4, lengthlist := [1, 0, 1, 32], maptype := 0, quant := none }

theorem book2_legal : BookLegal (.sparse [1, 0, 1, 32]) book2 :=
  ⟨by decide, by decide, rfl, ⟨by unfold LengthLayout.legal; decide, rfl⟩, by decide, fun _ => rfl, fun h => absurd rfl h⟩

theorem witness_CodebookRecordParses :
    (recordBench (bookFields (.ordered 2 [4]) book1)).issuer = .sequencer ∧ BookLegal (.ordered 2 [4]) book1 ∧
      (recordBench (bookFields (.ordered 2 [4]) book1)).Sends (bookFields (.ordered 2 [4]) book1) ∧
      (∃ ws, makeWords book1.lengthlist = some ws) ∧ BookLegal (.sparse [1, 0, 1, 32]) book2 ∧
      (recordBench (bookFields (.sparse [1, 0, 1, 32]) book2)).Sends (bookFields (.sparse [1, 0, 1, 32]) book2) ∧
      makeWords book2.lengthlist = none :=
  ⟨rfl, book1_legal, sends_of_check (by decide +kernel), ⟨_, rfl⟩, book2_legal, sends_of_check (by decide +kernel), by decide⟩

theorem bench_valueBook : bench.cfg.hasValueBook 1 := ⟨⟨2, rfl, by decide⟩, book1, rfl, by decide⟩

theorem floorA_legal : Floor0Legal bench.cfg floorA := by
  refine ⟨by decide, by decide, by decide, by decide, by decide, rfl, fun b hb => ?_⟩
  obtain rfl : b = 1 := by simpa [floorA] using hb
  exact bench_valueBook

theorem witness_FloorRecordsParse :
    (recordBench (floor0Fields floorA)).issuer = .sequencer ∧ Floor0Legal (recordBench (floor0Fields floorA)).cfg floorA ∧
      (recordBench (floor0Fields floorA)).Sends (floor0Fields floorA) ∧
      Floor1Legal (recordBench (floor1Fields floorB)).cfg floorB ∧ (recordBench (floor1Fields floorB)).Sends (floor1Fields floorB) :=
  ⟨rfl, floorA_legal, sends_of_check (by decide +kernel), floorB_legal, sends_of_check (by decide +kernel)⟩

theorem residueA_legal (long : List Bool) (hl : long.length = 2) (last : Nat) : ResidueLegal bench.cfg long (residueA last) where
  grouping := (by decide : 1 ≤ 4)
  partitions := (by decide : 1 ≤ 2)
  groupbook := ⟨2, rfl, (by decide : 0 < 2)⟩
  phrase := ⟨book0, rfl, (by decide : 2 ^ 1 ≤ 2)⟩
  count := rfl
  longCount := hl
  masks := (by decide : ∀ mask ∈ [0, 1], mask < 256)
  short x hx _ := by
    have := (List.of_mem_zip hx).1
    simp only [residueA, List.mem_cons, List.not_mem_nil, or_false] at this
    omega
  booklist := (by decide : [1].length = ([0, 1].map icount).sum)
  books b hb := by
    obtain rfl : b = 1 := by simpa [residueA] using hb
    exact bench_valueBook

theorem mappingA_legal : MappingLegal bench.cfg 2 false true mappingA where
  channelCount := rfl
  submaps := by decide
  submapsOne _ := rfl
  couplingNone h := by cases h
  couplingSome _ := by decide
  coupling x hx := by
    obtain rfl : x = (0, 1) := by simpa [mappingA] using hx
    decide
  muxCount := rfl
  mux s hs := by
    obtain rfl : s = 0 := by simpa [mappingA] using hs
    decide
  muxOne _ := rfl
  timeCount := rfl
  floorCount := rfl
  residueCount := rfl
  times := ⟨1, rfl, fun t ht => by obtain rfl : t = 0 := by simpa [mappingA] using ht
                                   decide⟩
  floors := ⟨2, rfl, fun t ht => by obtain rfl : t = 1 := by simpa [mappingA] using ht
                                    decide⟩
  residues := ⟨3, rfl, fun t ht => by obtain rfl : t = 1 := by simpa [mappingA] using ht
                                      decide⟩

theorem witness_ResidueAndMappingRecordsParse :
    (recordBench (residueFields [false, true] (residueA 8))).issuer = .sequencer ∧
      ResidueLegal (recordBench (residueFields [false, true] (residueA 8))).cfg [false, true] (residueA 8) ∧
      (recordBench (residueFields [false, true] (residueA 8))).Sends (residueFields [false, true] (residueA 8)) ∧
      MappingLegal (recordBench (mappingFields 2 false true mappingA)).cfg 2 false true mappingA ∧
      (recordBench (mappingFields 2 false true mappingA)).Sends (mappingFields 2 false true mappingA) :=
  ⟨rfl, residueA_legal _ rfl _, sends_of_check (by decide +kernel), mappingA_legal, sends_of_check (by decide +kernel)⟩

theorem layout_legal : SetupLegal layout identCfg 2 where
  books := by decide
  book x hx := by
    simp only [layout, List.mem_cons, List.not_mem_nil, or_false] at hx
    obtain rfl | rfl := hx
    · exact ⟨book0_legal, by decide⟩
    · exact ⟨book1_legal, by decide⟩
  times := by decide
  floors := by decide
  floor x hx := by
    simp only [layout, List.mem_cons, List.not_mem_nil, or_false] at hx
    obtain rfl | rfl := hx
    · exact floorA_legal
    · exact floorB_legal
  residues := by decide
  residue x hx := by
    simp only [layout, List.mem_cons, List.not_mem_nil, or_false] at hx
    obtain rfl | rfl | rfl := hx <;> exact ⟨by decide, residueA_legal _ rfl _⟩
  maps := by decide
  map x hx := by
    simp only [layout, List.mem_cons, List.not_mem_nil, or_false] at hx
    obtain rfl := hx
    exact mappingA_legal
  modes := by decide
  mode x hx := by
    simp only [layout, List.mem_cons, List.not_mem_nil, or_false] at hx
    obtain rfl | rfl := hx <;> exact ⟨rfl, rfl, 1, rfl, by decide⟩

/-- The setup packet of the small configuration, byte by byte. -/
def setupBytes : List Byte :=
  [5, 118, 111, 114, 98, 105, 115, 1, 66, 67, 86, 1, 0, 2, 0, 0, 0, 0, 66, 67, 86, 2, 0, 4, 0, 0, 3, 35, 0, 0, 80,
   60, 0, 0, 84, 12, 8, 0, 0, 4, 0, 0, 3, 64, 31, 4, 0, 4, 25, 4, 4, 0, 4, 0, 2, 12, 5, 0, 0, 0, 0, 0, 2, 0, 128, 1,
   0, 128, 0, 0, 34, 32, 0, 0, 0, 0, 0, 1, 0, 96, 0, 0, 32, 0, 128, 4, 1, 2, 0, 0, 0, 0, 16, 0, 0, 3, 0, 0, 1, 0,
   68, 0, 0, 0, 32, 128, 0, 4, 4, 4, 0, 0, 0, 0, 0, 2, 0, 0, 0, 0, 4]

/-- The setup header after its head. -/
def onSetup : State := bySequencer ((withBytes setupBytes { State.reset with cfg := identCfg }).advance 56)

theorem witness_SetupHeaderParses :
    onSetup.issuer = .sequencer ∧ onSetup.cfg.channels = some 2 ∧ onSetup.cfg.identOnly ∧ onSetup.tab.bookWords = [] ∧
      SetupLegal layout onSetup.cfg 2 ∧ onSetup.Sends (layout.fields 2) :=
  ⟨rfl, rfl, ⟨rfl, rfl, rfl, rfl, rfl, rfl, rfl, rfl, rfl⟩, rfl, layout_legal, sends_of_check (by decide +kernel)⟩

/-- The identification packet of 2 channels and block sizes 8 and 16, and a comment packet. -/
def identPacket : List (Nat × Nat) := (8, 1) :: magicFields ++ identFields 2 8000 0 0 0 3 4
def commentPacket : List (Nat × Nat) := (8, 3) :: magicFields ++ commentFields (2, 0x6261) [(1, 0x61)]
def onIdent : State := withPacket (payloadOf identPacket) State.reset
def onComment : State := withPacket (payloadOf commentPacket) { State.reset with phase := .needComment, cfg := identCfg }

theorem witness_FirstTwoHeadersAreAccepted :
    onIdent.phase = .needId ∧ 1 ≤ 2 ∧ 1 ≤ 8000 ∧ 3 ≤ 3 ∧ 3 ≤ 4 ∧ (onIdent.initCursor onIdent.arg0 onIdent.arg1).Sends identPacket ∧
      onComment.phase = .needComment ∧ (onComment.initCursor onComment.arg0 onComment.arg1).Sends commentPacket :=
  ⟨rfl, by decide, by decide, by decide, by decide, sends_of_check (by decide +kernel), rfl, sends_of_check (by decide +kernel)⟩

/-- The setup packet of the small configuration. -/
def setupPacket : List (Nat × Nat) := (8, 5) :: magicFields ++ layout.fields 2
def onSetupPacket : State := withPacket setupBytes { State.reset with phase := .needSetup, cfg := identCfg }

theorem witness_SetupHeaderMakesReady :
    onSetupPacket.phase = .needSetup ∧ onSetupPacket.identified ∧ onSetupPacket.cfg.channels = some 2 ∧
      onSetupPacket.cfg.blocksize0 = some 8 ∧ onSetupPacket.cfg.blocksize1 = some 16 ∧
      onSetupPacket.cfg.identOnly ∧ onSetupPacket.tab = Tab.absent ∧ SetupLegal layout onSetupPacket.cfg 2 ∧
      (onSetupPacket.initCursor onSetupPacket.arg0 onSetupPacket.arg1).Sends setupPacket :=
  ⟨rfl, ⟨⟨2, rfl, by decide, by decide⟩, 3, 4, rfl, rfl, by decide, by decide, by decide⟩, rfl, rfl, rfl,
    ⟨rfl, rfl, rfl, rfl, rfl, rfl, rfl, rfl, rfl⟩, rfl, layout_legal, sends_of_check (by decide +kernel)⟩

/-- The packet makes a ready decoder, with the tables of the small configuration. -/
theorem test_setup_packet :
    let t := run (.headerin false false) onSetupPacket
    t.phase = .ready ∧ t.res = 3 ∧ t.cfg = layout.load identCfg ∧ t.tab.bookWords = benchTab.bookWords ∧
      t.tab.modebits = some 1 ∧ t.tab.floor1 = benchTab.floor1 := by decide +kernel

/-- One packet that is accepted, one that is not. -/
theorem witness_HeadersFailClosed :
    onIdent.ConfigOk ∧ steps (.headerin false true) onIdent ∧ steps (.headerin true false) onIdent :=
  ⟨⟨fun h => absurd rfl h, fun h => (by cases h), fun h => (by cases h)⟩, steps_of_check (by decide +kernel), steps_of_check (by decide +kernel)⟩

/-! ### Audio packets -/

/-- The head of a long block, previous block long, next block short. -/
def onLong : State := withPacket (payloadOf (headFields 1 0 1 true true false)) bench

theorem withPacket_configured (bytes : List Byte) : (withPacket bytes bench).Configured :=
  configured_congr (s := bench) rfl rfl bench_configured

/-- The head of a short block, then the cut payload of `onCut`. -/
def onCutPacket : State := withPacket [0x04, 0x00, 0xC0] bench

/-- A packet that is only its head, where no residue is read, and one whose residue stops early. -/
theorem witness_SynthesisGivesABlock :
    (onLong.phase = .ready ∧ onLong.Configured ∧ onLong.cfg.modes = some 2 ∧
      onLong.tab.modebits = some 1 ∧ onLong.cfg.channels = some 2 ∧ 1 < 2 ∧ fieldAt onLong.cfg.mode 1 = some longMode ∧
      fieldAt onLong.cfg.map longMode.mapping = some mappingA ∧
      onLong.blocksize longMode.blockflag = some 16 ∧ (longMode.blockflag = false → true = false ∧ false = false) ∧
      (onLong.initCursor onLong.arg0 onLong.arg1).Sends (headFields 1 0 1 longMode.blockflag true false) ∧
      (onLong.openedBlock false true 4 1 longMode true false 16 2).residueStops mappingA 2 = false) ∧
    onCutPacket.Configured ∧ fieldAt onCutPacket.cfg.mode 0 = some shortMode ∧
      (onCutPacket.initCursor onCutPacket.arg0 onCutPacket.arg1).Sends (headFields 1 0 0 shortMode.blockflag false false) ∧
      (onCutPacket.openedBlock false true 2 0 shortMode false false 8 2).residueStops mappingA 2 = true :=
  ⟨⟨rfl, withPacket_configured _, rfl, rfl, rfl, by decide, rfl, rfl, rfl, nofun, sends_of_check (by decide +kernel),
    by decide +kernel⟩, withPacket_configured _, rfl, sends_of_check (by decide +kernel), by decide +kernel⟩

/-- The small configuration with `n` modes, all of long blocks. -/
def benchModes (n : Nat) (bytes : List Byte) : State :=
  withPacket bytes { bench with
    cfg := { bench.cfg with modes := some n, mode := List.replicate n (some longMode) },
    tab := { bench.tab with modebits := some (ilog (n - 1)) } }

theorem benchModes_configured (n : Nat) (h1 : 1 ≤ n) (h64 : n ≤ 64) (bytes : List Byte) : (benchModes n bytes).Configured where
  channels := bench_configured.channels
  blocksizes := bench_configured.blocksizes
  floors := bench_configured.floors
  residues := bench_configured.residues
  maps := bench_configured.maps
  modes := by
    refine ⟨n, rfl, h1, h64, rfl, fun k hk => ⟨longMode, ?_, (by decide : 0 < 1)⟩⟩
    show fieldAt (List.replicate n (some longMode)) k = some longMode
    simp [fieldAt, hk]
  transforms := bench_configured.transforms
  windows := bench_configured.windows

/-- Each clause: a packet that is not audio, mode 3 of 3, no byte at all, and a long head of 64 modes cut after 8 bits. -/
theorem witness_SynthesisFailsInTheHead :
    (benchModes 3 [1]).phase = .ready ∧ (benchModes 3 [1]).Configured ∧ (benchModes 64 [126]).Configured ∧
      (benchModes 3 [1]).cfg.modes = some 3 ∧ (benchModes 3 [1]).tab.modebits = some 2 ∧
      (benchModes 64 [126]).cfg.modes = some 64 ∧ (benchModes 64 [126]).tab.modebits = some 6 ∧
      ((benchModes 3 [1]).initCursor (benchModes 3 [1]).arg0 (benchModes 3 [1]).arg1).Sends [(1, 1)] ∧
      (3 ≤ 3 ∧ ((benchModes 3 [6]).initCursor (benchModes 3 [6]).arg0 (benchModes 3 [6]).arg1).Sends [(1, 0), (2, 3)]) ∧
      (benchModes 3 []).arg1 = 0 ∧
      (((benchModes 64 [126]).initCursor (benchModes 64 [126]).arg0 (benchModes 64 [126]).arg1).Sends [(1, 0), (6, 63)] ∧
        63 < 64 ∧ fieldAt (benchModes 64 [126]).cfg.mode 63 = some longMode ∧ longMode.blockflag = true ∧
        8 * (benchModes 64 [126]).arg1.toNat < 1 + 6 + 2) :=
  ⟨rfl, benchModes_configured 3 (by decide) (by decide) _, benchModes_configured 64 (by decide) (by decide) _, rfl, by decide, rfl,
    by decide, sends_of_check (by decide +kernel), ⟨by decide, sends_of_check (by decide +kernel)⟩, rfl,
    sends_of_check (by decide +kernel), by decide, rfl, rfl, by decide⟩

/-- A short silent packet of one byte. -/
def onSilent : State := withPacket [0] bench

theorem witness_SilentPacketGivesZeros :
    onSilent.phase = .ready ∧ onSilent.Configured ∧ onSilent.arraysShape ∧ onSilent.cfg.modes = some 2 ∧
      onSilent.tab.modebits = some 1 ∧ onSilent.cfg.channels = some 2 ∧ 0 < 2 ∧ fieldAt onSilent.cfg.mode 0 = some shortMode ∧
      fieldAt onSilent.cfg.map shortMode.mapping = some mappingA ∧ onSilent.blocksize shortMode.blockflag = some 8 ∧
      (∀ c, fieldAt onSilent.cfg.floorType (floorOf mappingA c) = some 1) ∧
      (onSilent.initCursor onSilent.arg0 onSilent.arg1).Sends
        (headFields 1 0 0 shortMode.blockflag false false ++ List.replicate 2 (1, 0)) := by
  refine ⟨rfl, withPacket_configured _, bench_arrays, rfl, rfl, rfl, by decide, rfl, rfl, rfl, fun c => ?_,
    sends_of_check (by decide +kernel)⟩
  have hf : floorOf mappingA c = 1 := by
    rcases c with _ | _ | c <;> simp [floorOf, mappingA]
  rw [hf]
  rfl

end Sys2Proof.Tests
end

section
/-! SUPPORT. The end of an instruction, a step and a write of the host: what each can do, said once. -/

namespace Sys2Proof.Machine

/-! ## The end of an instruction -/

/-- An operation has left `s`, and its end stands in the status registers; the decoder is idle (60_exceptions.md R370). -/
def State.reporting (status : BitVec 8) (cause : BitVec 16) (res : BitVec 32) (s : State) : State :=
  { s with status := status, cause := cause, res := res, cmd := none }

theorem State.completeOk_eq_reporting (v : BitVec 32) (s : State) : s.completeOk v = s.reporting 0 0 v := rfl

theorem State.completeFail_eq_reporting (f : Failure) (s : State) :
    s.completeFail f = s.reporting f.code f.cause 0xFFFFFFFF := rfl

/-- A frame of the operation is a frame of the instruction, whether it runs or is turned away, but for the report. -/
theorem exec_frame {R : State → State → Prop} (hR : FrameRel R) {i : Instr} {s t : State} (hop : Keeps R (opOf i s))
    (he : exec i s = .next t) : ∃ u status cause res, R s u ∧ t = u.reporting status cause res := by
  rw [exec_eq] at he
  refine issue_next (P := fun t => ∃ u status cause res, R s u ∧ t = u.reporting status cause res) he
    ((hop s).mono (fun v u hu => ?_) fun f u hu => ?_) fun f _ => ?_
  · exact ⟨u, 0, 0, v, hu, u.completeOk_eq_reporting v⟩
  · exact ⟨u, _, _, _, hu, u.completeFail_eq_reporting f⟩
  · exact ⟨s, _, _, _, hR.refl s, s.completeFail_eq_reporting f⟩

/-- A narrower frame is a frame. -/
theorem Keeps.mono {α : Type} {R R' : State → State → Prop} {op : Op α} (h : Keeps R op)
    (hR : ∀ s t, R s t → R' s t) : Keeps R' op := fun s => (h s).mono (fun _ t => hR s t) fun _ t => hR s t

/-- A field of the state looked up, then the rest. -/
theorem Keeps.lookup {α β : Type} {R : State → State → Prop} (hR : FrameRel R) {g : State → Option α} {f : α → Op β}
    (hf : ∀ a, Keeps R (f a)) : Keeps R ((MonadStateOf.get : Op State) >>= fun s => Machine.need (g s) >>= f) :=
  Keeps.bind hR (Keeps.get hR) fun _ => Keeps.bind hR (Keeps.need hR _) hf

/-! ## A step -/

/-- All that a step can do: nothing when the decoder is idle, the operation of a legal word, or the rejection of another. -/
theorem step_cases {s t : State} (h : step s = .next t) :
    (s.cmd = none ∧ t = s) ∨
    (∃ w i, s.cmd = some w ∧ decode w = .ok i ∧ exec i s = .next t) ∨
    (∃ w e, s.cmd = some w ∧ decode w = .error e ∧ t = s.completeFail (rejection e)) := by
  unfold step State.pendingCommand at h
  cases hc : s.cmd with
  | none =>
    rw [hc] at h
    exact .inl ⟨rfl, by cases h; rfl⟩
  | some w =>
    rw [hc] at h
    cases hd : decode w with
    | ok i => exact .inr (.inl ⟨w, i, rfl, hd, by simpa [hd] using h⟩)
    | error e => exact .inr (.inr ⟨w, e, rfl, hd, by simp only [hd, rejectWord] at h; cases h; rfl⟩)

/-! ## The host's writes -/

/-- A register the host may not write stays as it is (10_state.md R29). -/
theorem State.hostWriteRegister_ignored {n : Nat} (hn : n ∉ [24, 25, 26, 27, 31]) (v : BitVec 32) (s : State) :
    s.hostWriteRegister n v = s := by
  unfold State.hostWriteRegister
  split <;> simp at hn ⊢

/-- `ARG0` to `ARG3` read back what was written. -/
theorem State.hostReadRegister_write {n : Nat} (h24 : 24 ≤ n) (h27 : n ≤ 27) (v : BitVec 32) (s : State) :
    (s.hostWriteRegister n v).hostReadRegister n = some v.toNat := by
  obtain rfl | rfl | rfl | rfl : n = 24 ∨ n = 25 ∨ n = 26 ∨ n = 27 := by omega
  all_goals rfl

/-- A payload write changes `PKT` only. -/
theorem State.hostWritePayload_frame : ∀ (bytes : List Byte) (a : BitVec 32) (s : State),
    { s.hostWritePayload a bytes with pkt := s.pkt } = s
  | [], _, _ => rfl
  | v :: vs, a, s =>
    congrArg (fun t : State => { t with pkt := s.pkt }) (State.hostWritePayload_frame vs (a + 1) (s.hostWritePkt a v))

/-- A byte of `PKT` after a payload write: inside the run the byte sent to its address, outside it the byte that was there. -/
theorem State.hostWritePayload_read : ∀ (bytes : List Byte) (a : BitVec 32) (s : State) (b : Nat), s.pkt.wf = true →
    a.toNat + bytes.length ≤ 2 ^ 32 →
    (s.hostWritePayload a bytes).pkt.read b =
      if b < a.toNat then s.pkt.read b else (bytes[b - a.toNat]?).getD (s.pkt.read b)
  | [], a, s, b, _, _ => by simp [State.hostWritePayload]
  | [v], a, s, b, hw, _ => by
    show (s.pkt.write a.toNat v).read b = _
    rw [Memory.read_write (lo := 0) hw]
    rcases Nat.lt_trichotomy b a.toNat with h | h | h
    · rw [if_neg (by omega), if_pos h]
    · simp [h]
    · rw [if_neg (by omega), if_neg (by omega), List.getElem?_eq_none (by simp; omega), Option.getD_none]
  | v :: v' :: vs, a, s, b, hw, hlen => by
    have ha : (a + 1).toNat = a.toNat + 1 := by
      simp only [List.length_cons] at hlen
      rw [BitVec.toNat_add]
      exact Nat.mod_eq_of_lt (show a.toNat + 1 < 2 ^ 32 by omega)
    have ih := State.hostWritePayload_read (v' :: vs) (a + 1) (s.hostWritePkt a v) b (State.hostWritePkt_wf hw)
      (by simp only [ha, List.length_cons] at *; omega)
    have hone : (s.hostWritePkt a v).pkt.read b = if b = a.toNat then v else s.pkt.read b :=
      Memory.read_write (lo := 0) hw
    rw [ha, hone] at ih
    refine ih.trans ?_
    rcases Nat.lt_trichotomy b a.toNat with h | h | h
    · rw [if_pos (by omega), if_neg (by omega), if_pos h]
    · simp [h]
    · rw [if_neg (by omega), if_neg (by omega), if_neg (by omega), show b - a.toNat = (b - (a.toNat + 1)) + 1 by omega,
        List.getElem?_cons_succ]

/-- What one write of the host leaves alone: all but `ARG0` to `ARG3`, `CMD` and `PKT`, whose canonical form it keeps. -/
theorem State.HostWrites.frame {s t : State} (h : s.HostWrites t) :
    t = { s with arg0 := t.arg0, arg1 := t.arg1, arg2 := t.arg2, arg3 := t.arg3, cmd := t.cmd, pkt := t.pkt } ∧
      (s.pkt.wf = true → t.pkt.wf = true) := by
  rcases h with ⟨n, v, rfl⟩ | ⟨a, v, rfl⟩ | ⟨a, bytes, rfl⟩
  · unfold State.hostWriteRegister
    split <;> exact ⟨rfl, id⟩
  · exact ⟨rfl, State.hostWritePkt_wf⟩
  · refine ⟨?_, State.hostWritePayload_wf⟩
    have hsame := State.hostWritePayload_frame bytes a s
    generalize s.hostWritePayload a bytes = t at hsame
    rw [← hsame]

/-- Settles O10: each write is the update of the field it names, and a payload is written byte by byte. -/
theorem hostWritesWhatItNames : Obligations.HostWritesWhatItNames := by
  intro s
  refine ⟨fun v => ⟨rfl, rfl, rfl, rfl, rfl, ?_, ?_⟩, fun hw => ⟨fun a v => ⟨rfl, ?_, ?_⟩, fun a bytes hlen => ⟨?_, ?_, ?_⟩⟩⟩
  · exact fun n h24 h27 => s.hostReadRegister_write h24 h27 v
  · exact fun n hn => s.hostWriteRegister_ignored hn v
  · exact State.hostWritePkt_wf hw
  · exact fun b => Memory.read_write (lo := 0) hw
  · exact s.hostWritePayload_frame bytes a
  · exact State.hostWritePayload_wf hw
  · exact fun b => s.hostWritePayload_read bytes a b hw hlen

end Sys2Proof.Machine
end

section
/-! SUPPORT. The invariant of StepKeepsTheInvariant: one lemma for each kind of change an instruction makes. -/

namespace Sys2Proof.Machine

/-! ## The invariant while a command runs -/

/-- `State.Inv` without the agreement of the status registers, which the end of every command restores. -/
structure State.InvButStatus (s : State) : Prop where
  issuer : s.issuer = .host
  pkt : s.pkt.wf = true
  pcm : s.pcmShape
  noBlock : s.phase ≠ .ready → s.pcm = [] ∧ s.pcmend = 0
  arrays : s.arraysShape
  bstate : s.bstateObservable
  short : s.w = false → s.lw = false ∧ s.nw = false

theorem State.Inv.butStatus {s : State} (h : s.Inv) : s.InvButStatus := { h with }

/-- The codes of R371: every failure has a status of 1 to 7. -/
theorem Failure.code_range (f : Failure) : f.code.toNat ≤ 7 ∧ f.code ≠ 0 := by
  cases f <;> simp [Failure.code]

theorem State.InvButStatus.completeOk {s : State} (h : s.InvButStatus) (v : BitVec 32) : (s.completeOk v).Inv :=
  { h with status := ⟨by simp, fun _ => rfl, fun hn => absurd rfl hn⟩ }

theorem State.InvButStatus.completeFail {s : State} (h : s.InvButStatus) (f : Failure) : (s.completeFail f).Inv :=
  { h with status := ⟨f.code_range.1, fun h0 => absurd h0 f.code_range.2, fun _ => rfl⟩ }

/-- An instruction keeps the invariant when all its operation can leave is right but for the report. -/
theorem exec_inv {i : Instr} {s t : State} (h : s.InvButStatus)
    (hop : Sat (opOf i s) s (fun _ u => u.InvButStatus) fun _ u => u.InvButStatus) (he : exec i s = .next t) : t.Inv := by
  rw [exec_eq] at he
  exact issue_next he (hop.mono (fun v _ hu => hu.completeOk v) fun f _ hu => hu.completeFail f)
    fun f _ => h.completeFail f

/-! ## What keeps it -/

/-- The shape of `PCM` depends on its row lengths, `PCMEND` and `cfg.channels` only. -/
theorem State.pcmShape_congr {s t : State} (hp : t.pcm.map List.length = s.pcm.map List.length)
    (he : t.pcmend = s.pcmend) (hc : t.cfg.channels = s.cfg.channels) (h : s.pcmShape) : t.pcmShape := by
  have hlen : t.pcm.length = s.pcm.length := by simpa using congrArg List.length hp
  refine h.imp (fun ⟨hnil, h0⟩ => ⟨?_, he.trans h0⟩) fun ⟨hch, hrows⟩ => ⟨?_, fun row hrow => ?_⟩
  · exact List.length_eq_zero_iff.1 (by rw [hlen, hnil]; rfl)
  · rw [hc, hch, hlen]
  · have hmem : row.length ∈ s.pcm.map List.length := hp ▸ List.mem_map_of_mem hrow
    obtain ⟨old, hold, heq⟩ := List.mem_map.1 hmem
    rw [← heq, he]
    exact hrows old hold

/-- Decoding changes words, not shapes. -/
theorem State.InvButStatus.of_decodeFrame {s t : State} (h : s.InvButStatus) (k : DecodeFrame s t) : t.InvButStatus where
  issuer := k.issuer.trans h.issuer
  pkt := k.pkt ▸ h.pkt
  pcm := State.pcmShape_congr k.pcm k.pcmend (congrArg Cfg.channels k.cfg) h.pcm
  noBlock hp := by
    obtain ⟨hpcm, hend⟩ := h.noBlock (k.phase ▸ hp)
    exact ⟨by simpa [hpcm] using k.pcm, k.pcmend.trans hend⟩
  arrays := by
    obtain ⟨hn, hm, hl⟩ := h.arrays
    exact ⟨k.nonzero.trans hn, k.memo.trans hm, k.lsp.trans hl⟩
  bstate := by simpa only [State.bstateObservable, k.bstate] using h.bstate
  short := by simpa only [k.w, k.lw, k.nw] using h.short

/-- `RESET` and the teardown of a failing header drop the block (70_reset_and_hazards.md R402, 48_header.md R341). -/
theorem State.cleared_invButStatus {s : State} (hi : s.issuer = .host) (hp : s.pkt.wf = true) : s.cleared.InvButStatus where
  issuer := hi
  pkt := hp
  pcm := .inl ⟨rfl, rfl⟩
  noBlock _ := ⟨rfl, rfl⟩
  arrays := ⟨List.length_replicate, List.length_replicate, List.length_replicate⟩
  bstate := .inl rfl
  short _ := ⟨rfl, rfl⟩

theorem State.tornDown_invButStatus {s : State} (hi : s.issuer = .host) (hp : s.pkt.wf = true) :
    s.tornDown.InvButStatus := { State.cleared_invButStatus hi hp with }

/-- An accepted header comes before `READY`, where there is no block; it moves on one phase (48_header.md R350). -/
theorem State.InvButStatus.of_accepted {s t : State} (h : s.InvButStatus) (a : Accepted s t) : t.InvButStatus := by
  have hbefore : s.phase ≠ .ready := by
    rcases a.phase with ⟨hp, -⟩ | ⟨hp, -⟩ | ⟨hp, -⟩ <;> simp [hp]
  obtain ⟨hpcm, hend⟩ := h.noBlock hbefore
  have k := a.frame
  have hnone : t.pcm = [] ∧ t.pcmend = 0 := ⟨k.pcm.trans hpcm, k.pcmend.trans hend⟩
  exact {
    issuer := k.issuer.trans h.issuer
    pkt := by rw [k.pkt]; exact h.pkt
    pcm := .inl hnone
    noBlock := fun _ => hnone
    arrays := by
      obtain ⟨hn, hm, hl⟩ := h.arrays
      exact ⟨by rw [k.nonzero]; exact hn, by rw [k.memo]; exact hm, by rw [k.lsp]; exact hl⟩
    bstate := by simpa only [State.bstateObservable, k.bstate, State.setPhase_bstate] using h.bstate
    short := by rw [k.w, k.lw, k.nw]; exact h.short }

/-- A packet leaves the block that was there, or a new one of rows of `PCMEND` words (47_block.md R322, R324). -/
theorem State.InvButStatus.of_block {eos bos : Bool} {s t : State} (h : s.InvButStatus) (hr : s.phase = .ready)
    (f : BlockFrame eos bos s t) (hb : HeadKept s t ∨ BlockOpen s t) (ho : t.bstate = .emitted ∨ t.bstate = .failed) :
    t.InvButStatus where
  issuer := f.issuer.trans h.issuer
  pkt := f.pkt ▸ h.pkt
  pcm := by
    rcases hb with k | ⟨m, mode, lw, nw, n, ch, -, -, hch, -, -, -, -, -, hend, hlen, hrows⟩
    · exact State.pcmShape_congr (by rw [k.pcm]) k.pcmend (congrArg Cfg.channels f.cfg) h.pcm
    · exact .inr ⟨by rw [f.cfg, hch, hlen], fun row hrow => by rw [hrows row hrow, hend]⟩
  noBlock hp := absurd (f.phase.trans hr) hp
  arrays := by
    obtain ⟨hn, hm, hl⟩ := h.arrays
    exact ⟨f.nonzero.trans hn, f.memo.trans hm, f.lsp.trans hl⟩
  bstate := .inr ho
  short := by
    rcases hb with k | ⟨m, mode, lw, nw, n, ch, -, -, -, hflags, -, hw, hlw, hnw, -⟩
    · simpa only [k.w, k.lw, k.nw] using h.short
    · simpa only [hw, hlw, hnw] using hflags

/-! ## The configuration of a phase -/

/-- A valid configuration is a matter of `cfg` and `tab`. -/
theorem State.Configured.congr {s t : State} (h : s.Configured) (hc : t.cfg = s.cfg) (ht : t.tab = s.tab) :
    t.Configured where
  channels := hc ▸ h.channels
  blocksizes := hc ▸ h.blocksizes
  floors := by rw [hc, ht]; exact h.floors
  residues := by rw [hc, ht]; exact h.residues
  maps := hc ▸ h.maps
  modes := by rw [hc, ht]; exact h.modes
  transforms := ht ▸ h.transforms
  windows w lw nw := by simpa only [State.windowAt, ht] using h.windows w lw nw

theorem State.IndicesInRange.congr {s t : State} (h : s.IndicesInRange) (hc : t.cfg = s.cfg) (ht : t.tab = s.tab) :
    t.IndicesInRange where
  floor0 := hc ▸ h.floor0
  floor1 := hc ▸ h.floor1
  residueBooks := hc ▸ h.residueBooks
  decodeMap := by rw [hc, ht]; exact h.decodeMap
  maps := hc ▸ h.maps

/-- What each phase says of the configuration, as the laws of `HEADERIN` take it. -/
theorem State.ConfigOk.fits {s : State} (h : s.ConfigOk) : Loaded.fits s.phase (s.cfg, s.tab) :=
  ⟨h.identified, fun hr _ ⟨hc, ht⟩ => ⟨(h.ready hr).congr hc ht, (h.inRange hr).congr hc ht⟩⟩

/-! ## The host commands -/

/-- `HEADERIN` is accepted or tears the stream down. -/
theorem headerin_invButStatus {P : Params} {eos bos : Bool} {s : State} (h : s.InvButStatus) (hc : s.ConfigOk) :
    Sat (headerin P eos bos) s (fun _ u => u.InvButStatus) fun _ u => u.InvButStatus := by
  have hopen : (s.openHeader eos bos).InvButStatus := { h with }
  have hbody := headerPacket_sat (P := P) (eos := eos) (bos := bos) hc.fits
  unfold headerin Sat tearDownOnBadHeader
  cases hr : headerPacket P eos bos s with
  | ok v u => exact hopen.of_accepted (hbody.ok hr).1
  | error e u =>
    obtain ⟨k, cause, rfl⟩ := hbody.error hr
    exact State.tornDown_invButStatus (k.issuer.trans h.issuer) (by rw [k.pkt]; exact h.pkt)

/-- `SYNTHESIS` under a valid configuration. -/
theorem synthesis_invButStatus {P : Params} {eos bos : Bool} {s : State} (h : s.InvButStatus) (hr : s.phase = .ready)
    (hc : s.Configured) :
    Sat (synthesis P eos bos) s (fun _ u => u.InvButStatus) fun _ u => u.InvButStatus :=
  (synthesis_sat hc).mono
    (fun _ _ ⟨f, hopen, hemitted, _⟩ => h.of_block hr f (.inr hopen) (.inl hemitted))
    fun _ _ ⟨f, hblock, hfailed, _⟩ => h.of_block hr f hblock (.inr hfailed)

/-- Before `READY` it is turned away (47_block.md R326). -/
theorem exec_synthesis_early {eos bos : Bool} {s : State} (hs : s.issuer = .host) (hr : s.phase ≠ .ready) :
    exec (.synthesis eos bos) s = .next (s.completeFail (.notReady s.phase)) := issue_rejected hs (judgeReady_error hr)

/-! ## Every instruction -/

/-- Each class of operation by its frame; `SYNTHESIS` before `READY` and the host's internal operations are turned away. -/
theorem exec_keeps_inv {i : Instr} {s t : State} (h : s.InvButStatus) (hc : s.ConfigOk) (he : exec i s = .next t) :
    t.Inv := by
  cases hi : i.opClass with
  | unit =>
    refine exec_inv h ?_ he
    by_cases hinit : i = .bcInit
    · subst hinit
      exact { h with }
    · exact (opOf_unit_frame hi hinit s s).mono (fun _ _ => h.of_decodeFrame) fun _ _ => h.of_decodeFrame
  | internal =>
    rw [exec_internal_host hi h.issuer] at he
    cases he
    exact h.completeFail _
  | command =>
    cases i with
    | reset => exact exec_inv (i := .reset) h (State.cleared_invButStatus h.issuer h.pkt) he
    | headerin eos bos => exact exec_inv (i := .headerin eos bos) h (headerin_invButStatus h hc) he
    | synthesis eos bos =>
      by_cases hr : s.phase = .ready
      · exact exec_inv (i := .synthesis eos bos) h (synthesis_invButStatus h hr (hc.ready hr)) he
      · rw [exec_synthesis_early h.issuer hr] at he
        cases he
        exact h.completeFail _
    | _ => cases hi

/-- Settles O8: by the three cases of a step, and by the frame of a write of the host. -/
theorem stepKeepsTheInvariant : Obligations.StepKeepsTheInvariant := by
  rintro s t h hc (hs | hw)
  · rcases step_cases hs with ⟨-, rfl⟩ | ⟨w, i, -, -, he⟩ | ⟨w, e, -, -, rfl⟩
    · exact h
    · exact exec_keeps_inv h.butStatus hc he
    · exact h.butStatus.completeFail _
  · obtain ⟨heq, hwf⟩ := hw.frame
    have hpkt := hwf h.pkt
    rw [heq]
    exact { h with pkt := hpkt }

end Sys2Proof.Machine
end

section
/-! SUPPORT. The frames of UnitOperationsKeepTheContext, InternalOperationsKeepTheRest and CommandsKeepWhatIsNotTheirs. -/

namespace Sys2Proof.Machine

/-! ## Unit operations -/

/-- The frame of decoding, then a report, leaves the context alone. -/
theorem DecodeFrame.sameContext {s u : State} (k : DecodeFrame s u) (status : BitVec 8) (cause : BitVec 16)
    (res : BitVec 32) : s.SameContext (u.reporting status cause res) where
  base := k.base
  len := k.len
  mode := k.mode
  w := k.w
  lw := k.lw
  nw := k.nw
  pcmend := k.pcmend
  granule := k.granule
  eos := k.eos
  bos := k.bos
  phase := k.phase
  bstate := k.bstate
  samples := k.samples
  arg0 := k.arg0
  arg1 := k.arg1
  arg2 := k.arg2
  arg3 := k.arg3
  cmd := rfl
  cfg := k.cfg
  tab := k.tab
  pkt a := congrArg (Memory.read · a) k.pkt
  issuer := k.issuer
  eofInResidue := k.eofInResidue

/-- Settles O32: a unit operation stays inside the frame of decoding. -/
theorem unitOperationsKeepTheContext : Obligations.UnitOperationsKeepTheContext := by
  intro i s t hi hinit he
  obtain ⟨u, status, cause, res, k, rfl⟩ := exec_frame DecodeFrame.rel (opOf_unit_frame hi hinit s) he
  exact k.sameContext status cause res

/-! ## Internal operations: the cursor and `cfg` -/

/-- The table-building operations read no bit and write no field of the configuration. -/
structure TableFrame (s t : State) : Prop where
  pos : t.pos = s.pos
  eoff : t.eoff = s.eoff
  cfg : t.cfg = s.cfg

theorem TableFrame.rel : FrameRel TableFrame :=
  ⟨fun _ => ⟨rfl, rfl, rfl⟩, fun h k => ⟨k.pos.trans h.pos, k.eoff.trans h.eoff, k.cfg.trans h.cfg⟩⟩

theorem TableFrame.setTab (T : Tab) (s : State) : TableFrame s (s.setTab T) := ⟨rfl, rfl, rfl⟩

/-- A record looked up, then what is made of it: how every table is built. -/
theorem TableFrame.lookup {α β : Type} {g : State → Option α} {f : α → Op β} (hf : ∀ a, Keeps TableFrame (f a)) :
    Keeps TableFrame ((MonadStateOf.get : Op State) >>= fun s => need (g s) >>= f) := Keeps.lookup TableFrame.rel hf

theorem TableFrame.tabulate (f : State → Tab) : Keeps TableFrame (modify fun s => s.setTab (f s) : Op Unit) :=
  Keeps.modify fun s => TableFrame.setTab (f s) s

theorem cbUnquantize_tableFrame (b : Nat) : Keeps TableFrame (cbUnquantize b) := by
  refine TableFrame.lookup fun book => ?_
  split
  · exact Keeps.pure TableFrame.rel _
  · exact TableFrame.tabulate _

theorem cbMakeWords_tableFrame (b : Nat) : Keeps TableFrame (cbMakeWords b) := by
  refine TableFrame.lookup fun book => ?_
  split
  · exact Keeps.raise TableFrame.rel _
  · exact TableFrame.tabulate _

theorem f0Look_tableFrame (P : Params) (f w : Nat) : Keeps TableFrame (f0Look P f w) :=
  TableFrame.lookup fun _ => TableFrame.lookup fun _ => Keeps.modify fun _ => by
    split <;> exact TableFrame.setTab _ _

theorem f1Look_tableFrame (f : Nat) : Keeps TableFrame (f1Look f) := TableFrame.lookup fun _ => TableFrame.tabulate _

theorem resLook_tableFrame (r : Nat) : Keeps TableFrame (resLook r) :=
  TableFrame.lookup fun _ => TableFrame.lookup fun _ => TableFrame.tabulate _

theorem mdctInit_tableFrame (P : Params) (w : Nat) : Keeps TableFrame (mdctInit P w) :=
  TableFrame.lookup fun _ => Keeps.modify fun _ => by split <;> exact TableFrame.setTab _ _

theorem winInit_tableFrame (P : Params) : Keeps TableFrame (winInit P) :=
  TableFrame.lookup fun _ => TableFrame.lookup fun _ => TableFrame.tabulate _

/-- A table-building operation stays inside its frame. -/
theorem opOf_table_frame {i : Instr} (s : State)
    (h : ∃ b, i = .cbUnquantize b ∨ i = .cbMakeWords b ∨ i = .cbMakeTree b ∨ i = .f1Look b ∨ i = .resLook b ∨
      i = .map0Look b ∨ i = .mdctInit b ∨ i = .winInit ∨ ∃ w, i = .f0Look b w) : Keeps TableFrame (opOf i s) := by
  have r := TableFrame.rel
  have fin : ∀ {op : Op Unit}, Keeps TableFrame op → Keeps TableFrame (op >>= fun _ => result 0) :=
    fun h => Keeps.bind r h fun _ => Keeps.result r _
  obtain ⟨b, rfl | rfl | rfl | rfl | rfl | rfl | rfl | rfl | ⟨w, rfl⟩⟩ := h
  · exact fin (cbUnquantize_tableFrame _)
  · exact fin (cbMakeWords_tableFrame _)
  · exact Keeps.result r _
  · exact fin (f1Look_tableFrame _)
  · exact fin (resLook_tableFrame _)
  · exact Keeps.result r _
  · exact fin (mdctInit_tableFrame _ _)
  · exact fin (winInit_tableFrame _)
  · exact fin (f0Look_tableFrame _ _ _)

/-! ## Internal operations: the tables -/

/-- The operations that read a record leave the tables alone. -/
def SameTab (s t : State) : Prop := t.tab = s.tab

theorem SameTab.rel : FrameRel SameTab := ⟨fun _ => rfl, fun h k => Eq.trans k h⟩

section

variable {α β : Type}

theorem SameTab.bind {x : Op α} {f : α → Op β} (hx : Keeps SameTab x) (hf : ∀ a, Keeps SameTab (f a)) :
    Keeps SameTab (x >>= f) := Keeps.bind SameTab.rel hx hf

theorem SameTab.pure (a : α) : Keeps SameTab (Pure.pure a : Op α) := Keeps.pure SameTab.rel a

/-- A header field read, then the rest. -/
theorem SameTab.read {n : Nat} {f : Nat → Op β} (hf : ∀ v, Keeps SameTab (f v)) : Keeps SameTab (headerRead n >>= f) :=
  SameTab.bind (Keeps.headerRead SameTab.rel (fun _ _ => rfl) (fun _ => rfl) n) hf

theorem SameTab.check (p : Bool) (k : HeaderCause) : Keeps SameTab (headerCheck p k) := Keeps.headerCheck SameTab.rel p k

/-- A check passed, then the rest. -/
theorem SameTab.checked {p : Bool} {k : HeaderCause} {f : Unit → Op β} (hf : ∀ u, Keeps SameTab (f u)) :
    Keeps SameTab (headerCheck p k >>= f) := SameTab.bind (SameTab.check p k) hf

/-- A field of the state looked up, then the rest. -/
theorem SameTab.lookup {g : State → Option α} {f : α → Op β} (hf : ∀ a, Keeps SameTab (f a)) :
    Keeps SameTab ((MonadStateOf.get : Op State) >>= fun s => need (g s) >>= f) := Keeps.lookup SameTab.rel hf

theorem SameTab.setCfg (f : State → Cfg) : Keeps SameTab (modify fun s => s.setCfg (f s) : Op Unit) :=
  Keeps.modify fun _ => rfl

/-- A field of the configuration loaded, then the rest. -/
theorem SameTab.load {g : Cfg → Cfg} {f : Unit → Op β} (hf : ∀ u, Keeps SameTab (f u)) :
    Keeps SameTab (loadCfg g >>= f) := SameTab.bind (SameTab.setCfg _) hf

/-- A list of values read, then the rest. -/
theorem SameTab.collected {ι : Type} {body : ι → Op α} {l : List ι} {f : List α → Op β} (hb : ∀ x, Keeps SameTab (body x))
    (hf : ∀ vs, Keeps SameTab (f vs)) : Keeps SameTab (collect l body >>= f) :=
  SameTab.bind (Keeps.collect SameTab.rel hb l) hf

end

theorem readFraming_sameTab : Keeps SameTab readFraming := SameTab.read fun _ => SameTab.check _ _

theorem hdrIdent_sameTab : Keeps SameTab hdrIdent :=
  SameTab.read fun _ => SameTab.load fun _ => SameTab.checked fun _ => -- the version
  SameTab.read fun _ => SameTab.load fun _ => SameTab.checked fun _ => -- the channels
  SameTab.read fun _ => SameTab.load fun _ => SameTab.checked fun _ => -- the rate
  SameTab.read fun _ => SameTab.load fun _ => SameTab.read fun _ => SameTab.load fun _ =>
  SameTab.read fun _ => SameTab.load fun _ => -- the three bitrates
  SameTab.read fun _ => SameTab.read fun _ => SameTab.load fun _ => SameTab.checked fun _ => SameTab.checked fun _ =>
  readFraming_sameTab

theorem advanceBits_sameTab (n : Nat) : Keeps SameTab (advanceBits n) := Keeps.modify fun _ => rfl

theorem skipComments_sameTab : ∀ k : Nat, Keeps SameTab (skipComments k)
  | 0 => SameTab.pure _
  | k + 1 => SameTab.read fun _ => SameTab.bind (advanceBits_sameTab _) fun _ => skipComments_sameTab k

theorem hdrComment_sameTab : Keeps SameTab hdrComment :=
  SameTab.read fun _ => SameTab.bind (advanceBits_sameTab _) fun _ =>
  SameTab.read fun _ => SameTab.bind (skipComments_sameTab _) fun _ => readFraming_sameTab

theorem hdrTime_sameTab (t : Nat) : Keeps SameTab (hdrTime t) :=
  SameTab.read fun _ => SameTab.load fun _ => SameTab.check _ _

theorem hdrMode_sameTab (k : Nat) : Keeps SameTab (hdrMode k) :=
  SameTab.read fun _ => SameTab.read fun _ => SameTab.checked fun _ => SameTab.read fun _ => SameTab.checked fun _ =>
  SameTab.read fun _ => SameTab.lookup fun _ => SameTab.checked fun _ => SameTab.setCfg _

theorem checkBook_sameTab (b : Nat) : Keeps SameTab (checkBook b) := SameTab.lookup fun _ => SameTab.check _ _

theorem checkValueBook_sameTab (b : Nat) : Keeps SameTab (checkValueBook b) :=
  SameTab.bind (checkBook_sameTab b) fun _ => SameTab.lookup fun _ => SameTab.check _ _

/-- A book number read and found to have a value table, as floor 0 and the residues list them. -/
theorem readValueBook_sameTab : Keeps SameTab (do
    let b ← headerRead 8
    checkValueBook b
    pure b) := SameTab.read fun _ => SameTab.bind (checkValueBook_sameTab _) fun _ => SameTab.pure _

theorem f0Unpack_sameTab (f : Nat) : Keeps SameTab (f0Unpack f) :=
  SameTab.read fun _ => SameTab.checked fun _ => SameTab.read fun _ => SameTab.checked fun _ =>
  SameTab.read fun _ => SameTab.checked fun _ => SameTab.read fun _ => SameTab.checked fun _ =>
  SameTab.read fun _ => SameTab.read fun _ => SameTab.collected (fun _ => readValueBook_sameTab) fun _ => SameTab.setCfg _

theorem f1ReadSubbook_sameTab : Keeps SameTab f1ReadSubbook :=
  SameTab.read fun _ => Keeps.ite (SameTab.pure _) (SameTab.bind (checkBook_sameTab _) fun _ => SameTab.pure _)

theorem f1ReadClassBook_sameTab (subs : Nat) : Keeps SameTab (f1ReadClassBook subs) :=
  Keeps.ite (SameTab.pure _) (SameTab.read fun _ => SameTab.bind (checkBook_sameTab _) fun _ => SameTab.pure _)

theorem f1ReadClass_sameTab : Keeps SameTab f1ReadClass :=
  SameTab.read fun _ => SameTab.read fun _ => SameTab.bind (f1ReadClassBook_sameTab _) fun _ =>
  SameTab.collected (fun _ => f1ReadSubbook_sameTab) fun _ => SameTab.pure _

theorem f1Unpack_sameTab (f : Nat) : Keeps SameTab (f1Unpack f) :=
  SameTab.read fun _ =>
  SameTab.collected (fun _ => Keeps.headerRead SameTab.rel (fun _ _ => rfl) (fun _ => rfl) 4) fun _ =>
  SameTab.collected (fun _ => f1ReadClass_sameTab) fun _ => SameTab.read fun _ => SameTab.read fun _ =>
  SameTab.collected (fun _ => SameTab.read fun _ => SameTab.checked fun _ => SameTab.pure _) fun _ =>
  SameTab.checked fun _ => SameTab.checked fun _ => SameTab.setCfg _

theorem optionalRead_sameTab (p : Bool) (n d : Nat) : Keeps SameTab (optionalRead p n d) :=
  Keeps.ite (Keeps.headerRead SameTab.rel (fun _ _ => rfl) (fun _ => rfl) n) (SameTab.pure d)

theorem readCascade_sameTab : Keeps SameTab readCascade :=
  SameTab.read fun _ => SameTab.read fun _ => SameTab.bind (optionalRead_sameTab _ _ _) fun _ => SameTab.pure _

theorem resUnpack_sameTab (r : Nat) : Keeps SameTab (resUnpack r) :=
  SameTab.read fun _ => SameTab.read fun _ => SameTab.read fun _ => SameTab.read fun _ => SameTab.read fun _ =>
  SameTab.bind (checkBook_sameTab _) fun _ => SameTab.lookup fun _ => SameTab.checked fun _ =>
  SameTab.collected (fun _ => readCascade_sameTab) fun _ => SameTab.collected (fun _ => readValueBook_sameTab) fun _ =>
  SameTab.setCfg _

theorem readCount_sameTab (n d : Nat) : Keeps SameTab (readCount n d) :=
  SameTab.read fun _ => Keeps.ite (SameTab.read fun _ => SameTab.pure _) (SameTab.pure _)

theorem readCoupling_sameTab (channels : Nat) : Keeps SameTab (readCoupling channels) :=
  SameTab.read fun _ => SameTab.read fun _ => SameTab.checked fun _ => SameTab.pure _

theorem readMuxList_sameTab (submaps channels : Nat) : Keeps SameTab (readMuxList submaps channels) :=
  Keeps.ite (Keeps.collect SameTab.rel (fun _ => SameTab.read fun _ => SameTab.checked fun _ => SameTab.pure _) _)
    (SameTab.pure _)

theorem readSubmap_sameTab : Keeps SameTab readSubmap :=
  SameTab.lookup fun _ => SameTab.lookup fun _ => SameTab.lookup fun _ => SameTab.read fun _ => SameTab.checked fun _ =>
  SameTab.read fun _ => SameTab.checked fun _ => SameTab.read fun _ => SameTab.checked fun _ => SameTab.pure _

theorem map0Unpack_sameTab (m : Nat) : Keeps SameTab (map0Unpack m) :=
  SameTab.lookup fun _ => SameTab.bind (readCount_sameTab _ _) fun _ => SameTab.bind (readCount_sameTab _ _) fun _ =>
  SameTab.collected (fun _ => readCoupling_sameTab _) fun _ => SameTab.read fun _ => SameTab.checked fun _ =>
  SameTab.bind (readMuxList_sameTab _ _) fun _ => SameTab.collected (fun _ => readSubmap_sameTab) fun _ => SameTab.setCfg _

/-- An operation that reads a record and builds nothing from it leaves the tables alone. -/
theorem opOf_unpack_sameTab {i : Instr} (s : State)
    (h : ∃ b, i = .f0Unpack b ∨ i = .f1Unpack b ∨ i = .resUnpack b ∨ i = .map0Unpack b ∨ i = .hdrTime b ∨
      i = .hdrMode b ∨ i = .hdrIdent ∨ i = .hdrComment) : Keeps SameTab (opOf i s) := by
  have fin : ∀ {op : Op Unit}, Keeps SameTab op → Keeps SameTab (op >>= fun _ => result 0) :=
    fun h => SameTab.bind h fun _ => Keeps.result SameTab.rel _
  obtain ⟨b, rfl | rfl | rfl | rfl | rfl | rfl | rfl | rfl⟩ := h
  · exact fin (f0Unpack_sameTab _)
  · exact fin (f1Unpack_sameTab _)
  · exact fin (resUnpack_sameTab _)
  · exact fin (map0Unpack_sameTab _)
  · exact fin (hdrTime_sameTab _)
  · exact fin (hdrMode_sameTab _)
  · exact fin hdrIdent_sameTab
  · exact fin hdrComment_sameTab

/-! ## Internal operations: everything else -/

/-- The frame of the header parser as one equation: outside `cfg`, `tab`, the cursor and the status registers nothing moves. -/
theorem HeaderFrame.setCfg_setTab {s u : State} (k : HeaderFrame s u) :
    (s.setCfg u.cfg).setTab u.tab = { u with
      pos := s.pos, eoff := s.eoff, status := s.status, cause := s.cause, res := s.res, cmd := s.cmd } := by
  cases s
  cases u
  obtain ⟨⟩ := k
  simp_all [State.setCfg, State.setTab]

/-- Settles O34: the frame of the header parser for the first part, a frame of its own for each of the other two. -/
theorem internalOperationsKeepTheRest : Obligations.InternalOperationsKeepTheRest := by
  intro i s t hi _ he
  refine ⟨?_, fun htable => ?_, fun hunpack => ?_⟩
  · obtain ⟨u, _, _, _, k, rfl⟩ := exec_frame HeaderFrame.rel (opOf_internal_frame hi s) he
    exact k.setCfg_setTab
  · obtain ⟨u, _, _, _, k, rfl⟩ := exec_frame TableFrame.rel (opOf_table_frame s htable) he
    exact ⟨k.pos, k.eoff, k.cfg⟩
  · obtain ⟨u, _, _, _, k, rfl⟩ := exec_frame SameTab.rel (opOf_unpack_sameTab s hunpack) he
    exact k

end Sys2Proof.Machine
end

section
/-! SUPPORT. What the host commands leave alone, whatever the configuration is. -/

namespace Sys2Proof.Machine

/-! ## The host's side of the state -/

/-- What no operation writes: `PKT`, `ARG0` to `ARG3` and the model's own fields (10_state.md R29, 20_memory.md R61). -/
structure PortFrame (s t : State) : Prop where
  pkt : t.pkt = s.pkt
  arg0 : t.arg0 = s.arg0
  arg1 : t.arg1 = s.arg1
  arg2 : t.arg2 = s.arg2
  arg3 : t.arg3 = s.arg3
  issuer : t.issuer = s.issuer
  eofInResidue : t.eofInResidue = s.eofInResidue

theorem PortFrame.refl (s : State) : PortFrame s s := ⟨rfl, rfl, rfl, rfl, rfl, rfl, rfl⟩

theorem PortFrame.trans {s t u : State} (h : PortFrame s t) (k : PortFrame t u) : PortFrame s u :=
  ⟨k.pkt.trans h.pkt, k.arg0.trans h.arg0, k.arg1.trans h.arg1, k.arg2.trans h.arg2, k.arg3.trans h.arg3,
    k.issuer.trans h.issuer, k.eofInResidue.trans h.eofInResidue⟩

theorem PortFrame.rel : FrameRel PortFrame := ⟨PortFrame.refl, PortFrame.trans⟩

theorem HeaderFrame.port {s t : State} (k : HeaderFrame s t) : PortFrame s t := { k with }

theorem Keeps.port {α : Type} {op : Op α} (h : Keeps HeaderFrame op) : Keeps PortFrame op :=
  h.mono fun _ _ => HeaderFrame.port

/-- What a packet leaves alone besides: the configuration, its tables and the phase (48_header.md R351). -/
structure PacketFrame (s t : State) : Prop extends PortFrame s t where
  cfg : t.cfg = s.cfg
  tab : t.tab = s.tab
  phase : t.phase = s.phase

theorem PacketFrame.refl (s : State) : PacketFrame s s := ⟨.refl s, rfl, rfl, rfl⟩

theorem PacketFrame.trans {s t u : State} (h : PacketFrame s t) (k : PacketFrame t u) : PacketFrame s u :=
  ⟨h.toPortFrame.trans k.toPortFrame, k.cfg.trans h.cfg, k.tab.trans h.tab, k.phase.trans h.phase⟩

theorem PacketFrame.rel : FrameRel PacketFrame := ⟨PacketFrame.refl, PacketFrame.trans⟩

theorem DecodeFrame.packet {s t : State} (k : DecodeFrame s t) : PacketFrame s t := { k with }

theorem Keeps.packet {α : Type} {op : Op α} (h : Keeps DecodeFrame op) : Keeps PacketFrame op :=
  h.mono fun _ _ => DecodeFrame.packet

/-! ## Named updates -/

theorem PacketFrame.setBState (b : BState) (s : State) : PacketFrame s (s.setBState b) := { PacketFrame.refl s with }

theorem PacketFrame.initCursor (base len : BitVec 32) (s : State) : PacketFrame s (s.initCursor base len) :=
  { PacketFrame.refl s with }

theorem PacketFrame.latch (g : BitVec 64) (eos bos : Bool) (s : State) : PacketFrame s (s.latch g eos bos) :=
  { PacketFrame.refl s with }

theorem PacketFrame.setSamples (n : BitVec 16) (s : State) : PacketFrame s (s.setSamples n) := { PacketFrame.refl s with }

theorem PacketFrame.setTrunc (b : Bool) (s : State) : PacketFrame s (s.setTrunc b) := { PacketFrame.refl s with }

theorem PacketFrame.clearChannels (n : Nat) (s : State) : PacketFrame s (s.clearChannels n) := { PacketFrame.refl s with }

theorem PacketFrame.setHead (m : BitVec 6) (w lw nw : Bool) (n : BitVec 16) (s : State) :
    PacketFrame s (s.setHead m w lw nw n) := { PacketFrame.refl s with }

theorem PacketFrame.setPcm (p : List (List F32)) (s : State) : PacketFrame s (s.setPcm p) := { PacketFrame.refl s with }

theorem PortFrame.setPhase (p : Phase) (s : State) : PortFrame s (s.setPhase p) := { PortFrame.refl s with }

/-- The reset values do not reach the host's side (70_reset_and_hazards.md R402). -/
theorem PortFrame.cleared (s : State) : PortFrame s s.cleared := { PortFrame.refl s with }

theorem PortFrame.tornDown (s : State) : PortFrame s s.tornDown := { PortFrame.refl s with }

theorem PortFrame.reporting {s u : State} (k : PortFrame s u) (status : BitVec 8) (cause : BitVec 16) (res : BitVec 32) :
    PortFrame s (u.reporting status cause res) := { k with }

theorem PacketFrame.reporting {s u : State} (k : PacketFrame s u) (status : BitVec 8) (cause : BitVec 16)
    (res : BitVec 32) : PacketFrame s (u.reporting status cause res) := { k with }

/-! ## `HEADERIN` -/

/-- The clause of R341 keeps what the operation and the teardown keep. -/
theorem Keeps.tearDown {α : Type} {R : State → State → Prop} {op : Op α} (hR : FrameRel R) (h : Keeps R op)
    (ht : ∀ s, R s s.tornDown) : Keeps R (tearDownOnBadHeader op) := by
  intro s
  have hs := h s
  unfold Sat tearDownOnBadHeader at *
  cases hop : op s with
  | ok v t => simpa [hop] using hs
  | error e t =>
    have hst : R s t := by simpa [hop] using hs
    cases e
    case badHeader => exact hR.trans hst (ht t)
    all_goals exact hst

/-- A body of the parser under its check of the order, then the next phase (R340). -/
theorem headerPart_port {op : Op Unit} (h : Keeps HeaderFrame op) (ok : Bool) (next : Phase) :
    Keeps PortFrame (headerCheck ok .order >>= fun _ => op >>= fun _ => modify (State.setPhase next)) :=
  Keeps.bind PortFrame.rel (headerCheck_frame _ _).port fun _ =>
  Keeps.bind PortFrame.rel h.port fun _ => Keeps.modify (PortFrame.setPhase next)

theorem headerBody_port (P : Params) (t : Nat) : Keeps PortFrame (headerBody P t) := by
  refine Keeps.bind PortFrame.rel (Keeps.get PortFrame.rel) fun s => ?_
  refine Keeps.ite (headerPart_port hdrIdent_frame _ _) (Keeps.ite (headerPart_port hdrComment_frame _ _) ?_)
  refine Keeps.bind PortFrame.rel (headerCheck_frame _ _).port fun _ => ?_
  refine Keeps.bind PortFrame.rel hdrSetup_frame.port fun _ => ?_
  exact Keeps.bind PortFrame.rel (buildTables_frame P).port fun _ =>
    Keeps.modify (PortFrame.setPhase .ready)

theorem headerPacket_port (P : Params) (eos bos : Bool) : Keeps PortFrame (headerPacket P eos bos) := by
  have r := PortFrame.rel
  refine Keeps.bind r (Keeps.get r) fun s => ?_
  refine Keeps.bind r (Keeps.modify fun u => (PacketFrame.initCursor _ _ u).toPortFrame) fun _ => ?_
  refine Keeps.bind r (Keeps.modify fun u => (PacketFrame.latch _ _ _ u).toPortFrame) fun _ => ?_
  refine Keeps.bind r (headerRead_frame 8).port fun t => ?_
  refine Keeps.bind r (headerCheck_frame _ _).port fun _ => ?_
  refine Keeps.bind r (readMagic_frame _).port fun _ => Keeps.bind r (headerBody_port P t) fun _ => ?_
  exact Keeps.bind r (Keeps.get r) fun _ => Keeps.result r _

theorem headerin_port (P : Params) (eos bos : Bool) : Keeps PortFrame (headerin P eos bos) :=
  Keeps.tearDown PortFrame.rel (headerPacket_port P eos bos) PortFrame.tornDown

/-! ## `SYNTHESIS` -/

section

variable {α β : Type}

theorem PacketFrame.bind {x : Op α} {f : α → Op β} (hx : Keeps PacketFrame x) (hf : ∀ a, Keeps PacketFrame (f a)) :
    Keeps PacketFrame (x >>= f) := Keeps.bind PacketFrame.rel hx hf

theorem PacketFrame.pure (a : α) : Keeps PacketFrame (Pure.pure a : Op α) := Keeps.pure PacketFrame.rel a

/-- A field of the state looked up, then the rest. -/
theorem PacketFrame.lookup {g : State → Option α} {f : α → Op β} (hf : ∀ a, Keeps PacketFrame (f a)) :
    Keeps PacketFrame ((MonadStateOf.get : Op State) >>= fun s => need (g s) >>= f) := Keeps.lookup PacketFrame.rel hf

/-- An update of packet registers, then the rest. -/
theorem PacketFrame.update {g : State → State} {f : Unit → Op β} (hg : ∀ s, PacketFrame s (g s))
    (hf : ∀ u, Keeps PacketFrame (f u)) : Keeps PacketFrame ((modify g : Op Unit) >>= f) :=
  PacketFrame.bind (Keeps.modify hg) hf

end

theorem failPacket_packet {α : Type} (f : Failure) : Keeps PacketFrame (failPacket f : Op α) :=
  PacketFrame.update (PacketFrame.setBState _) fun _ => Keeps.raise PacketFrame.rel f

theorem headRead_packet (n : Nat) : Keeps PacketFrame (headRead n) :=
  Keeps.absorb PacketFrame.rel (readBits_frame n).packet (failPacket_packet _)

theorem readHead_packet : Keeps PacketFrame readHead :=
  PacketFrame.bind (headRead_packet _) fun _ => Keeps.ite (failPacket_packet _) <|
  PacketFrame.lookup fun _ => PacketFrame.bind (headRead_packet _) fun _ =>
  PacketFrame.lookup fun _ => Keeps.ite (failPacket_packet _) <|
  PacketFrame.lookup fun _ => Keeps.ite
    (PacketFrame.bind (headRead_packet _) fun _ => PacketFrame.bind (headRead_packet _) fun _ => PacketFrame.pure _)
    (PacketFrame.pure _)

theorem openPacket_packet (eos bos : Bool) : Keeps PacketFrame (openPacket eos bos) :=
  PacketFrame.bind (Keeps.get PacketFrame.rel) fun _ => PacketFrame.bind (Keeps.need PacketFrame.rel _) fun _ =>
  PacketFrame.update (PacketFrame.setBState _) fun _ => PacketFrame.update (PacketFrame.initCursor _ _) fun _ =>
  PacketFrame.update (fun s => PacketFrame.latch s.granuleOperand eos bos s) fun _ =>
  PacketFrame.update (PacketFrame.setSamples _) fun _ => PacketFrame.update (PacketFrame.setTrunc _) fun _ =>
  Keeps.modify (PacketFrame.clearChannels _)

theorem openBlock_packet (m : Nat) (mode : Mode) (lw nw : Bool) : Keeps PacketFrame (openBlock m mode lw nw) :=
  PacketFrame.lookup fun _ => PacketFrame.lookup fun _ =>
  PacketFrame.update (PacketFrame.setHead _ _ _ _ _) fun _ => PacketFrame.update (PacketFrame.setBState _) fun _ =>
  PacketFrame.update (fun s => PacketFrame.setPcm _ s) fun _ => Keeps.modify (PacketFrame.setBState _)

theorem synthesis_packet (P : Params) (eos bos : Bool) : Keeps PacketFrame (synthesis P eos bos) :=
  PacketFrame.bind (openPacket_packet eos bos) fun _ => PacketFrame.bind readHead_packet fun (m, mode, lw, nw) =>
  PacketFrame.bind (openBlock_packet m mode lw nw) fun _ =>
  PacketFrame.bind (Keeps.absorb PacketFrame.rel (map0Inverse_frame P).packet (failPacket_packet _)) fun _ =>
  PacketFrame.update (fun s => PacketFrame.setSamples _ s) fun _ => PacketFrame.update (PacketFrame.setBState _) fun _ =>
  PacketFrame.bind (Keeps.get PacketFrame.rel) fun _ => Keeps.result PacketFrame.rel _

/-! ## Every operation -/

/-- A unit operation or `SYNTHESIS` stays inside the frame of a packet. -/
theorem opOf_packet {i : Instr} (hint : i.opClass ≠ .internal) (hhdr : ∀ eos bos, i ≠ .headerin eos bos)
    (hreset : i ≠ .reset) (s : State) : Keeps PacketFrame (opOf i s) := by
  cases hi : i.opClass with
  | internal => exact absurd hi hint
  | unit =>
    by_cases hinit : i = .bcInit
    · subst hinit
      exact PacketFrame.update (PacketFrame.initCursor _ _) fun _ => Keeps.result PacketFrame.rel _
    · exact (opOf_unit_frame hi hinit s).packet
  | command =>
    cases i with
    | reset => exact absurd rfl hreset
    | headerin eos bos => exact absurd rfl (hhdr eos bos)
    | synthesis eos bos => exact synthesis_packet defaultParams eos bos
    | _ => cases hi

/-- Every operation leaves the host's side of the state alone. -/
theorem opOf_port (i : Instr) (s : State) : Keeps PortFrame (opOf i s) := by
  by_cases hint : i.opClass = .internal
  · exact (opOf_internal_frame hint s).port
  · by_cases hreset : i = .reset
    · subst hreset
      exact Keeps.bind PortFrame.rel (Keeps.modify PortFrame.cleared) fun _ =>
        Keeps.result PortFrame.rel _
    · by_cases hhdr : ∃ eos bos, i = .headerin eos bos
      · obtain ⟨eos, bos, rfl⟩ := hhdr
        exact headerin_port defaultParams eos bos
      · exact (opOf_packet hint (fun eos bos h => hhdr ⟨eos, bos, h⟩) hreset s).mono fun _ _ => PacketFrame.toPortFrame

/-- So does every instruction, whoever issues it and however it ends. -/
theorem exec_port {i : Instr} {s t : State} (he : exec i s = .next t) : PortFrame s t := by
  obtain ⟨u, status, cause, res, k, rfl⟩ := exec_frame PortFrame.rel (opOf_port i s) he
  exact k.reporting status cause res

/-- From the host every instruction but `RESET` and `HEADERIN` stays inside the frame of a packet, the internal operations
because they are turned away. -/
theorem exec_packet {i : Instr} {s t : State} (hs : s.issuer = .host) (hhdr : ∀ eos bos, i ≠ .headerin eos bos)
    (hreset : i ≠ .reset) (he : exec i s = .next t) : PacketFrame s t := by
  by_cases hint : i.opClass = .internal
  · rw [exec_internal_host hint hs] at he
    cases he
    exact (PacketFrame.refl s).reporting _ _ _
  · obtain ⟨u, status, cause, res, k, rfl⟩ := exec_frame PacketFrame.rel (opOf_packet hint hhdr hreset s) he
    exact k.reporting status cause res

/-- Settles O35: by the frame of every instruction on the host's side, and the frame of a packet. -/
theorem commandsKeepWhatIsNotTheirs : Obligations.CommandsKeepWhatIsNotTheirs := by
  intro i s t he
  have k := exec_port he
  refine ⟨fun a => congrArg (Memory.read · a) k.pkt, k.arg0, k.arg1, k.arg2, k.arg3, k.issuer, k.eofInResidue, ?_⟩
  intro hs hhdr hreset
  have p := exec_packet hs hhdr hreset he
  exact ⟨p.cfg, p.tab, p.phase⟩

end Sys2Proof.Machine
end

section
/-! SUPPORT. The operations of the bit cursor as equations, when the payload runs out. -/

namespace Sys2Proof.Machine

/-- Fewer than `n` bits are left (40_bit_cursor.md R161). -/
theorem State.avail_eq_false_iff {n : Nat} {s : State} : s.avail n = false ↔ 8 * s.len.toNat < s.pos + n := by
  simp [State.avail]

/-- Once the cursor is past the end, no field of any width is left, not even one of no bits. -/
theorem State.avail_past_end {n : Nat} {s : State} (h : s.avail n = false) (f : Failure) (m : Nat) :
    ((s.advance n).setEoff.completeFail f).avail m = false := by
  rw [State.avail_eq_false_iff] at h ⊢
  exact Nat.lt_add_right m h

/-- A bit count of at most 32 passes the judge (60_exceptions.md R374). -/
theorem judgeCount_ok {n : BitVec 6} (hn : n.toNat ≤ 32) (s : State) : judgeCount n s = .ok () := by
  simp [judgeCount, judgeThat, hn]

/-- An operation its judge lets through runs, whoever issues it. -/
theorem exec_accepted {i : Instr} {s : State} (h : judgeOf i s = .ok ()) : exec i s = finish (opOf i s s) :=
  (exec_eq i s).trans (issue_accepted h)

/-- R166: `BC.READ1` is `BC.READ 1`. -/
theorem exec_bcRead1 (s : State) : exec .bcRead1 s = exec (.bcRead 1) s :=
  (exec_accepted (i := .bcRead1) rfl).trans (exec_accepted (i := .bcRead 1) (judgeCount_ok (by decide) s)).symm

/-- R163: a read past the end moves the cursor all the same, sets `EOFF` and ends `Eof`. -/
theorem exec_bcRead_eof {n : BitVec 6} {s : State} (hn : n.toNat ≤ 32) (h : s.avail n.toNat = false) :
    exec (.bcRead n) s = .next ((s.advance n.toNat).setEoff.completeFail .eof) :=
  (exec_accepted (i := .bcRead n) (judgeCount_ok hn s)).trans (finish_error (bind_error (readBits_eof h)))

/-- R164: a look past the end ends `Eof` and changes nothing. -/
theorem exec_bcLook_eof {n : BitVec 6} {s : State} (hn : n.toNat ≤ 32) (h : s.avail n.toNat = false) :
    exec (.bcLook n) s = .next (s.completeFail .eof) :=
  (exec_accepted (i := .bcLook n) (judgeCount_ok hn s)).trans (finish_error (bind_error (lookBits_eof h)))

/-- Settles O17: the failing read and look as equations, which hold again wherever the cursor is past the end. -/
theorem readPastTheEndIsSticky : Obligations.ReadPastTheEndIsSticky := by
  intro s n hn hpast
  have h : s.avail n.toNat = false := State.avail_eq_false_iff.2 hpast
  refine ⟨exec_bcLook_eof hn h, ?_, _, exec_bcRead_eof hn h, rfl, fun m hm => ?_⟩
  · rintro rfl
    exact (exec_bcRead1 s).trans (exec_bcRead_eof hn h)
  · have hm' := State.avail_past_end h .eof m.toNat
    exact ⟨exec_bcRead_eof hm hm', exec_bcLook_eof hm hm'⟩

end Sys2Proof.Machine
end

section
/-! SUPPORT. Stores into `PCM` and `LSP` word by word: one store, then a run of them. -/

namespace Sys2Proof.Machine

/-! ## One store -/

@[simp] theorem State.pcmModify_lsp (c i : Nat) (f : F32 → F32) (s : State) : (s.pcmModify c i f).lsp = s.lsp := by
  unfold State.pcmModify
  split <;> rfl

@[simp] theorem State.lspModify_pcm (i : Nat) (f : F32 → F32) (s : State) : (s.lspModify i f).pcm = s.pcm := by
  unfold State.lspModify
  split <;> rfl

/-- A valid word lies in a channel of the stream and below `PCMEND` (20_memory.md R62). -/
theorem State.pcmShape.bounds {s : State} (h : s.pcmShape) {c i : Nat} {w : F32} (hw : s.hostReadPcm c i = some w) :
    i < s.pcmend.toNat ∧ c < s.cfg.channels.getD 0 := by
  obtain ⟨row, hrow, hword⟩ := Option.bind_eq_some_iff.1 hw
  obtain ⟨hc, hrow⟩ := List.getElem?_eq_some_iff.1 hrow
  obtain ⟨hi, -⟩ := List.getElem?_eq_some_iff.1 hword
  rcases h with ⟨hnil, -⟩ | ⟨hch, hlen⟩
  · simp [hnil] at hc
  · rw [hch, ← hlen row (hrow ▸ List.getElem_mem hc)]
    exact ⟨hi, hc⟩

/-- The words of a list of rows after one word of one row is changed. -/
theorem State.setPcm_modify_hostReadPcm (c i : Nat) (f : F32 → F32) (s : State) (c' i' : Nat) :
    (s.setPcm (s.pcm.modify c fun row => row.modify i f)).hostReadPcm c' i' =
      (s.hostReadPcm c' i').map fun w => if c' = c ∧ i' = i then f w else w := by
  by_cases hc : c' = c
  · subst hc
    cases hrow : s.pcm[c']? <;> simp [State.hostReadPcm, List.getElem?_modify, hrow, eq_comm (a := i)]
  · simp [State.hostReadPcm, hc, Ne.symm hc]

/-- R71: a store changes the word it is sent to when that word is valid, and goes nowhere otherwise. -/
theorem State.pcmModify_hostReadPcm {s : State} (h : s.pcmShape) (c i : Nat) (f : F32 → F32) (c' i' : Nat) :
    (s.pcmModify c i f).hostReadPcm c' i' =
      (s.hostReadPcm c' i').map fun w => if c' = c ∧ i' = i then f w else w := by
  unfold State.pcmModify
  split
  · exact s.setPcm_modify_hostReadPcm c i f c' i'
  case isFalse hout =>
    cases hw : s.hostReadPcm c' i' with
    | none => rfl
    | some w =>
      have hne : ¬ (c' = c ∧ i' = i) := by
        rintro ⟨rfl, rfl⟩
        exact hout (h.bounds hw)
      simp [hne]

/-- R193: a store to `LSP` changes the word it is sent to, and goes nowhere when there is none. -/
theorem State.lspModify_getElem? {s : State} (h : s.lsp.length = 256) (i : Nat) (f : F32 → F32) (i' : Nat) :
    (s.lspModify i f).lsp[i']? = (s.lsp[i']?).map fun w => if i' = i then f w else w := by
  have hmod : (s.lspModify i f).lsp = s.lsp.modify i f := by
    unfold State.lspModify
    split
    · rfl
    · exact (List.modify_eq_self (by omega)).symm
  rw [hmod, List.getElem?_modify]
  simp [eq_comm (a := i)]

/-- A store keeps the shape of `PCM`. -/
theorem State.pcmShape.pcmModify {s : State} (h : s.pcmShape) (c i : Nat) (f : F32 → F32) :
    (s.pcmModify c i f).pcmShape :=
  have k := DecodeFrame.pcmModify c i f s
  State.pcmShape_congr k.pcm k.pcmend (congrArg Cfg.channels k.cfg) h

/-! ## A run of stores -/

/-- The first value of a run, when it is sent to the word, is combined with it before all others. -/
theorem combineAll_cons (mode : CombineMode) (v : F32) (vs : List F32) (sentTo : Nat → Bool) (word : F32) :
    combineAll mode (v :: vs) sentTo word =
      combineAll mode vs (fun j => sentTo (j + 1)) (if sentTo 0 then combine mode v word else word) := by
  simp only [combineAll, List.length_cons, List.range_succ_eq_map, List.filter_cons, List.filter_map]
  split <;> simp [List.foldl_map, Function.comp_def]

/-- A run of no values leaves every word as it is. -/
theorem combineAll_nil (mode : CombineMode) (sentTo : Nat → Bool) : combineAll mode [] sentTo = id := rfl

/-- Step of the inductions over a run: one store to the word, then the rest of the run. -/
theorem map_combineAll_cons {mode : CombineMode} {v : F32} {vs : List F32} {first : Prop} [Decidable first]
    {rest all : Nat → Bool} (h0 : all 0 = decide first) (hs : ∀ j, all (j + 1) = rest j) (o : Option F32) :
    (o.map fun w => if first then combine mode v w else w).map (combineAll mode vs rest) =
      o.map (combineAll mode (v :: vs) all) := by
  obtain rfl : (fun j => all (j + 1)) = rest := funext hs
  rw [Option.map_map]
  refine congrArg (Option.map · o) (funext fun w => ?_)
  simp [combineAll_cons, h0]

/-- R193, R194, R196: the words of a channel after a run of stores to a channel. -/
theorem storeRun_pcm_hostReadPcm (mode : CombineMode) (step c c' i : Nat) : ∀ (vs : List F32) (start : Nat) (s : State),
    s.pcmShape → (storeRun (.pcm c) mode step start vs s).hostReadPcm c' i =
      (s.hostReadPcm c' i).map (combineAll mode vs fun j => c' = c ∧ i = start + j * step)
  | [], _, _, _ => by rw [combineAll_nil, Option.map_id]; rfl
  | v :: vs, start, s, h => by
    refine (storeRun_pcm_hostReadPcm mode step c c' i vs (start + step) _ (h.pcmModify c start _)).trans ?_
    rw [State.pcmModify_hostReadPcm h]
    exact map_combineAll_cons (by simp) (fun j => by rw [Nat.succ_mul, Nat.add_assoc start, Nat.add_comm step]) _

/-- R193, R194, R196: the words of `LSP` after a run of stores to it. -/
theorem storeRun_lsp_getElem? (mode : CombineMode) (step i : Nat) : ∀ (vs : List F32) (start : Nat) (s : State),
    s.lsp.length = 256 → (storeRun .lsp mode step start vs s).lsp[i]? =
      (s.lsp[i]?).map (combineAll mode vs fun j => i = start + j * step)
  | [], _, _, _ => by rw [combineAll_nil, Option.map_id]; rfl
  | v :: vs, start, s, h => by
    refine (storeRun_lsp_getElem? mode step i vs (start + step) _ ((DecodeFrame.lspModify start _ s).lsp.trans h)).trans ?_
    rw [State.lspModify_getElem? h]
    exact map_combineAll_cons (by simp) (fun j => by rw [Nat.succ_mul, Nat.add_assoc start, Nat.add_comm step]) _

theorem storeRun_pcm_lsp (mode : CombineMode) (step c : Nat) : ∀ (vs : List F32) (start : Nat) (s : State),
    (storeRun (.pcm c) mode step start vs s).lsp = s.lsp
  | [], _, _ => rfl
  | _ :: vs, _, s => (storeRun_pcm_lsp mode step c vs _ _).trans (s.pcmModify_lsp _ _ _)

theorem storeRun_lsp_pcm (mode : CombineMode) (step : Nat) : ∀ (vs : List F32) (start : Nat) (s : State),
    (storeRun .lsp mode step start vs s).pcm = s.pcm
  | [], _, _ => rfl
  | _ :: vs, _, s => (storeRun_lsp_pcm mode step vs _ _).trans (s.lspModify_pcm _ _)

/-! ## Values added across a bundle -/

@[simp] theorem channelRun_length (first count : Nat) : (channelRun first count).length = count := by
  simp [channelRun]

/-- Position `p` of a bundle belongs to channel `first + p mod count` (41_codebook.md R195). -/
theorem channelRun_getD_mod {count : Nat} (h : 1 ≤ count) (first p : Nat) :
    (channelRun first count).getD (p % count) 0 = first + p % count := by
  simp [channelRun, Nat.mod_lt p h]

/-- R195: the words of the channels after values added across a bundle. -/
theorem addInterleaved_hostReadPcm {count : Nat} (hcount : 1 ≤ count) (first c i : Nat) :
    ∀ (vs : List F32) (p : Nat) (s : State), s.pcmShape →
      (addInterleaved (channelRun first count) p vs s).hostReadPcm c i =
        (s.hostReadPcm c i).map (combineAll .add vs fun j => c = first + (p + j) % count ∧ i = (p + j) / count)
  | [], _, _, _ => by rw [combineAll_nil, Option.map_id]; rfl
  | v :: vs, p, s, h => by
    refine (addInterleaved_hostReadPcm hcount first c i vs (p + 1) _ (h.pcmModify _ _ _)).trans ?_
    rw [State.pcmModify_hostReadPcm h, channelRun_length, channelRun_getD_mod hcount]
    exact map_combineAll_cons rfl (fun j => by rw [Nat.add_assoc p, Nat.add_comm 1]) _

theorem addInterleaved_lsp (chlist : List Nat) : ∀ (vs : List F32) (p : Nat) (s : State),
    (addInterleaved chlist p vs s).lsp = s.lsp
  | [], _, _ => rfl
  | _ :: vs, _, s => (addInterleaved_lsp chlist vs _ _).trans (s.pcmModify_lsp _ _ _)

/-- Settles O31: by induction over the values of a run, one store at a time. -/
theorem storesGoWhereTheyAreSent : Obligations.StoresGoWhereTheyAreSent := by
  intro s hpcm harrays
  obtain ⟨-, -, hlsp⟩ := harrays
  refine ⟨fun mode step start vs => ⟨fun c c' i => ?_, fun c => ?_, fun i => ?_, ?_⟩,
    fun first count p vs hcount => ⟨fun c i => ?_, ?_⟩⟩
  · exact storeRun_pcm_hostReadPcm mode step c c' i vs start s hpcm
  · exact storeRun_pcm_lsp mode step c vs start s
  · exact storeRun_lsp_getElem? mode step i vs start s hlsp
  · exact storeRun_lsp_pcm mode step vs start s
  · exact addInterleaved_hostReadPcm hcount first c i vs p s hpcm
  · exact addInterleaved_lsp _ vs p s

end Sys2Proof.Machine
end

section
/-! SUPPORT. Command words: encoding and decoding by operand form (30_encoding.md R92), and what a step makes of one. -/

namespace Sys2Proof

/-! ## Operand fields that decode to what was encoded -/

theorem encodeFlags_decode {b : BitVec 8} (h : b.extractLsb' 2 6 = 0) :
    encodeFlags (b.getLsbD 1) (b.getLsbD 0) = b := by
  revert b
  decide

theorem decodeFlags_encodeFlags (mk : Bool → Bool → Instr) (eos bos : Bool) :
    decodeFlags mk 0 (encodeFlags eos bos) 0 = .ok (mk eos bos) := by
  cases eos <;> cases bos <;> rfl

theorem decodeCursor_ok {mk : BitVec 6 → Instr} {n : BitVec 6} (h : bitCountOk n = true) :
    decodeCursor mk (n.setWidth 8) 0 0 = .ok (mk n) := by
  rw [decodeCursor, decodeCount_ok (by simpa [bitCountOk] using h)]
  rfl

/-- An accepted bit count fits its six bits and is at most 32. -/
theorem decodeCount_eq_ok {a : BitVec 8} {n : BitVec 6} (h : decodeCount a = .ok n) :
    bitCountOk n = true ∧ n.setWidth 8 = a := by
  unfold decodeCount at h
  split at h
  case isFalse => cases h
  case isTrue ha =>
    cases h
    have hlow : (a.extractLsb' 0 6).toNat = a.toNat := by simp; omega
    refine ⟨by simp [bitCountOk, hlow, ha], BitVec.eq_of_toNat_eq ?_⟩
    simp; omega

theorem decodeCount_eq_error {a : BitVec 8} {e : DecodeError} (h : decodeCount a = .error e) : e = .badField := by
  unfold decodeCount at h
  split at h <;> cases h
  rfl

theorem encodeDst_decodeDst (b : BitVec 8) : encodeDst (decodeDst b) = b := by
  unfold decodeDst
  split
  · simp_all [encodeDst]
  · rfl

/-- The decoder gives 255 to `LSP`, so a channel destination is at most 254. -/
theorem decodeDst_ok (b : BitVec 8) : (decodeDst b).ok = true := by
  unfold decodeDst
  split
  case isTrue => rfl
  case isFalse h =>
    have hne : b.toNat ≠ 255 := fun hb => h (BitVec.eq_of_toNat_eq hb)
    simp only [Dst.ok, decide_eq_true_eq]
    omega

theorem encodeMode_of_decodeMode {c : BitVec 8} {m : CombineMode} (h : decodeMode c = .ok m) : encodeMode m = c := by
  unfold decodeMode at h
  split at h
  case isTrue hc => cases h; exact hc.symm
  split at h
  case isTrue hc => cases h; exact hc.symm
  split at h
  case isTrue hc => cases h; exact hc.symm
  case isFalse => cases h

theorem decodeMode_eq_error {c : BitVec 8} {e : DecodeError} (h : decodeMode c = .error e) : e = .badField := by
  unfold decodeMode at h
  split_ifs at h
  cases h
  rfl

/-! ## From the operation to its word and back, by form

`gate` is `whenZero` or `whenZeroInt`: what a row answers when its unused fields are 0, and when they are not. -/

section

variable {o : BitVec 8} {gate : Bool → Instr → Except DecodeError Instr}

/-- A row without operands. -/
theorem decode_word_none {i : Instr}
    (hrow : ∀ {w}, fieldOpc w = o → decode w = gate (fieldA w == 0 && fieldB w == 0 && fieldC w == 0) i)
    (hgate : gate true i = .ok i) : decode (commandWord o 0 0 0) = .ok i := by
  rw [hrow (fieldOpc_word ..), fieldA_word, fieldB_word, fieldC_word]
  exact hgate

/-- A row with one operand, in `A`. -/
theorem decode_word_a {mk : BitVec 8 → Instr}
    (hrow : ∀ {w}, fieldOpc w = o → decode w = gate (fieldB w == 0 && fieldC w == 0) (mk (fieldA w)))
    (hgate : ∀ i, gate true i = .ok i) (a : BitVec 8) : decode (commandWord o a 0 0) = .ok (mk a) := by
  rw [hrow (fieldOpc_word ..), fieldA_word, fieldB_word, fieldC_word]
  exact hgate _

/-- A row with operands in `A` and `B`. -/
theorem decode_word_ab {mk : BitVec 8 → BitVec 8 → Instr}
    (hrow : ∀ {w}, fieldOpc w = o → decode w = gate (fieldC w == 0) (mk (fieldA w) (fieldB w)))
    (hgate : ∀ i, gate true i = .ok i) (a b : BitVec 8) : decode (commandWord o a b 0) = .ok (mk a b) := by
  rw [hrow (fieldOpc_word ..), fieldA_word, fieldB_word, fieldC_word]
  exact hgate _

/-- A row with operands in all three fields. -/
theorem decode_word_abc {mk : BitVec 8 → BitVec 8 → BitVec 8 → Instr}
    (hrow : ∀ {w}, fieldOpc w = o → decode w = .ok (mk (fieldA w) (fieldB w) (fieldC w))) (a b c : BitVec 8) :
    decode (commandWord o a b c) = .ok (mk a b c) := by
  rw [hrow (fieldOpc_word ..), fieldA_word, fieldB_word, fieldC_word]

/-- A row with packet flags. -/
theorem decode_word_flags {mk : Bool → Bool → Instr}
    (hrow : ∀ {w}, fieldOpc w = o → decode w = decodeFlags mk (fieldA w) (fieldB w) (fieldC w)) (eos bos : Bool) :
    decode (commandWord o 0 (encodeFlags eos bos) 0) = .ok (mk eos bos) := by
  rw [hrow (fieldOpc_word ..), fieldA_word, fieldB_word, fieldC_word]
  exact decodeFlags_encodeFlags mk eos bos

/-- A row with a bit count. -/
theorem decode_word_count {mk : BitVec 6 → Instr}
    (hrow : ∀ {w}, fieldOpc w = o → decode w = decodeCursor mk (fieldA w) (fieldB w) (fieldC w)) {n : BitVec 6}
    (hn : bitCountOk n = true) : decode (commandWord o (n.setWidth 8) 0 0) = .ok (mk n) := by
  rw [hrow (fieldOpc_word ..), fieldA_word, fieldB_word, fieldC_word]
  exact decodeCursor_ok hn

end

/-- Settles O1: row by row, each by its operand form. -/
theorem decodeAfterEncode : Obligations.DecodeAfterEncode := by
  intro i hi
  cases i with
  | reset => exact decode_word_none decode_reset rfl
  | headerin eos bos => exact decode_word_flags decode_headerin eos bos
  | synthesis eos bos => exact decode_word_flags decode_synthesis eos bos
  | bcInit => exact decode_word_none decode_bcInit rfl
  | bcRead n => exact decode_word_count decode_bcRead hi
  | bcLook n => exact decode_word_count decode_bcLook hi
  | bcAdv n => exact decode_word_count decode_bcAdv hi
  | bcRead1 => exact decode_word_none decode_bcRead1 rfl
  | cbUnquantize b => exact decode_word_a decode_cbUnquantize (fun _ => rfl) b
  | cbMakeWords b => exact decode_word_a decode_cbMakeWords (fun _ => rfl) b
  | cbMakeTree b => exact decode_word_a decode_cbMakeTree (fun _ => rfl) b
  | cbDecode b => exact decode_word_a decode_cbDecode (fun _ => rfl) b
  | cbDecodeSet b dst =>
    refine (decode_word_ab (mk := fun a d => .cbDecodeSet a (decodeDst d)) decode_cbDecodeSet (fun _ => rfl) b _).trans ?_
    rw [decodeDst_encodeDst hi]
  | cbDecodeAdd b dst =>
    refine (decode_word_ab (mk := fun a d => .cbDecodeAdd a (decodeDst d)) decode_cbDecodeAdd (fun _ => rfl) b _).trans ?_
    rw [decodeDst_encodeDst hi]
  | cbDecodeVvAdd b first count => exact decode_word_abc decode_cbDecodeVvAdd b first count
  | cbDecodeVs b dst mode =>
    show decode (commandWord 0x27 b (encodeDst dst) (encodeMode mode)) = _
    rw [decode_cbDecodeVs (fieldOpc_word ..), fieldA_word, fieldB_word, fieldC_word, decodeMode_encodeMode,
      decodeDst_encodeDst hi]
  | f0Unpack f => exact decode_word_a decode_f0Unpack (fun _ => rfl) f
  | f0Look f w => exact decode_word_ab decode_f0Look (fun _ => rfl) f w
  | f0Inverse1 f c => exact decode_word_ab decode_f0Inverse1 (fun _ => rfl) f c
  | f0Inverse2 f c => exact decode_word_ab decode_f0Inverse2 (fun _ => rfl) f c
  | f1Unpack f => exact decode_word_a decode_f1Unpack (fun _ => rfl) f
  | f1Look f => exact decode_word_a decode_f1Look (fun _ => rfl) f
  | f1Inverse1 f c => exact decode_word_ab decode_f1Inverse1 (fun _ => rfl) f c
  | f1Inverse2 f c => exact decode_word_ab decode_f1Inverse2 (fun _ => rfl) f c
  | resUnpack r => exact decode_word_a decode_resUnpack (fun _ => rfl) r
  | resLook r => exact decode_word_a decode_resLook (fun _ => rfl) r
  | res0Inverse r first count => exact decode_word_abc decode_res0Inverse r first count
  | res1Inverse r first count => exact decode_word_abc decode_res1Inverse r first count
  | res2Inverse r first count => exact decode_word_abc decode_res2Inverse r first count
  | map0Unpack m => exact decode_word_a decode_map0Unpack (fun _ => rfl) m
  | map0Look m => exact decode_word_a decode_map0Look (fun _ => rfl) m
  | map0Inverse => exact decode_word_none decode_map0Inverse rfl
  | mdctInit w => exact decode_word_a decode_mdctInit (fun _ => rfl) w
  | mdctBackward w c => exact decode_word_ab decode_mdctBackward (fun _ => rfl) w c
  | winInit => exact decode_word_none decode_winInit rfl
  | winApply c =>
    show decode (commandWord 0x71 0 c 0) = _
    rw [decode_winApply (fieldOpc_word ..), fieldA_word, fieldB_word, fieldC_word]
    rfl
  | hdrIdent => exact decode_word_none decode_hdrIdent rfl
  | hdrComment => exact decode_word_none decode_hdrComment rfl
  | hdrSetup => exact decode_word_none decode_hdrSetup rfl
  | hdrBook b => exact decode_word_a decode_hdrBook (fun _ => rfl) b
  | hdrTime t => exact decode_word_a decode_hdrTime (fun _ => rfl) t
  | hdrMode k => exact decode_word_a decode_hdrMode (fun _ => rfl) k

/-! ## From a word to its operation and back, by form -/

section

variable {w : Word32} {o : BitVec 8}

theorem word_of_none (h : fieldOpc w = o) (hz : (fieldA w == 0 && fieldB w == 0 && fieldC w == 0) = true) :
    commandWord o 0 0 0 = w := by
  simp only [Bool.and_eq_true, beq_iff_eq] at hz
  obtain ⟨⟨ha, hb⟩, hc⟩ := hz
  conv_rhs => rw [← commandWord_fields w, h, ha, hb, hc]

theorem word_of_a (h : fieldOpc w = o) (hz : (fieldB w == 0 && fieldC w == 0) = true) :
    commandWord o (fieldA w) 0 0 = w := by
  simp only [Bool.and_eq_true, beq_iff_eq] at hz
  obtain ⟨hb, hc⟩ := hz
  conv_rhs => rw [← commandWord_fields w, h, hb, hc]

theorem word_of_b (h : fieldOpc w = o) (hz : (fieldA w == 0 && fieldC w == 0) = true) :
    commandWord o 0 (fieldB w) 0 = w := by
  simp only [Bool.and_eq_true, beq_iff_eq] at hz
  obtain ⟨ha, hc⟩ := hz
  conv_rhs => rw [← commandWord_fields w, h, ha, hc]

theorem word_of_ab (h : fieldOpc w = o) (hz : (fieldC w == 0) = true) :
    commandWord o (fieldA w) (fieldB w) 0 = w := by
  rw [beq_iff_eq] at hz
  conv_rhs => rw [← commandWord_fields w, h, hz]

theorem word_of_abc (h : fieldOpc w = o) : commandWord o (fieldA w) (fieldB w) (fieldC w) = w := by
  rw [← h, commandWord_fields]

end

/-- What a row of the class `cls` may answer for the word `w`: the one well-formed operation with this word, or the row of
60_exceptions.md R374 that turns the class's malformed words away. -/
def Judged (w : Word32) (cls : OpClass) (r : Except DecodeError Instr) : Prop :=
  (∃ i, r = .ok i ∧ i.opClass = cls ∧ i.wellFormed = true ∧ encode i = w) ∨
  r = .error (if cls = .internal then .internalForm else .badField)

section

variable {w : Word32} {i : Instr} {p : Bool}

theorem Judged.ok (hwf : i.wellFormed = true) (he : encode i = w) : Judged w i.opClass (.ok i) :=
  .inl ⟨i, rfl, rfl, hwf, he⟩

theorem Judged.whenZero (hcls : i.opClass ≠ .internal) (hwf : i.wellFormed = true) (he : p = true → encode i = w) :
    Judged w i.opClass (Sys2Proof.whenZero p i) := by
  cases p with
  | true => exact .ok hwf (he rfl)
  | false => exact .inr (by rw [if_neg hcls]; rfl)

theorem Judged.whenZeroInt (hcls : i.opClass = .internal) (hwf : i.wellFormed = true) (he : p = true → encode i = w) :
    Judged w .internal (Sys2Proof.whenZeroInt p i) := by
  cases p with
  | true => exact .inl ⟨i, rfl, hcls, hwf, he rfl⟩
  | false => exact .inr rfl

/-- A row with a bit count: a count above 32 is malformed too. -/
theorem Judged.cursor {mk : BitVec 6 → Instr} {o : BitVec 8} (h : fieldOpc w = o)
    (hmk : ∀ n, (mk n).opClass = .unit ∧ (mk n).wellFormed = bitCountOk n ∧
      encode (mk n) = commandWord o (n.setWidth 8) 0 0) :
    Judged w .unit (decodeCursor mk (fieldA w) (fieldB w) (fieldC w)) := by
  unfold decodeCursor
  cases hn : decodeCount (fieldA w) with
  | error e =>
    cases decodeCount_eq_error hn
    exact .inr rfl
  | ok n =>
    obtain ⟨hcls, hwf, he⟩ := hmk n
    obtain ⟨hcount, ha⟩ := decodeCount_eq_ok hn
    rw [← hcls]
    refine .whenZero (by rw [hcls]; decide) (hwf.trans hcount) fun hz => ?_
    rw [he, ha]
    exact word_of_a h hz

/-- A row with packet flags: a flag byte with a bit above bit 1 is malformed too. -/
theorem Judged.flags {mk : Bool → Bool → Instr} {o : BitVec 8} (h : fieldOpc w = o)
    (hmk : ∀ eos bos, (mk eos bos).opClass = .command ∧ (mk eos bos).wellFormed = true ∧
      encode (mk eos bos) = commandWord o 0 (encodeFlags eos bos) 0) :
    Judged w .command (decodeFlags mk (fieldA w) (fieldB w) (fieldC w)) := by
  obtain ⟨hcls, hwf, he⟩ := hmk ((fieldB w).getLsbD 1) ((fieldB w).getLsbD 0)
  rw [← hcls]
  refine .whenZero (by rw [hcls]; decide) hwf fun hz => ?_
  rw [Bool.and_eq_true, beq_iff_eq] at hz
  obtain ⟨hac, hflags⟩ := hz
  rw [he, encodeFlags_decode hflags]
  exact word_of_b h hac

/-- A row with a destination in `B`: the selector of `LSP` is no channel. -/
theorem Judged.destination {o : BitVec 8} {mk : BitVec 8 → Dst → Instr} (h : fieldOpc w = o)
    (hmk : ∀ b dst, (mk b dst).opClass = .unit ∧ (mk b dst).wellFormed = dst.ok ∧
      encode (mk b dst) = commandWord o b (encodeDst dst) 0) :
    Judged w .unit (Sys2Proof.whenZero (fieldC w == 0) (mk (fieldA w) (decodeDst (fieldB w)))) := by
  obtain ⟨hcls, hwf, he⟩ := hmk (fieldA w) (decodeDst (fieldB w))
  rw [← hcls]
  refine .whenZero (by rw [hcls]; decide) (hwf.trans (decodeDst_ok _)) fun hz => ?_
  rw [he, encodeDst_decodeDst]
  exact word_of_ab h hz

end

/-! ## The rows of each class -/

/-- A field whose value is in a list of numbers is one of their words. -/
theorem mem_map_ofNat {x : BitVec 8} {l : List Nat} (h : x.toNat ∈ l) : x ∈ l.map (BitVec.ofNat 8) :=
  List.mem_map.2 ⟨x.toNat, h, by simp⟩

theorem decode_command {w : Word32} (h : (fieldOpc w).toNat ∈ commandCodes) : Judged w .command (decode w) := by
  have h := mem_map_ofNat h
  simp only [commandCodes, List.map_cons, List.map_nil, List.mem_cons, List.not_mem_nil, or_false] at h
  rcases h with h | h | h
  · rw [decode_reset h]; exact .whenZero (by decide) rfl (word_of_none h)
  · rw [decode_headerin h]; exact .flags h fun _ _ => ⟨rfl, rfl, rfl⟩
  · rw [decode_synthesis h]; exact .flags h fun _ _ => ⟨rfl, rfl, rfl⟩

/-- The row of `CB.DECODE_VS`, with a destination in `B` and a combine mode in `C`. -/
theorem decode_cbDecodeVs_judged {w : Word32} (h : fieldOpc w = 0x27) : Judged w .unit (decode w) := by
  rw [decode_cbDecodeVs h]
  cases hm : decodeMode (fieldC w) with
  | ok m =>
    refine .ok (i := .cbDecodeVs _ _ _) (decodeDst_ok _) ?_
    show commandWord 0x27 _ _ _ = w
    rw [encodeDst_decodeDst, encodeMode_of_decodeMode hm]
    exact word_of_abc h
  | error e =>
    cases decodeMode_eq_error hm
    exact .inr rfl

theorem decode_unit {w : Word32} (h : (fieldOpc w).toNat ∈ unitCodes) : Judged w .unit (decode w) := by
  have h := mem_map_ofNat h
  simp only [unitCodes, List.map_cons, List.map_nil, List.mem_cons, List.not_mem_nil, or_false] at h
  rcases h with h | h | h | h | h | h | h | h | h | h | h | h | h | h | h | h | h | h | h | h
  · rw [decode_bcInit h]; exact .whenZero (by decide) rfl (word_of_none h)
  · rw [decode_bcRead h]; exact .cursor h fun _ => ⟨rfl, rfl, rfl⟩
  · rw [decode_bcLook h]; exact .cursor h fun _ => ⟨rfl, rfl, rfl⟩
  · rw [decode_bcAdv h]; exact .cursor h fun _ => ⟨rfl, rfl, rfl⟩
  · rw [decode_bcRead1 h]; exact .whenZero (by decide) rfl (word_of_none h)
  · rw [decode_cbDecode h]; exact .whenZero (i := .cbDecode _) (by simp [Instr.opClass]) rfl (word_of_a h)
  · rw [decode_cbDecodeSet h]; exact .destination h fun _ _ => ⟨rfl, rfl, rfl⟩
  · rw [decode_cbDecodeAdd h]; exact .destination h fun _ _ => ⟨rfl, rfl, rfl⟩
  · rw [decode_cbDecodeVvAdd h]; exact .ok (i := .cbDecodeVvAdd _ _ _) rfl (word_of_abc h)
  · exact decode_cbDecodeVs_judged h
  · rw [decode_f0Inverse1 h]; exact .whenZero (i := .f0Inverse1 _ _) (by simp [Instr.opClass]) rfl (word_of_ab h)
  · rw [decode_f0Inverse2 h]; exact .whenZero (i := .f0Inverse2 _ _) (by simp [Instr.opClass]) rfl (word_of_ab h)
  · rw [decode_f1Inverse1 h]; exact .whenZero (i := .f1Inverse1 _ _) (by simp [Instr.opClass]) rfl (word_of_ab h)
  · rw [decode_f1Inverse2 h]; exact .whenZero (i := .f1Inverse2 _ _) (by simp [Instr.opClass]) rfl (word_of_ab h)
  · rw [decode_res0Inverse h]; exact .ok (i := .res0Inverse _ _ _) rfl (word_of_abc h)
  · rw [decode_res1Inverse h]; exact .ok (i := .res1Inverse _ _ _) rfl (word_of_abc h)
  · rw [decode_res2Inverse h]; exact .ok (i := .res2Inverse _ _ _) rfl (word_of_abc h)
  · rw [decode_map0Inverse h]; exact .whenZero (by decide) rfl (word_of_none h)
  · rw [decode_mdctBackward h]; exact .whenZero (i := .mdctBackward _ _) (by simp [Instr.opClass]) rfl (word_of_ab h)
  · rw [decode_winApply h]; exact .whenZero (i := .winApply _) (by simp [Instr.opClass]) rfl (word_of_b h)

theorem decode_internal {w : Word32} (h : (fieldOpc w).toNat ∈ internalCodes) : Judged w .internal (decode w) := by
  have h := mem_map_ofNat h
  simp only [internalCodes, List.map_cons, List.map_nil, List.mem_cons, List.not_mem_nil, or_false] at h
  rcases h with h | h | h | h | h | h | h | h | h | h | h | h | h | h | h | h | h | h | h
  · rw [decode_cbUnquantize h]; exact .whenZeroInt rfl rfl (word_of_a h)
  · rw [decode_cbMakeWords h]; exact .whenZeroInt rfl rfl (word_of_a h)
  · rw [decode_cbMakeTree h]; exact .whenZeroInt rfl rfl (word_of_a h)
  · rw [decode_f0Unpack h]; exact .whenZeroInt rfl rfl (word_of_a h)
  · rw [decode_f0Look h]; exact .whenZeroInt rfl rfl (word_of_ab h)
  · rw [decode_f1Unpack h]; exact .whenZeroInt rfl rfl (word_of_a h)
  · rw [decode_f1Look h]; exact .whenZeroInt rfl rfl (word_of_a h)
  · rw [decode_resUnpack h]; exact .whenZeroInt rfl rfl (word_of_a h)
  · rw [decode_resLook h]; exact .whenZeroInt rfl rfl (word_of_a h)
  · rw [decode_map0Unpack h]; exact .whenZeroInt rfl rfl (word_of_a h)
  · rw [decode_map0Look h]; exact .whenZeroInt rfl rfl (word_of_a h)
  · rw [decode_mdctInit h]; exact .whenZeroInt rfl rfl (word_of_a h)
  · rw [decode_winInit h]; exact .whenZeroInt rfl rfl (word_of_none h)
  · rw [decode_hdrIdent h]; exact .whenZeroInt rfl rfl (word_of_none h)
  · rw [decode_hdrComment h]; exact .whenZeroInt rfl rfl (word_of_none h)
  · rw [decode_hdrSetup h]; exact .whenZeroInt rfl rfl (word_of_none h)
  · rw [decode_hdrBook h]; exact .whenZeroInt rfl rfl (word_of_a h)
  · rw [decode_hdrTime h]; exact .whenZeroInt rfl rfl (word_of_a h)
  · rw [decode_hdrMode h]; exact .whenZeroInt rfl rfl (word_of_a h)

/-- Row 1 of 60_exceptions.md R374: a code of no class. -/
theorem decode_reserved {w : Word32} (h : (fieldOpc w).toNat ∉ commandCodes ++ unitCodes ++ internalCodes) :
    decode w = .error .reservedOpcode := by
  unfold decode
  split
  case h_43 => rfl
  all_goals simp_all [commandCodes, unitCodes, internalCodes]

/-- Every code is of one of the three classes or of none. -/
theorem decode_cases (w : Word32) : (∃ cls, Judged w cls (decode w)) ∨ decode w = .error .reservedOpcode := by
  by_cases hcmd : (fieldOpc w).toNat ∈ commandCodes
  · exact .inl ⟨_, decode_command hcmd⟩
  by_cases hunit : (fieldOpc w).toNat ∈ unitCodes
  · exact .inl ⟨_, decode_unit hunit⟩
  by_cases hint : (fieldOpc w).toNat ∈ internalCodes
  · exact .inl ⟨_, decode_internal hint⟩
  · exact .inr (decode_reserved (by simp [hcmd, hunit, hint]))

/-- What a row accepts is the well-formed operation with this word. -/
theorem Judged.of_ok {w : Word32} {cls : OpClass} {r : Except DecodeError Instr} {i : Instr} (h : Judged w cls r)
    (hi : r = .ok i) : i.wellFormed = true ∧ encode i = w := by
  rcases h with ⟨j, hj, -, hwf, he⟩ | herr
  · cases hj.symm.trans hi
    exact ⟨hwf, he⟩
  · cases herr.symm.trans hi

/-- R94: the operation code of an encoded operation. -/
theorem fieldOpc_encode (i : Instr) : fieldOpc (encode i) = i.opcode := by
  cases i <;> exact fieldOpc_word _ _ _ _

/-- Settles O2: each class of rows accepts the words of its own operations only. -/
theorem legalWordHasOneMeaning : Obligations.LegalWordHasOneMeaning := by
  intro w i hi
  have hword : i.wellFormed = true ∧ encode i = w := by
    rcases decode_cases w with ⟨cls, h⟩ | h
    · exact h.of_ok hi
    · cases h.symm.trans hi
  obtain ⟨hwf, he⟩ := hword
  exact ⟨hwf, he, he ▸ fieldOpc_encode i⟩

/-- Settles O3: by evaluating the decoder on each word. -/
theorem tableWordsDecode : Obligations.TableWordsDecode := by
  refine ⟨?_, ?_, ?_, ?_, ?_, ?_, ?_, ?_, ?_, ?_, ?_, ?_, ?_, ?_⟩ <;> decide

end Sys2Proof

namespace Sys2Proof.Machine

/-! ## What a step makes of a word -/

section

variable {s : State} {w : BitVec 32}

theorem step_idle (h : s.cmd = none) : step s = .next s := by
  simp [step, State.pendingCommand, h, idle]

theorem step_legal {i : Instr} (h : s.cmd = some w) (hd : decode w = .ok i) : step s = exec i s := by
  simp [step, State.pendingCommand, h, hd]

theorem step_rejected {e : DecodeError} (h : s.cmd = some w) (hd : decode w = .error e) :
    step s = .next (s.completeFail (rejection e)) := by
  simp [step, State.pendingCommand, h, hd, rejectWord]

end

/-- Whatever an operation answers, it leaves the decoder idle. -/
theorem exec_next_idle {i : Instr} {s t : State} (h : exec i s = .next t) : t.cmd = none := by
  rw [exec_eq] at h
  refine issue_next (P := fun t => t.cmd = none) h ?_ fun _ _ => rfl
  unfold Sat
  split <;> rfl

/-- Settles O5: a step is `exec` of the decoded word, and every end of an operation empties `CMD`. -/
theorem stepRunsTheDecodedInstruction : Obligations.StepRunsTheDecodedInstruction :=
  ⟨fun _ _ _ => step_legal, fun _ _ _ => exec_next_idle, fun _ => step_idle⟩

/-- Settles O4: by what the row of the code may answer, a reserved code having none. -/
theorem illegalWordsAreTurnedAway : Obligations.IllegalWordsAreTurnedAway := by
  intro s w hs hw
  refine ⟨fun hcode => ?_, fun hcode => ?_, fun hcode hno => ?_⟩
  · exact step_rejected hw (decode_reserved hcode)
  · rcases decode_internal hcode with ⟨i, hi, hint, -, -⟩ | herr
    · exact (step_legal hw hi).trans (exec_internal_host hint hs)
    · exact step_rejected hw herr
  · have hbad : ∀ cls : OpClass, cls ≠ .internal → Judged w cls (decode w) → decode w = .error .badField := by
      rintro cls hcls (⟨i, -, -, hwf, he⟩ | herr)
      · exact absurd he (hno i hwf)
      · rwa [if_neg hcls] at herr
    refine step_rejected (e := .badField) hw ?_
    rcases List.mem_append.1 hcode with hcmd | hunit
    · exact hbad _ (by decide) (decode_command hcmd)
    · exact hbad _ (by decide) (decode_unit hunit)

end Sys2Proof.Machine
end

section
/-! SUPPORT. The judging of a host-issued operation (60_exceptions.md R374 rows 2, 4, 5 and 6): where each judge stops. -/

namespace Sys2Proof.Machine

/-! ## One check after the other -/

section

variable {α β : Type} {x : Except Failure α} {k : α → Except Failure β}

theorem judge_stops {f : Failure} (h : x = .error f) : (x >>= k) = .error f := by
  rw [h]; rfl

theorem judge_passes {a : α} (h : x = .ok a) : (x >>= k) = k a := by
  rw [h]; rfl

end

/-- A word that its judge turns away changes `STATUS`, `CAUSE` and `RES` only (60_exceptions.md R372). -/
theorem exec_rejected {i : Instr} {s : State} {f : Failure} (hs : s.issuer = .host) (h : judgeOf i s = .error f) :
    exec i s = .next (s.completeFail f) := (exec_eq i s).trans (issue_rejected hs h)

theorem State.TurnsAway.of_judge {i : Instr} {s : State} {k : IllegalCause} (hs : s.issuer = .host)
    (h : judgeOf i s = .error (.illegal k)) : s.TurnsAway k i := exec_rejected hs h

/-! ## Row 4: no configuration yet -/

/-- The judge of an operation that needs a configuration looks at `PHASE` first. -/
theorem judgeOf_early {i : Instr} {s : State} (h : i.needsConfiguration = true) (hr : s.phase ≠ .ready) :
    judgeOf i s = .error (.notReady s.phase) := by
  have hstop : ∀ k : Unit → Except Failure Unit, (judgeReady s >>= k) = .error (.notReady s.phase) :=
    fun _ => judge_stops (judgeReady_error hr)
  cases i with
  | synthesis _ _ => exact judgeReady_error hr
  | cbDecode _ => exact hstop _
  | cbDecodeSet _ _ | cbDecodeAdd _ _ | cbDecodeVs _ _ _ => exact hstop _
  | cbDecodeVvAdd _ _ _ => exact hstop _
  | f0Inverse1 _ _ | f0Inverse2 _ _ | f1Inverse1 _ _ | f1Inverse2 _ _ => exact hstop _
  | res0Inverse _ _ _ | res1Inverse _ _ _ | res2Inverse _ _ _ => exact hstop _
  | map0Inverse => exact hstop _
  | mdctBackward _ _ => exact hstop _
  | winApply _ => exact hstop _
  | _ => cases h

/-- Settles O12: the internal operations by their judge, the early ones because every judge begins with `PHASE`. -/
theorem internalAndEarlyOperationsAreTurnedAway : Obligations.InternalAndEarlyOperationsAreTurnedAway :=
  fun _ _ hs => ⟨fun hint => exec_internal_host hint hs, fun hr h => exec_rejected hs (judgeOf_early h hr)⟩

/-! ## Rows 5 and 6: operands out of range, books without values -/

theorem judgeThat_error {p : Bool} (h : p = false) : judgeThat p = .error (.illegal .badOperand) := by
  rw [h]; rfl

theorem judgeThat_ok {p : Bool} (h : p = true) : judgeThat p = .ok () := by
  rw [h]; rfl

theorem judgeField_ok {α : Type} {s : State} {o : Option α} {v : α} (h : o = some v) : judgeField s o = .ok v := by
  rw [h]; rfl

theorem judgeCount_error {n : BitVec 6} (h : 32 < n.toNat) (s : State) :
    judgeCount n s = .error (.illegal .badOperand) := judgeThat_error (by simpa using h)

theorem judgeValues_error {s : State} {b : Nat} {r : Book} (h : fieldAt s.cfg.book b = some r) (h0 : r.maptype = 0) :
    judgeValues b s = .error (.illegal .noValues) := by
  rw [judgeValues, judge_passes (judgeField_ok h), if_pos h0]

section

variable {s : State}

theorem judgeChannel_ok {c n : Nat} (hn : s.cfg.channels = some n) (hc : c < n) : judgeChannel c s = .ok () :=
  judgeIndex_ok (size := fun s => s.cfg.channels) hn hc

theorem judgeChannel_error {c n : Nat} (hn : s.cfg.channels = some n) (hc : n ≤ c) :
    judgeChannel c s = .error (.illegal .badOperand) := judgeIndex_error (size := fun s => s.cfg.channels) hn hc

/-! ### Vector decode -/

section

variable {b n : Nat}

theorem judgeScalar_badBook (hr : s.phase = .ready) (hn : s.cfg.books = some n) (hb : n ≤ b) :
    judgeScalar b s = .error (.illegal .badOperand) :=
  (judge_passes (judgeReady_ok hr)).trans (judgeIndex_error hn hb)

theorem judgeVector_badBook {dst : Dst} (hr : s.phase = .ready) (hn : s.cfg.books = some n) (hb : n ≤ b) :
    judgeVector b dst s = .error (.illegal .badOperand) :=
  (judge_passes (judgeReady_ok hr)).trans (judge_stops (judgeIndex_error hn hb))

theorem judgeVectorBundle_badBook {first count : Nat} (hr : s.phase = .ready) (hn : s.cfg.books = some n)
    (hb : n ≤ b) : judgeVectorBundle b first count s = .error (.illegal .badOperand) :=
  (judge_passes (judgeReady_ok hr)).trans (judge_stops (judgeIndex_error hn hb))

/-- With the book in range the destination is judged, then the book's values. -/
theorem judgeVector_eq {dst : Dst} (hr : s.phase = .ready) (hn : s.cfg.books = some n) (hb : b < n) :
    judgeVector b dst s = (judgeDst dst s >>= fun _ => judgeValues b s) :=
  (judge_passes (judgeReady_ok hr)).trans (judge_passes (judgeIndex_ok hn hb))

/-- With the book in range the bundle is judged, then the book's values. -/
theorem judgeVectorBundle_eq {first count : Nat} (hr : s.phase = .ready) (hn : s.cfg.books = some n) (hb : b < n) :
    judgeVectorBundle b first count s = (judgeBundle first count s >>= fun _ => judgeValues b s) :=
  (judge_passes (judgeReady_ok hr)).trans (judge_passes (judgeIndex_ok hn hb))

end

theorem judgeDst_pcm_error {c : BitVec 8} {n : Nat} (hn : s.cfg.channels = some n) (hc : n ≤ c.toNat) :
    judgeDst (.pcm c) s = .error (.illegal .badOperand) := judgeChannel_error hn hc

theorem judgeDst_ok {dst : Dst} {n : Nat} (hn : s.cfg.channels = some n)
    (h : dst = .lsp ∨ ∃ c, dst = .pcm c ∧ c.toNat < n) : judgeDst dst s = .ok () := by
  rcases h with rfl | ⟨c, rfl, hc⟩
  · rfl
  · exact judgeChannel_ok hn hc

/-! ### Floors and residues -/

theorem judgeFloor_badIndex {type f c n : Nat} (hr : s.phase = .ready) (hn : s.cfg.floors = some n) (hf : n ≤ f) :
    judgeFloor type f c s = .error (.illegal .badOperand) :=
  (judge_passes (judgeReady_ok hr)).trans (judge_stops (judgeIndex_error hn hf))

/-- A floor of another type, or a channel out of range. -/
theorem judgeFloor_misfit {type f c n channels ty : Nat} (hr : s.phase = .ready) (hn : s.cfg.floors = some n)
    (hf : f < n) (hty : fieldAt s.cfg.floorType f = some ty) (hch : s.cfg.channels = some channels)
    (h : ty ≠ type ∨ channels ≤ c) : judgeFloor type f c s = .error (.illegal .badOperand) := by
  refine (judge_passes (judgeReady_ok hr)).trans <| (judge_passes (judgeIndex_ok hn hf)).trans <|
    (judge_passes (judgeField_ok hty)).trans ?_
  by_cases htype : ty = type
  · exact (judge_passes (judgeThat_ok (by simpa using htype))).trans
      (judgeChannel_error hch (h.resolve_left fun hne => hne htype))
  · exact judge_stops (judgeThat_error (by simpa using htype))

theorem judgeResidue_badIndex {type r first count n : Nat} (hr : s.phase = .ready) (hn : s.cfg.residues = some n)
    (hi : n ≤ r) : judgeResidue type r first count s = .error (.illegal .badOperand) :=
  (judge_passes (judgeReady_ok hr)).trans (judge_stops (judgeIndex_error hn hi))

/-- A residue of another type, or an empty or overlong bundle. -/
theorem judgeResidue_misfit {type r first count n channels ty : Nat} (hr : s.phase = .ready)
    (hn : s.cfg.residues = some n) (hi : r < n) (hty : fieldAt s.cfg.residueType r = some ty)
    (hch : s.cfg.channels = some channels) (h : ty ≠ type ∨ count = 0 ∨ channels < first + count) :
    judgeResidue type r first count s = .error (.illegal .badOperand) := by
  refine (judge_passes (judgeReady_ok hr)).trans <| (judge_passes (judgeIndex_ok hn hi)).trans <|
    (judge_passes (judgeField_ok hty)).trans ?_
  by_cases htype : ty = type
  · exact (judge_passes (judgeThat_ok (by simpa using htype))).trans
      (judgeBundle_error hch (h.resolve_left fun hne => hne htype))
  · exact judge_stops (judgeThat_error (by simpa using htype))

/-! ### Transform, window and mapping -/

/-- A block size selector above 1, a channel out of range, or a block of another size. -/
theorem judgeMdct_misfit {w c channels : Nat} (hr : s.phase = .ready) (hch : s.cfg.channels = some channels)
    (h : 1 < w ∨ channels ≤ c ∨ ∃ n, s.blocksizeAt w = some n ∧ n ≠ s.pcmend.toNat) :
    judgeMdct w c s = .error (.illegal .badOperand) := by
  refine (judge_passes (judgeReady_ok hr)).trans ?_
  by_cases hw : 1 < w
  · exact judge_stops (judgeThat_error (by simpa using hw))
  refine (judge_passes (judgeThat_ok (by simpa using hw))).trans ?_
  by_cases hc : channels ≤ c
  · exact judge_stops (judgeChannel_error hch hc)
  obtain ⟨n, hn, hsize⟩ := (h.resolve_left hw).resolve_left hc
  exact (judge_passes (judgeChannel_ok hch (Nat.lt_of_not_le hc))).trans <|
    (judge_passes (judgeField_ok hn)).trans (judgeThat_error (by simpa using hsize))

/-- A channel out of range, a block of another size, or a short block with flags of a long one. -/
theorem judgeWindow_misfit {c channels : Nat} (hr : s.phase = .ready) (hch : s.cfg.channels = some channels)
    (h : channels ≤ c ∨ ∃ n, s.blocksize s.w = some n ∧
      (n ≠ s.pcmend.toNat ∨ s.w = false ∧ (s.lw = true ∨ s.nw = true))) :
    judgeWindow c s = .error (.illegal .badOperand) := by
  refine (judge_passes (judgeReady_ok hr)).trans ?_
  by_cases hc : channels ≤ c
  · exact judge_stops (judgeChannel_error hch hc)
  obtain ⟨n, hn, hfit⟩ := h.resolve_left hc
  refine (judge_passes (judgeChannel_ok hch (Nat.lt_of_not_le hc))).trans <|
    (judge_passes (judgeField_ok hn)).trans (judgeThat_error ?_)
  rcases hfit with hsize | ⟨hw, hlw | hnw⟩
  · simp [hsize]
  · simp [hw, hlw]
  · simp [hw, hnw]

/-- A mode out of range, or a block of another size or block flag than the mode's. -/
theorem judgeMapping_misfit {modes : Nat} (hr : s.phase = .ready) (hm : s.cfg.modes = some modes)
    (h : modes ≤ s.mode.toNat ∨ ∃ r n, fieldAt s.cfg.mode s.mode.toNat = some r ∧ s.blocksize r.blockflag = some n ∧
      (n ≠ s.pcmend.toNat ∨ s.w ≠ r.blockflag)) :
    judgeMapping s = .error (.illegal .badOperand) := by
  refine (judge_passes (judgeReady_ok hr)).trans <| (judge_passes (judgeField_ok hm)).trans ?_
  by_cases hmode : modes ≤ s.mode.toNat
  · exact judge_stops (judgeThat_error (by simpa using hmode))
  obtain ⟨r, n, hrec, hn, hfit⟩ := h.resolve_left hmode
  refine (judge_passes (judgeThat_ok (by simpa using hmode))).trans <| (judge_passes (judgeField_ok hrec)).trans <|
    (judge_passes (judgeField_ok hn)).trans (judgeThat_error ?_)
  rcases hfit with hsize | hflag
  · simp [hsize]
  · simp [hflag]

end

/-- Settles O13: each operation by the first check of its judge that fails. -/
theorem operandsOutOfRange : Obligations.OperandsOutOfRange := by
  intro s hs
  have turn {k : IllegalCause} {i : Instr} : judgeOf i s = .error (.illegal k) → s.TurnsAway k i := .of_judge hs
  refine ⟨fun n hn => ?_, fun hr books floors residues channels hbooks hfloors hresidues hch =>
    ⟨fun b hb => ?_, fun b hb => ?_, fun f c hf => ?_, fun f c ty hf hty => ?_, fun r first count hi => ?_,
      fun r first count ty hi hty => ?_, fun w c h => ?_, fun c h => ?_, fun modes hm h => ?_⟩⟩
  · have hcount := judgeCount_error hn s
    exact ⟨turn hcount, turn hcount, turn hcount⟩
  · have hvector (dst) : judgeVector b.toNat dst s = .error (.illegal .badOperand) := judgeVector_badBook hr hbooks hb
    exact ⟨turn (judgeScalar_badBook hr hbooks hb),
      fun dst => ⟨turn (hvector dst), turn (hvector dst), fun _ => turn (hvector dst)⟩,
      fun _ _ => turn (judgeVectorBundle_badBook hr hbooks hb)⟩
  · have hvector {dst} {k : IllegalCause} (h : (judgeDst dst s >>= fun _ => judgeValues b.toNat s) = .error (.illegal k)) :
        judgeVector b.toNat dst s = .error (.illegal k) := (judgeVector_eq hr hbooks hb).trans h
    refine ⟨fun c hc => ?_, fun first count h => ?_,
      fun r hrec h0 => ⟨fun dst hdst => ?_, fun first count h1 hfit => ?_⟩⟩
    · have hbad := hvector (judge_stops (judgeDst_pcm_error hch hc))
      exact ⟨turn hbad, turn hbad, fun _ => turn hbad⟩
    · exact turn ((judgeVectorBundle_eq hr hbooks hb).trans (judge_stops (judgeBundle_error hch h)))
    · have hbad := hvector ((judge_passes (judgeDst_ok hch hdst)).trans (judgeValues_error hrec h0))
      exact ⟨turn hbad, turn hbad, fun _ => turn hbad⟩
    · exact turn ((judgeVectorBundle_eq hr hbooks hb).trans
        ((judge_passes (judgeBundle_ok hch h1 hfit)).trans (judgeValues_error hrec h0)))
  · have hbad (type) : judgeFloor type f.toNat c.toNat s = .error (.illegal .badOperand) :=
      judgeFloor_badIndex hr hfloors hf
    exact ⟨turn (hbad 0), turn (hbad 0), turn (hbad 1), turn (hbad 1)⟩
  · have hbad (type) (h : ty ≠ type ∨ channels ≤ c.toNat) :
        judgeFloor type f.toNat c.toNat s = .error (.illegal .badOperand) := judgeFloor_misfit hr hfloors hf hty hch h
    exact ⟨fun h => ⟨turn (hbad 0 h), turn (hbad 0 h)⟩, fun h => ⟨turn (hbad 1 h), turn (hbad 1 h)⟩⟩
  · have hbad (type) : judgeResidue type r.toNat first.toNat count.toNat s = .error (.illegal .badOperand) :=
      judgeResidue_badIndex hr hresidues hi
    exact ⟨turn (hbad 0), turn (hbad 1), turn (hbad 2)⟩
  · have hbad (type) (h : ty ≠ type ∨ count.toNat = 0 ∨ channels < first.toNat + count.toNat) :
        judgeResidue type r.toNat first.toNat count.toNat s = .error (.illegal .badOperand) :=
      judgeResidue_misfit hr hresidues hi hty hch h
    exact ⟨fun h => turn (hbad 0 h), fun h => turn (hbad 1 h), fun h => turn (hbad 2 h)⟩
  · exact turn (judgeMdct_misfit hr hch h)
  · exact turn (judgeWindow_misfit hr hch h)
  · exact turn (judgeMapping_misfit hr hm h)

end Sys2Proof.Machine
end

section
/-! SUPPORT. Codewords: what the assignment of 41_codebook.md R185 gives, and reading an assigned codeword back. -/

namespace Sys2Proof.Machine

/-! ## The smallest free string -/

theorem mem_codewordsUnder {bit : Bool} {assigned : List Codeword} {u : Codeword} :
    u ∈ codewordsUnder bit assigned ↔ bit :: u ∈ assigned := by
  simp only [codewordsUnder, List.mem_filterMap]
  constructor
  · rintro ⟨w, hw, hu⟩
    cases w with
    | nil => cases hu
    | cons x rest =>
      change (if x = bit then some rest else none) = some u at hu
      split_ifs at hu with hx
      cases hu
      rwa [← hx]
  · exact fun h => ⟨bit :: u, h, by simp⟩

/-- A string that fits below one branch fits below the root, once the root itself is no codeword. -/
theorem fitsAmong_cons {bit : Bool} {assigned : List Codeword} {w : Codeword} (hroot : [] ∉ assigned)
    (h : fitsAmong (codewordsUnder bit assigned) w) : fitsAmong assigned (bit :: w) := by
  intro v hv
  cases v with
  | nil => exact absurd hv hroot
  | cons x rest =>
    by_cases hx : x = bit
    · subst hx
      obtain ⟨hvw, hwv⟩ := h rest (mem_codewordsUnder.2 hv)
      simpa using ⟨hvw, hwv⟩
    · simp [hx, Ne.symm hx]

/-- The string found has the length asked for and fits among the codewords assigned. -/
theorem firstFree_fits : ∀ (len : Nat) (assigned : List Codeword) (w : Codeword),
    firstFree len assigned = some w → w.length = len ∧ fitsAmong assigned w
  | 0, assigned, w, h => by
    unfold firstFree at h
    split at h
    case isTrue hnone => cases h; exact ⟨rfl, by simp [fitsAmong, hnone]⟩
    case isFalse => cases h
  | len + 1, assigned, w, h => by
    unfold firstFree at h
    split at h
    case isTrue => cases h
    case isFalse hroot =>
      split at h
      next u hu =>
        cases h
        obtain ⟨hlen, hfits⟩ := firstFree_fits len _ u hu
        exact ⟨by simp [hlen], fitsAmong_cons hroot hfits⟩
      next =>
        obtain ⟨u, hu, rfl⟩ := Option.map_eq_some_iff.1 h
        obtain ⟨hlen, hfits⟩ := firstFree_fits len _ u hu
        exact ⟨by simp [hlen], fitsAmong_cons hroot hfits⟩

/-! ## The assignment -/

/-- No codeword begins another (41_codebook.md R185). -/
def PrefixFree (ws : List (Option Codeword)) : Prop :=
  ∀ (e e' : Nat) (u v : Codeword), ws[e]? = some (some u) → ws[e']? = some (some v) → u <+: v → e = e'

/-- The first entry is unused, or takes the smallest free string; the rest are assigned after it. -/
theorem assignCodewords_cons {len : Nat} {rest : List Nat} {assigned : List Codeword} {ws : List (Option Codeword)}
    (h : assignCodewords (len :: rest) assigned = some ws) :
    (len = 0 ∧ ∃ ws', assignCodewords rest assigned = some ws' ∧ ws = none :: ws') ∨
    (len ≠ 0 ∧ ∃ w ws', firstFree len assigned = some w ∧ assignCodewords rest (w :: assigned) = some ws' ∧
      ws = some w :: ws') := by
  unfold assignCodewords at h
  split at h
  case isTrue h0 =>
    obtain ⟨ws', hws, rfl⟩ := Option.map_eq_some_iff.1 h
    exact .inl ⟨h0, ws', hws, rfl⟩
  case isFalse h0 =>
    split at h
    next => cases h
    next w hw =>
      obtain ⟨ws', hws, rfl⟩ := Option.map_eq_some_iff.1 h
      exact .inr ⟨h0, w, ws', hw, hws, rfl⟩

/-- An assigned codeword is as long as its entry says, not empty, and fits among those assigned before. -/
theorem assignCodewords_fits : ∀ {lengths : List Nat} {assigned : List Codeword} {ws : List (Option Codeword)},
    assignCodewords lengths assigned = some ws → ∀ {e : Nat} {w : Codeword}, ws[e]? = some (some w) →
      lengths[e]? = some w.length ∧ w ≠ [] ∧ fitsAmong assigned w
  | [], _, _, h, e, w, hw => by
    cases h
    simp at hw
  | len :: rest, assigned, ws, h, e, w, hw => by
    rcases assignCodewords_cons h with ⟨-, ws', hws, rfl⟩ | ⟨h0, u, ws', hu, hws, rfl⟩
    · cases e with
      | zero => simp at hw
      | succ e => exact assignCodewords_fits hws hw
    · cases e with
      | zero =>
        obtain ⟨hlen, hfits⟩ := firstFree_fits len assigned u hu
        obtain rfl : u = w := by simpa using hw
        exact ⟨by simp [hlen], by rintro rfl; exact h0 hlen.symm, hfits⟩
      | succ e =>
        obtain ⟨hlen, hne, hfits⟩ := assignCodewords_fits hws hw
        exact ⟨hlen, hne, fun v hv => hfits v (List.mem_cons_of_mem u hv)⟩

/-- No codeword assigned begins another. -/
theorem assignCodewords_prefixFree : ∀ {lengths : List Nat} {assigned : List Codeword} {ws : List (Option Codeword)},
    assignCodewords lengths assigned = some ws → PrefixFree ws
  | [], _, _, h, e, e', u, v, hu, hv, _ => by
    cases h
    simp at hu
  | len :: rest, assigned, ws, h, e, e', u, v, hu, hv, huv => by
    rcases assignCodewords_cons h with ⟨-, ws', hws, rfl⟩ | ⟨-, w, ws', -, hws, rfl⟩
    · cases e with
      | zero => simp at hu
      | succ e =>
        cases e' with
        | zero => simp at hv
        | succ e' => rw [assignCodewords_prefixFree hws e e' u v hu hv huv]
    · have hlater : ∀ {e : Nat} {x : Codeword}, ws'[e]? = some (some x) → ¬ w <+: x ∧ ¬ x <+: w := fun hx =>
        (assignCodewords_fits hws hx).2.2 w List.mem_cons_self
      cases e with
      | zero =>
        obtain rfl : w = u := by simpa using hu
        cases e' with
        | zero => rfl
        | succ e' => exact absurd huv (hlater hv).1
      | succ e =>
        cases e' with
        | zero =>
          obtain rfl : w = v := by simpa using hv
          exact absurd huv (hlater hu).2
        | succ e' => rw [assignCodewords_prefixFree hws e e' u v hu hv huv]

/-! ## Scalar decode -/

@[simp] theorem fieldBits_codewordFields (w : Codeword) : fieldBits (codewordFields w) = w.length := by
  induction w with
  | nil => rfl
  | cons b w ih =>
    refine (fieldBits_cons (1, bitValue b) (codewordFields w)).trans ?_
    rw [ih, List.length_cons, Nat.add_comm]

/-- Where no codeword begins another, the search for one finds its entry. -/
theorem findIdx?_codeword {ws : List (Option Codeword)} (hfree : PrefixFree ws) {e : Nat} {w : Codeword}
    (he : ws[e]? = some (some w)) : ws.findIdx? (· == some w) = some e := by
  obtain ⟨hlt, hget⟩ := List.getElem?_eq_some_iff.1 he
  refine List.findIdx?_eq_some_iff_getElem.2 ⟨hlt, by simp [hget], fun j hj hfound => ?_⟩
  have hj' : ws[j]? = some (some w) := List.getElem?_eq_some_iff.2 ⟨hj.trans hlt, by simpa using hfound⟩
  exact absurd (hfree j e w w hj' he ⟨[], List.append_nil w⟩) (by omega)

/-- The search for the beginning of a longer codeword finds none. -/
theorem findIdx?_beginning {ws : List (Option Codeword)} (hfree : PrefixFree ws) {e : Nat} {u w : Codeword}
    (he : ws[e]? = some (some w)) (hu : u <+: w) (hne : u ≠ w) : ws.findIdx? (· == some u) = none := by
  refine List.findIdx?_eq_none_iff.2 fun x hx => ?_
  simp only [beq_eq_false_iff_ne]
  rintro rfl
  obtain ⟨e', he'⟩ := List.mem_iff_getElem?.1 hx
  obtain rfl := hfree e' e u w he' he hu
  exact hne (by simpa using he'.symm.trans he)

theorem extendable_of_beginning {ws : List (Option Codeword)} {e : Nat} {u w : Codeword}
    (he : ws[e]? = some (some w)) (hu : u <+: w) (hne : u ≠ w) : extendable ws u = true :=
  List.any_eq_true.2 ⟨some w, List.mem_of_getElem? he, by simp [hu, hne]⟩

/-- R190: from the bits `u` read so far, the remaining bits of a codeword lead to its entry. -/
theorem decodeFrom_sends {ws : List (Option Codeword)} (hfree : PrefixFree ws) {e : Nat} {w : Codeword}
    (he : ws[e]? = some (some w)) : ∀ (rest u : Codeword) (fuel : Nat) (s : State), u ++ rest = w → rest ≠ [] →
      rest.length ≤ fuel → s.Sends (codewordFields rest) → decodeFrom ws fuel u s = .ok e (s.advance rest.length)
  | [], _, _, _, _, hne, _, _ => absurd rfl hne
  | _ :: _, _, 0, _, _, _, hfuel, _ => by simp at hfuel
  | bit :: rest, u, fuel + 1, s, hw, _, hfuel, hs => by
    have hs : s.Sends ([(1, bitValue bit)] ++ codewordFields rest) := hs
    have hw : (u ++ [bit]) ++ rest = w := by simpa using hw
    unfold decodeFrom
    rw [bind_ok (readBit_sends hs.left)]
    cases rest with
    | nil =>
      obtain rfl : u ++ [bit] = w := by simpa using hw
      simp only [findIdx?_codeword hfree he]
      rfl
    | cons b rest =>
      have hpre : u ++ [bit] <+: w := ⟨_, hw⟩
      have hne : u ++ [bit] ≠ w := by rintro rfl; simp at hw
      have hrec := decodeFrom_sends hfree he (b :: rest) (u ++ [bit]) fuel (s.advance 1) hw (by simp)
        (by simpa using hfuel) hs.right
      simp only [findIdx?_beginning hfree he hpre hne, extendable_of_beginning he hpre hne, if_true, hrec,
        State.advance_advance]
      simp [Nat.add_comm]

/-- An entry with a codeword: none of the book's codewords begins another, and this one has 1 to 32 bits. -/
theorem State.codes.word {s : State} {b e : Nat} (h : s.codes b e) : ∃ ws, fieldAt s.tab.bookWords b = some ws ∧
    PrefixFree ws ∧ ws[e]? = some (some (s.wordOf b e)) ∧ s.wordOf b e ≠ [] ∧ (s.wordOf b e).length ≤ 32 := by
  obtain ⟨lengths, ws, hws, hmake, h32, w, hw⟩ := h
  have hword : s.wordOf b e = w := by simp [State.wordOf, hws, hw]
  obtain ⟨hlen, hne, -⟩ := assignCodewords_fits hmake hw
  rw [hword]
  exact ⟨ws, hws, assignCodewords_prefixFree hmake, hw, hne, h32 _ (List.mem_of_getElem? hlen)⟩

/-- R190: decoding the codeword of an entry gives the entry. -/
theorem Reads.cbDecode {s : State} {k : Loaded} (hk : s.has k) {b e : Nat} (h : s.codes b e) :
    Reads k (Machine.cbDecode b) (s.codeFields b e) e k := fun t ht hs => by
  obtain ⟨ws, hws, hfree, he, hne, h32⟩ := h.word
  have hneed : fieldAt t.tab.bookWords b = some ws := by rw [ht.2, ← hk.2, hws]
  have hrun := decodeFrom_sends hfree he _ [] 32 t rfl hne h32 hs
  rw [State.with_self (by exact ht)]
  unfold Machine.cbDecode
  show (Machine.need (fieldAt t.tab.bookWords b) >>= fun words => decodeFrom words 32 []) t = _
  rw [hneed]
  rw [State.codeFields, fieldBits_codewordFields]
  exact hrun

/-! ## Vector decode -/

/-- R193: one codeword of a vector book gives its entry and its values. -/
theorem Reads.decodeValues {s : State} {k : Loaded} (hk : s.has k) {b e dim : Nat} (hb : s.vectorBook b dim)
    (h : s.codes b e) : Reads k (Machine.decodeValues b) (s.codeFields b e) (e, s.valuesOf b e) k := by
  obtain ⟨-, ⟨values, hvalues⟩, r, hr, -, -, -⟩ := hb
  have hval : s.valuesOf b e = (List.range r.dim).map fun j => values.getD (e * r.dim + j) 0 := by
    simp [State.valuesOf, hr, hvalues]
  rw [hval]
  refine Reads.get_bind fun t ht => Reads.need_bind (by rw [ht.1, ← hk.1, hr]) ?_
  refine Reads.get_bind fun t ht => Reads.need_bind (by rw [ht.2, ← hk.2, hvalues]) ?_
  exact Reads.pure_bind (Reads.cbDecode hk h)

/-- A vector book gives `dim` values for every entry. -/
theorem State.vectorBook.valuesOf_length {s : State} {b dim : Nat} (h : s.vectorBook b dim) (e : Nat) :
    (s.valuesOf b e).length = dim := by
  obtain ⟨-, -, r, hr, -, hdim, -⟩ := h
  simp [State.valuesOf, hr, hdim]

theorem State.vectorBook.flatMap_valuesOf_length {s : State} {b dim : Nat} (h : s.vectorBook b dim) (es : List Nat) :
    (es.flatMap (s.valuesOf b)).length = es.length * dim := by
  simp [List.length_flatMap, h.valuesOf_length]

theorem codewordsFor_zero {dim : Nat} (h : 1 ≤ dim) : codewordsFor 0 dim = 0 :=
  Nat.div_eq_of_lt (by omega)

/-- One codeword covers `dim` of the values. -/
theorem codewordsFor_step {n dim : Nat} (hdim : 1 ≤ dim) (hn : 0 < n) :
    codewordsFor n dim = codewordsFor (n - dim) dim + 1 := by
  unfold codewordsFor
  rcases Nat.le_total dim n with h | h
  · rw [show n + dim - 1 = (n - dim + dim - 1) + dim by omega, Nat.add_div_right _ hdim]
  · rw [show n - dim = 0 by omega, Nat.div_eq_of_lt (show 0 + dim - 1 < dim by omega)]
    exact Nat.div_eq_of_lt_le (by omega) (by omega)

/-- The codewords cover all the values. -/
theorem le_codewordsFor_mul {n dim : Nat} (hdim : 1 ≤ dim) : n ≤ codewordsFor n dim * dim := by
  have := Nat.lt_mul_div_succ (n + dim - 1) hdim
  unfold codewordsFor
  rw [Nat.mul_succ, Nat.mul_comm] at this
  omega

/-! ## A run of stores -/

/-- A store changes `PCM` or `LSP` only. -/
theorem targetModify_eq (d : Target) (i : Nat) (f : F32 → F32) (s : State) :
    ∃ p l, targetModify d i f s = (s.setPcm p).setLsp l := by
  cases d with
  | pcm c =>
    simp only [targetModify, State.pcmModify]
    split
    · exact ⟨s.pcm.modify c fun row => row.modify i f, s.lsp, rfl⟩
    · exact ⟨s.pcm, s.lsp, rfl⟩
  | lsp =>
    simp only [targetModify, State.lspModify]
    split
    · exact ⟨s.pcm, s.lsp.modify i f, rfl⟩
    · exact ⟨s.pcm, s.lsp, rfl⟩

theorem targetModify_advance (d : Target) (i : Nat) (f : F32 → F32) (n : Nat) (s : State) :
    targetModify d i f (s.advance n) = (targetModify d i f s).advance n := by
  cases d with
  | pcm c => simp only [targetModify, State.pcmModify, apply_ite (State.advance n)]; rfl
  | lsp => simp only [targetModify, State.lspModify, apply_ite (State.advance n)]; rfl

/-- A run of stores changes `PCM` and `LSP` only. -/
theorem storeRun_eq (d : Target) (mode : CombineMode) (step : Nat) : ∀ (vs : List F32) (i : Nat) (s : State),
    ∃ p l, storeRun d mode step i vs s = (s.setPcm p).setLsp l
  | [], _, s => ⟨s.pcm, s.lsp, rfl⟩
  | v :: vs, i, s => by
    obtain ⟨p, l, h⟩ := targetModify_eq d i (combine mode v) s
    obtain ⟨p', l', h'⟩ := storeRun_eq d mode step vs (i + step) ((s.setPcm p).setLsp l)
    exact ⟨p', l', by rw [storeRun, h, h']; rfl⟩

/-- A run of stores reads no bit and moves no cursor. -/
theorem storeRun_advance (d : Target) (mode : CombineMode) (step n : Nat) : ∀ (vs : List F32) (i : Nat) (s : State),
    storeRun d mode step i vs (s.advance n) = (storeRun d mode step i vs s).advance n
  | [], _, _ => rfl
  | v :: vs, i, s => by
    rw [storeRun, targetModify_advance, storeRun_advance d mode step n vs]
    rfl

/-- Two runs, one after the other, are one. -/
theorem storeRun_append (d : Target) (mode : CombineMode) : ∀ (us vs : List F32) (i : Nat) (s : State),
    storeRun d mode 1 i (us ++ vs) s = storeRun d mode 1 (i + us.length) vs (storeRun d mode 1 i us s)
  | [], _, _, _ => rfl
  | u :: us, vs, i, s => by
    rw [List.cons_append, storeRun, storeRun_append d mode us vs, List.length_cons, Nat.add_assoc,
      Nat.add_comm 1]
    rfl

/-- R196: one codeword decoded and its values stored. -/
theorem cbDecodeVs_sends {s t : State} {k : Loaded} (hs : s.has k) (ht : t.has k) {b e dim : Nat}
    (hb : s.vectorBook b dim) (h : s.codes b e) (hsent : t.Sends (s.codeFields b e)) (d : Target) (mode : CombineMode)
    (index step : Nat) : cbDecodeVs b d mode index step t =
      .ok e ((storeRun d mode step index (s.valuesOf b e) t).advance (fieldBits (s.codeFields b e))) := by
  have hread := Reads.decodeValues hs hb h t ht hsent
  rw [State.with_self (by exact ht)] at hread
  unfold cbDecodeVs
  rw [bind_ok hread, ← storeRun_advance]
  rfl

end Sys2Proof.Machine
end

section
/-! SUPPORT. Floor pass 1 on a payload that holds a channel's data (42_floor0.md R214, 43_floor1.md R234, R235). -/

namespace Sys2Proof.Machine

/-! ## Reading, with the configuration looked up -/

section

variable {α β : Type} {k k'' : Loaded} {gs : List (Nat × Nat)}

theorem Reads.readBits (n v : Nat) : Reads k (Machine.readBits n) [(n, v)] v k := fun s h hs => by
  rw [State.with_self (by exact h)]
  exact readBits_sends hs

theorem Reads.readBit (b : Bool) : Reads k Machine.readBit [(1, bitValue b)] b k := fun s h hs => by
  rw [State.with_self (by exact h)]
  exact readBit_sends hs

theorem Leads.need_bind {o : Option α} {v : α} {f : α → Op β} {rest : Op β} (ho : o = some v)
    (hf : Leads k (f v) gs k'' rest) : Leads k (need o >>= f) gs k'' rest := by
  subst ho
  exact hf

/-- An operation that loads nothing, run where its fields are sent. -/
theorem Leads.run {op rest : Op α} (h : Leads k op gs k rest) {s : State} (hs : s.has k) (hsent : s.Sends gs) :
    op s = rest (s.advance (fieldBits gs)) := by
  rw [h s hs hsent, State.with_self (by exact hs)]

/-- A field of the configuration or the tables looked up, then the rest. -/
theorem Leads.lookup {g : State → Option α} {v : α} {f : α → Op β} {rest : Op β}
    (hg : ∀ s : State, s.has k → g s = some v) (hf : Leads k (f v) gs k'' rest) :
    Leads k ((MonadStateOf.get : Op State) >>= fun s => need (g s) >>= f) gs k'' rest := fun s hc hs =>
  (congrArg (fun o => (need o >>= f) s) (hg s hc)).trans (hf s hc hs)

theorem lookup_bind {g : State → Option α} {v : α} {f : α → Op β} {s : State} (h : g s = some v) :
    ((MonadStateOf.get : Op State) >>= fun s => need (g s) >>= f) s = f v s :=
  congrArg (fun o => (need o >>= f) s) h

theorem absorb_ok {op handler : Op α} {s t : State} {a : α} (h : op s = .ok a t) : absorb op handler s = .ok a t := by
  simp [absorb, h]

end

/-- What the state itself has loaded. -/
theorem State.has_self (s : State) : s.has (s.cfg, s.tab) := ⟨rfl, rfl⟩

/-- A floor operation with every operand in range is let through. -/
theorem judgeFloor_ok {type f c floors channels : Nat} {s : State} (hr : s.phase = .ready)
    (hfloors : s.cfg.floors = some floors) (hf : f < floors) (hch : s.cfg.channels = some channels) (hc : c < channels)
    (hty : fieldAt s.cfg.floorType f = some type) : judgeFloor type f c s = .ok () :=
  (judge_passes (judgeReady_ok hr)).trans <| (judge_passes (judgeIndex_ok hfloors hf)).trans <|
    (judge_passes (judgeField_ok hty)).trans <| (judge_passes (judgeThat_ok (by simp))).trans (judgeChannel_ok hch hc)

/-- The memo last written is the one that stays, and the cursor does not see it. -/
theorem State.setMemo_advance_setMemo (c n : Nat) (m m' : Option Memo) (s : State) :
    ((s.setMemo c m).advance n).setMemo c m' = (s.setMemo c m').advance n := by
  simp [State.setMemo, State.advance]

theorem State.Sends.setMemo {s : State} {fs : List (Nat × Nat)} (h : s.Sends fs) (c : Nat) (m : Option Memo) :
    (s.setMemo c m).Sends fs := h.congr rfl rfl rfl rfl

/-! ## Floor 1 -/

section

variable {s : State} {k : Loaded}

/-- The values of a partition's posts, each a codeword of the subclass book or nothing. -/
theorem Reads.readPosts (hk : s.has k) (cls : FloorClass) : ∀ (vs : List Nat) (cval : Nat),
    s.postsSendable cls vs cval → Reads k (Machine.readPosts cls vs.length cval) (s.postFields cls vs cval) vs k
  | [], _, _ => Reads.pure []
  | v :: vs, cval, h => by
    obtain ⟨hv, hvs⟩ := h
    refine Reads.bind ?_ (Reads.pure_bind (Reads.readPosts hk cls vs _ hvs))
    unfold readPost
    cases hbook : (cls.subbook[cval % 2 ^ cls.subs]?).join with
    | none =>
      obtain rfl : v = 0 := by simpa only [hbook] using hv
      exact Reads.pure 0
    | some b => exact Reads.cbDecode hk (by simpa only [hbook] using hv)

/-- The class value: a codeword of the class book, or nothing where the class has no subclasses. -/
theorem Reads.readClassValue (hk : s.has k) {cls : FloorClass} {cval : Nat} (h : s.classSendable cls cval) :
    Reads k (Machine.readClassValue cls) (s.classFields cls cval) cval k := by
  unfold Machine.readClassValue State.classFields
  unfold State.classSendable at h
  split_ifs at h ⊢
  · subst h
    exact Reads.pure 0
  · obtain ⟨b, hbook, hcode⟩ := h
    simp only [hbook]
    exact Reads.cbDecode hk hcode

/-- The partitions' data, class value and posts in turn. -/
theorem Reads.readPartitions (hk : s.has k) (F : Floor1) : ∀ data : List (Nat × Nat × List Nat),
    s.partitionsSendable F data → Reads k (Machine.readPartitions F (data.map Prod.fst)) (s.partitionFields F data)
      (data.flatMap fun x => x.2.2) k
  | [], _ => Reads.pure []
  | (c, cval, vs) :: rest, h => by
    obtain ⟨cls, hcls, hclass, hlen, hposts⟩ := h (c, cval, vs) List.mem_cons_self
    have hfields : s.partitionFields F ((c, cval, vs) :: rest) =
        s.classFields cls cval ++ (s.postFields cls vs cval ++ s.partitionFields F rest) := by
      simp [State.partitionFields, hcls]
    rw [hfields]
    refine Reads.need_bind hcls (Reads.bind (Reads.readClassValue hk hclass) ?_)
    rw [← hlen]
    refine Reads.bind (Reads.readPosts hk cls vs cval hposts) ?_
    exact Reads.pure_bind (Reads.readPartitions hk F rest fun x hx => h x (List.mem_cons_of_mem _ hx))

end

/-- R234: with data sent, pass 1 goes on to write the memo of the unwrapped posts. -/
theorem Leads.f1Pass1 {s : State} {k : Loaded} (hk : s.has k) (f c : Nat) {F : Floor1} (T : Floor1Table) (v0 v1 : Nat)
    {data : List (Nat × Nat × List Nat)} (hcls : data.map Prod.fst = F.partitionclass)
    (hdata : s.partitionsSendable F data) {memo : List Int × List Bool}
    (hmemo : unwrapPosts T F.postlist (v0 :: v1 :: data.flatMap fun x => x.2.2) = memo) :
    Leads k (Machine.f1Pass1 f c F T)
      ([(1, 1), (ilog (T.quantQ - 1), v0), (ilog (T.quantQ - 1), v1)] ++ s.partitionFields F data) k
      (modify (State.setMemo c (some (.floor1 f memo.1 memo.2))) >>= fun _ => pure .memo) := by
  subst hmemo
  refine Leads.bind (fs := [(1, 1)]) (Reads.readBit true) ?_
  refine Leads.bind (fs := [(ilog (T.quantQ - 1), v0)]) (Reads.readBits _ _) ?_
  refine Leads.bind (fs := [(ilog (T.quantQ - 1), v1)]) (Reads.readBits _ _) ?_
  rw [← hcls, ← List.append_nil (s.partitionFields F data)]
  exact Leads.bind (Reads.readPartitions hk F data hdata) (Leads.refl _)

/-- Pass 1 removes the memo, then reads with the record and the table of its floor. -/
theorem f1Inverse1_eq {s : State} {f c : Nat} {F : Floor1} {T : Floor1Table} (hF : s.floor1At f = some F)
    (hT : fieldAt s.tab.floor1 f = some T) :
    f1Inverse1 f c s = absorb (f1Pass1 f c F T) (pure .starved) (s.setMemo c none) :=
  (lookup_bind (s := s.setMemo c none) (g := State.floor1At f) hF).trans
    (lookup_bind (s := s.setMemo c none) (g := fun s => fieldAt s.tab.floor1 f) hT)

/-- How an accepted floor-1 pass 1 ends, from how its reading ends. -/
theorem exec_f1Inverse1 {s t : State} {f c : BitVec 8} {F : Floor1} {T : Floor1Table} {r : PassOne}
    (hj : judgeFloor 1 f.toNat c.toNat s = .ok ()) (hF : s.floor1At f.toNat = some F)
    (hT : fieldAt s.tab.floor1 f.toNat = some T)
    (h : f1Pass1 f.toNat c.toNat F T (s.setMemo c.toNat none) = .ok r t) :
    exec (.f1Inverse1 f c) s = .next (t.completeOk (BitVec.ofNat 32 (bitValue r.present))) :=
  (exec_accepted (i := .f1Inverse1 f c) hj).trans
    (finish_ok (bind_ok ((f1Inverse1_eq hF hT).trans (absorb_ok h))))

/-- Settles O38: the silent outcome by its one bit, the other by reading the partitions' data. -/
theorem floorOnePassOneReads : Obligations.FloorOnePassOneReads := by
  intro s f c floors channels F T hr hfloors hf hch hc hty hF hT
  have hj := judgeFloor_ok hr hfloors hf hch hc hty
  refine ⟨fun hs => ?_, fun v0 v1 data hcls hdata hs => ?_⟩
  · have hbit : readBit (s.setMemo c.toNat none) = .ok false ((s.setMemo c.toNat none).advance 1) :=
      readBit_sends (hs.setMemo c.toNat none)
    exact exec_f1Inverse1 (r := .silent) hj hF hT (bind_ok hbit)
  · have hpass := (Leads.f1Pass1 s.has_self f.toNat c.toNat T v0 v1 hcls hdata rfl).run
      (s.setMemo c.toNat none).has_self (hs.setMemo c.toNat none)
    refine (exec_f1Inverse1 (r := .memo) hj hF hT hpass).trans ?_
    rw [State.setMemo_advance_setMemo]
    rfl

/-! ## Floor 0 -/

theorem State.Sends.storeRun {s : State} {fs : List (Nat × Nat)} (h : s.Sends fs) (d : Target) (mode : CombineMode)
    (step i : Nat) (vs : List F32) : (Machine.storeRun d mode step i vs s).Sends fs := by
  obtain ⟨p, l, hrun⟩ := storeRun_eq d mode step vs i s
  rw [hrun]
  exact h.congr rfl rfl rfl rfl

theorem State.has.storeRun {s : State} {k : Loaded} (h : s.has k) (d : Target) (mode : CombineMode)
    (step i : Nat) (vs : List F32) : (Machine.storeRun d mode step i vs s).has k := by
  obtain ⟨p, l, hrun⟩ := storeRun_eq d mode step vs i s
  rw [hrun]
  exact h

/-- The last value stored to a word is the one it holds; one store of a run in steps of 1 goes to each. -/
theorem combineAll_declare {vs : List F32} {i : Nat} (hi : i < vs.length) (word : F32) :
    combineAll .declare vs (fun j => i = 0 + j * 1) word = vs[i] := by
  have hsent : (fun j => decide (i = 0 + j * 1)) = (· == i) := by
    funext j
    simp [Bool.beq_eq_decide_eq, eq_comm]
  have hone : (List.range vs.length).filter (· == i) = [i] := by
    rw [List.filter_beq, List.count_eq_one_of_mem List.nodup_range (List.mem_range.2 hi), List.replicate_one]
  rw [combineAll, hsent, hone]
  simp [combine, hi]

/-- The values stored from the beginning of `LSP` on are what it begins with. -/
theorem storeRun_declare_lsp_take {s : State} (hlsp : s.lsp.length = 256) {n : Nat} (hn : n ≤ 256) {vs : List F32}
    (hvs : n ≤ vs.length) : (storeRun .lsp .declare 1 0 vs s).lsp.take n = vs.take n := by
  refine List.ext_getElem? fun i => ?_
  rw [List.getElem?_take, List.getElem?_take]
  split
  case isFalse => rfl
  case isTrue hi =>
    rw [storeRun_lsp_getElem? .declare 1 i vs 0 s hlsp, List.getElem?_eq_getElem (by omega),
      List.getElem?_eq_getElem (by omega), Option.map_some, combineAll_declare (by omega)]

/-- The loop of R214 past the last coefficient. -/
theorem readCoefficients_done {b m dim j : Nat} (h : m ≤ j) (fuel : Nat) :
    readCoefficients b m dim fuel j = pure () := by
  cases fuel with
  | zero => rfl
  | succ fuel => exact if_neg (Nat.not_lt.2 h)

/-- R214: the codewords that cover the coefficients from `j` on, read one by one, leave their values in `LSP`. -/
theorem readCoefficients_sends {s : State} {k : Loaded} (hk : s.has k) {b m dim : Nat} (hb : s.vectorBook b dim)
    (hdim : 1 ≤ dim) : ∀ (es : List Nat) (fuel j : Nat) (t : State), t.has k → m - j ≤ fuel →
      es.length = codewordsFor (m - j) dim → (∀ e ∈ es, s.codes b e) → t.Sends (s.codesFields b es) →
      readCoefficients b m dim fuel j t =
        .ok () ((storeRun .lsp .declare 1 j (es.flatMap (s.valuesOf b)) t).advance (fieldBits (s.codesFields b es)))
  | [], fuel, j, t, _, _, hlen, _, _ => by
    have hdone : m ≤ j := by
      by_contra hj
      rw [codewordsFor_step hdim (by omega)] at hlen
      cases hlen
    rw [readCoefficients_done hdone]
    rfl
  | e :: es, fuel, j, t, ht, hfuel, hlen, hcodes, hs => by
    have hj : 0 < m - j := by
      by_contra hj
      rw [show m - j = 0 by omega, codewordsFor_zero hdim] at hlen
      cases hlen
    obtain ⟨fuel, rfl⟩ : ∃ fuel', fuel = fuel' + 1 := ⟨fuel - 1, by omega⟩
    rw [codewordsFor_step hdim hj, List.length_cons, Nat.add_right_cancel_iff, Nat.sub_sub] at hlen
    have hs : t.Sends (s.codeFields b e ++ s.codesFields b es) := hs
    have hone := cbDecodeVs_sends hk ht hb (hcodes e List.mem_cons_self) hs.left .lsp .declare j 1
    have hnext := readCoefficients_sends hk hb hdim es fuel (j + dim)
      ((storeRun .lsp .declare 1 j (s.valuesOf b e) t).advance (fieldBits (s.codeFields b e)))
      (ht.storeRun _ _ _ _ _) (by omega) hlen (fun x hx => hcodes x (List.mem_cons_of_mem _ hx))
      (by rw [← storeRun_advance]; exact hs.right.storeRun _ _ _ _ _)
    have hfields : fieldBits (s.codesFields b (e :: es)) =
        fieldBits (s.codeFields b e) + fieldBits (s.codesFields b es) := fieldBits_append _ _
    unfold readCoefficients
    rw [if_pos (by omega), bind_ok hone, hnext, hfields, List.flatMap_cons, storeRun_append, hb.valuesOf_length,
      storeRun_advance, State.advance_advance]

/-- The end of floor-0 pass 1, once the book is known (42_floor0.md R214): the coefficients and the memo. -/
def f0ReadVector (f c : Nat) (F : Floor0) (amp b dim : Nat) : Op PassOne := do
  readCoefficients b F.order dim F.order 0
  modify fun s => s.setLsp (runningSum dim 0 0 (s.lsp.take F.order) ++ s.lsp.drop F.order)
  modify fun s => s.setMemo c (some (.floor0 f (s.lsp.take F.order) (floor0Amplitude F amp)))
  pure .memo

/-- R214: with an amplitude and a book number sent, pass 1 goes on to the coefficients. -/
theorem Leads.f0Pass1 {s : State} {k : Loaded} (hk : s.has k) (f c : Nat) {F : Floor0} {amp booknum b dim : Nat}
    (hamp : amp ≠ 0) (hnum : booknum < F.numbooks) (hbook : F.books[booknum]? = some b) (hb : s.vectorBook b dim) :
    Leads k (Machine.f0Pass1 f c F) [(F.ampbits, amp), (ilog F.numbooks, booknum)] k (f0ReadVector f c F amp b dim) := by
  obtain ⟨-, -, r, hr, -, rfl, -⟩ := hb
  refine Leads.bind (fs := [(F.ampbits, amp)]) (Reads.readBits _ _) ?_
  rw [if_neg hamp]
  refine Leads.bind (fs := [(ilog F.numbooks, booknum)]) (Reads.readBits _ _) ?_
  rw [if_neg (Nat.not_le.2 hnum)]
  refine Leads.need_bind hbook
    (Leads.lookup (g := fun s => fieldAt s.cfg.book b) (v := r) (fun t ht => ?_) (Leads.refl _))
  rw [ht.1, ← hk.1, hr]

/-- R214: the coefficients read, summed, and handed to pass 2 in the memo. -/
theorem f0ReadVector_sends {s t : State} {k : Loaded} (hk : s.has k) (ht : t.has k) (f c : Nat) {F : Floor0}
    (amp : Nat) {b dim : Nat} (hb : s.vectorBook b dim) (hdim : 1 ≤ dim) (horder : F.order ≤ 255)
    (hlsp : t.lsp.length = 256) {es : List Nat} (hlen : es.length = codewordsFor F.order dim)
    (hcodes : ∀ e ∈ es, s.codes b e) (hs : t.Sends (s.codesFields b es)) :
    ∃ l, f0ReadVector f c F amp b dim t = .ok .memo
      ((((storeRun .lsp .declare 1 0 (es.flatMap (s.valuesOf b)) t).advance (fieldBits (s.codesFields b es))).setLsp
        l).setMemo c (some (.floor0 f (runningSum dim 0 0 ((es.flatMap (s.valuesOf b)).take F.order))
          (floor0Amplitude F amp)))) := by
  have hread := readCoefficients_sends hk hb hdim es F.order 0 t ht le_rfl hlen hcodes hs
  have hcover : F.order ≤ (es.flatMap (s.valuesOf b)).length := by
    rw [hb.flatMap_valuesOf_length, hlen]
    exact le_codewordsFor_mul hdim
  have htake := storeRun_declare_lsp_take hlsp (by omega) hcover
  generalize es.flatMap (s.valuesOf b) = vs at hread hcover htake ⊢
  have hsum : (runningSum dim 0 0 (vs.take F.order)).length = F.order := by
    rw [runningSum_length, List.length_take, Nat.min_eq_left hcover]
  refine ⟨runningSum dim 0 0 (vs.take F.order) ++ (storeRun .lsp .declare 1 0 vs t).lsp.drop F.order, ?_⟩
  unfold f0ReadVector
  rw [bind_ok hread]
  show EStateM.Result.ok PassOne.memo
    (State.setMemo c (some (.floor0 f (List.take F.order (_ ++ _)) _)) (State.setLsp _ _)) = _
  rw [State.advance_lsp, htake, List.take_left' hsum]

/-- Pass 1 removes the memo, then reads with the record of its floor. -/
theorem f0Inverse1_eq {s : State} {f c : Nat} {F : Floor0} (hF : s.floor0At f = some F) :
    f0Inverse1 f c s = absorb (f0Pass1 f c F) (pure .starved) (s.setMemo c none) :=
  lookup_bind (s := s.setMemo c none) (g := State.floor0At f) hF

/-- How an accepted floor-0 pass 1 ends, from how its reading ends. -/
theorem exec_f0Inverse1 {s t : State} {f c : BitVec 8} {F : Floor0} {r : PassOne}
    (hj : judgeFloor 0 f.toNat c.toNat s = .ok ()) (hF : s.floor0At f.toNat = some F)
    (h : f0Pass1 f.toNat c.toNat F (s.setMemo c.toNat none) = .ok r t) :
    exec (.f0Inverse1 f c) s = .next (t.completeOk (BitVec.ofNat 32 (bitValue r.present))) :=
  (exec_accepted (i := .f0Inverse1 f c) hj).trans (finish_ok (bind_ok ((f0Inverse1_eq hF).trans (absorb_ok h))))

/-- Settles O37: the silent outcome by its amplitude, the other by reading the coefficients. -/
theorem floorZeroPassOneReads : Obligations.FloorZeroPassOneReads := by
  rintro s f c floors channels F hr ⟨-, hmemo, hlsp⟩ hfloors hf hch hc h255 hty hF
  have hj := judgeFloor_ok hr hfloors hf hch hc hty
  refine ⟨fun hs => ?_, fun amp booknum b dim es hamp hnum hbook horder hb hlen hcodes hs => ?_⟩
  · have hread := readBits_sends (hs.setMemo c.toNat none)
    exact exec_f0Inverse1 (r := .silent) hj hF (bind_ok hread)
  · have hs := hs.setMemo c.toNat none
    have hpass := (Leads.f0Pass1 s.has_self f.toNat c.toNat hamp hnum hbook hb).run
      (s.setMemo c.toNat none).has_self hs.left
    have hdim : 1 ≤ dim := by obtain ⟨-, -, r, -, -, -, h1⟩ := hb; exact h1
    obtain ⟨l, hvector⟩ := f0ReadVector_sends (t := (s.setMemo c.toNat none).advance _) s.has_self ⟨rfl, rfl⟩ f.toNat
      c.toNat amp hb hdim horder hlsp hlen hcodes hs.right
    obtain ⟨p, l', hrun⟩ := storeRun_eq .lsp .declare 1 (es.flatMap (s.valuesOf b)) 0
      ((s.setMemo c.toNat none).advance (fieldBits [(F.ampbits, amp), (ilog F.numbooks, booknum)]))
    rw [hrun] at hvector
    have hc : c.toNat < s.memo.length := by omega
    refine ⟨_, exec_f0Inverse1 hj hF (hpass.trans hvector), rfl, rfl, ?_, by simp [State.hostReadMemo, fieldAt, hc]⟩
    rw [fieldBits_append, ← Nat.add_assoc]
    rfl

end Sys2Proof.Machine
end

section
/-! SUPPORT. The header operations as whole instructions: a record, a header of its own and a `HEADERIN` packet, from what
their readers make of a payload that holds them (48_header.md R340 to R350). -/

namespace Sys2Proof.Machine

/-! ## An operation the sequencer issues -/

section

variable {i : Instr} {s : State} {op : Op Unit} {fs : List (Nat × Nat)}

theorem exec_sequencer (hs : s.issuer = .sequencer) : exec i s = finish (opOf i s s) :=
  (exec_eq i s).trans (issue_sequencer hs)

theorem State.setTab_eq_self {T : Tab} (h : s.tab = T) : s.setTab T = s := by
  subst h
  rfl

/-- A reading operation whose fields are sent loads what it reads, and ends `OK`. -/
theorem exec_reads {c : Cfg} {T : Tab} (hs : s.issuer = .sequencer) (hi : opOf i s = op >>= fun _ => result 0)
    (hop : Reads (s.cfg, s.tab) op fs () (c, T)) (hsent : s.Sends fs) :
    exec i s = .next ((((s.advance (fieldBits fs)).setCfg c).setTab T).completeOk 0) := by
  rw [exec_sequencer hs, hi]
  exact finish_ok (bind_ok (hop s s.has_self hsent))

/-- The same, where the tables stay as they are. -/
theorem exec_reads_cfg {c : Cfg} (hs : s.issuer = .sequencer) (hi : opOf i s = op >>= fun _ => result 0)
    (hop : Reads (s.cfg, s.tab) op fs () (c, s.tab)) (hsent : s.Sends fs) :
    exec i s = .next (((s.advance (fieldBits fs)).setCfg c).completeOk 0) := by
  have hexec := exec_reads hs hi hop hsent
  rwa [State.setTab_eq_self (by exact rfl)] at hexec

/-- A reading operation that comes to a failure ends with it; what it loaded before stays (60_exceptions.md R372). -/
theorem exec_leads_raise {c : Cfg} {rest : Op Unit} {f : Failure} (hs : s.issuer = .sequencer)
    (hi : opOf i s = op >>= fun _ => result 0) (hop : Leads (s.cfg, s.tab) op fs (c, s.tab) rest)
    (hrest : Leads (c, s.tab) rest [] (c, s.tab) (raise f)) (hsent : s.Sends fs) :
    exec i s = .next (((s.advance (fieldBits fs)).setCfg c).completeFail f) := by
  have hsent' : ((s.advance (fieldBits fs)).setCfg c).Sends [] := by
    rw [← List.append_nil fs] at hsent
    exact hsent.right.congr rfl rfl rfl rfl
  have hend : op s = .error f ((s.advance (fieldBits fs)).setCfg c) :=
    (hop s s.has_self hsent).trans (hrest.run ⟨rfl, rfl⟩ hsent')
  rw [exec_sequencer hs, hi]
  exact finish_error (bind_error hend)

end

/-! ## Records -/

section

variable {c : Cfg} {T : Tab}

/-- R346: a time type that is not 0 is loaded, then refused. -/
theorem hdrTime_leads_raise (t : Nat) {v : Nat} (hv : v ≠ 0) :
    Leads (c, T) (hdrTime t) [(16, v)] ({ c with timeType := putAt c.timeType t v }, T)
      (raise (.badHeader .timeType)) := by
  refine Leads.read_bind fun _ => Leads.bind (fs := []) (loadCfg_reads _) ?_
  rw [beq_false_of_ne hv]
  exact Leads.refl _

/-- R185: an overpopulated length list gets no codewords. -/
theorem cbMakeWords_leads_raise {b : Nat} {r : Book} (hr : fieldAt c.book b = some r)
    (hw : makeWords r.lengthlist = none) :
    Leads (c, T) (cbMakeWords b) [] (c, T) (raise (.badHeader .bookOverpop)) := by
  refine Leads.lookup (g := fun s => fieldAt s.cfg.book b) (v := r) (fun s hs => by rw [hs.1]; exact hr) ?_
  rw [hw]
  exact Leads.refl _

end

/-- Settles O50: the records by their readers, the refused time type by the check it comes to, the comments by walking them. -/
theorem identCommentTimeAndModeRecordsParse : Obligations.IdentCommentTimeAndModeRecordsParse := by
  intro s hs
  refine ⟨fun channels rate upper nominal lower e0 e1 hc hr h0 h1 hsent => ?_, fun t hsent => ?_,
    fun t v hv hsent => ?_, fun n r hr hsent => ?_, fun vendor comments hsent => ?_⟩
  · have hexec := exec_reads_cfg (i := .hdrIdent) hs rfl (hdrIdent_reads hc hr h0 h1) hsent
    rwa [fieldBits_identFields] at hexec
  · exact exec_reads_cfg (i := .hdrTime t) hs rfl (hdrTime_reads t.toNat) hsent
  · exact exec_leads_raise (i := .hdrTime t) hs rfl (hdrTime_leads_raise t.toNat hv) (Leads.refl _) hsent
  · exact exec_reads_cfg (i := .hdrMode n) hs rfl (hdrMode_reads hr) hsent
  · exact exec_reads_cfg (i := .hdrComment) hs rfl (hdrComment_reads vendor comments) hsent

/-- Settles O51: the record is loaded either way, then its codewords are built or the list is overpopulated. -/
theorem codebookRecordParses : Obligations.CodebookRecordParses := by
  intro s b layout r hs hr hsent
  refine ⟨fun ws hw => ?_, fun hw => ?_⟩
  · exact exec_reads (i := .hdrBook b) hs rfl (hdrBook_reads b.toNat hr hw) hsent
  · have hloaded : fieldAt (putAt s.cfg.book b.toNat r) b.toNat = some r := by rw [fieldAt_putAt, if_pos rfl]
    exact exec_leads_raise (i := .hdrBook b) hs rfl (hdrBook_leads b.toNat hr) (cbMakeWords_leads_raise hloaded hw) hsent

/-- Settles O52: each type by its reader. -/
theorem floorRecordsParse : Obligations.FloorRecordsParse := fun _ f hs =>
  ⟨fun _ hF hsent => exec_reads_cfg (i := .f0Unpack f) hs rfl (f0Unpack_reads hF) hsent,
    fun _ hF hsent => exec_reads_cfg (i := .f1Unpack f) hs rfl (f1Unpack_reads hF) hsent⟩

/-- Settles O53: each record by its reader, whatever layout it is sent in. -/
theorem residueAndMappingRecordsParse : Obligations.ResidueAndMappingRecordsParse := fun _ hs =>
  ⟨fun r _ _ hR hsent => exec_reads_cfg (i := .resUnpack r) hs rfl (resUnpack_reads hR) hsent,
    fun m _ _ _ _ hM hsent => exec_reads_cfg (i := .map0Unpack m) hs rfl (map0Unpack_reads hM) hsent⟩

/-- Settles O54: table after table, each record read as it was sent. -/
theorem setupHeaderParses : Obligations.SetupHeaderParses := fun _ _ _ hs _ hident htab hlegal hsent =>
  exec_reads (i := .hdrSetup) hs rfl (hdrSetup_reads hident htab hlegal) hsent

/-! ## Header packets -/

/-- R340: the body of an identification packet, in its phase. -/
theorem headerBody_ident {P : Params} {s : State} (hp : s.phase = .needId) (hb : s.bos = true) :
    headerBody P 1 s = (hdrIdent >>= fun _ => modify (State.setPhase .needComment) : Op Unit) s := by
  show (headerCheck (s.phase == .needId && s.bos) .order >>= _ : Op Unit) s = _
  rw [hp, hb]
  rfl

/-- R340: the body of a comment packet, in its phase. -/
theorem headerBody_comment {P : Params} {s : State} (hp : s.phase = .needComment) (hb : s.bos = false) :
    headerBody P 3 s = (hdrComment >>= fun _ => modify (State.setPhase .needSetup) : Op Unit) s := by
  show (headerCheck (s.phase == .needComment && !s.bos) .order >>= _ : Op Unit) s = _
  rw [hp, hb]
  rfl

/-- R340: a packet whose head is good and whose body reads as it was sent is accepted, and `PHASE` moves on. -/
theorem exec_headerin_accepted {s : State} {eos bos : Bool} {t : Nat} {fs : List (Nat × Nat)} {op : Op Unit} {k : Loaded}
    {next : Phase} (ht : t = 1 ∨ t = 3 ∨ t = 5)
    (hsent : (s.initCursor s.arg0 s.arg1).Sends ((8, t) :: magicFields ++ fs))
    (hbody : headerBody defaultParams t ((s.openHeader eos bos).advance 56) =
      (op >>= fun _ => modify (State.setPhase next) : Op Unit) ((s.openHeader eos bos).advance 56))
    (hop : Reads (s.cfg, s.tab) op fs () k) :
    exec (.headerin eos bos) s = .next
      (((((s.openHeader eos bos).advance (56 + fieldBits fs)).with k).setPhase next).completeOk
        (BitVec.ofNat 32 next.code.toNat)) := by
  obtain ⟨hpacket, hfs⟩ := headerPacket_body (P := defaultParams) (eos := eos) (bos := bos) ht hsent
  rw [bind_ok (hbody.trans (bind_ok (hop _ ⟨rfl, rfl⟩ hfs))), State.advance_advance] at hpacket
  have hrun : headerin defaultParams eos bos s = .ok (BitVec.ofNat 32 next.code.toNat)
      ((((s.openHeader eos bos).advance (56 + fieldBits fs)).with k).setPhase next) := by
    unfold headerin tearDownOnBadHeader
    rw [hpacket]
    rfl
  exact (exec_accepted (i := .headerin eos bos) rfl).trans (finish_ok hrun)

/-- Settles O55: the head of each packet, then its body in its phase. -/
theorem firstTwoHeadersAreAccepted : Obligations.FirstTwoHeadersAreAccepted := by
  intro s eos
  refine ⟨fun channels rate upper nominal lower e0 e1 hp hc hr h0 h1 hsent => ?_, fun vendor comments hp hsent => ?_⟩
  · refine ⟨_, exec_headerin_accepted (.inl rfl) hsent (headerBody_ident hp rfl) (hdrIdent_reads hc hr h0 h1),
      rfl, rfl, rfl, ?_, rfl, rfl, rfl, rfl, rfl⟩
    rw [fieldBits_identFields]
    rfl
  · have hexec := exec_headerin_accepted (eos := eos) (bos := false) (.inr (.inl rfl)) hsent (headerBody_comment hp rfl)
      (hdrComment_reads (k := (s.cfg, s.tab)) vendor comments)
    rwa [State.with_self (by exact ⟨rfl, rfl⟩)] at hexec

/-! ## What a header packet can end in -/

/-- R340, R341: `HEADERIN` is accepted, or ends `BadHeader` with the stream torn down. -/
theorem headerin_sat {P : Params} {s : State} {eos bos : Bool} (h : s.ConfigOk) :
    Sat (headerin P eos bos) s
      (fun v u => Accepted (s.openHeader eos bos) u ∧ v = u.phase.code.setWidth 32)
      (fun e u => ∃ k v, e = .badHeader k ∧ u = v.tornDown ∧ HeaderFrame (s.openHeader eos bos) v) := by
  have hpacket := headerPacket_sat (P := P) (eos := eos) (bos := bos) h.fits
  unfold headerin Sat tearDownOnBadHeader
  cases hr : headerPacket P eos bos s with
  | ok v u => exact hpacket.ok hr
  | error e u =>
    obtain ⟨hframe, k, rfl⟩ := hpacket.error hr
    exact ⟨k, u, rfl, rfl, hframe⟩

/-- R341: a torn-down stream is as after `RESET`, but for the cursor and what the packet latched. -/
theorem HeaderFrame.tornDown_completeFail {s v : State} {eos bos : Bool} (h : HeaderFrame (s.openHeader eos bos) v)
    (k : HeaderCause) : v.tornDown.completeFail (.badHeader k) =
      { State.reset with
        base := s.arg0, len := s.arg1, pos := v.pos, eoff := v.eoff, granule := s.arg3 ++ s.arg2, eos := eos, bos := bos,
        arg0 := s.arg0, arg1 := s.arg1, arg2 := s.arg2, arg3 := s.arg3, pkt := s.pkt,
        issuer := s.issuer, eofInResidue := s.eofInResidue,
        status := 4, cause := k.code, res := 0xFFFFFFFF, cmd := none } := by
  unfold State.completeFail State.tornDown State.cleared
  rw [h.base, h.len, h.granule, h.eos, h.bos, h.arg0, h.arg1, h.arg2, h.arg3, h.pkt, h.issuer, h.eofInResidue]
  rfl

/-- Settles O57: by the two ways a header packet can end. -/
theorem headersFailClosed : Obligations.HeadersFailClosed := by
  intro s t eos bos h he
  rw [exec_accepted (i := .headerin eos bos) rfl] at he
  rcases finish_cases (headerin defaultParams eos bos s) with ⟨v, u, hr, hf⟩ | ⟨f, u, hr, hf⟩ <;>
    cases hf.symm.trans he
  · obtain ⟨haccepted, rfl⟩ := (headerin_sat h).ok hr
    exact .inl ⟨rfl, rfl, rfl, haccepted.phase⟩
  · obtain ⟨k, v, rfl, rfl, hframe⟩ := (headerin_sat h).error hr
    exact .inr ⟨k, hframe.tornDown_completeFail k⟩

end Sys2Proof.Machine
end

section
/-! SUPPORT. The operations of the bit cursor while the payload lasts: the bits a field is made of, and what a read, a look
and an advance leave. -/

namespace Sys2Proof.Machine

/-! ## Fields, bit by bit -/

/-- R161: bit `i` of a field is payload bit `p + i`. -/
theorem payloadField_testBit (m : Memory) (base : Nat) : ∀ n p i : Nat,
    (payloadField m base p n).testBit i = (decide (i < n) && payloadBit m base (p + i))
  | 0, _, _ => by simp [payloadField]
  | n + 1, p, 0 => by
    rw [payloadField, Nat.testBit_zero]
    cases payloadBit m base p <;> simp [bitValue]
  | n + 1, p, i + 1 => by
    have hhalf : payloadField m base p (n + 1) / 2 = payloadField m base (p + 1) n := by
      rw [payloadField, bitValue]
      split <;> omega
    rw [Nat.testBit_succ, hhalf, payloadField_testBit m base n (p + 1) i]
    simp [Nat.add_assoc, Nat.add_comm 1]

/-- R167: the first `k` bits of a field are its low bits. -/
theorem payloadField_mod (m : Memory) (base p : Nat) {k n : Nat} (h : k ≤ n) :
    payloadField m base p n % 2 ^ k = payloadField m base p k := by
  obtain ⟨j, rfl⟩ := Nat.exists_eq_add_of_le h
  rw [payloadField_add, Nat.add_mul_mod_self_left, Nat.mod_eq_of_lt (payloadField_lt m base k p)]

/-- R170: a field is the same in every memory that holds the same bytes where its bits lie. -/
theorem payloadField_congr {m m' : Memory} {base : Nat} : ∀ {n p : Nat},
    (∀ a, base + p / 8 ≤ a → a ≤ base + (p + n - 1) / 8 → m.byteAt a = m'.byteAt a) →
    payloadField m base p n = payloadField m' base p n
  | 0, _, _ => rfl
  | n + 1, p, h => by
    have hbit : payloadBit m base p = payloadBit m' base p := by
      unfold payloadBit
      rw [h (base + p / 8) (by omega) (by omega)]
    have hrest : payloadField m base (p + 1) n = payloadField m' base (p + 1) n :=
      payloadField_congr fun a hlo hhi => h a (by omega) (by omega)
    rw [payloadField, payloadField, hbit, hrest]

/-! ## The field at the cursor -/

theorem State.avail_eq_true_iff {n : Nat} {s : State} : s.avail n = true ↔ s.pos + n ≤ 8 * s.len.toNat := by
  simp [State.avail]

theorem State.cursorField_lt (n : Nat) (s : State) : s.cursorField n < 2 ^ n := payloadField_lt _ _ _ _

/-- The field at the cursor, bit by bit in a result register. -/
theorem State.cursorField_getLsbD {n i : Nat} (hi : i < 32) (s : State) :
    (BitVec.ofNat 32 (s.cursorField n)).getLsbD i =
      (decide (i < n) && payloadBit s.pkt s.base.toNat (s.pos + i)) := by
  rw [BitVec.getLsbD_ofNat, decide_eq_true hi, Bool.true_and]
  exact payloadField_testBit _ _ _ _ _

/-- A field of at most 32 bits fits the result register. -/
theorem State.cursorField_toNat {n : Nat} (hn : n ≤ 32) (s : State) :
    (BitVec.ofNat 32 (s.cursorField n)).toNat = s.cursorField n := by
  rw [BitVec.toNat_ofNat]
  exact Nat.mod_eq_of_lt (lt_of_lt_of_le (s.cursorField_lt n) (Nat.pow_le_pow_right (by omega) hn))

/-- R168: a field of `a + b` bits is the field of `a` bits below the field of `b` bits that follows it. -/
theorem State.cursorField_or_shift (a b : Nat) (s : State) :
    BitVec.ofNat 32 (s.cursorField (a + b)) =
      BitVec.ofNat 32 (s.cursorField a) ||| BitVec.ofNat 32 ((s.advance a).cursorField b) <<< a := by
  refine BitVec.eq_of_getLsbD_eq fun i hi => ?_
  rw [BitVec.getLsbD_or, BitVec.getLsbD_shiftLeft, s.cursorField_getLsbD hi, s.cursorField_getLsbD hi,
    State.cursorField_getLsbD (by omega)]
  by_cases hlow : i < a
  · simp [hlow, Nat.lt_add_right b hlow]
  · have hpos : s.pos + a + (i - a) = s.pos + i := by omega
    have hwidth : i - a < b ↔ i < a + b := by omega
    simp [hi, hlow, hpos, hwidth]

/-! ## The operations -/

/-- R162: `BC.INIT` as an equation. -/
theorem exec_bcInit (s : State) : exec .bcInit s = .next ((s.initCursor s.arg0 s.arg1).completeOk 0) :=
  exec_accepted (i := .bcInit) rfl

/-- R165: `BC.ADV` as an equation. -/
theorem exec_bcAdv {n : BitVec 6} (hn : n.toNat ≤ 32) (s : State) :
    exec (.bcAdv n) s = .next ((s.advance n.toNat).completeOk 0) :=
  exec_accepted (i := .bcAdv n) (judgeCount_ok hn s)

/-- R163: an available read delivers the field at the cursor and moves the cursor past it. -/
theorem exec_bcRead_ok {n : BitVec 6} {s : State} (hn : n.toNat ≤ 32) (h : s.avail n.toNat = true) :
    exec (.bcRead n) s = .next ((s.advance n.toNat).completeOk (BitVec.ofNat 32 (s.cursorField n.toNat))) :=
  (exec_accepted (i := .bcRead n) (judgeCount_ok hn s)).trans (finish_ok (bind_ok (readBits_ok h)))

/-- R164: an available look delivers the same field and moves nothing. -/
theorem exec_bcLook_ok {n : BitVec 6} {s : State} (hn : n.toNat ≤ 32) (h : s.avail n.toNat = true) :
    exec (.bcLook n) s = .next (s.completeOk (BitVec.ofNat 32 (s.cursorField n.toNat))) :=
  (exec_accepted (i := .bcLook n) (judgeCount_ok hn s)).trans (finish_ok (bind_ok (lookBits_ok h)))

/-- Settles O15: both operations are their equations. -/
theorem cursorIsSetAndMoved : Obligations.CursorIsSetAndMoved := fun s =>
  ⟨exec_bcInit s, fun _ hn => exec_bcAdv hn s⟩

/-- Settles O16: the value is the field at the cursor, whose bits are those of the payload. -/
theorem readAndLookDeliverBits : Obligations.ReadAndLookDeliverBits := by
  intro s n hn hleft
  have h : s.avail n.toNat = true := State.avail_eq_true_iff.2 hleft
  refine ⟨_, fun i hi => s.cursorField_getLsbD hi, exec_bcRead_ok hn h, exec_bcLook_ok hn h, ?_⟩
  rintro rfl
  exact (exec_bcRead1 s).trans (exec_bcRead_ok hn h)

/-- Settles O18: a look that succeeds has its bits available, so a read of fewer succeeds and gives the low ones. -/
theorem peekThenAdvance : Obligations.PeekThenAdvance := by
  intro s t n k hn hk hlook hok
  have hk32 : k.toNat ≤ 32 := hk.trans hn
  cases h : s.avail n.toNat with
  | false =>
    cases (exec_bcLook_eof hn h).symm.trans hlook
    exact absurd (show (1 : BitVec 8) = 0 from hok) (by decide)
  | true =>
    cases (exec_bcLook_ok hn h).symm.trans hlook
    have hread : s.avail k.toNat = true := by
      rw [State.avail_eq_true_iff] at h ⊢
      omega
    refine ⟨_, _, exec_bcAdv hk32 s, exec_bcRead_ok hk32 hread, rfl, rfl, rfl, rfl, rfl, ?_⟩
    calc (BitVec.ofNat 32 (s.cursorField k.toNat)).toNat
      _ = s.cursorField k.toNat := s.cursorField_toNat hk32
      _ = s.cursorField n.toNat % 2 ^ k.toNat := (payloadField_mod _ _ _ hk).symm
      _ = (BitVec.ofNat 32 (s.cursorField n.toNat)).toNat % 2 ^ k.toNat := by rw [s.cursorField_toNat hn]

/-- Settles O19: the three reads are available, and the long field is the two short ones put together. -/
theorem readsConcatenate : Obligations.ReadsConcatenate := by
  intro s a b hab hleft
  have hsum : (a + b).toNat = a.toNat + b.toNat := BitVec.toNat_add_of_lt (by omega)
  have hfirst : s.avail a.toNat = true := State.avail_eq_true_iff.2 (by omega)
  have hwhole : s.avail (a + b).toNat = true := State.avail_eq_true_iff.2 (by omega)
  have hsecond : ((s.advance a.toNat).completeOk (BitVec.ofNat 32 (s.cursorField a.toNat))).avail b.toNat = true :=
    State.avail_eq_true_iff.2 (by simp; omega)
  refine ⟨_, _, _, exec_bcRead_ok (by omega) hfirst, exec_bcRead_ok (by omega) hsecond,
    exec_bcRead_ok (by omega) hwhole, rfl, rfl, ?_, rfl, ?_⟩
  · simp [hsum, Nat.add_assoc]
  · rw [hsum]
    exact s.cursorField_or_shift a.toNat b.toNat

/-! ## `POS` -/

/-- R169: an operation that starts no packet never moves the cursor back. -/
theorem exec_pos_le {i : Instr} {s t : State} (hcmd : i.opClass ≠ .command) (hinit : i ≠ .bcInit)
    (he : exec i s = .next t) : s.pos ≤ t.pos := by
  cases hcls : i.opClass with
  | command => exact absurd hcls hcmd
  | unit =>
    obtain ⟨u, status, cause, res, k, rfl⟩ := exec_frame DecodeFrame.rel (opOf_unit_frame hcls hinit s) he
    exact k.pos
  | internal =>
    obtain ⟨u, status, cause, res, k, rfl⟩ := exec_frame HeaderFrame.rel (opOf_internal_frame hcls s) he
    exact k.pos

/-- R163: a read moves the cursor by its bit count, whether or not it fails. -/
theorem exec_bcRead_pos {n : BitVec 6} {s t : State} (hn : n.toNat ≤ 32) (he : exec (.bcRead n) s = .next t) :
    t.pos = s.pos + n.toNat := by
  cases h : s.avail n.toNat with
  | false => cases (exec_bcRead_eof hn h).symm.trans he; rfl
  | true => cases (exec_bcRead_ok hn h).symm.trans he; rfl

/-- R164: a look does not move the cursor, whether or not it fails. -/
theorem exec_bcLook_pos {n : BitVec 6} {s t : State} (hn : n.toNat ≤ 32) (he : exec (.bcLook n) s = .next t) :
    t.pos = s.pos := by
  cases h : s.avail n.toNat with
  | false => cases (exec_bcLook_eof hn h).symm.trans he; rfl
  | true => cases (exec_bcLook_ok hn h).symm.trans he; rfl

/-- Settles O20: the frames of unit and internal operations, and the equations of the cursor's own. -/
theorem positionNeverDecreases : Obligations.PositionNeverDecreases := by
  refine ⟨fun i s t => exec_pos_le, fun n s t hn => ⟨exec_bcLook_pos hn, exec_bcRead_pos hn, fun he => ?_⟩,
    fun s t he => ?_⟩
  · cases (exec_bcAdv hn s).symm.trans he
    rfl
  · exact exec_bcRead_pos (n := 1) (by decide) ((exec_bcRead1 s).symm.trans he)

/-! ## Locality -/

/-- Settles O21: the bits left do not depend on `PKT`, and the field only on the bytes its bits lie in. -/
theorem readsAreLocal : Obligations.ReadsAreLocal := by
  intro s t m n hn hsame he
  have hfield : ({ s with pkt := m } : State).cursorField n.toNat = s.cursorField n.toNat := payloadField_congr hsame
  cases h : s.avail n.toNat with
  | false =>
    cases (exec_bcRead_eof hn h).symm.trans he
    exact exec_bcRead_eof hn h
  | true =>
    cases (exec_bcRead_ok hn h).symm.trans he
    refine (exec_bcRead_ok (s := { s with pkt := m }) hn h).trans ?_
    rw [hfield]
    rfl

end Sys2Proof.Machine
end

section
/-! SUPPORT. Which flags, memos, words of `LSP` and rows of `PCM` a unit operation may change. -/

namespace Sys2Proof.Machine

/-! ## Reaches -/

/-- What an operation is allowed to change, among the arrays of OnlyTheNamedArrayChanges; what is not named stays. -/
structure Reach where
  cursor : Prop := False
  scratch : Prop := False
  memos : Nat → Prop := fun _ => False
  rows : Nat → Prop := fun _ => False

/-- The reach holds the destination of a vector operation. -/
def Reach.target (P : Reach) : Target → Prop
  | .pcm c => P.rows c
  | .lsp => P.scratch

/-- Outside the reach nothing has changed, `NONZERO` and `TRUNC` nowhere. -/
structure StaysIn (P : Reach) (s t : State) : Prop where
  cursor : ¬ P.cursor → t.pos = s.pos ∧ t.eoff = s.eoff
  nonzero : t.nonzero = s.nonzero
  trunc : t.trunc = s.trunc
  memo : ∀ k, ¬ P.memos k → t.memo[k]? = s.memo[k]?
  lsp : ¬ P.scratch → t.lsp = s.lsp
  pcm : s.SamePcmBut P.rows t

/-- An operation that only reads the payload changes `POS` and `EOFF`. -/
def CursorFrame (s t : State) : Prop := { t with pos := s.pos, eoff := s.eoff } = s

theorem CursorFrame.rel : FrameRel CursorFrame where
  refl _ := rfl
  trans {s t u} h k := by
    have hu : { u with pos := s.pos, eoff := s.eoff } = ({ t with pos := s.pos, eoff := s.eoff } : State) := by
      rw [← show _ = t from k]
    exact hu.trans h

variable {α β : Type} {P : Reach}

theorem StaysIn.refl (s : State) : StaysIn P s s :=
  ⟨fun _ => ⟨rfl, rfl⟩, rfl, rfl, fun _ _ => rfl, fun _ => rfl, fun _ _ _ => rfl⟩

theorem StaysIn.trans {s t u : State} (h : StaysIn P s t) (k : StaysIn P t u) : StaysIn P s u where
  cursor hc := ⟨(k.cursor hc).1.trans (h.cursor hc).1, (k.cursor hc).2.trans (h.cursor hc).2⟩
  nonzero := k.nonzero.trans h.nonzero
  trunc := k.trunc.trans h.trunc
  memo c hc := (k.memo c hc).trans (h.memo c hc)
  lsp hl := (k.lsp hl).trans (h.lsp hl)
  pcm c i hc := (k.pcm c i hc).trans (h.pcm c i hc)

theorem StaysIn.rel : FrameRel (StaysIn P) := ⟨StaysIn.refl, StaysIn.trans⟩

/-- With no memo in reach the flags and memos are as before. -/
theorem StaysIn.sameFlags {s t : State} (h : StaysIn P s t) (hm : ∀ k, ¬ P.memos k) : s.SameFlags t :=
  ⟨h.nonzero, List.ext_getElem? fun k => h.memo k (hm k), h.trunc⟩

/-- Outside the reach the host reads the memos it read before. -/
theorem StaysIn.hostReadMemo {s t : State} (h : StaysIn P s t) {k : Nat} (hk : ¬ P.memos k) :
    t.hostReadMemo k = s.hostReadMemo k := congrArg Option.join (h.memo k hk)

/-! ## Named updates -/

theorem CursorFrame.staysIn (hc : P.cursor) {s t : State} (h : CursorFrame s t) : StaysIn P s t := by
  have hs : ∀ {γ : Type} (g : State → γ), g { t with pos := s.pos, eoff := s.eoff } = g s := fun g => congrArg g h
  exact
    { cursor := fun hn => absurd hc hn
      nonzero := hs State.nonzero
      trunc := hs State.trunc
      memo := fun k _ => hs (·.memo[k]?)
      lsp := fun _ => hs State.lsp
      pcm := fun c i _ => hs (State.hostReadPcm c i) }

theorem StaysIn.initCursor (hc : P.cursor) (base len : BitVec 32) (s : State) : StaysIn P s (s.initCursor base len) :=
  { StaysIn.refl (P := P) s with cursor := fun hn => absurd hc hn }

theorem StaysIn.setMemo {c : Nat} (hm : P.memos c) (m : Option Memo) (s : State) : StaysIn P s (s.setMemo c m) :=
  { StaysIn.refl (P := P) s with
    memo := fun k hk => List.getElem?_set_ne fun (h : c = k) => hk (h ▸ hm) }

theorem StaysIn.setLsp (hs : P.scratch) (l : List F32) (s : State) : StaysIn P s (s.setLsp l) :=
  { StaysIn.refl (P := P) s with lsp := fun hn => absurd hs hn }

theorem StaysIn.setPcmRow {c : Nat} (hr : P.rows c) (row : List F32) (s : State) : StaysIn P s (s.setPcmRow c row) :=
  { StaysIn.refl (P := P) s with
    pcm := fun k i hk => by
      have hne : c ≠ k := fun h => hk (h ▸ hr)
      simp [State.hostReadPcm, State.setPcmRow, hne] }

theorem StaysIn.storeRow {c : Nat} (hr : P.rows c) (words : List F32) (s : State) : StaysIn P s (s.storeRow c words) :=
  StaysIn.setPcmRow hr _ s

theorem StaysIn.scaleRow {c : Nat} (hr : P.rows c) (factors : List F32) (s : State) :
    StaysIn P s (s.scaleRow c factors) := StaysIn.setPcmRow hr _ s

theorem StaysIn.pcmModify {c : Nat} (hr : P.rows c) (i : Nat) (f : F32 → F32) (s : State) :
    StaysIn P s (s.pcmModify c i f) := by
  unfold State.pcmModify
  split
  case isFalse => exact .refl s
  case isTrue =>
    refine { StaysIn.refl (P := P) s with pcm := fun k j hk => ?_ }
    have hne : k ≠ c := fun h => hk (h ▸ hr)
    rw [State.setPcm_modify_hostReadPcm]
    simp [hne]

theorem StaysIn.lspModify (hs : P.scratch) (i : Nat) (f : F32 → F32) (s : State) : StaysIn P s (s.lspModify i f) := by
  unfold State.lspModify
  split
  · exact .setLsp hs _ s
  · exact .refl s

theorem StaysIn.targetModify {d : Target} (hd : P.target d) (i : Nat) (f : F32 → F32) (s : State) :
    StaysIn P s (targetModify d i f s) := by
  cases d with
  | pcm c => exact StaysIn.pcmModify hd i f s
  | lsp => exact StaysIn.lspModify hd i f s

theorem StaysIn.storeRun {d : Target} (hd : P.target d) (mode : CombineMode) (step : Nat) :
    ∀ (vs : List F32) (i : Nat) (s : State), StaysIn P s (storeRun d mode step i vs s)
  | [], _, s => .refl s
  | _ :: vs, i, s => (StaysIn.targetModify hd i _ s).trans (StaysIn.storeRun hd mode step vs _ _)

/-- A position of a bundle lies in one of its channels. -/
theorem getD_mod_mem {chlist : List Nat} (hne : chlist ≠ []) (p : Nat) :
    chlist.getD (p % chlist.length) 0 ∈ chlist := by
  have hlt : p % chlist.length < chlist.length := Nat.mod_lt _ (List.length_pos_iff.2 hne)
  rw [List.getD_eq_getElem _ _ hlt]
  exact List.getElem_mem hlt

theorem StaysIn.addInterleaved {chlist : List Nat} (hne : chlist ≠ []) (hr : ∀ c ∈ chlist, P.rows c) :
    ∀ (vs : List F32) (p : Nat) (s : State), StaysIn P s (addInterleaved chlist p vs s)
  | [], _, s => .refl s
  | _ :: vs, p, s =>
    (StaysIn.pcmModify (hr _ (getD_mod_mem hne p)) _ _ s).trans (StaysIn.addInterleaved hne hr vs _ _)

/-! ## Ways to put operations together -/

theorem StaysIn.bind {x : Op α} {f : α → Op β} (hx : Keeps (StaysIn P) x) (hf : ∀ a, Keeps (StaysIn P) (f a)) :
    Keeps (StaysIn P) (x >>= f) := Keeps.bind StaysIn.rel hx hf

theorem StaysIn.pure (a : α) : Keeps (StaysIn P) (Pure.pure a : Op α) := Keeps.pure StaysIn.rel a

/-- A field of the state looked up, then the rest. -/
theorem StaysIn.lookup {g : State → Option α} {f : α → Op β} (hf : ∀ a, Keeps (StaysIn P) (f a)) :
    Keeps (StaysIn P) ((MonadStateOf.get : Op State) >>= fun s => need (g s) >>= f) := Keeps.lookup StaysIn.rel hf

/-- An operation that only reads the payload, where the cursor is in reach. -/
theorem StaysIn.read (hc : P.cursor) {op : Op α} (h : Keeps CursorFrame op) : Keeps (StaysIn P) op :=
  h.mono fun _ _ => CursorFrame.staysIn hc

/-- A loop whose body stays in reach for every element. -/
theorem StaysIn.forEach {body : β → Op Unit} {l : List β} (h : ∀ x ∈ l, Keeps (StaysIn P) (body x)) :
    Keeps (StaysIn P) (Machine.forEach l body) := fun s =>
  sat_forEach (I := StaysIn P s) l (.refl s) fun x hx t ht =>
    (h x hx t).mono (fun _ _ k => ht.trans k) fun _ _ k => ht.trans k

/-- Every value the operation returns satisfies `Q`. -/
def Returns (Q : α → Prop) (op : Op α) : Prop := ∀ s, Sat op s (fun a _ => Q a) fun _ _ => True

theorem Returns.any (op : Op α) : Returns (fun _ => True) op := fun s => by
  unfold Sat
  split <;> trivial

theorem Returns.bind {Q : α → Prop} {Q' : β → Prop} {x : Op α} {f : α → Op β} (hx : Returns Q x)
    (hf : ∀ a, Q a → Returns Q' (f a)) : Returns Q' (x >>= f) := fun s =>
  Sat.bind (M := fun a _ => Q a) (hx s) fun a t ha => hf a ha t

/-- A loop that collects gives one value for each element. -/
theorem Returns.collect (l : List β) (body : β → Op α) : Returns (·.length = l.length) (Machine.collect l body) := fun _ =>
  (sat_collect (I := fun _ => True) (P := fun _ => True) (E := fun _ _ => True) l trivial fun x _ t _ =>
    (Returns.any (body x) t).mono (fun _ _ _ => ⟨trivial, trivial⟩) fun _ _ h => h).mono
    (fun _ _ ⟨_, hlen, _⟩ => hlen) fun _ _ h => h

/-- The rest need stay in reach only for values the first part returns. -/
theorem StaysIn.bind_returned {Q : α → Prop} {x : Op α} {f : α → Op β} (hx : Keeps (StaysIn P) x) (hq : Returns Q x)
    (hf : ∀ a, Q a → Keeps (StaysIn P) (f a)) : Keeps (StaysIn P) (x >>= f) := fun s =>
  Sat.bind ((hx s).and (hq s) |>.mono (Q' := fun a t => StaysIn P s t ∧ Q a) (fun _ _ h => h) fun _ _ h => h.1)
    fun a t ⟨ht, ha⟩ => (hf a ha t).mono (fun _ _ k => ht.trans k) fun _ _ k => ht.trans k

/-! ## Reading the payload -/

theorem CursorFrame.bind {x : Op α} {f : α → Op β} (hx : Keeps CursorFrame x) (hf : ∀ a, Keeps CursorFrame (f a)) :
    Keeps CursorFrame (x >>= f) := Keeps.bind CursorFrame.rel hx hf

theorem CursorFrame.pure (a : α) : Keeps CursorFrame (Pure.pure a : Op α) := Keeps.pure CursorFrame.rel a

theorem CursorFrame.raise (f : Failure) : Keeps CursorFrame (Machine.raise f : Op α) := Keeps.raise CursorFrame.rel f

theorem CursorFrame.lookup {g : State → Option α} {f : α → Op β} (hf : ∀ a, Keeps CursorFrame (f a)) :
    Keeps CursorFrame ((MonadStateOf.get : Op State) >>= fun s => need (g s) >>= f) := Keeps.lookup CursorFrame.rel hf

theorem readBits_cursorFrame (n : Nat) : Keeps CursorFrame (readBits n) :=
  Keeps.readBits CursorFrame.rel (fun _ _ => rfl) (fun _ => rfl) n

theorem lookBits_cursorFrame (n : Nat) : Keeps CursorFrame (lookBits n) := fun _ =>
  sat_lookBits.2 ⟨fun _ => rfl, fun _ => rfl⟩

theorem readBit_cursorFrame : Keeps CursorFrame readBit :=
  CursorFrame.bind (readBits_cursorFrame 1) fun _ => CursorFrame.pure _

theorem decodeFrom_cursorFrame (words : List (Option Codeword)) : ∀ (fuel : Nat) (w : Codeword),
    Keeps CursorFrame (decodeFrom words fuel w)
  | 0, _ => CursorFrame.raise _
  | fuel + 1, w => by
    refine CursorFrame.bind readBit_cursorFrame fun bit => ?_
    dsimp only
    split
    · exact CursorFrame.pure _
    · exact Keeps.ite (decodeFrom_cursorFrame words fuel _) (CursorFrame.raise _)

theorem cbDecode_cursorFrame (b : Nat) : Keeps CursorFrame (cbDecode b) :=
  CursorFrame.lookup fun _ => decodeFrom_cursorFrame _ _ _

theorem decodeValues_cursorFrame (b : Nat) : Keeps CursorFrame (decodeValues b) :=
  CursorFrame.lookup fun _ => CursorFrame.lookup fun _ =>
    CursorFrame.bind (cbDecode_cursorFrame b) fun _ => CursorFrame.pure _

theorem readPost_cursorFrame (cls : FloorClass) (cval : Nat) : Keeps CursorFrame (readPost cls cval) := by
  unfold readPost
  split
  · exact cbDecode_cursorFrame _
  · exact CursorFrame.pure _

theorem readPosts_cursorFrame (cls : FloorClass) : ∀ left cval : Nat, Keeps CursorFrame (readPosts cls left cval)
  | 0, _ => CursorFrame.pure _
  | left + 1, _ => CursorFrame.bind (readPost_cursorFrame cls _) fun _ =>
      CursorFrame.bind (readPosts_cursorFrame cls left _) fun _ => CursorFrame.pure _

theorem readClassValue_cursorFrame (cls : FloorClass) : Keeps CursorFrame (readClassValue cls) :=
  Keeps.ite (CursorFrame.pure _) <|
    CursorFrame.bind (Keeps.need CursorFrame.rel _) fun _ => cbDecode_cursorFrame _

theorem readPartitions_cursorFrame (F : Floor1) : ∀ l : List Nat, Keeps CursorFrame (readPartitions F l)
  | [] => CursorFrame.pure _
  | _ :: l => CursorFrame.bind (Keeps.need CursorFrame.rel _) fun _ =>
      CursorFrame.bind (readClassValue_cursorFrame _) fun _ => CursorFrame.bind (readPosts_cursorFrame _ _ _) fun _ =>
      CursorFrame.bind (readPartitions_cursorFrame F l) fun _ => CursorFrame.pure _

theorem readPhrase_cursorFrame (b : Nat) (T : ResTable) : Keeps CursorFrame (readPhrase b T) :=
  CursorFrame.bind (cbDecode_cursorFrame b) fun _ => Keeps.ite (CursorFrame.pure _) (CursorFrame.raise _)

/-! ## Vector decode -/

section

variable (hc : P.cursor) {d : Target} (hd : P.target d)
include hc hd

theorem decodeFill_staysIn (b : Nat) (mode : CombineMode) (offset n : Nat) : ∀ fuel i : Nat,
    Keeps (StaysIn P) (decodeFill b d mode offset n fuel i)
  | 0, _ => StaysIn.pure ()
  | fuel + 1, _ =>
    Keeps.ite
      (StaysIn.bind (StaysIn.read hc (decodeValues_cursorFrame b)) fun _ =>
        StaysIn.bind (Keeps.modify (StaysIn.storeRun hd mode 1 _ _)) fun _ => decodeFill_staysIn b mode offset n fuel _)
      (StaysIn.pure ())

theorem cbDecodeVs_staysIn (b : Nat) (mode : CombineMode) (index step : Nat) :
    Keeps (StaysIn P) (cbDecodeVs b d mode index step) :=
  StaysIn.bind (StaysIn.read hc (decodeValues_cursorFrame b)) fun _ =>
    StaysIn.bind (Keeps.modify (StaysIn.storeRun hd mode step _ _)) fun _ => StaysIn.pure _

end

theorem decodeInterleaved_staysIn (hc : P.cursor) {chlist : List Nat} (hne : chlist ≠ [])
    (hr : ∀ c ∈ chlist, P.rows c) (b stop : Nat) : ∀ fuel p : Nat,
    Keeps (StaysIn P) (decodeInterleaved b chlist stop fuel p)
  | 0, _ => StaysIn.pure ()
  | fuel + 1, _ =>
    Keeps.ite
      (StaysIn.bind (StaysIn.read hc (decodeValues_cursorFrame b)) fun _ =>
        StaysIn.bind (Keeps.modify (StaysIn.addInterleaved hne hr _ _)) fun _ =>
          decodeInterleaved_staysIn hc hne hr b stop fuel _)
      (StaysIn.pure ())

/-! ## Floors -/

theorem readCoefficients_staysIn (hc : P.cursor) (hs : P.scratch) (b m dim : Nat) : ∀ fuel j : Nat,
    Keeps (StaysIn P) (readCoefficients b m dim fuel j)
  | 0, _ => StaysIn.pure ()
  | fuel + 1, _ =>
    Keeps.ite
      (StaysIn.bind (cbDecodeVs_staysIn hc (d := .lsp) hs _ _ _ _) fun _ =>
        readCoefficients_staysIn hc hs b m dim fuel _)
      (StaysIn.pure ())

theorem f0Pass1_staysIn (hc : P.cursor) (hs : P.scratch) {c : Nat} (hm : P.memos c) (f : Nat) (F : Floor0) :
    Keeps (StaysIn P) (f0Pass1 f c F) :=
  StaysIn.bind (StaysIn.read hc (readBits_cursorFrame _)) fun _ => Keeps.ite (StaysIn.pure _) <|
  StaysIn.bind (StaysIn.read hc (readBits_cursorFrame _)) fun _ => Keeps.ite (StaysIn.pure _) <|
  StaysIn.bind (Keeps.need StaysIn.rel _) fun _ => StaysIn.lookup fun _ =>
  StaysIn.bind (readCoefficients_staysIn hc hs _ _ _ _ _) fun _ =>
  StaysIn.bind (Keeps.modify fun _ => StaysIn.setLsp hs _ _) fun _ =>
  StaysIn.bind (Keeps.modify fun _ => StaysIn.setMemo hm _ _) fun _ => StaysIn.pure _

/-- R214: pass 1 of floor 0 writes the memo of its channel and the scratch. -/
theorem f0Inverse1_staysIn (hc : P.cursor) (hs : P.scratch) {c : Nat} (hm : P.memos c) (f : Nat) :
    Keeps (StaysIn P) (f0Inverse1 f c) :=
  StaysIn.bind (Keeps.modify (StaysIn.setMemo hm none)) fun _ => StaysIn.lookup fun F =>
    Keeps.absorb StaysIn.rel (f0Pass1_staysIn hc hs hm f F) (StaysIn.pure _)

theorem f1Pass1_staysIn (hc : P.cursor) {c : Nat} (hm : P.memos c) (f : Nat) (F : Floor1) (T : Floor1Table) :
    Keeps (StaysIn P) (f1Pass1 f c F T) :=
  StaysIn.bind (StaysIn.read hc readBit_cursorFrame) fun _ => Keeps.ite (StaysIn.pure _) <|
  StaysIn.bind (StaysIn.read hc (readBits_cursorFrame _)) fun _ =>
  StaysIn.bind (StaysIn.read hc (readBits_cursorFrame _)) fun _ =>
  StaysIn.bind (StaysIn.read hc (readPartitions_cursorFrame F _)) fun _ =>
  StaysIn.bind (Keeps.modify (StaysIn.setMemo hm _)) fun _ => StaysIn.pure _

/-- R234: pass 1 of floor 1 writes the memo of its channel. -/
theorem f1Inverse1_staysIn (hc : P.cursor) {c : Nat} (hm : P.memos c) (f : Nat) :
    Keeps (StaysIn P) (f1Inverse1 f c) :=
  StaysIn.bind (Keeps.modify (StaysIn.setMemo hm none)) fun _ => StaysIn.lookup fun F => StaysIn.lookup fun T =>
    Keeps.absorb StaysIn.rel (f1Pass1_staysIn hc hm f F T) (StaysIn.pure _)

/-! ## Floor pass 2, transform and window: one row, and no bit read -/

section

variable {c : Nat} (hr : P.rows c)
include hr

theorem f0Inverse2_staysIn (params : Params) (f : Nat) : Keeps (StaysIn P) (f0Inverse2 params f c) := by
  refine StaysIn.bind (Keeps.get StaysIn.rel) fun s => ?_
  dsimp only
  split
  · exact StaysIn.bind (Keeps.modify (StaysIn.storeRow hr _)) fun _ => StaysIn.pure _
  · exact StaysIn.bind (Keeps.need StaysIn.rel _) fun _ => StaysIn.bind (Keeps.need StaysIn.rel _) fun _ =>
      StaysIn.bind (Keeps.modify (StaysIn.scaleRow hr _)) fun _ => StaysIn.pure _

theorem f1Inverse2_staysIn (params : Params) (f : Nat) : Keeps (StaysIn P) (f1Inverse2 params f c) := by
  refine StaysIn.bind (Keeps.get StaysIn.rel) fun s => ?_
  dsimp only
  split
  · exact StaysIn.bind (Keeps.modify (StaysIn.storeRow hr _)) fun _ => StaysIn.pure _
  · exact StaysIn.bind (Keeps.need StaysIn.rel _) fun _ => StaysIn.bind (Keeps.need StaysIn.rel _) fun _ =>
      StaysIn.bind (Keeps.modify (StaysIn.scaleRow hr _)) fun _ => StaysIn.pure _

theorem mdctBackward_staysIn (w : Nat) : Keeps (StaysIn P) (mdctBackward w c) :=
  StaysIn.lookup fun _ => Keeps.modify fun s => StaysIn.storeRow hr _ s

theorem winApply_staysIn : Keeps (StaysIn P) (winApply c) :=
  StaysIn.bind (Keeps.get StaysIn.rel) fun _ => StaysIn.bind (Keeps.need StaysIn.rel _) fun _ =>
    Keeps.ite (Keeps.modify (StaysIn.scaleRow hr _)) (Keeps.modify (StaysIn.storeRow hr _))

end

/-! ## Residues -/

/-- Stage 0 gives one list of classes a vector for every group (R265). -/
theorem decodeFirstStage_returns {R : Residue} {T : ResTable} {layout : Nat → Nat → Nat → Op Unit}
    (pdim vecs nparts : Nat) : ∀ fuel i : Nat, Returns (fun groups => ∀ words ∈ groups, words.length = vecs)
      (decodeFirstStage R T layout pdim vecs nparts fuel i)
  | 0, _ => fun _ => sat_pure.2 (by simp)
  | fuel + 1, i => by
    unfold decodeFirstStage
    split
    case isFalse => exact fun _ => sat_pure.2 (by simp)
    case isTrue =>
      refine Returns.bind (Returns.collect _ _) fun words hw => ?_
      refine Returns.bind (Returns.any _) fun _ _ => ?_
      refine Returns.bind (decodeFirstStage_returns pdim vecs nparts fuel (i + pdim)) fun rest hrest => ?_
      exact fun _ => sat_pure.2 (List.forall_mem_cons.2 ⟨by simpa using hw, hrest⟩)

section

variable {R : Residue} {T : ResTable} {layout : Nat → Nat → Nat → Op Unit} {vecs : Nat}
  (hl : ∀ v < vecs, ∀ offset b, Keeps (StaysIn P) (layout v offset b))
include hl

/-- The partitions of a group, whose phrase symbols are those of the `vecs` vectors. -/
theorem decodeGroup_staysIn (stage : Nat) {words : List (List Nat)} (hw : words.length = vecs) :
    ∀ left k i : Nat, Keeps (StaysIn P) (decodeGroup R T layout stage words left k i)
  | 0, _, _ => StaysIn.pure ()
  | left + 1, k, i => by
    refine StaysIn.bind (StaysIn.forEach fun v hv => ?_) fun _ => decodeGroup_staysIn stage hw left (k + 1) (i + 1)
    have hv : v < vecs := hw ▸ List.mem_range.1 hv
    exact Keeps.ite (StaysIn.bind (Keeps.need StaysIn.rel _) fun _ => hl v hv _ _) (StaysIn.pure ())

theorem decodeFirstStage_staysIn (hc : P.cursor) (pdim nparts : Nat) : ∀ fuel i : Nat,
    Keeps (StaysIn P) (decodeFirstStage R T layout pdim vecs nparts fuel i)
  | 0, _ => StaysIn.pure _
  | fuel + 1, i => by
    refine Keeps.ite (StaysIn.bind_returned ?_ (Returns.collect _ _) fun words hw => ?_) (StaysIn.pure _)
    · exact Keeps.collect StaysIn.rel (fun _ => StaysIn.read hc (readPhrase_cursorFrame _ _)) _
    · exact StaysIn.bind (decodeGroup_staysIn hl _ (by simpa using hw) _ _ _) fun _ =>
        StaysIn.bind (decodeFirstStage_staysIn hc pdim nparts fuel _) fun _ => StaysIn.pure _

theorem decodeLaterStage_staysIn (pdim nparts stage : Nat) : ∀ (groups : List (List (List Nat))) (i : Nat),
    (∀ words ∈ groups, words.length = vecs) →
    Keeps (StaysIn P) (decodeLaterStage R T layout pdim nparts stage groups i)
  | [], _, _ => StaysIn.pure ()
  | _ :: groups, _, h => by
    obtain ⟨hw, hrest⟩ := List.forall_mem_cons.1 h
    exact StaysIn.bind (decodeGroup_staysIn hl _ hw _ _ _) fun _ =>
      decodeLaterStage_staysIn pdim nparts stage groups _ hrest

theorem decodeStages_staysIn (hc : P.cursor) (pdim nparts : Nat) :
    Keeps (StaysIn P) (decodeStages R T layout pdim vecs nparts) := by
  refine Keeps.ite (StaysIn.pure _) ?_
  refine StaysIn.bind_returned (decodeFirstStage_staysIn hl hc _ _ _ _) (decodeFirstStage_returns _ _ _ _ _) fun groups hg => ?_
  exact StaysIn.bind (StaysIn.forEach fun _ _ => decodeLaterStage_staysIn hl _ _ _ _ _ hg) fun _ => StaysIn.pure _

end

theorem resDecode_staysIn (hc : P.cursor) (r : Nat) {layout : Residue → Nat → Nat → Nat → Op Unit}
    {vecs : Nat} (limit : Nat) (hl : ∀ R, ∀ v < vecs, ∀ offset b, Keeps (StaysIn P) (layout R v offset b)) :
    Keeps (StaysIn P) (resDecode r layout vecs limit) :=
  StaysIn.lookup fun R => StaysIn.lookup fun _ => StaysIn.lookup fun _ =>
    Keeps.absorb StaysIn.rel (decodeStages_staysIn (hl R) hc _ _) (StaysIn.pure _)

section

variable {chlist : List Nat} (hr : ∀ c ∈ chlist, P.rows c)
include hr

/-- The channels of the vectors are among those of the bundle (R264). -/
theorem activeChannels_getD_row (s : State) {v : Nat} (hv : v < (s.activeChannels chlist).length) :
    P.rows ((s.activeChannels chlist).getD v 0) := by
  rw [List.getD_eq_getElem _ _ hv]
  exact hr _ (List.mem_of_mem_filter (List.getElem_mem hv))

/-- R266: residue type 0 adds to the rows of its bundle. -/
theorem res0Inverse_staysIn (hc : P.cursor) (r : Nat) : Keeps (StaysIn P) (res0Inverse r chlist) :=
  StaysIn.bind (Keeps.get StaysIn.rel) fun s => resDecode_staysIn hc r _ fun _ _ hv _ _ =>
    StaysIn.lookup fun _ => StaysIn.forEach fun _ _ =>
      StaysIn.bind (cbDecodeVs_staysIn hc (d := .pcm _) (activeChannels_getD_row hr s hv) _ _ _ _) fun _ => StaysIn.pure _

/-- R267: so does type 1. -/
theorem res1Inverse_staysIn (hc : P.cursor) (r : Nat) : Keeps (StaysIn P) (res1Inverse r chlist) :=
  StaysIn.bind (Keeps.get StaysIn.rel) fun s => resDecode_staysIn hc r _ fun _ _ hv _ _ =>
    decodeFill_staysIn hc (d := .pcm _) (activeChannels_getD_row hr s hv) _ _ _ _ _ _

/-- R269: and type 2, across the bundle. -/
theorem res2Inverse_staysIn (hc : P.cursor) (hne : chlist ≠ []) (r : Nat) : Keeps (StaysIn P) (res2Inverse r chlist) :=
  StaysIn.bind (Keeps.get StaysIn.rel) fun _ => resDecode_staysIn hc r _ fun _ _ _ _ _ =>
    decodeInterleaved_staysIn hc hne hr _ _ _ _

end

/-! ## Whole instructions -/

/-- What the operation stays in, the instruction stays in, whether it runs or is turned away. -/
theorem exec_staysIn {i : Instr} {s t : State} (he : exec i s = .next t) (hop : Keeps (StaysIn P) (opOf i s)) :
    StaysIn P s t := by
  obtain ⟨u, status, cause, res, k, rfl⟩ := exec_frame StaysIn.rel hop he
  exact { k with }

/-- An operation, then its result for `RES`. -/
theorem StaysIn.withResult {op : Op α} {f : α → Nat} (h : Keeps (StaysIn P) op) :
    Keeps (StaysIn P) (op >>= fun a => result (f a)) := StaysIn.bind h fun _ => Keeps.result StaysIn.rel _

/-- R162 to R166: the cursor operations change the cursor. -/
theorem opOf_cursor_staysIn (hc : P.cursor) {i : Instr} (h : i.isCursor = true) (s : State) :
    Keeps (StaysIn P) (opOf i s) := by
  cases i with
  | bcInit => exact StaysIn.withResult (f := fun _ => 0) (Keeps.modify (StaysIn.initCursor hc _ _))
  | bcRead n => exact StaysIn.withResult (f := id) (StaysIn.read hc (readBits_cursorFrame _))
  | bcLook n => exact StaysIn.withResult (f := id) (StaysIn.read hc (lookBits_cursorFrame _))
  | bcAdv n => exact StaysIn.withResult (f := fun _ => 0) (StaysIn.read hc (Keeps.modify fun _ => rfl))
  | bcRead1 => exact StaysIn.withResult (f := id) (StaysIn.read hc (readBits_cursorFrame _))
  | _ => cases h

/-- R193, R194, R196: a vector decode into one array changes its destination and the cursor. -/
theorem exec_vector_staysIn {b : BitVec 8} {dst : Dst} {mode : CombineMode} {s t : State}
    (he : exec (.cbDecodeSet b dst) s = .next t ∨ exec (.cbDecodeAdd b dst) s = .next t ∨
      exec (.cbDecodeVs b dst mode) s = .next t) (hc : P.cursor) (hd : P.target (targetOf dst)) : StaysIn P s t := by
  rcases he with he | he | he
  · exact exec_staysIn he (StaysIn.withResult (f := fun _ => 0) (decodeFill_staysIn hc hd _ _ _ _ _ _))
  · exact exec_staysIn he (StaysIn.withResult (f := fun _ => 0) (decodeFill_staysIn hc hd _ _ _ _ _ _))
  · exact exec_staysIn he (StaysIn.withResult (f := id) (cbDecodeVs_staysIn hc hd _ _ _ _))

/-- R215, R239, R303, R329: floor pass 2, the transform and the window change the row of their channel. -/
theorem exec_row_staysIn {f c w : BitVec 8} {s t : State}
    (he : exec (.f0Inverse2 f c) s = .next t ∨ exec (.f1Inverse2 f c) s = .next t ∨
      exec (.mdctBackward w c) s = .next t ∨ exec (.winApply c) s = .next t) (hr : P.rows c.toNat) : StaysIn P s t := by
  rcases he with he | he | he | he
  · exact exec_staysIn he (StaysIn.withResult (f := bitValue) (f0Inverse2_staysIn hr _ _))
  · exact exec_staysIn he (StaysIn.withResult (f := bitValue) (f1Inverse2_staysIn hr _ _))
  · exact exec_staysIn he (StaysIn.withResult (f := fun _ => 0) (mdctBackward_staysIn hr _))
  · exact exec_staysIn he (StaysIn.withResult (f := fun _ => 0) (winApply_staysIn hr))

theorem channelRun_ne_nil {first count : Nat} (h : 1 ≤ count) : channelRun first count ≠ [] := by
  rw [← List.length_pos_iff, channelRun_length]
  exact h

/-- The channels of a bundle, as OnlyTheNamedArrayChanges bounds them. -/
theorem mem_channelRun_bounds {first count c : Nat} (h : c ∈ channelRun first count) : first ≤ c ∧ c < first + count := by
  obtain ⟨j, hj, rfl⟩ := List.mem_map.1 h
  exact ⟨Nat.le_add_right first j, Nat.add_lt_add_left (List.mem_range.1 hj) first⟩

/-- R266, R267, R269: residue decode changes the rows of its bundle and the cursor. -/
theorem exec_residue_staysIn {r first count : BitVec 8} {s t : State}
    (he : exec (.res0Inverse r first count) s = .next t ∨ exec (.res1Inverse r first count) s = .next t ∨
      exec (.res2Inverse r first count) s = .next t) (hc : P.cursor) (hcount : 1 ≤ count.toNat)
    (hr : ∀ c ∈ channelRun first.toNat count.toNat, P.rows c) : StaysIn P s t := by
  rcases he with he | he | he
  · exact exec_staysIn he (StaysIn.withResult (f := bitValue) (res0Inverse_staysIn hr hc _))
  · exact exec_staysIn he (StaysIn.withResult (f := bitValue) (res1Inverse_staysIn hr hc _))
  · exact exec_staysIn he (StaysIn.withResult (f := bitValue) (res2Inverse_staysIn hr hc (channelRun_ne_nil hcount) _))

/-- Settles O33: each clause by a reach of its own. -/
theorem onlyTheNamedArrayChanges : Obligations.OnlyTheNamedArrayChanges := by
  intro s t
  refine ⟨fun i hi he => ?cursor, fun b he => ?scalar, fun b c mode he => ?channel, fun b mode he => ?scratch,
    fun b first count he hcount => ?bundle, fun f c he => ?floor0, fun f c he => ?floor1, fun f c w he => ?row,
    fun r first count hcount he => ?residue⟩
  case cursor =>
    have k := exec_staysIn (P := { cursor := True }) he (opOf_cursor_staysIn trivial hi s)
    exact ⟨k.sameFlags fun _ => id, k.lsp id, k.pcm⟩
  case scalar =>
    have k := exec_staysIn (P := { cursor := True }) he
      (StaysIn.withResult (f := id) (StaysIn.read trivial (cbDecode_cursorFrame _)))
    exact ⟨k.sameFlags fun _ => id, k.lsp id, k.pcm⟩
  case channel =>
    have k := exec_vector_staysIn (P := { cursor := True, rows := (· = c.toNat) }) he trivial rfl
    exact ⟨k.sameFlags fun _ => id, k.lsp id, k.pcm⟩
  case scratch =>
    have k := exec_vector_staysIn (P := { cursor := True, scratch := True }) he trivial trivial
    exact ⟨k.sameFlags fun _ => id, k.pcm⟩
  case bundle =>
    have k := exec_staysIn
      (P := { cursor := True, rows := fun k => first.toNat ≤ k ∧ k < first.toNat + count.toNat }) he
      (StaysIn.withResult (f := fun _ => 0) (decodeInterleaved_staysIn trivial (channelRun_ne_nil hcount)
        (fun _ => mem_channelRun_bounds) _ _ _ _))
    exact ⟨k.sameFlags fun _ => id, k.lsp id, k.pcm⟩
  case floor0 =>
    have k := exec_staysIn (P := { cursor := True, scratch := True, memos := (· = c.toNat) }) he
      (StaysIn.withResult (f := fun r => bitValue r.present) (f0Inverse1_staysIn trivial trivial rfl _))
    exact ⟨k.nonzero, k.trunc, k.pcm, fun _ => k.hostReadMemo⟩
  case floor1 =>
    have k := exec_staysIn (P := { cursor := True, memos := (· = c.toNat) }) he
      (StaysIn.withResult (f := fun r => bitValue r.present) (f1Inverse1_staysIn trivial rfl _))
    exact ⟨k.nonzero, k.trunc, k.lsp id, k.pcm, fun _ => k.hostReadMemo⟩
  case row =>
    have k := exec_row_staysIn (P := { rows := (· = c.toNat) }) he rfl
    obtain ⟨hpos, heoff⟩ := k.cursor id
    exact ⟨hpos, heoff, k.sameFlags fun _ => id, k.lsp id, k.pcm⟩
  case residue =>
    have k := exec_residue_staysIn
      (P := { cursor := True, rows := fun k => first.toNat ≤ k ∧ k < first.toNat + count.toNat }) he trivial hcount
      fun _ => mem_channelRun_bounds
    exact ⟨k.sameFlags fun _ => id, k.lsp id, k.pcm⟩

end Sys2Proof.Machine
end

section
/-! SUPPORT. The assignment of 41_codebook.md R185, entry by entry: which string is the smallest free one, and when there is
none. -/

namespace Sys2Proof.Machine

/-! ## Codewords as numbers -/

/-- What is read after `w` adds its own number below that of `w`. -/
theorem foldl_codewordNumber (w : Codeword) (n : Nat) :
    w.foldl (fun n bit => 2 * n + bitValue bit) n = n * 2 ^ w.length + codewordNumber w := by
  unfold codewordNumber
  induction w generalizing n with
  | nil => simp
  | cons bit w ih =>
    rw [List.foldl_cons, List.foldl_cons, ih, ih (2 * 0 + bitValue bit), List.length_cons, pow_succ]
    ring

theorem codewordNumber_cons (bit : Bool) (w : Codeword) :
    codewordNumber (bit :: w) = bitValue bit * 2 ^ w.length + codewordNumber w := by
  rw [← foldl_codewordNumber, codewordNumber, List.foldl_cons, Nat.mul_zero, Nat.zero_add]

theorem codewordNumber_lt (w : Codeword) : codewordNumber w < 2 ^ w.length := by
  induction w with
  | nil => decide
  | cons bit w ih =>
    rw [codewordNumber_cons, List.length_cons, pow_succ]
    cases bit <;> simp only [bitValue, Bool.false_eq_true, if_false, if_true] <;> omega

/-! ## The smallest free string -/

/-- A string fits below the root exactly when the root is no codeword and it fits below its first bit. -/
theorem fitsAmong_cons_iff {bit : Bool} {assigned : List Codeword} {w : Codeword} :
    fitsAmong assigned (bit :: w) ↔ [] ∉ assigned ∧ fitsAmong (codewordsUnder bit assigned) w := by
  refine ⟨fun h => ⟨fun hroot => (h [] hroot).1 List.nil_prefix, fun v hv => ?_⟩, fun h => fitsAmong_cons h.1 h.2⟩
  obtain ⟨hvw, hwv⟩ := h (bit :: v) (mem_codewordsUnder.1 hv)
  exact ⟨fun hpre => hvw (List.cons_prefix_cons.2 ⟨rfl, hpre⟩), fun hpre => hwv (List.cons_prefix_cons.2 ⟨rfl, hpre⟩)⟩

/-- No string found: none fits. -/
theorem firstFree_none : ∀ {len : Nat} {assigned : List Codeword}, firstFree len assigned = none →
    ∀ u : Codeword, u.length = len → ¬ fitsAmong assigned u
  | 0, assigned, h, u, hu, hfits => by
    obtain rfl := List.length_eq_zero_iff.1 hu
    have hempty : assigned = [] := List.eq_nil_iff_forall_not_mem.2 fun v hv => (hfits v hv).2 List.nil_prefix
    simp [firstFree, hempty] at h
  | len + 1, assigned, h, bit :: u, hu, hfits => by
    obtain ⟨hroot, hunder⟩ := fitsAmong_cons_iff.1 hfits
    rw [firstFree, if_neg hroot] at h
    split at h
    next => cases h
    next hzero =>
      rw [List.length_cons, Nat.add_right_cancel_iff] at hu
      cases bit with
      | false => exact firstFree_none hzero u hu hunder
      | true => exact firstFree_none (Option.map_eq_none_iff.1 h) u hu hunder

/-- The string found is numerically at most every other that fits. -/
theorem firstFree_le : ∀ {len : Nat} {assigned : List Codeword} {w : Codeword}, firstFree len assigned = some w →
    ∀ u : Codeword, u.length = len → fitsAmong assigned u → codewordNumber w ≤ codewordNumber u
  | 0, assigned, w, h, u, _, _ => by
    obtain rfl := List.length_eq_zero_iff.1 (firstFree_fits 0 assigned w h).1
    exact Nat.zero_le _
  | len + 1, assigned, w, h, bit :: u, hu, hfits => by
    obtain ⟨hroot, hunder⟩ := fitsAmong_cons_iff.1 hfits
    rw [List.length_cons, Nat.add_right_cancel_iff] at hu
    rw [firstFree, if_neg hroot] at h
    split at h
    next v hv =>
      cases h
      have hlen : v.length = len := (firstFree_fits _ _ _ hv).1
      rw [codewordNumber_cons, codewordNumber_cons, hlen, hu]
      cases bit with
      | false => exact Nat.add_le_add_left (firstFree_le hv u hu hunder) _
      | true =>
        have hlt := codewordNumber_lt v
        rw [hlen] at hlt
        simp only [bitValue, Bool.false_eq_true, if_false, if_true]
        omega
    next hzero =>
      obtain ⟨v, hv, rfl⟩ := Option.map_eq_some_iff.1 h
      have hlen : v.length = len := (firstFree_fits _ _ _ hv).1
      rw [codewordNumber_cons, codewordNumber_cons, hlen, hu]
      cases bit with
      | false => exact absurd hunder (firstFree_none hzero u hu)
      | true => exact Nat.add_le_add_left (firstFree_le hv u hu hunder) _

/-! ## Entry by entry -/

/-- A list is assigned part by part, each after the codewords of the parts before it. -/
theorem assignCodewords_append : ∀ (xs ys : List Nat) (assigned : List Codeword),
    assignCodewords (xs ++ ys) assigned = (assignCodewords xs assigned).bind fun ws =>
      (assignCodewords ys ((ws.filterMap id).reverse ++ assigned)).map (ws ++ ·)
  | [], ys, assigned => by simp [assignCodewords]
  | len :: xs, ys, assigned => by
    rw [List.cons_append, assignCodewords, assignCodewords]
    split
    · rw [assignCodewords_append xs ys assigned]
      cases assignCodewords xs assigned <;> simp [Function.comp_def]
    · cases firstFree len assigned with
      | none => rfl
      | some w =>
        simp only [assignCodewords_append xs ys (w :: assigned)]
        cases assignCodewords xs (w :: assigned) <;> simp [Function.comp_def]

theorem assignCodewords_length : ∀ {lengths : List Nat} {assigned : List Codeword} {ws : List (Option Codeword)},
    assignCodewords lengths assigned = some ws → ws.length = lengths.length
  | [], _, _, h => by cases h; rfl
  | len :: rest, assigned, ws, h => by
    rcases assignCodewords_cons h with ⟨-, ws', hws, rfl⟩ | ⟨-, w, ws', -, hws, rfl⟩ <;>
      rw [List.length_cons, List.length_cons, assignCodewords_length hws]

/-- The entry after those of `xs`, and the rest. -/
theorem makeWords_append_cons (xs : List Nat) (len : Nat) (rest : List Nat) :
    makeWords (xs ++ len :: rest) = (makeWords xs).bind fun ws =>
      (assignCodewords (len :: rest) (ws.filterMap id).reverse).map (ws ++ ·) := by
  unfold makeWords
  rw [assignCodewords_append]
  simp only [List.append_nil]

/-- R185: in an assignment an unused entry has no codeword, and every other one the string found among the codewords of the
entries before it. -/
theorem makeWords_entry {lengths : List Nat} {ws : List (Option Codeword)} (h : makeWords lengths = some ws) {e len : Nat}
    (he : lengths[e]? = some len) :
    (len = 0 ∧ ws[e]? = some none) ∨
    (len ≠ 0 ∧ ∃ w, ws[e]? = some (some w) ∧ firstFree len (codewordsBefore ws e).reverse = some w) := by
  obtain ⟨hlt, rfl⟩ := List.getElem?_eq_some_iff.1 he
  rw [← List.take_append_drop e lengths, List.drop_eq_getElem_cons hlt, makeWords_append_cons] at h
  obtain ⟨before, hbefore, h⟩ := Option.bind_eq_some_iff.1 h
  obtain ⟨after, hafter, rfl⟩ := Option.map_eq_some_iff.1 h
  have hlen : before.length = e := by
    rw [assignCodewords_length hbefore, List.length_take, Nat.min_eq_left hlt.le]
  have hwords : codewordsBefore (before ++ after) e = before.filterMap id := by
    rw [codewordsBefore, List.take_left' hlen]
  rw [hwords, List.getElem?_append_right hlen.le, hlen, Nat.sub_self]
  rcases assignCodewords_cons hafter with ⟨h0, ws', -, rfl⟩ | ⟨h0, w, ws', hw, -, rfl⟩
  · exact .inl ⟨h0, rfl⟩
  · exact .inr ⟨h0, w, rfl, hw⟩

/-- R188: a list has no assignment exactly when the entries before some used one have, and no string is found for it. -/
theorem makeWords_eq_none_iff {lengths : List Nat} : makeWords lengths = none ↔
    ∃ e len ws, lengths[e]? = some len ∧ len ≠ 0 ∧ makeWords (lengths.take e) = some ws ∧
      firstFree len (codewordsBefore ws e).reverse = none := by
  constructor
  · intro h
    induction lengths using List.reverseRecOn with
    | nil => cases h
    | append_singleton xs len ih =>
      rcases hxs : makeWords xs with _ | ws
      · obtain ⟨e, len', ws, he, h0, hws, hnone⟩ := ih hxs
        obtain ⟨hlt, -⟩ := List.getElem?_eq_some_iff.1 he
        exact ⟨e, len', ws, by rw [List.getElem?_append_left hlt, he], h0,
          by rw [List.take_append_of_le_length hlt.le, hws], hnone⟩
      · have hlen : ws.length = xs.length := assignCodewords_length hxs
        rw [makeWords_append_cons, hxs, Option.bind_some, Option.map_eq_none_iff, assignCodewords] at h
        split at h
        case isTrue => cases h
        case isFalse h0 =>
          refine ⟨xs.length, len, ws, by simp, h0, by rw [List.take_left' rfl, hxs], ?_⟩
          rw [codewordsBefore, List.take_of_length_le hlen.le]
          split at h
          next hnone => exact hnone
          next => cases h
  · rintro ⟨e, len, ws, he, h0, hws, hnone⟩
    obtain ⟨hlt, rfl⟩ := List.getElem?_eq_some_iff.1 he
    have hlen : ws.length = e := by
      rw [assignCodewords_length hws, List.length_take, Nat.min_eq_left hlt.le]
    rw [codewordsBefore, List.take_of_length_le hlen.le] at hnone
    rw [← List.take_append_drop e lengths, List.drop_eq_getElem_cons hlt, makeWords_append_cons, hws, Option.bind_some,
      assignCodewords, if_neg h0, hnone]
    rfl

theorem fitsAmong_reverse {assigned : List Codeword} {w : Codeword} :
    fitsAmong assigned.reverse w ↔ fitsAmong assigned w := by
  simp only [fitsAmong, List.mem_reverse]

/-- Settles O22: entry by entry, from what the search for the smallest free string finds. -/
theorem codewordsArePrefixFreeAndSmallest : Obligations.CodewordsArePrefixFreeAndSmallest := by
  refine fun lengths => ⟨fun ws h => ⟨assignCodewords_length h, fun e _ => ⟨fun he => ?_, fun len h0 he => ?_⟩, ?_⟩, ?_⟩
  · rcases makeWords_entry h he with ⟨-, hnone⟩ | ⟨h0, -⟩
    · exact hnone
    · exact absurd rfl h0
  · rcases makeWords_entry h he with ⟨rfl, -⟩ | ⟨-, w, hw, hfree⟩
    · exact absurd rfl h0
    · obtain ⟨hlen, hfits⟩ := firstFree_fits _ _ _ hfree
      exact ⟨w, hw, hlen, fitsAmong_reverse.1 hfits,
        fun u hu hufits => firstFree_le hfree u hu (fitsAmong_reverse.2 hufits)⟩
  · exact fun d e v w hne hv hw hpre => hne (assignCodewords_prefixFree h d e v w hv hw hpre)
  · rw [makeWords_eq_none_iff]
    refine exists_congr fun e => exists_congr fun len => exists_congr fun ws =>
      and_congr_right fun _ => and_congr_right fun _ => and_congr_right fun _ => ⟨fun hnone u hu hfits => ?_, fun hno => ?_⟩
    · exact firstFree_none hnone u hu (fitsAmong_reverse.2 hfits)
    · by_contra hsome
      obtain ⟨w, hw⟩ := Option.ne_none_iff_exists'.1 hsome
      obtain ⟨hlen, hfits⟩ := firstFree_fits _ _ _ hw
      exact hno w hlen (fitsAmong_reverse.1 hfits)

end Sys2Proof.Machine
end

section
/-! SUPPORT. Dequantisation (41_codebook.md R183, R184): the side of the lattice, and the value table value by value. -/

namespace Sys2Proof.Machine

/-! ## The side of the lattice -/

theorem lt_two_pow_ilog (v : Nat) : v < 2 ^ ilog v := by
  unfold ilog
  split
  case isTrue h => simp [h]
  case isFalse => exact Nat.lt_log2_self

/-- The descent ends at a side that keeps within the entries where the next one does not, once it begins between the two. -/
theorem latticeDescend_bounds {dim entries : Nat} : ∀ bits low : Nat, low ^ dim ≤ entries →
    entries < (low + 2 ^ bits) ^ dim → latticeDescend dim entries bits low ^ dim ≤ entries ∧
      entries < (latticeDescend dim entries bits low + 1) ^ dim
  | 0, _, hlow, hhigh => ⟨hlow, hhigh⟩
  | bits + 1, low, hlow, hhigh => by
    have hpos : 1 ≤ low + 2 ^ bits := (Nat.one_le_two_pow).trans (Nat.le_add_left _ _)
    rw [latticeDescend]
    split
    case isTrue hfits =>
      refine latticeDescend_bounds bits _ ((cappedPow_le hpos).1 hfits) ?_
      rwa [Nat.add_assoc, ← Nat.two_mul, ← pow_succ']
    case isFalse hover =>
      exact latticeDescend_bounds bits low hlow (Nat.lt_of_not_le fun h => hover ((cappedPow_le hpos).2 h))

theorem latticeSide_bounds {dim : Nat} (hdim : 1 ≤ dim) (entries : Nat) :
    latticeSide dim entries ^ dim ≤ entries ∧ entries < (latticeSide dim entries + 1) ^ dim := by
  refine latticeDescend_bounds _ _ ?_ ?_
  · rw [Nat.zero_pow hdim]
    exact Nat.zero_le _
  · rw [Nat.zero_add]
    exact (lt_two_pow_ilog entries).trans_le (Nat.le_self_pow (by omega) _)

/-- Settles O23: map type 1 by the two bounds of the lattice's side, the others by their definition. -/
theorem latticeSideIsLargest : Obligations.LatticeSideIsLargest := by
  intro dim entries hdim hentries
  obtain ⟨hfits, hover⟩ := latticeSide_bounds hdim entries
  have hlargest : ∀ q, q ^ dim ≤ entries → q ≤ latticeSide dim entries := fun q hq =>
    Nat.le_of_lt_succ (lt_of_pow_lt_pow_left₀ dim (Nat.zero_le _) (hq.trans_lt hover))
  exact ⟨⟨hlargest 1 (by rwa [one_pow]), hfits, hlargest⟩, rfl, rfl⟩

/-! ## The value table -/

/-- The index of value `k` of entry `e` into the list of quantised values (R184). -/
def Dequant.index (d : Dequant) (e k indexdiv : Nat) : Nat :=
  if d.lattice then e / indexdiv % d.side else e * d.dim + k

/-- Value `k` of entry `e`, on top of `last` (R184). -/
def Dequant.value (d : Dequant) (e k indexdiv : Nat) (last : F32) : F32 :=
  f32Add (f32Add (f32Mul (f32OfNat (d.quantlist.getD (d.index e k indexdiv) 0)) d.delta) d.mindel) last

theorem entryValues_cons (d : Dequant) (e left k : Nat) (last : F32) (indexdiv : Nat) :
    entryValues d e (left + 1) k last indexdiv = d.value e k indexdiv last ::
      entryValues d e left (k + 1) (if d.sequencep then d.value e k indexdiv last else last)
        (if d.lattice then indexdiv * d.side else indexdiv) := rfl

theorem entryValues_length (d : Dequant) (e : Nat) : ∀ (left k : Nat) (last : F32) (indexdiv : Nat),
    (entryValues d e left k last indexdiv).length = left
  | 0, _, _, _ => rfl
  | left + 1, k, last, indexdiv => by rw [entryValues_cons, List.length_cons, entryValues_length]

/-- The divisor of the index grows by the side with every value, and is not used where there is no lattice. -/
theorem Dequant.value_indexdiv (d : Dequant) (e k indexdiv j : Nat) (last : F32) :
    d.value e k ((if d.lattice then indexdiv * d.side else indexdiv) * d.side ^ j) last =
      d.value e k (indexdiv * d.side ^ (j + 1)) last := by
  unfold Dequant.value Dequant.index
  split
  · rw [pow_succ', Nat.mul_assoc]
  · rfl

/-- R184: value `j` of those from `k` on stands on the one before it when the sequence flag is set, else on `last`. -/
theorem entryValues_getD (d : Dequant) (e : Nat) : ∀ (left k : Nat) (last : F32) (indexdiv j : Nat), j < left →
    (entryValues d e left k last indexdiv).getD j 0 =
      d.value e (k + j) (indexdiv * d.side ^ j)
        (if d.sequencep = true ∧ 0 < j then (entryValues d e left k last indexdiv).getD (j - 1) 0 else last)
  | 0, _, _, _, _, hj => absurd hj (Nat.not_lt_zero _)
  | left + 1, k, last, indexdiv, 0, _ => by
    simp [entryValues_cons]
  | left + 1, k, last, indexdiv, j + 1, hj => by
    have ih := entryValues_getD d e left (k + 1) (if d.sequencep then d.value e k indexdiv last else last)
      (if d.lattice then indexdiv * d.side else indexdiv) j (Nat.lt_of_succ_lt_succ hj)
    rw [entryValues_cons, List.getD_cons_succ, ih, Dequant.value_indexdiv, Nat.add_right_comm k 1 j, Nat.add_assoc]
    congr 1
    cases j with
    | zero => simp
    | succ j => by_cases hq : d.sequencep <;> simp [hq]

theorem length_flatMap_range {α : Type} {f : Nat → List α} {m : Nat} (hf : ∀ e, (f e).length = m) (n : Nat) :
    ((List.range n).flatMap f).length = n * m := by
  simp [List.length_flatMap, hf]

/-- Rows of one length, one after the other: word `k` of row `e`. -/
theorem getD_flatMap_range {α : Type} {f : Nat → List α} {m : Nat} (hf : ∀ e, (f e).length = m) {k : Nat} (hk : k < m)
    (z : α) : ∀ {n e : Nat}, e < n → ((List.range n).flatMap f).getD (e * m + k) z = (f e).getD k z
  | n + 1, e, he => by
    have hlen := length_flatMap_range hf n
    rw [List.range_succ, List.flatMap_append, List.flatMap_singleton]
    rcases Nat.lt_succ_iff_lt_or_eq.1 he with he | rfl
    · have hrow : e * m + k < n * m :=
        calc e * m + k < e * m + m := Nat.add_lt_add_left hk _
          _ = (e + 1) * m := (Nat.succ_mul e m).symm
          _ ≤ n * m := Nat.mul_le_mul_right m he
      rw [List.getD_append _ _ _ _ (by rwa [hlen]), getD_flatMap_range hf hk z he]
    · rw [List.getD_append_right _ _ _ _ (by rw [hlen]; exact Nat.le_add_right _ _), hlen, Nat.add_sub_cancel_left]

/-- The parameters of a book's dequantisation (R184). -/
def Book.dequant (r : Book) (q : Quant) : Dequant :=
  { lattice := r.maptype = 1, dim := r.dim, side := latticeSide r.dim r.entries, mindel := unpackFloat q.qMin,
    delta := unpackFloat q.qDelta, sequencep := q.qSequencep, quantlist := q.quantlist }

theorem bookValues_eq {r : Book} {q : Quant} (h : r.quant = some q) :
    bookValues r = some ((List.range r.entries).flatMap fun e => entryValues (r.dequant q) e r.dim 0 0 1) := by
  rw [bookValues, h]
  rfl

/-- Settles O24: row by row, each value by the formula of the loop that makes it. -/
theorem valueTableFollowsTheFormula : Obligations.ValueTableFollowsTheFormula := by
  intro r q vs hq hvs
  rw [bookValues_eq hq, Option.some.injEq] at hvs
  subst hvs
  have hlen : ∀ e, (entryValues (r.dequant q) e r.dim 0 0 1).length = r.dim := fun e => entryValues_length _ _ _ _ _ _
  refine ⟨length_flatMap_range hlen _, fun e he k hk => ?_⟩
  have hprev := getD_flatMap_range hlen (show k - 1 < r.dim by omega) (0 : F32) he
  rw [getD_flatMap_range hlen hk 0 he, hprev, entryValues_getD _ _ _ _ _ _ _ hk, Nat.zero_add, Nat.one_mul]
  simp [Dequant.value, Dequant.index, Book.dequant, quantvals]

/-! ## The table-building operations -/

/-- An operation of the sequencer that writes tables only ends `OK` with them. -/
theorem exec_tabulates {s : State} {i : Instr} {op : Op Unit} {T : Tab} (hs : s.issuer = .sequencer)
    (hi : opOf i s = op >>= fun _ => result 0) (hop : op s = .ok () (s.setTab T)) :
    exec i s = .next ((s.setTab T).completeOk 0) := by
  rw [exec_sequencer hs, hi]
  exact finish_ok (bind_ok hop)

section

variable {s : State}

/-- R184: a book with quantised values gets its value table, one without gets none. -/
theorem cbUnquantize_eq {b : Nat} {r : Book} (hr : fieldAt s.cfg.book b = some r) :
    cbUnquantize b s = .ok () (match bookValues r with
      | some vs => s.setTab { s.tab with bookValues := putAt s.tab.bookValues b vs }
      | none => s) := by
  refine (lookup_bind (g := fun s => fieldAt s.cfg.book b) hr).trans ?_
  cases bookValues r <;> rfl

/-- R185: a book gets its codewords, or its length list is overpopulated. -/
theorem cbMakeWords_eq {b : Nat} {r : Book} (hr : fieldAt s.cfg.book b = some r) :
    cbMakeWords b s = match makeWords r.lengthlist with
      | some ws => .ok () (s.setTab { s.tab with bookWords := putAt s.tab.bookWords b ws })
      | none => .error (.badHeader .bookOverpop) s := by
  refine (lookup_bind (g := fun s => fieldAt s.cfg.book b) hr).trans ?_
  cases makeWords r.lengthlist <;> rfl

/-- R212: the map of a floor 0 for one block size. -/
theorem f0Look_eq (P : Params) {f w n : Nat} {F : Floor0} (hn : s.blocksizeAt w = some n)
    (hF : s.floor0At f = some F) : f0Look P f w s = .ok () (
      if w = 0 then s.setTab { s.tab with floor0Short := putAt s.tab.floor0Short f (floor0Table P F n) }
      else s.setTab { s.tab with floor0Long := putAt s.tab.floor0Long f (floor0Table P F n) }) :=
  (lookup_bind (g := State.blocksizeAt w) hn).trans (lookup_bind (g := State.floor0At f) hF)

/-- R232: the table of a floor 1. -/
theorem f1Look_eq {f : Nat} {F : Floor1} (hF : s.floor1At f = some F) :
    f1Look f s = .ok () (s.setTab { s.tab with floor1 := putAt s.tab.floor1 f (floor1Table F) }) :=
  lookup_bind (g := State.floor1At f) hF

/-- R262: the table of a residue, for the dimension of its phrase book. -/
theorem resLook_eq {r : Nat} {R : Residue} {phrase : Book} (hR : fieldAt s.cfg.residue r = some R)
    (hphrase : fieldAt s.cfg.book R.groupbook = some phrase) :
    resLook r s = .ok () (s.setTab { s.tab with res := putAt s.tab.res r (resTable R phrase.dim) }) :=
  (lookup_bind (g := fun s => fieldAt s.cfg.residue r) hR).trans
    (lookup_bind (g := fun s => fieldAt s.cfg.book R.groupbook) hphrase)

/-- R301: the tables of one transform size. -/
theorem mdctInit_eq (P : Params) {w n : Nat} (hn : s.blocksizeAt w = some n) : mdctInit P w s = .ok () (
    if w = 0 then s.setTab { s.tab with mdct0 := some (mdctTable P n) }
    else s.setTab { s.tab with mdct1 := some (mdctTable P n) }) :=
  lookup_bind (g := State.blocksizeAt w) hn

/-- R328: the five windows. -/
theorem winInit_eq (P : Params) {a b : Nat} (ha : s.cfg.blocksize0 = some a) (hb : s.cfg.blocksize1 = some b) :
    winInit P s = .ok () (s.setTab { s.tab with
      win000 := some (windowArray P a (a / 2) (a / 2)),
      win100 := some (windowArray P b (a / 2) (a / 2)),
      win101 := some (windowArray P b (a / 2) (b / 2)),
      win110 := some (windowArray P b (b / 2) (a / 2)),
      win111 := some (windowArray P b (b / 2) (b / 2)) }) :=
  (lookup_bind (g := fun s => s.cfg.blocksize0) ha).trans (lookup_bind (g := fun s => s.cfg.blocksize1) hb)

end

/-- Settles O25: each operation by its equation, as the sequencer issues it. -/
theorem tableOperations : Obligations.TableOperations := by
  intro s hs
  refine ⟨fun b r hr => ⟨fun vs hvs => ?_, fun hnone => ?_, fun ws hws => ?_, fun hnone => ?_⟩,
    fun _ => exec_sequencer hs, fun _ => exec_sequencer hs, fun f F n hF => ⟨fun hn => ?_, fun hn => ?_⟩,
    fun f F hF => ?_, fun r R phrase hR hphrase => ?_, fun n hn => ?_, fun n hn => ?_, fun a b ha hb => ?_⟩
  · refine exec_tabulates (i := .cbUnquantize b) hs rfl ?_
    rw [cbUnquantize_eq hr, hvs]
  · refine exec_tabulates (i := .cbUnquantize b) (T := s.tab) hs rfl ?_
    rw [cbUnquantize_eq hr, hnone]
    rfl
  · refine exec_tabulates (i := .cbMakeWords b) hs rfl ?_
    rw [cbMakeWords_eq hr, hws]
  · have hfail : cbMakeWords b.toNat s = .error (.badHeader .bookOverpop) s := by rw [cbMakeWords_eq hr, hnone]
    exact (exec_sequencer (i := .cbMakeWords b) hs).trans (finish_error (bind_error hfail))
  · exact exec_tabulates (i := .f0Look f 0) hs rfl (f0Look_eq (w := 0) defaultParams hn hF)
  · exact exec_tabulates (i := .f0Look f 1) hs rfl (f0Look_eq (w := 1) defaultParams hn hF)
  · exact exec_tabulates (i := .f1Look f) hs rfl (f1Look_eq hF)
  · exact exec_tabulates (i := .resLook r) hs rfl (resLook_eq hR hphrase)
  · exact exec_tabulates (i := .mdctInit 0) hs rfl (mdctInit_eq (w := 0) defaultParams hn)
  · exact exec_tabulates (i := .mdctInit 1) hs rfl (mdctInit_eq (w := 1) defaultParams hn)
  · exact exec_tabulates (i := .winInit) hs rfl (winInit_eq defaultParams ha hb)

end Sys2Proof.Machine
end

section
/-! SUPPORT. Scalar and vector decode as whole instructions (41_codebook.md R190 to R197), on a payload that holds codewords and
on one whose bits rule every codeword out. -/

namespace Sys2Proof.Machine

/-! ## One codeword -/

theorem judgeScalar_ok {s : State} {b n : Nat} (hr : s.phase = .ready) (hn : s.cfg.books = some n) (hb : b < n) :
    judgeScalar b s = .ok () := (judge_passes (judgeReady_ok hr)).trans (judgeIndex_ok hn hb)

/-- Settles O26: no codeword begins another, so the bits of one lead to its entry and no further. -/
theorem decodeReturnsTheEntry : Obligations.DecodeReturnsTheEntry := by
  intro s b books e hr hbooks hb hcode hsent
  have hread := Reads.cbDecode s.has_self hcode s s.has_self hsent
  rw [State.with_self (by exact s.has_self), State.codeFields, fieldBits_codewordFields] at hread
  exact (exec_accepted (i := .cbDecode b) (judgeScalar_ok hr hbooks hb)).trans (finish_ok (bind_ok hread))

/-! ## Bits that rule every codeword out -/

theorem codewordFields_append (u v : Codeword) : codewordFields (u ++ v) = codewordFields u ++ codewordFields v :=
  List.map_append

/-- The search for a string that is no codeword finds none. -/
theorem findIdx?_of_not_mem {ws : List (Option Codeword)} {u : Codeword} (h : some u ∉ ws) :
    ws.findIdx? (· == some u) = none :=
  List.findIdx?_eq_none_iff.2 fun _ hx => beq_eq_false_iff_ne.2 fun hxu => h (hxu ▸ hx)

/-- A string can be extended when a longer codeword begins with it. -/
theorem extendable_iff {ws : List (Option Codeword)} {u : Codeword} :
    extendable ws u = true ↔ ∃ v, some v ∈ ws ∧ u <+: v ∧ u ≠ v := by
  refine List.any_eq_true.trans ⟨?_, ?_⟩
  · rintro ⟨_ | v, hx, hv⟩
    · simp at hv
    · exact ⟨v, hx, by simpa using hv⟩
  · rintro ⟨v, hv, hpre, hne⟩
    exact ⟨some v, hv, by simp [hpre, hne]⟩

/-- R190: a bit that completes no codeword but can be extended is followed by the next one. -/
theorem decodeFrom_extends {ws : List (Option Codeword)} {fuel : Nat} {u : Codeword} {bit : Bool} {s : State}
    (hs : s.Sends [(1, bitValue bit)]) (hword : some (u ++ [bit]) ∉ ws) (hext : extendable ws (u ++ [bit]) = true) :
    decodeFrom ws (fuel + 1) u s = decodeFrom ws fuel (u ++ [bit]) (s.advance 1) := by
  rw [decodeFrom, bind_ok (readBit_sends hs)]
  simp only [findIdx?_of_not_mem hword, hext, if_true]

/-- R190, R192: a bit that completes no codeword and cannot be extended ends the decode. -/
theorem decodeFrom_badCode {ws : List (Option Codeword)} {fuel : Nat} {u : Codeword} {bit : Bool} {s : State}
    (hs : s.Sends [(1, bitValue bit)]) (hword : some (u ++ [bit]) ∉ ws) (hext : extendable ws (u ++ [bit]) = false) :
    decodeFrom ws (fuel + 1) u s = .error .badCode (s.advance 1) := by
  rw [decodeFrom, bind_ok (readBit_sends hs)]
  simp only [findIdx?_of_not_mem hword, hext]
  rfl

/-- R190, R192: bits that stay below some codeword, and then one that leaves them all. -/
theorem decodeFrom_ruledOut {ws : List (Option Codeword)} {w : Codeword} {bit : Bool}
    (hgoes : ∀ u, u <+: w → u ≠ [] → (∃ v, some v ∈ ws ∧ u <+: v ∧ u ≠ v) ∧ some u ∉ ws)
    (hstop : ∀ v, some v ∈ ws → ¬ w ++ [bit] <+: v) :
    ∀ (rest u : Codeword) (fuel : Nat) (s : State), u ++ rest = w → rest.length < fuel →
      s.Sends (codewordFields (rest ++ [bit])) →
      decodeFrom ws fuel u s = .error .badCode (s.advance (rest.length + 1))
  | _, _, 0, _, _, hfuel, _ => absurd hfuel (Nat.not_lt_zero _)
  | [], u, fuel + 1, s, hw, _, hs => by
    obtain rfl : u = w := by simpa using hw
    have hword : some (u ++ [bit]) ∉ ws := fun hmem => hstop _ hmem (List.prefix_refl _)
    have hext : extendable ws (u ++ [bit]) = false := by
      rw [Bool.eq_false_iff, ne_eq, extendable_iff]
      rintro ⟨v, hv, hpre, -⟩
      exact hstop v hv hpre
    exact decodeFrom_badCode hs hword hext
  | x :: rest, u, fuel + 1, s, hw, hfuel, hs => by
    have hs : s.Sends ([(1, bitValue x)] ++ codewordFields (rest ++ [bit])) := hs
    have hw : (u ++ [x]) ++ rest = w := by simpa using hw
    obtain ⟨hext, hword⟩ := hgoes (u ++ [x]) ⟨rest, hw⟩ (by simp)
    have hrest := decodeFrom_ruledOut hgoes hstop rest (u ++ [x]) fuel (s.advance 1) hw (by simpa using hfuel) hs.right
    rw [decodeFrom_extends hs.left hword (extendable_iff.2 hext), hrest, State.advance_advance, List.length_cons,
      Nat.add_comm 1]

/-- Settles O27: by induction over the bits that do not yet rule every codeword out. -/
theorem decodeOfNoCodeword : Obligations.DecodeOfNoCodeword := by
  intro s b books ws w bit hr hbooks hb hws h32 hsent hgoes hstop
  have hrun := decodeFrom_ruledOut hgoes hstop w [] 32 s rfl h32 hsent
  have hdecode : cbDecode b.toNat s = .error .badCode (s.advance (w.length + 1)) :=
    (lookup_bind (g := fun s => fieldAt s.tab.bookWords b.toNat) hws).trans hrun
  exact (exec_accepted (i := .cbDecode b) (judgeScalar_ok hr hbooks hb)).trans (finish_error (bind_error hdecode))

/-! ## One codeword's values, stepped -/

section

variable {s : State} {b : Nat}

/-- Row 6 of R374 is passed by a vector book. -/
theorem State.vectorBook.judgeValues_ok {dim : Nat} (h : s.vectorBook b dim) : judgeValues b s = .ok () := by
  obtain ⟨-, -, r, hbook, hmap, -, -⟩ := h
  rw [judgeValues, judge_passes (judgeField_ok hbook), if_neg hmap]

theorem State.vectorBook.dim_pos {dim : Nat} (h : s.vectorBook b dim) : 1 ≤ dim := by
  obtain ⟨-, -, r, -, -, -, hdim⟩ := h
  exact hdim

/-- A destination that names no channel, or one of the stream, is let through. -/
theorem judgeDst_inRange {dst : Dst} (h : ∀ c, dst = .pcm c → ∃ n, s.cfg.channels = some n ∧ c.toNat < n) :
    judgeDst dst s = .ok () := by
  cases dst with
  | lsp => rfl
  | pcm c =>
    obtain ⟨n, hn, hc⟩ := h c rfl
    exact judgeChannel_ok hn hc

/-- A vector decode of a ready decoder from a vector book into a destination in range is let through. -/
theorem judgeVector_ok {dst : Dst} {dim : Nat} (hr : s.phase = .ready) (hb : s.vectorBook b dim)
    (hd : ∀ c, dst = .pcm c → ∃ n, s.cfg.channels = some n ∧ c.toNat < n) : judgeVector b dst s = .ok () := by
  obtain ⟨n, hn, hbn⟩ := hb.1
  exact (judgeVector_eq hr hn hbn).trans ((judge_passes (judgeDst_inRange hd)).trans hb.judgeValues_ok)

/-- So is one across a bundle of channels of the stream. -/
theorem judgeVectorBundle_ok {first count channels dim : Nat} (hr : s.phase = .ready) (hb : s.vectorBook b dim)
    (hch : s.cfg.channels = some channels) (hcount : 1 ≤ count) (hfit : first + count ≤ channels) :
    judgeVectorBundle b first count s = .ok () := by
  obtain ⟨n, hn, hbn⟩ := hb.1
  exact (judgeVectorBundle_eq hr hn hbn).trans ((judge_passes (judgeBundle_ok hch hcount hfit)).trans hb.judgeValues_ok)

end

/-- Settles O30: one codeword read, its values stored. -/
theorem vectorDecodeStepped : Obligations.VectorDecodeStepped := by
  intro s b dst mode dim e hr hb hd hcode hsent
  have hrun := cbDecodeVs_sends s.has_self s.has_self hb hcode hsent (targetOf dst) mode s.arg0.toNat s.arg1.toNat
  rw [← storeRun_advance, State.codeFields, fieldBits_codewordFields] at hrun
  exact (exec_accepted (i := .cbDecodeVs b dst mode) (judgeVector_ok hr hb hd)).trans (finish_ok (bind_ok hrun))

/-! ## Codewords until a run of positions is covered -/

/-- The loop that R193, R194 and R195 share: codewords are decoded and their values handed to `put`, each at the position
after those before it, until position `stop` is reached. -/
def decodeRun (b : Nat) (put : Nat → List F32 → State → State) (stop : Nat) : Nat → Nat → Op Unit
  | 0, _ => pure ()
  | fuel + 1, p =>
    if p < stop then do
      let (_, vs) ← decodeValues b
      modify (put p vs)
      decodeRun b put stop fuel (p + vs.length)
    else pure ()

theorem decodeFill_eq_decodeRun (b : Nat) (d : Target) (mode : CombineMode) (offset n : Nat) : ∀ fuel i : Nat,
    decodeFill b d mode offset n fuel i = decodeRun b (fun i => storeRun d mode 1 (offset + i)) n fuel i
  | 0, _ => rfl
  | fuel + 1, i => by
    unfold decodeFill decodeRun
    simp only [decodeFill_eq_decodeRun b d mode offset n fuel]

theorem decodeInterleaved_eq_decodeRun (b : Nat) (chlist : List Nat) (stop : Nat) : ∀ fuel p : Nat,
    decodeInterleaved b chlist stop fuel p = decodeRun b (addInterleaved chlist) stop fuel p
  | 0, _ => rfl
  | fuel + 1, p => by
    unfold decodeInterleaved decodeRun
    simp only [decodeInterleaved_eq_decodeRun b chlist stop fuel]

/-- Stores at positions: value after value, seeing nothing of the cursor and changing nothing but `PCM` and `LSP`. -/
structure PutsInOrder (put : Nat → List F32 → State → State) : Prop where
  nil : ∀ p s, put p [] s = s
  append : ∀ us vs p s, put p (us ++ vs) s = put (p + us.length) vs (put p us s)
  advance : ∀ n vs p s, put p vs (s.advance n) = (put p vs s).advance n
  pcm_lsp : ∀ vs p s, ∃ rows l, put p vs s = (s.setPcm rows).setLsp l

theorem PutsInOrder.storeRun (d : Target) (mode : CombineMode) (offset : Nat) :
    PutsInOrder fun i => Machine.storeRun d mode 1 (offset + i) where
  nil _ _ := rfl
  append us vs i s := by rw [storeRun_append, Nat.add_assoc]
  advance n vs i s := storeRun_advance d mode 1 n vs (offset + i) s
  pcm_lsp vs i s := storeRun_eq d mode 1 vs (offset + i) s

theorem addInterleaved_append (chlist : List Nat) : ∀ (us vs : List F32) (p : Nat) (s : State),
    addInterleaved chlist p (us ++ vs) s = addInterleaved chlist (p + us.length) vs (addInterleaved chlist p us s)
  | [], _, _, _ => rfl
  | u :: us, vs, p, s => by
    rw [List.cons_append, addInterleaved, addInterleaved_append chlist us vs, List.length_cons, Nat.add_assoc,
      Nat.add_comm 1]
    rfl

theorem addInterleaved_advance (chlist : List Nat) (n : Nat) : ∀ (vs : List F32) (p : Nat) (s : State),
    addInterleaved chlist p vs (s.advance n) = (addInterleaved chlist p vs s).advance n
  | [], _, _ => rfl
  | _ :: vs, p, s =>
    (congrArg (addInterleaved chlist (p + 1) vs) (targetModify_advance (.pcm _) _ _ n s)).trans
      (addInterleaved_advance chlist n vs (p + 1) _)

theorem addInterleaved_eq (chlist : List Nat) : ∀ (vs : List F32) (p : Nat) (s : State),
    ∃ rows l, addInterleaved chlist p vs s = (s.setPcm rows).setLsp l
  | [], _, s => ⟨s.pcm, s.lsp, rfl⟩
  | v :: vs, p, s => by
    obtain ⟨rows, l, h⟩ :=
      targetModify_eq (.pcm (chlist.getD (p % chlist.length) 0)) (p / chlist.length) (combine .add v) s
    obtain ⟨rows', l', h'⟩ := addInterleaved_eq chlist vs (p + 1) ((s.setPcm rows).setLsp l)
    exact ⟨rows', l', (congrArg (addInterleaved chlist (p + 1) vs) h).trans h'⟩

theorem PutsInOrder.addInterleaved (chlist : List Nat) : PutsInOrder (Machine.addInterleaved chlist) where
  nil _ _ := rfl
  append := addInterleaved_append chlist
  advance := addInterleaved_advance chlist
  pcm_lsp := addInterleaved_eq chlist

section

variable {put : Nat → List F32 → State → State}

/-- Past the last position nothing is decoded. -/
theorem decodeRun_done (b : Nat) {stop p : Nat} (h : stop ≤ p) (fuel : Nat) : decodeRun b put stop fuel p = pure () := by
  cases fuel with
  | zero => rfl
  | succ fuel => exact if_neg (Nat.not_lt.2 h)

/-- One round: a codeword read and its values put. -/
theorem decodeRun_step {s t : State} {k : Loaded} (hk : s.has k) (ht : t.has k) {b e dim : Nat}
    (hb : s.vectorBook b dim) (hcode : s.codes b e) (hsent : t.Sends (s.codeFields b e)) {stop p : Nat} (hp : p < stop)
    (fuel : Nat) : decodeRun b put stop (fuel + 1) p t =
      decodeRun b put stop fuel (p + dim) (put p (s.valuesOf b e) (t.advance (fieldBits (s.codeFields b e)))) := by
  have hread := Reads.decodeValues hk hb hcode t ht hsent
  rw [State.with_self (by exact ht)] at hread
  rw [decodeRun, if_pos hp, bind_ok hread, ← hb.valuesOf_length e]
  rfl

/-- R193 to R195: the fewest codewords that cover the positions are read, and their values put in order. -/
theorem decodeRun_sends (hput : PutsInOrder put) {s : State} {k : Loaded} (hk : s.has k) {b dim : Nat}
    (hb : s.vectorBook b dim) {stop : Nat} : ∀ (es : List Nat) (fuel p : Nat) (t : State), t.has k → stop - p ≤ fuel →
      es.length = codewordsFor (stop - p) dim → (∀ e ∈ es, s.codes b e) → t.Sends (s.codesFields b es) →
      decodeRun b put stop fuel p t =
        .ok () (put p (es.flatMap (s.valuesOf b)) (t.advance (fieldBits (s.codesFields b es))))
  | [], fuel, p, t, _, _, hlen, _, _ => by
    have hdone : stop ≤ p := by
      by_contra hp
      rw [codewordsFor_step hb.dim_pos (by omega)] at hlen
      cases hlen
    rw [decodeRun_done b hdone, List.flatMap_nil, hput.nil]
    rfl
  | e :: es, fuel, p, t, ht, hfuel, hlen, hcodes, hs => by
    have hdim := hb.dim_pos
    have hp : 0 < stop - p := by
      by_contra hp
      rw [show stop - p = 0 by omega, codewordsFor_zero hdim] at hlen
      cases hlen
    obtain ⟨fuel, rfl⟩ : ∃ fuel', fuel = fuel' + 1 := ⟨fuel - 1, by omega⟩
    rw [codewordsFor_step hdim hp, List.length_cons, Nat.add_right_cancel_iff, Nat.sub_sub] at hlen
    have hs : t.Sends (s.codeFields b e ++ s.codesFields b es) := hs
    have hfields : fieldBits (s.codesFields b (e :: es)) =
        fieldBits (s.codeFields b e) + fieldBits (s.codesFields b es) := fieldBits_append _ _
    obtain ⟨rows, l, hone⟩ := hput.pcm_lsp (s.valuesOf b e) p (t.advance (fieldBits (s.codeFields b e)))
    have hnext := decodeRun_sends hput hk hb es fuel (p + dim)
      (put p (s.valuesOf b e) (t.advance (fieldBits (s.codeFields b e)))) (by rw [hone]; exact ht) (by omega) hlen
      (fun x hx => hcodes x (List.mem_cons_of_mem _ hx)) (by rw [hone]; exact hs.right.congr rfl rfl rfl rfl)
    rw [decodeRun_step hk ht hb (hcodes e List.mem_cons_self) hs.left (by omega), hnext, hfields, List.flatMap_cons,
      hput.append, hb.valuesOf_length, ← hput.advance, State.advance_advance]

end

/-- R193, R194: a run of values decoded into one array. -/
theorem decodeFill_sends {s : State} {b dim : Nat} (hb : s.vectorBook b dim) {es : List Nat} (d : Target)
    (mode : CombineMode) (offset n : Nat) (hlen : es.length = codewordsFor n dim) (hcodes : ∀ e ∈ es, s.codes b e)
    (hs : s.Sends (s.codesFields b es)) : decodeFill b d mode offset n n 0 s =
      .ok () (storeRun d mode 1 offset (es.flatMap (s.valuesOf b)) (s.advance (fieldBits (s.codesFields b es)))) := by
  rw [decodeFill_eq_decodeRun]
  exact decodeRun_sends (PutsInOrder.storeRun d mode offset) s.has_self hb es n 0 s s.has_self le_rfl hlen hcodes hs

/-- Settles O28: by induction over the codewords, one round of the loop for each. -/
theorem vectorDecodeFills : Obligations.VectorDecodeFills := by
  intro s b dst dim es hr hb hd _ hlen hcodes hs
  have hj := judgeVector_ok hr hb hd
  have hrun := fun mode => decodeFill_sends hb (targetOf dst) mode s.arg0.toNat s.arg1.toNat hlen hcodes hs
  exact ⟨(exec_accepted (i := .cbDecodeSet b dst) hj).trans (finish_ok (bind_ok (hrun .declare))),
    (exec_accepted (i := .cbDecodeAdd b dst) hj).trans (finish_ok (bind_ok (hrun .add)))⟩

/-- R195: across a bundle the loop runs over positions from `offset` to `offset + n`, each rounded down to the first channel. -/
theorem cbDecodeVvAdd_eq_decodeRun (b first count offset n : Nat) :
    cbDecodeVvAdd b (channelRun first count) offset n =
      decodeRun b (addInterleaved (channelRun first count)) ((offset + n) / count * count)
        ((offset + n) / count * count - offset / count * count) (offset / count * count) := by
  unfold cbDecodeVvAdd
  rw [channelRun_length, decodeInterleaved_eq_decodeRun]

/-- Settles O29: the loop of a run into one array, its positions spread over the bundle. -/
theorem vectorDecodeAcrossChannels : Obligations.VectorDecodeAcrossChannels := by
  intro s b first count dim channels es hr hb hch hcount hfit _ hlen hcodes hs
  have hj := judgeVectorBundle_ok hr hb hch hcount hfit
  have hrun := decodeRun_sends (PutsInOrder.addInterleaved (channelRun first.toNat count.toNat)) s.has_self hb es _
    (s.arg0.toNat / count.toNat * count.toNat) s s.has_self le_rfl hlen hcodes hs
  rw [← cbDecodeVvAdd_eq_decodeRun] at hrun
  exact (exec_accepted (i := .cbDecodeVvAdd b first count) hj).trans (finish_ok (bind_ok hrun))

end Sys2Proof.Machine
end

section
/-! SUPPORT. Floor pass 1 whatever the packet holds (42_floor0.md R214, R217; 43_floor1.md R234, R241): it ends with a memo of its
floor, or silently with none. -/

namespace Sys2Proof.Machine

/-! ## What pass 1 does to the memo of its channel -/

/-- A memo that pass 1 of floor 0 number `f` wrote. -/
def Memo.OfFloor0 (f : Nat) (m : Memo) : Prop := ∃ lsp amp, m = .floor0 f lsp amp

/-- A memo that pass 1 of floor 1 number `f` wrote. -/
def Memo.OfFloor1 (f : Nat) (m : Memo) : Prop := ∃ y used, m = .floor1 f y used

/-- How pass 1 on channel `c`, begun at `s`, ends (R214, R234): with a memo for which `own` holds stored, or with the memos as
they were. -/
inductive PassOneEnds (c : Nat) (own : Memo → Prop) (s : State) : PassOne → State → Prop where
  | stored {m : Memo} {t : State} : own m → t.memo = s.memo.set c (some m) → PassOneEnds c own s .memo t
  | kept {r : PassOne} {t : State} : r.present = false → t.memo = s.memo → PassOneEnds c own s r t

/-- What pass 1 may change before it stores a memo. -/
def Reach.reading : Reach := { cursor := True, scratch := True }

/-- Reading changes no memo. -/
theorem StaysIn.reading_memo {s t : State} (h : StaysIn .reading s t) : t.memo = s.memo := by
  obtain ⟨-, hmemo, -⟩ := h.sameFlags fun _ => id
  exact hmemo

/-- An end is judged by the memos alone, so it may as well begin after some reading. -/
theorem PassOneEnds.of_memo {c : Nat} {own : Memo → Prop} {s s' t : State} {r : PassOne} (h : PassOneEnds c own s' r t)
    (hs : s'.memo = s.memo) : PassOneEnds c own s r t := by
  cases h with
  | stored hm ht => exact .stored hm (hs ▸ ht)
  | kept hr ht => exact .kept hr (ht.trans hs)

/-- Pass 1 on channel `c`: however it returns, `PassOneEnds` says what became of the memo; raising, it stored none. -/
def StoresOwn (c : Nat) (own : Memo → Prop) (op : Op PassOne) : Prop :=
  ∀ s, Sat op s (PassOneEnds c own s) fun _ t => t.memo = s.memo

section

variable {α : Type} {c : Nat} {own : Memo → Prop}

theorem StoresOwn.silent : StoresOwn c own (pure .silent) := fun _ => .kept rfl rfl

theorem StoresOwn.store {m : State → Memo} (h : ∀ s, own (m s)) :
    StoresOwn c own (modify (fun s => s.setMemo c (some (m s))) >>= fun _ => pure .memo) := fun s => .stored (h s) rfl

/-- Some reading, then the rest. -/
theorem StoresOwn.bind {x : Op α} {k : α → Op PassOne} (hx : Keeps (StaysIn .reading) x)
    (hk : ∀ a, StoresOwn c own (k a)) : StoresOwn c own (x >>= k) := fun s =>
  Sat.bind ((hx s).mono (fun _ _ => StaysIn.reading_memo) fun _ _ => StaysIn.reading_memo) fun a t ht =>
    (hk a t).mono (fun _ _ h => h.of_memo ht) fun _ _ h => h.trans ht

/-- Some reading of the payload, then the rest. -/
theorem StoresOwn.read {x : Op α} {k : α → Op PassOne} (hx : Keeps CursorFrame x) (hk : ∀ a, StoresOwn c own (k a)) :
    StoresOwn c own (x >>= k) := .bind (StaysIn.read trivial hx) hk

theorem StoresOwn.need {o : Option α} {k : α → Op PassOne} (hk : ∀ a, StoresOwn c own (k a)) :
    StoresOwn c own (need o >>= k) := .bind (Keeps.need StaysIn.rel o) hk

theorem StoresOwn.ite {p : Prop} [Decidable p] {x y : Op PassOne} (hx : StoresOwn c own x) (hy : StoresOwn c own y) :
    StoresOwn c own (if p then x else y) := by split <;> assumption

/-- R217, R241: a packet that ends or misleads the reading leaves no memo behind. -/
theorem StoresOwn.absorb {op : Op PassOne} (h : StoresOwn c own op) :
    StoresOwn c own (Machine.absorb op (pure .starved)) := fun s =>
  sat_absorb.2 ((h s).mono (fun _ _ h => h) fun _ _ ht => ⟨fun _ => .kept rfl ht, fun _ => ht⟩)

end

/-- R214: floor-0 pass 1 reads, and stores at its end. -/
theorem f0Pass1_storesOwn (f c : Nat) (F : Floor0) : StoresOwn c (Memo.OfFloor0 f) (f0Pass1 f c F) :=
  .read (readBits_cursorFrame _) fun _ => .ite .silent <|
  .read (readBits_cursorFrame _) fun _ => .ite .silent <|
  .need fun b => .bind (Keeps.get StaysIn.rel) fun _ => .need fun book =>
  .bind (readCoefficients_staysIn trivial trivial b F.order book.dim _ _) fun _ =>
  .bind (Keeps.modify fun _ => StaysIn.setLsp trivial _ _) fun _ => .store fun _ => ⟨_, _, rfl⟩

/-- R234: floor-1 pass 1 reads, and stores at its end. -/
theorem f1Pass1_storesOwn (f c : Nat) (F : Floor1) (T : Floor1Table) :
    StoresOwn c (Memo.OfFloor1 f) (f1Pass1 f c F T) :=
  .read readBit_cursorFrame fun _ => .ite .silent <|
  .read (readBits_cursorFrame _) fun _ => .read (readBits_cursorFrame _) fun _ =>
  .read (readPartitions_cursorFrame F _) fun _ => .store fun _ => ⟨_, _, rfl⟩

/-! ## The whole operation -/

/-- What the host sees of an end of pass 1, begun with the memo of its channel removed. -/
theorem PassOneEnds.seen {c : Nat} {own : Memo → Prop} {s t : State} {r : PassOne}
    (h : PassOneEnds c own (s.setMemo c none) r t) (hc : c < s.memo.length) :
    r.present = false ∧ t.hostReadMemo c = none ∨ r.present = true ∧ ∃ m, own m ∧ t.hostReadMemo c = some m := by
  cases h with
  | stored hm ht => exact .inr ⟨rfl, _, hm, by simp [State.hostReadMemo, fieldAt, ht, hc]⟩
  | kept hr ht => exact .inl ⟨hr, by simp [State.hostReadMemo, fieldAt, ht, hc]⟩

/-- Pass 1 of a floor whose record and tables are all there ends `OK`, with `RES` for the memo: it first removes the memo, then
reads, absorbing what the packet raises. -/
theorem exec_passOne_completes {i : Instr} {s : State} {c : Nat} {own : Memo → Prop} {op pass : Op PassOne}
    (hj : judgeOf i s = .ok ()) (hi : opOf i s = op >>= fun r => result (bitValue r.present))
    (hop : op s = absorb pass (pure .starved) (s.setMemo c none)) (hown : StoresOwn c own pass)
    (hends : Within s.cfg s.tab s.eofInResidue Never op) (hc : c < s.memo.length) :
    ∃ t, exec i s = .next t ∧ t.status = 0 ∧
      (t.res = 0 ∧ t.hostReadMemo c = none ∨ t.res = 1 ∧ ∃ m, own m ∧ t.hostReadMemo c = some m) := by
  have hmemo := hown.absorb (s.setMemo c none)
  have hnever := hends s ⟨rfl, rfl, rfl⟩
  cases hrun : op s with
  | error e t => exact (hnever.error hrun).2.elim
  | ok r t =>
    have hexec : exec i s = .next (t.completeOk (BitVec.ofNat 32 (bitValue r.present))) := by
      rw [exec_accepted hj, hi]
      exact finish_ok (bind_ok hrun)
    refine ⟨_, hexec, rfl, ?_⟩
    rcases (hmemo.ok (hop.symm.trans hrun)).seen hc with ⟨hr, hm⟩ | ⟨hr, hm⟩
    · exact .inl ⟨by rw [hr]; rfl, hm⟩
    · exact .inr ⟨by rw [hr]; rfl, hm⟩

/-- Settles O36: the configuration rules out every failure but the packet's, and those pass 1 absorbs. -/
theorem floorPassOneAlwaysCompletes : Obligations.FloorPassOneAlwaysCompletes := by
  rintro s f c floors channels hr hconf ⟨-, hlen, -⟩ hfloors hf hch hc
  obtain ⟨n, hn, -, husable⟩ := hconf.floors
  obtain rfl : floors = n := Option.some.inj (hfloors.symm.trans hn)
  obtain ⟨k, hk, -, h255⟩ := hconf.channels
  obtain rfl : channels = k := Option.some.inj (hch.symm.trans hk)
  have hcm : c.toNat < s.memo.length := by omega
  refine ⟨fun hty => ?floor0, fun hty => ?floor1⟩ <;> have hj := judgeFloor_ok hr hfloors hf hch hc hty
  case floor0 =>
    obtain ⟨-, F, hF, hbooks, hvalues, -, -⟩ | ⟨hty1, -⟩ := husable f.toNat hf
    · obtain ⟨t, hexec, hstatus, hmemo⟩ := exec_passOne_completes (i := .f0Inverse1 f c) hj rfl
        (f0Inverse1_eq (F := F) (by simp [State.floor0At, hF])) (f0Pass1_storesOwn _ _ _)
        (f0Inverse1_within hF hbooks hvalues) hcm
      refine ⟨t, hexec, hstatus, hmemo.imp_right fun ⟨hres, m, hm, hread⟩ => ⟨hres, ?_⟩⟩
      obtain ⟨lsp, amp, rfl⟩ := hm
      exact ⟨lsp, amp, hread⟩
    · simp [hty] at hty1
  case floor1 =>
    obtain ⟨hty0, -⟩ | ⟨-, F, hF, ⟨T, hT⟩, hclasses⟩ := husable f.toNat hf
    · simp [hty] at hty0
    · obtain ⟨t, hexec, hstatus, hmemo⟩ := exec_passOne_completes (i := .f1Inverse1 f c) hj rfl
        (f1Inverse1_eq (F := F) (by simp [State.floor1At, hF]) hT) (f1Pass1_storesOwn _ _ _ _)
        (f1Inverse1_within hF hT hclasses) hcm
      refine ⟨t, hexec, hstatus, hmemo.imp_right fun ⟨hres, m, hm, hread⟩ => ⟨hres, ?_⟩⟩
      obtain ⟨y, used, rfl⟩ := hm
      exact ⟨y, used, hread⟩

end Sys2Proof.Machine
end

section
/-! SUPPORT. Floor pass 2, the transform and the window as equations: each rewrites the row of its channel (42_floor0.md R215,
43_floor1.md R239, 46_mdct.md R303, 47_block.md R329). -/

namespace Sys2Proof.Machine

/-! ## The operations -/

/-- An operation that first takes the state. -/
theorem get_bind {α : Type} {k : State → Op α} {s : State} : ((MonadStateOf.get : Op State) >>= k) s = k s s := rfl

section

variable {s : State} {f c : Nat} (P : Params)

/-- R215: without a memo of the floor the spectrum becomes silent. -/
theorem f0Inverse2_absent (h : s.floor0Memo f c = none) :
    f0Inverse2 P f c s = .ok false (s.storeRow c (List.replicate (s.pcmend.toNat / 2) 0)) := by
  refine get_bind.trans ?_
  rw [h]
  rfl

/-- R215: a memo of the floor is rendered with the record and the table for the block's size. -/
theorem f0Inverse2_present {lsp : List F32} {amp : F32} {F : Floor0} {T : Floor0Table}
    (h : s.floor0Memo f c = some (lsp, amp)) (hF : s.floor0At f = some F)
    (hT : fieldAt (if s.w then s.tab.floor0Long else s.tab.floor0Short) f = some T) :
    f0Inverse2 P f c s = .ok true (s.scaleRow c (floor0Curve P F T lsp amp (s.pcmend.toNat / 2))) := by
  refine get_bind.trans ?_
  rw [h, hF, hT]
  rfl

/-- R239: without a memo of the floor the spectrum becomes silent. -/
theorem f1Inverse2_absent (h : s.floor1Memo f c = none) :
    f1Inverse2 P f c s = .ok false (s.storeRow c (List.replicate (s.pcmend.toNat / 2) 0)) := by
  refine get_bind.trans ?_
  rw [h]
  rfl

/-- R239: a memo of the floor is rendered with the record and the table. -/
theorem f1Inverse2_present {y : List Int} {used : List Bool} {F : Floor1} {T : Floor1Table}
    (h : s.floor1Memo f c = some (y, used)) (hF : s.floor1At f = some F) (hT : fieldAt s.tab.floor1 f = some T) :
    f1Inverse2 P f c s =
      .ok true (s.scaleRow c ((floor1Curve F T y used (s.pcmend.toNat / 2)).map (dbValue P))) := by
  refine get_bind.trans ?_
  rw [h, hF, hT]
  rfl

/-- R303: the row becomes the transform of its first half. -/
theorem mdctBackward_eq {w : Nat} {M : MdctTable} (hM : s.mdctTableAt w = some M) :
    mdctBackward w c s = .ok () (s.storeRow c (mdctTransform M ((s.pcmRow c).take (M.n / 2)))) :=
  lookup_bind (g := State.mdctTableAt w) hM

/-- R329: the row is windowed, or silent if its channel is. -/
theorem winApply_eq {win : List F32} (h : s.windowAt s.w s.lw s.nw = some win) :
    winApply c s = .ok () (if s.isNonzero c then s.scaleRow c (win.take s.pcmend.toNat)
      else s.storeRow c (List.replicate s.pcmend.toNat 0)) := by
  refine get_bind.trans ?_
  rw [h]
  cases s.isNonzero c <;> rfl

end

/-! ## Their judges -/

section

variable {s : State} {c channels : Nat}

/-- A transform of the block's size on a channel of the stream is let through (R309). -/
theorem judgeMdct_ok {w : Nat} (hr : s.phase = .ready) (hch : s.cfg.channels = some channels) (hc : c < channels)
    (hw : w ≤ 1) (hn : s.blocksizeAt w = some s.pcmend.toNat) : judgeMdct w c s = .ok () :=
  (judge_passes (judgeReady_ok hr)).trans <| (judge_passes (judgeThat_ok (by simpa using hw))).trans <|
    (judge_passes (judgeChannel_ok hch hc)).trans <| (judge_passes (judgeField_ok hn)).trans (judgeThat_ok (by simp))

/-- A window of the block's size on a channel of the stream is let through (R329). -/
theorem judgeWindow_ok (hr : s.phase = .ready) (hch : s.cfg.channels = some channels) (hc : c < channels)
    (hn : s.blocksize s.w = some s.pcmend.toNat) (hshort : s.w = false → s.lw = false ∧ s.nw = false) :
    judgeWindow c s = .ok () := by
  refine (judge_passes (judgeReady_ok hr)).trans <| (judge_passes (judgeChannel_ok hch hc)).trans <|
    (judge_passes (judgeField_ok hn)).trans (judgeThat_ok ?_)
  cases hw : s.w with
  | true => simp
  | false => simp [hshort hw]

end

/-- Settles O39: each operation is let through and runs by its equation. -/
theorem rowOperations : Obligations.RowOperations := by
  intro s c channels hr hch hc
  refine ⟨fun f floors hfloors hf => ⟨fun hty => ?floor0, fun hty => ?floor1⟩, fun w M hw hsize hM => ?transform,
    fun win hsize hshort hwin => ?window⟩
  case floor0 =>
    have hrun := exec_accepted (i := .f0Inverse2 f c) (judgeFloor_ok hr hfloors hf hch hc hty)
    exact ⟨fun hmemo => hrun.trans (finish_ok (bind_ok (f0Inverse2_absent _ hmemo))), fun F T lsp amp hmemo hF hT =>
      hrun.trans (finish_ok (bind_ok (f0Inverse2_present _ hmemo hF hT)))⟩
  case floor1 =>
    have hrun := exec_accepted (i := .f1Inverse2 f c) (judgeFloor_ok hr hfloors hf hch hc hty)
    exact ⟨fun hmemo => hrun.trans (finish_ok (bind_ok (f1Inverse2_absent _ hmemo))), fun F T y used hmemo hF hT =>
      hrun.trans (finish_ok (bind_ok (f1Inverse2_present _ hmemo hF hT)))⟩
  case transform =>
    exact (exec_accepted (i := .mdctBackward w c) (judgeMdct_ok hr hch hc hw hsize)).trans
      (finish_ok (bind_ok (mdctBackward_eq hM)))
  case window =>
    have hrun := (exec_accepted (i := .winApply c) (judgeWindow_ok hr hch hc hsize hshort)).trans
      (finish_ok (bind_ok (winApply_eq hwin)))
    refine ⟨fun hnz => hrun.trans ?_, fun hnz => hrun.trans ?_⟩ <;> rw [hnz] <;> rfl

end Sys2Proof.Machine
end

section
/-! SUPPORT. The line of floor 1 as a division with remainder (43_floor1.md R233, R240), and the posts of a legal record in
ascending order (R232, R239). -/

namespace Sys2Proof.Machine

/-! ## Lines -/

section

variable (n x0 x1 : Nat) (y0 y1 : Int)

/-- The direction of a line of height `dy`: down for a falling one, up for any other. -/
def lineDir (dy : Int) : Int := if dy < 0 then -1 else 1

@[simp] theorem natAbs_lineDir (dy : Int) : (lineDir dy).natAbs = 1 := by
  rw [lineDir]
  split <;> rfl

/-- Truncation is toward zero: the height is divided and the direction kept. -/
theorem tdiv_eq_lineDir_mul (dy : Int) (width : Nat) : dy.tdiv width = lineDir dy * (dy.natAbs / width : Nat) := by
  rw [lineDir, Int.ofNat_tdiv]
  split
  case isTrue h => rw [Int.ofNat_natAbs_of_nonpos h.le, Int.neg_tdiv, neg_one_mul, neg_neg]
  case isFalse h => rw [Int.natAbs_of_nonneg (not_lt.1 h), one_mul]

/-- The point prediction goes from `y0` in the line's direction, by the truncated share of its height. -/
theorem renderPoint_eq (x : Nat) :
    renderPoint x0 x1 y0 y1 x = y0 + lineDir (y1 - y0) * ((y1 - y0).natAbs * (x - x0) / (x1 - x0) : Nat) := by
  simp only [renderPoint, lineDir]
  split <;> ring

/-- The recurrence keeps quotient and remainder of `height * k` by `width`: `y` moves by the quotient, `err` is the
remainder. -/
theorem lineWalk_eq_map (dir : Int) (height : Nat) {width : Nat} (hw : 0 < width) (count k : Nat) :
    lineWalk (dir * (height / width : Nat)) (dir * (height / width : Nat) + dir) (height % width) width count
        (y0 + dir * (height * k / width : Nat)) (height * k % width) =
      (List.range' k count).map fun j => y0 + dir * (height * j / width : Nat) := by
  induction count generalizing k with
  | zero => rfl
  | succ count ih =>
    rw [lineWalk, List.range'_succ, List.map_cons, ← ih (k + 1), Nat.mul_succ]
    split
    case isTrue hcarry =>
      rw [Nat.add_div_eq_of_le_mod_add_mod hcarry hw, ← Nat.add_mod_add_of_le_add_mod hcarry, Nat.add_sub_cancel]
      push_cast
      ring_nf
    case isFalse hcarry =>
      rw [Nat.add_div_eq_of_add_mod_lt (not_le.1 hcarry), Nat.add_mod_of_add_mod_lt (not_le.1 hcarry)]
      push_cast
      ring_nf

/-- The parameters that R240 computes for a line are its quotient and remainder, in the line's direction. -/
theorem renderLine_eq_lineWalk :
    renderLine n x0 x1 y0 y1 =
      lineWalk (lineDir (y1 - y0) * ((y1 - y0).natAbs / (x1 - x0) : Nat))
        (lineDir (y1 - y0) * ((y1 - y0).natAbs / (x1 - x0) : Nat) + lineDir (y1 - y0))
        ((y1 - y0).natAbs % (x1 - x0)) (x1 - x0) (min n x1 - x0) y0 0 := by
  have hstep (base : Int) : (if y1 - y0 < 0 then base - 1 else base + 1) = base + lineDir (y1 - y0) := by
    rw [lineDir]
    split <;> rfl
  rw [renderLine]
  simp only [tdiv_eq_lineDir_mul, hstep, Int.natAbs_mul, natAbs_lineDir, Int.natAbs_natCast, one_mul,
    ← Nat.mod_eq_sub_div_mul]

end

/-- R240: a line is drawn as the point predictions at the positions it covers. -/
theorem renderLine_eq_map {n x0 x1 : Nat} (hx : x0 < x1) (y0 y1 : Int) :
    renderLine n x0 x1 y0 y1 = (List.range (min n x1 - x0)).map fun k => renderPoint x0 x1 y0 y1 (x0 + k) := by
  have hwalk := lineWalk_eq_map y0 (lineDir (y1 - y0)) (y1 - y0).natAbs (Nat.sub_pos_of_lt hx) (min n x1 - x0) 0
  simpa [renderLine_eq_lineWalk, renderPoint_eq, List.range_eq_range'] using hwalk

@[simp] theorem length_lineWalk (base sy : Int) (ady adx count : Nat) (y : Int) (err : Nat) :
    (lineWalk base sy ady adx count y err).length = count := by
  induction count generalizing y err with
  | zero => rfl
  | succ count ih =>
    rw [lineWalk, List.length_cons]
    split <;> rw [ih]

@[simp] theorem length_renderLine (n x0 x1 : Nat) (y0 y1 : Int) : (renderLine n x0 x1 y0 y1).length = min n x1 - x0 :=
  length_lineWalk ..

/-- Settles O40: the line is the list of its point predictions. -/
theorem lineIsPointwise : Obligations.LineIsPointwise := by
  intro n x0 x1 y0 y1 hx
  refine ⟨length_renderLine .., fun k hk => ?_⟩
  rw [renderLine_eq_map hx, List.getElem?_map, List.getElem?_range hk]
  rfl

/-! ## Posts in ascending order -/

section

variable (X : List Nat)

/-- The order of the posts by position. -/
abbrev postLE (i j : Nat) : Prop := X.getD i 0 ≤ X.getD j 0

theorem insertPost_eq_orderedInsert (i : Nat) (l : List Nat) : insertPost X i l = l.orderedInsert (postLE X) i := by
  induction l with
  | nil => rfl
  | cons j rest ih => rw [insertPost, List.orderedInsert_cons, ih]

/-- R232: the sort of the posts is the insertion sort by position. -/
theorem sortPosts_eq_insertionSort (posts : Nat) : sortPosts X posts = (List.range posts).insertionSort (postLE X) := by
  rw [sortPosts, funext₂ (insertPost_eq_orderedInsert X)]
  rfl

theorem sortPosts_perm (posts : Nat) : (sortPosts X posts).Perm (List.range posts) := by
  rw [sortPosts_eq_insertionSort]
  exact List.perm_insertionSort ..

/-- The positions along the sorted posts are the sorted positions. -/
theorem map_sortPosts : (sortPosts X X.length).map (X.getD · 0) = X.insertionSort (· ≤ ·) := by
  have hpositions : (List.range X.length).map (X.getD · 0) = X :=
    List.ext_getElem (by simp) fun i _ hi => by simp [hi]
  rw [sortPosts_eq_insertionSort, List.map_insertionSort _ (· ≤ ·) _ _ fun _ _ _ _ => Iff.rfl, hpositions]

/-- R232: positions that differ strictly rise along the sorted posts. -/
theorem sortPosts_ascending (h : X.Nodup) : ((sortPosts X X.length).map (X.getD · 0)).Pairwise (· < ·) := by
  rw [map_sortPosts]
  exact (List.sortedLE_insertionSort.sortedLT_of_nodup ((List.perm_insertionSort _ _).nodup_iff.2 h)).pairwise

end

/-! ## The curve -/

/-- R239: over posts in ascending order, none below `lx`, the segments and the flat extension meet without gap or overlap. -/
theorem length_renderPosts (n mult : Nat) (X : List Nat) (y : List Int) (used : List Bool) (l : List Nat) (lx : Nat)
    (ly : Int) (h : (lx :: l.map (X.getD · 0)).Pairwise (· ≤ ·)) :
    (renderPosts n mult X y used l lx ly).length = n - lx := by
  induction l generalizing lx ly with
  | nil => exact List.length_replicate
  | cons cur rest ih =>
    obtain ⟨hlx, hrest⟩ := List.pairwise_cons.1 h
    have hcur : lx ≤ X.getD cur 0 := hlx _ (by simp)
    rw [renderPosts]
    split
    case isTrue =>
      rw [List.length_append, length_renderLine, ih (X.getD cur 0) _ hrest]
      omega
    case isFalse =>
      exact ih _ _ (h.sublist (by simp))

/-- Settles O41: the sort of a legal record's posts, and the curve drawn along it from position 0. -/
theorem floorOneCurveCoversTheSpectrum : Obligations.FloorOneCurveCoversTheSpectrum := by
  intro c F y used n hF
  have hindex : (floor1Table F).forwardIndex = sortPosts F.postlist F.postlist.length :=
    congrArg (sortPosts F.postlist) hF.posts.symm
  have hascending := sortPosts_ascending F.postlist hF.distinct
  rw [floor1Curve, hindex]
  refine ⟨sortPosts_perm .., hascending, length_renderPosts _ _ _ _ _ _ _ _ (List.pairwise_cons.2 ⟨by simp, ?_⟩)⟩
  rw [List.map_drop]
  exact (hascending.imp le_of_lt).drop

end Sys2Proof.Machine
end

section
/-! SUPPORT. Residue decode under a valid configuration (44_residue.md R262 to R265, R271): the rows of the decode map, the three
types as one operation, and the decodes that read nothing. -/

namespace Sys2Proof.Machine

/-! ## The decode map -/

/-- R262: `left` digits, begun with the place value of the first, are digits of the base and denote the number, whatever was
denoted before them. -/
theorem phraseDigits_denote {parts : Nat} (hparts : 1 ≤ parts) : ∀ (left val acc : Nat), val < parts ^ left →
    (phraseDigits parts left val (parts ^ left / parts)).length = left ∧
    (∀ d ∈ phraseDigits parts left val (parts ^ left / parts), d < parts) ∧
    (phraseDigits parts left val (parts ^ left / parts)).foldl (fun n d => n * parts + d) acc = acc * parts ^ left + val
  | 0, val, acc, hval => by
    obtain rfl : val = 0 := by simpa using hval
    simp [phraseDigits]
  | left + 1, val, acc, hval => by
    have hmult : parts ^ (left + 1) / parts = parts ^ left := by
      rw [Nat.pow_succ, Nat.mul_div_cancel _ hparts]
    have hrest : val - val / parts ^ left * parts ^ left = val % parts ^ left := by
      rw [Nat.mul_comm, ← Nat.mod_eq_sub]
    have hdigit : val / parts ^ left < parts :=
      Nat.div_lt_of_lt_mul (by rwa [← Nat.pow_succ])
    obtain ⟨hlen, hdigits, hfold⟩ := phraseDigits_denote hparts left (val % parts ^ left) (acc * parts + val / parts ^ left)
      (Nat.mod_lt _ (Nat.pow_pos hparts))
    rw [hmult, phraseDigits, hrest]
    refine ⟨by rw [List.length_cons, hlen], List.forall_mem_cons.2 ⟨hdigit, hdigits⟩, ?_⟩
    rw [List.foldl_cons, hfold]
    calc (acc * parts + val / parts ^ left) * parts ^ left + val % parts ^ left
        = acc * parts ^ (left + 1) + (parts ^ left * (val / parts ^ left) + val % parts ^ left) := by ring
      _ = acc * parts ^ (left + 1) + val := by rw [Nat.div_add_mod]

/-- Settles O44: by induction over the digits, the first one taken off by division. -/
theorem decodeMapRowsAreDigits : Obligations.DecodeMapRowsAreDigits := by
  intro R pdim t hparts ht
  obtain ⟨hlen, hdigits, hfold⟩ := phraseDigits_denote hparts pdim t 0 ht
  exact ⟨_, by simp [resTable, ht], hlen, hdigits, by simpa using hfold⟩

/-! ## The three types as one -/

/-- The residue decode of a type (R266, R267, R269), as `MAP0.INVERSE` chooses it. -/
def residueDecode (type r : Nat) (chlist : List Nat) : Op Bool :=
  if type = 0 then res0Inverse r chlist else if type = 1 then res1Inverse r chlist else res2Inverse r chlist

/-- `decode_partition` of the plan's type (R266, R267, R269). -/
def ResiduePlan.layout (p : ResiduePlan) : Nat → Nat → Nat → Op Unit :=
  if p.type = 0 then layout0 p.used p.record
  else if p.type = 1 then layout1 p.used p.record
  else layout2 p.chlist p.record

theorem opOf_residueInstr (type : Nat) (r first count : BitVec 8) (s : State) : opOf (residueInstr type r first count) s =
    residueDecode type r.toNat (channelRun first.toNat count.toNat) >>= fun e => result (bitValue e) := by
  unfold residueInstr residueDecode
  split
  · rfl
  · split <;> rfl

theorem judgeOf_residueInstr {type : Nat} (h : type ≤ 2) (r first count : BitVec 8) :
    judgeOf (residueInstr type r first count) = judgeResidue type r.toNat first.toNat count.toNat := by
  interval_cases type <;> rfl

/-- A residue decode of the residue's type on a bundle of the stream is let through (R271). -/
theorem judgeResidue_ok {s : State} {type r first count residues channels : Nat} (hr : s.phase = .ready)
    (hres : s.cfg.residues = some residues) (hlt : r < residues) (hty : fieldAt s.cfg.residueType r = some type)
    (hch : s.cfg.channels = some channels) (hcount : 1 ≤ count) (hfit : first + count ≤ channels) :
    judgeResidue type r first count s = .ok () :=
  (judge_passes (judgeReady_ok hr)).trans <| (judge_passes (judgeIndex_ok hres hlt)).trans <|
    (judge_passes (judgeField_ok hty)).trans <| (judge_passes (judgeThat_ok (by simp))).trans (judgeBundle_ok hch hcount hfit)

/-- A residue instruction that is let through reports how its decode returned. -/
theorem exec_residueInstr {s t : State} {type : Nat} {r first count : BitVec 8} {e : Bool} (hty : type ≤ 2)
    (hj : judgeResidue type r.toNat first.toNat count.toNat s = .ok ())
    (h : residueDecode type r.toNat (channelRun first.toNat count.toNat) s = .ok e t) :
    exec (residueInstr type r first count) s = .next (t.completeOk (BitVec.ofNat 32 (bitValue e))) := by
  rw [exec_accepted (by rw [judgeOf_residueInstr hty, hj]), opOf_residueInstr]
  exact finish_ok (bind_ok h)

/-- R265: a residue decode runs the stages of its plan; the end of the payload or a bad code stops it. -/
theorem residueDecode_eq {s : State} {type r : Nat} (hty : type ≤ 2) {R : Residue} {T : ResTable} {phrase : Book} (chlist : List Nat)
    (hR : fieldAt s.cfg.residue r = some R) (hT : fieldAt s.tab.res r = some T)
    (hp : fieldAt s.cfg.book R.groupbook = some phrase) {p : ResiduePlan}
    (hplan : p = s.residuePlan type R T phrase.dim chlist) :
    residueDecode type r chlist s = absorb (decodeStages R T p.layout phrase.dim p.vecs p.nparts) (pure true) s := by
  have hskeleton : ∀ (layout : Residue → Nat → Nat → Nat → Op Unit) (vecs limit : Nat), resDecode r layout vecs limit s =
      absorb (decodeStages R T (layout R) phrase.dim vecs (partitionCount R limit)) (pure true) s := fun _ _ _ =>
    (lookup_bind (g := fun s => fieldAt s.cfg.residue r) hR).trans <|
      (lookup_bind (g := fun s => fieldAt s.tab.res r) hT).trans <|
        lookup_bind (g := fun s => fieldAt s.cfg.book R.groupbook) hp
  subst hplan
  obtain rfl | rfl | rfl : type = 0 ∨ type = 1 ∨ type = 2 := by omega
  all_goals
    simp only [residueDecode, ResiduePlan.layout, ResiduePlan.vecs, State.residuePlan, reduceIte, OfNat.zero_ne_ofNat,
      OfNat.one_ne_ofNat, OfNat.ofNat_ne_zero, OfNat.ofNat_ne_one, one_ne_zero, zero_ne_one]
  · exact get_bind.trans (hskeleton _ _ _)
  · exact get_bind.trans (hskeleton _ _ _)
  · exact get_bind.trans (hskeleton _ _ _)

/-! ## Decodes that read nothing -/

/-- R263 to R265: with no partition or no vector a residue decode returns at once. -/
theorem residueDecode_empty {s : State} {type r : Nat} (hty : type ≤ 2) {R : Residue} {T : ResTable} {phrase : Book}
    (chlist : List Nat) (hR : fieldAt s.cfg.residue r = some R) (hT : fieldAt s.tab.res r = some T)
    (hp : fieldAt s.cfg.book R.groupbook = some phrase) {p : ResiduePlan}
    (hplan : p = s.residuePlan type R T phrase.dim chlist) (hempty : p.nparts = 0 ∨ p.vecs = 0) :
    residueDecode type r chlist s = .ok false s := by
  rw [residueDecode_eq hty chlist hR hT hp hplan]
  refine absorb_ok ?_
  unfold decodeStages
  rw [if_pos (hempty.imp_right .inl)]
  rfl

/-- R264: a bundle with every channel silent has no vector. -/
theorem ResiduePlan.vecs_of_used_nil {p : ResiduePlan} (h : p.used = []) : p.vecs = 0 := by
  simp [ResiduePlan.vecs, h]

theorem State.activeChannels_eq_nil {s : State} {chlist : List Nat} (h : ∀ c ∈ chlist, s.isNonzero c = false) :
    s.activeChannels chlist = [] :=
  List.filter_eq_nil_iff.2 fun c hc => by simp [h c hc]

/-- Under a valid configuration a residue decode raises nothing: what the packet raises it absorbs (R270). -/
theorem residueDecode_within {c : Cfg} {T : Tab} {x : EofInResidue} {r : Nat} (h : ResidueUsable c T r) (type : Nat)
    (chlist : List Nat) : Within c T x Never (residueDecode type r chlist) :=
  Within.ite (fun _ => res0Inverse_within h chlist) fun _ =>
    Within.ite (fun _ => res1Inverse_within h chlist) fun _ => res2Inverse_within h chlist

/-- A residue decode by its type, as one instruction of a decoder with a valid configuration. -/
theorem residueInstr_completes {s : State} {type : Nat} {r first count : BitVec 8} {residues channels : Nat}
    (hty : type ≤ 2) (hr : s.phase = .ready) (hconf : s.Configured) (hres : s.cfg.residues = some residues)
    (hlt : r.toNat < residues) (hch : s.cfg.channels = some channels) (hcount : 1 ≤ count.toNat)
    (hfit : first.toNat + count.toNat ≤ channels) (htype : fieldAt s.cfg.residueType r.toNat = some type) :
    (∃ t, exec (residueInstr type r first count) s = .next t ∧ t.status = 0 ∧ (t.res = 0 ∨ t.res = 1)) ∧
    ((∀ c, first.toNat ≤ c → c < first.toNat + count.toNat → s.isNonzero c = false) →
      exec (residueInstr type r first count) s = .next (s.completeOk 0)) ∧
    ∀ R, fieldAt s.cfg.residue r.toNat = some R →
      partitionCount R (if type = 2 then s.pcmend.toNat / 2 * count.toNat else s.pcmend.toNat / 2) = 0 →
      exec (residueInstr type r first count) s = .next (s.completeOk 0) := by
  obtain ⟨n, hn, -, husable⟩ := hconf.residues
  obtain rfl : residues = n := Option.some.inj (hres.symm.trans hn)
  have husable := husable r.toNat hlt
  have hj := judgeResidue_ok hr hres hlt htype hch hcount hfit
  have hnever := residueDecode_within husable type (channelRun first.toNat count.toNat) s ⟨rfl, rfl, rfl⟩
  obtain ⟨R, T, -, hR, hT, -, ⟨phrase, hp⟩, -⟩ := husable
  have hnothing : ∀ {p}, p = s.residuePlan type R T phrase.dim (channelRun first.toNat count.toNat) →
      p.nparts = 0 ∨ p.vecs = 0 → exec (residueInstr type r first count) s = .next (s.completeOk 0) := fun hplan hempty =>
    exec_residueInstr hty hj (residueDecode_empty hty _ hR hT hp hplan hempty)
  refine ⟨?completes, fun hsilent => ?silent, fun R' hR' hparts => ?short⟩
  case completes =>
    cases hrun : residueDecode type r.toNat (channelRun first.toNat count.toNat) s with
    | error e t => exact (hnever.error hrun).2.elim
    | ok e t =>
      refine ⟨_, exec_residueInstr hty hj hrun, rfl, ?_⟩
      cases e
      · exact .inl rfl
      · exact .inr rfl
  case silent =>
    refine hnothing rfl (.inr (ResiduePlan.vecs_of_used_nil (State.activeChannels_eq_nil fun c hc => ?_)))
    obtain ⟨hge, hlt⟩ := mem_channelRun_bounds hc
    exact hsilent c hge hlt
  case short =>
    obtain rfl : R' = R := Option.some.inj (hR'.symm.trans hR)
    refine hnothing rfl (.inl ?_)
    simpa only [State.residuePlan, channelRun_length] using hparts

/-- Settles O42: each type by the lemma for all of them. -/
theorem residueAlwaysCompletes : Obligations.ResidueAlwaysCompletes := by
  intro s r first count residues channels hr hconf hres hlt hch hcount hfit i hi
  have hall := fun type (hty : type ≤ 2) => residueInstr_completes hty hr hconf hres hlt hch hcount hfit
  rcases hi with ⟨rfl, htype⟩ | ⟨rfl, htype⟩ | ⟨rfl, htype⟩
  · simpa [residueInstr] using hall 0 (by decide) htype
  · simpa [residueInstr] using hall 1 (by decide) htype
  · simpa [residueInstr] using hall 2 (by decide) htype

end Sys2Proof.Machine
end

section
/-! SUPPORT. Residue decode on a payload that holds its codewords (44_residue.md R265 to R272). `Plays s g T op ws v` says that
`op` reads the codewords `ws`, adds their values and returns `v`, and how it ends when the payload stops it where one of them
would begin; one lemma for each way decoding operations are put together. -/

namespace Sys2Proof.Machine

/-! ## Codewords played one after the other -/

/-- The codewords added and the cursor past them, with the tables of `s`. -/
def State.play (s : State) (ws : List ResidueWord) (t : State) : State :=
  (ws.foldl State.addWord t).advance (fieldBits (s.wordsFields ws))

/-- What can stop a residue decode at `t`, where the codeword `w` would begin: the end of the payload, or, for a phrase symbol,
an entry of the phrase book `g` with no row in the decode map (R265, R270). -/
inductive State.StopsAt (s : State) (g : Nat) (T : ResTable) (w : ResidueWord) (t : State) : Failure → State → Prop where
  | ended : t.pos = 8 * t.len.toNat → StopsAt s g T w t .eof (t.advance 1).setEoff
  | unmapped {e : Nat} : w.place = .phrase → T.partvals ≤ e → s.codes g e → t.Sends (s.codeFields g e) →
      StopsAt s g T w t .badCode (t.advance (fieldBits (s.codeFields g e)))

/-- At every state with the configuration and tables of `s`: where the codewords are sent they are played and `v` is returned;
where they are sent up to one of them and stop there, the operation raises with those before it played. -/
structure Plays {α : Type} (s : State) (g : Nat) (T : ResTable) (op : Op α) (ws : List ResidueWord) (v : α) : Prop where
  reads : ∀ t : State, t.has (s.cfg, s.tab) → t.Sends (s.wordsFields ws) → op t = .ok v (s.play ws t)
  stops : ∀ t : State, t.has (s.cfg, s.tab) → ∀ k w, ws[k]? = some w → t.Sends (s.wordsFields (ws.take k)) →
    ∀ e u, s.StopsAt g T w (s.play (ws.take k) t) e u → op t = .error e u

section

variable {s t : State}

theorem State.wordsFields_append (ws ws' : List ResidueWord) :
    s.wordsFields (ws ++ ws') = s.wordsFields ws ++ s.wordsFields ws' := List.flatMap_append

theorem State.wordsFields_cons (w : ResidueWord) (ws : List ResidueWord) :
    s.wordsFields (w :: ws) = s.codeFields w.book w.entry ++ s.wordsFields ws := List.flatMap_cons

/-- Adding a codeword's values changes `PCM` and `LSP` only. -/
theorem State.addWord_eq (w : ResidueWord) (t : State) : ∃ rows l, t.addWord w = (t.setPcm rows).setLsp l := by
  unfold State.addWord
  split
  · exact ⟨t.pcm, t.lsp, rfl⟩
  · exact storeRun_eq _ _ _ _ _ _
  · exact addInterleaved_eq _ _ _ _

theorem State.addWord_advance (w : ResidueWord) (n : Nat) (t : State) :
    (t.advance n).addWord w = (t.addWord w).advance n := by
  unfold State.addWord
  split
  · rfl
  · exact storeRun_advance _ _ _ _ _ _ _
  · exact addInterleaved_advance _ _ _ _ _

theorem State.foldl_addWord_advance (n : Nat) : ∀ (ws : List ResidueWord) (t : State),
    ws.foldl State.addWord (t.advance n) = (ws.foldl State.addWord t).advance n
  | [], _ => rfl
  | w :: ws, t => by rw [List.foldl_cons, State.addWord_advance, State.foldl_addWord_advance n ws, List.foldl_cons]

theorem State.foldl_addWord_eq : ∀ (ws : List ResidueWord) (t : State),
    ∃ rows l, ws.foldl State.addWord t = (t.setPcm rows).setLsp l
  | [], t => ⟨t.pcm, t.lsp, rfl⟩
  | w :: ws, t => by
    obtain ⟨rows, l, hw⟩ := State.addWord_eq w t
    obtain ⟨rows', l', hws⟩ := State.foldl_addWord_eq ws ((t.setPcm rows).setLsp l)
    exact ⟨rows', l', by rw [List.foldl_cons, hw, hws]; rfl⟩

theorem State.play_nil : s.play [] t = t := rfl

theorem State.play_append (ws ws' : List ResidueWord) : s.play (ws ++ ws') t = s.play ws' (s.play ws t) := by
  unfold State.play
  rw [State.wordsFields_append, fieldBits_append, List.foldl_append, State.foldl_addWord_advance, State.advance_advance]

/-- Playing codewords leaves the configuration and the tables. -/
theorem State.has.play (h : t.has (s.cfg, s.tab)) (ws : List ResidueWord) : (s.play ws t).has (s.cfg, s.tab) := by
  obtain ⟨rows, l, hws⟩ := State.foldl_addWord_eq ws t
  unfold State.play
  rw [hws]
  exact h

/-- What is sent after the codewords is sent once they are played. -/
theorem State.Sends.play {ws : List ResidueWord} {fs : List (Nat × Nat)} (h : t.Sends (s.wordsFields ws ++ fs)) :
    (s.play ws t).Sends fs := by
  obtain ⟨rows, l, hws⟩ := State.foldl_addWord_eq ws t
  unfold State.play
  rw [hws]
  exact h.right.congr rfl rfl rfl rfl

theorem State.valuesOf_of_has (h : t.has (s.cfg, s.tab)) (b e : Nat) : t.valuesOf b e = s.valuesOf b e := by
  obtain ⟨hc, hT⟩ := h
  unfold State.valuesOf
  rw [hc, hT]

end

/-! ## The calculus -/

section

variable {α β ι : Type} {s : State} {g : Nat} {T : ResTable} {ws ws' : List ResidueWord}

theorem Plays.pure (v : α) : Plays s g T (Pure.pure v : Op α) [] v :=
  ⟨fun _ _ _ => rfl, fun _ _ k w hk => by simp at hk⟩

theorem Plays.bind {op : Op α} {f : α → Op β} {v : α} {v' : β} (h : Plays s g T op ws v)
    (hf : Plays s g T (f v) ws' v') : Plays s g T (op >>= f) (ws ++ ws') v' where
  reads t ht hs := by
    rw [State.wordsFields_append] at hs
    rw [bind_ok (h.reads t ht hs.left), hf.reads _ (ht.play ws) hs.play, State.play_append]
  stops t ht k w hk hs e u hstop := by
    rcases Nat.lt_or_ge k ws.length with hlt | hge
    · rw [List.getElem?_append_left hlt] at hk
      rw [List.take_append_of_le_length hlt.le] at hs hstop
      exact bind_error (h.stops t ht k w hk hs e u hstop)
    · rw [List.getElem?_append_right hge] at hk
      rw [List.take_append, List.take_of_length_le hge] at hs hstop
      rw [State.wordsFields_append] at hs
      rw [State.play_append] at hstop
      rw [bind_ok (h.reads t ht hs.left)]
      exact hf.stops _ (ht.play ws) _ w hk hs.play e u hstop

theorem Plays.bind_pure {op : Op α} {f : α → β} {v : α} (h : Plays s g T op ws v) :
    Plays s g T (op >>= fun a => Pure.pure (f a)) ws (f v) := by
  have hpair := Plays.bind (f := fun a => Pure.pure (f a)) h (Plays.pure (f v))
  rwa [List.append_nil] at hpair

/-- One codeword, then the rest. -/
theorem Plays.cons {op rest : Op α} {w : ResidueWord} {v : α}
    (hread : ∀ t : State, t.has (s.cfg, s.tab) → t.Sends (s.codeFields w.book w.entry) → op t = rest (s.play [w] t))
    (hstop : ∀ t : State, t.has (s.cfg, s.tab) → ∀ e u, s.StopsAt g T w t e u → op t = .error e u)
    (hrest : Plays s g T rest ws v) : Plays s g T op (w :: ws) v where
  reads t ht hs := by
    have hs : t.Sends (s.wordsFields ([w] ++ ws)) := hs
    rw [State.wordsFields_append] at hs
    have hw : t.Sends (s.codeFields w.book w.entry) := by simpa [State.wordsFields] using hs.left
    rw [hread t ht hw, hrest.reads _ (ht.play [w]) hs.play, ← State.play_append]
    rfl
  stops t ht k w' hk hs e u hat := by
    cases k with
    | zero =>
      obtain rfl : w = w' := by simpa using hk
      exact hstop t ht e u hat
    | succ k =>
      have hs : t.Sends (s.wordsFields ([w] ++ ws.take k)) := hs
      rw [State.wordsFields_append] at hs
      have hw : t.Sends (s.codeFields w.book w.entry) := by simpa [State.wordsFields] using hs.left
      have hat : s.StopsAt g T w' (s.play ([w] ++ ws.take k) t) e u := hat
      rw [State.play_append] at hat
      rw [hread t ht hw]
      exact hrest.stops _ (ht.play [w]) k w' hk hs.play e u hat

/-- A field of the configuration or the tables looked up, then the rest. -/
theorem Plays.lookup {f : State → Option β} {x : β} {op : β → Op α} {v : α}
    (hx : ∀ t : State, t.has (s.cfg, s.tab) → f t = some x) (h : Plays s g T (op x) ws v) :
    Plays s g T ((MonadStateOf.get : Op State) >>= fun t => need (f t) >>= op) ws v where
  reads t ht hs := (lookup_bind (hx t ht)).trans (h.reads t ht hs)
  stops t ht k w hk hs e u hat := (lookup_bind (hx t ht)).trans (h.stops t ht k w hk hs e u hat)

theorem Plays.forEach {body : ι → Op Unit} {words : ι → List ResidueWord} : ∀ l : List ι,
    (∀ x ∈ l, Plays s g T (body x) (words x) ()) → Plays s g T (Machine.forEach l body) (l.flatMap words) ()
  | [], _ => Plays.pure ()
  | x :: l, h => by
    rw [List.flatMap_cons]
    exact Plays.bind (h x List.mem_cons_self) (Plays.forEach l fun y hy => h y (List.mem_cons_of_mem x hy))

/-- A loop that reads one codeword a round and counts its rounds. -/
theorem Plays.forEach_zipIdx {body : Nat → Op Unit} {word : Nat × Nat → ResidueWord} : ∀ (es : List Nat) (start : Nat),
    (∀ e ∈ es, ∀ j, Plays s g T (body j) [word (e, j)] ()) →
    Plays s g T (Machine.forEach (List.range' start es.length) body) ((es.zipIdx start).map word) ()
  | [], _, _ => Plays.pure ()
  | e :: es, start, h => Plays.bind (h e List.mem_cons_self start)
      (Plays.forEach_zipIdx es (start + 1) fun x hx => h x (List.mem_cons_of_mem e hx))

/-- A loop that collects one codeword's meaning a round. -/
theorem Plays.collect {body : ι → Op α} {word : Nat → ResidueWord} {meaning : Nat → α} : ∀ (l : List ι) (es : List Nat),
    l.length = es.length → (∀ e ∈ es, ∀ x, Plays s g T (body x) [word e] (meaning e)) →
    Plays s g T (Machine.collect l body) (es.map word) (es.map meaning)
  | [], [], _, _ => Plays.pure []
  | x :: l, e :: es, hlen, h => by
    have hrest := Plays.collect l es (by simpa using hlen) fun y hy => h y (List.mem_cons_of_mem e hy)
    exact Plays.bind (h e List.mem_cons_self x) hrest.bind_pure
  | [], _ :: _, hlen, _ => by simp at hlen
  | _ :: _, [], hlen, _ => by simp at hlen

/-! ## One codeword -/

/-- R190, R163: a scalar decode at the end of the payload asks for one bit and sets `EOFF`. -/
theorem cbDecode_ended {t : State} {b e : Nat} (ht : t.has (s.cfg, s.tab)) (hcode : s.codes b e)
    (hend : t.pos = 8 * t.len.toNat) : cbDecode b t = .error .eof (t.advance 1).setEoff := by
  obtain ⟨ws, hws, -⟩ := hcode.word
  have hread : readBit t = .error .eof (t.advance 1).setEoff :=
    bind_error (readBits_eof (State.avail_eq_false_iff.2 (by omega)))
  refine (lookup_bind (g := fun s => fieldAt s.tab.bookWords b) ((congrArg (fun T : Tab => fieldAt T.bookWords b) ht.2).trans hws)).trans ?_
  exact bind_error hread

theorem cbDecode_sends {t : State} {b e : Nat} (ht : t.has (s.cfg, s.tab)) (hcode : s.codes b e)
    (hs : t.Sends (s.codeFields b e)) : cbDecode b t = .ok e (t.advance (fieldBits (s.codeFields b e))) := by
  rw [Reads.cbDecode s.has_self hcode t ht hs, State.with_self (by exact ht)]

/-- R265: a phrase symbol gives the classes of its group, unless it has no row in the decode map. -/
theorem Plays.readPhrase {e : Nat} (hmap : e < T.partvals) (hcode : s.codes g e) :
    Plays s g T (Machine.readPhrase g T) [{ book := g, entry := e, place := .phrase }] (T.decodemap.getD e []) := by
  refine Plays.cons (rest := Pure.pure (T.decodemap.getD e [])) (fun t ht hs => ?reads) (fun t ht f u hat => ?stops)
    (Plays.pure _)
  case reads =>
    refine (bind_ok (cbDecode_sends ht hcode hs)).trans ?_
    rw [if_pos hmap]
    simp [State.play, State.wordsFields, State.addWord]
  case stops =>
    cases hat with
    | ended hend => exact bind_error (cbDecode_ended ht hcode hend)
    | unmapped _ hout hcode' hs =>
      refine (bind_ok (cbDecode_sends ht hcode' hs)).trans ?_
      rw [if_neg (Nat.not_lt.2 hout)]
      rfl

/-- R193: one codeword of a vector book whose values are stored, then the rest. -/
theorem Plays.decodeValues_bind {f : Nat × List F32 → Op α} {rest : Op α} {w : ResidueWord} {dim : Nat} {v : α}
    (hb : s.vectorBook w.book dim) (hcode : s.codes w.book w.entry) (hplace : w.place ≠ .phrase)
    (hf : ∀ t : State, t.has (s.cfg, s.tab) → f (w.entry, t.valuesOf w.book w.entry) t = rest (t.addWord w)) (hrest : Plays s g T rest ws v) :
    Plays s g T (Machine.decodeValues w.book >>= f) (w :: ws) v := by
  refine Plays.cons (fun t ht hs => ?reads) (fun t ht e u hat => ?stops) hrest
  case reads =>
    have hread := Reads.decodeValues s.has_self hb hcode t ht hs
    rw [State.with_self (by exact ht), ← State.valuesOf_of_has ht] at hread
    rw [bind_ok hread]
    refine (hf (t.advance _) ht).trans ?_
    simp [State.addWord_advance, State.play, State.wordsFields]
  case stops =>
    cases hat with
    | unmapped hphrase => exact absurd hphrase hplace
    | ended hend =>
      obtain ⟨-, ⟨values, hvalues⟩, r, hr, -⟩ := hb
      refine bind_error ?_
      refine (lookup_bind (g := fun s => fieldAt s.cfg.book w.book) ((congrArg (fun c : Cfg => fieldAt c.book w.book) ht.1).trans hr)).trans ?_
      refine (lookup_bind (g := fun s => fieldAt s.tab.bookValues w.book) ((congrArg (fun T : Tab => fieldAt T.bookValues w.book) ht.2).trans hvalues)).trans ?_
      exact bind_error (cbDecode_ended ht hcode hend)

/-- R193 to R195: codewords until position `stop` is reached, the `j`-th stored from `start + j * dim` on. -/
theorem Plays.decodeRun {put : Nat → List F32 → State → State} {b dim start stop : Nat} {place : Nat → Placement}
    (hb : s.vectorBook b dim) (hplace : ∀ j, place j ≠ .phrase)
    (hput : ∀ (t : State) (e j : Nat), put (start + j * dim) (t.valuesOf b e) t =
      t.addWord { book := b, entry := e, place := place j }) :
    ∀ (es : List Nat) (j fuel : Nat), stop - (start + j * dim) ≤ fuel →
      es.length = codewordsFor (stop - (start + j * dim)) dim → (∀ e ∈ es, s.codes b e) →
      Plays s g T (Machine.decodeRun b put stop fuel (start + j * dim))
        ((es.zipIdx j).map fun x => { book := b, entry := x.1, place := place x.2 }) ()
  | [], j, fuel, _, hlen, _ => by
    have hdone : stop ≤ start + j * dim := by
      by_contra hlt
      rw [codewordsFor_step hb.dim_pos (by omega)] at hlen
      cases hlen
    rw [decodeRun_done b hdone]
    exact Plays.pure ()
  | e :: es, j, fuel, hfuel, hlen, hcodes => by
    have hlt : 0 < stop - (start + j * dim) := by
      by_contra hdone
      rw [show stop - (start + j * dim) = 0 by omega, codewordsFor_zero hb.dim_pos] at hlen
      cases hlen
    have hnext : start + j * dim + dim = start + (j + 1) * dim := by ring
    obtain ⟨fuel, rfl⟩ : ∃ fuel', fuel = fuel' + 1 := ⟨fuel - 1, by omega⟩
    rw [codewordsFor_step hb.dim_pos hlt, List.length_cons, Nat.add_right_cancel_iff, Nat.sub_sub, hnext] at hlen
    have hrest := Plays.decodeRun hb hplace hput es (j + 1) fuel (by have := hb.dim_pos; omega) hlen
      fun x hx => hcodes x (List.mem_cons_of_mem e hx)
    rw [Machine.decodeRun, if_pos (by omega)]
    refine Plays.decodeValues_bind (w := { book := b, entry := e, place := place j }) hb (hcodes e List.mem_cons_self)
      (hplace j) (fun t ht => ?_) hrest
    have hlength : (t.valuesOf b e).length = dim := by rw [State.valuesOf_of_has ht, hb.valuesOf_length]
    show Machine.decodeRun b put stop fuel (start + j * dim + (t.valuesOf b e).length) (put (start + j * dim) (t.valuesOf b e) t) = _
    rw [hlength, hnext, hput]

end

end Sys2Proof.Machine
end

section
/-! SUPPORT. The loops of residue decode (44_residue.md R265) on a payload that holds a residue's codewords: partition, group and
stage, up to the whole instruction. -/

namespace Sys2Proof.Machine

/-! ## One partition -/

section

variable {s : State} {g : Nat} {T : ResTable} (p : ResiduePlan)

theorem State.vectorBook.dimOf_eq {b dim : Nat} (h : s.vectorBook b dim) : s.dimOf b = dim := by
  obtain ⟨-, -, r, hr, -, hdim, -⟩ := h
  simp [State.dimOf, hr, hdim]

/-- R266, R267, R269: the layout of the plan's type reads the codewords of a partition and puts the values of each where
`ResiduePlan.place` says. -/
theorem Plays.layout {b dim i v : Nat} {es : List Nat} (hb : s.vectorBook b dim) (hlen : es.length = p.wordCount dim i)
    (hcodes : ∀ e ∈ es, s.codes b e) : Plays s g T (p.layout v (p.offset i) b)
      (es.zipIdx.map fun x => { book := b, entry := x.1, place := p.place dim i v x.2 }) () := by
  unfold ResiduePlan.layout ResiduePlan.place
  unfold ResiduePlan.wordCount at hlen
  split at hlen
  case isTrue htype =>
    simp only [if_pos htype]
    obtain ⟨-, -, r, hr, -, rfl, -⟩ := id hb
    refine Plays.lookup (x := r) (fun t ht => (congrArg (fun c : Cfg => fieldAt c.book b) ht.1).trans hr) ?_
    dsimp only
    rw [← hlen, List.range_eq_range']
    refine Plays.forEach_zipIdx es 0 fun e he j => Plays.bind_pure (v := e) (f := fun _ => ()) ?_
    exact Plays.decodeValues_bind (rest := Pure.pure e) (w := { book := b, entry := e, place := .row _ _ _ }) hb
      (hcodes e he) (by simp) (fun _ _ => by rw [hlen]; rfl) (Plays.pure e)
  case isFalse htype =>
    simp only [if_neg htype]
    split at hlen
    case isTrue htype1 =>
      simp only [if_pos htype1]
      unfold layout1 cbDecodeAdd
      rw [decodeFill_eq_decodeRun]
      have hrun := Plays.decodeRun (g := g) (T := T) (start := 0) (stop := p.record.grouping)
        (put := fun i' => storeRun (.pcm (p.used.getD v 0)) .add 1 (p.offset i + i'))
        (place := fun j => .row (p.used.getD v 0) 1 (p.offset i + j * dim)) hb (by simp)
        (fun t e j => by rw [Nat.zero_add]; rfl) es 0 p.record.grouping (by omega) (by simpa using hlen) hcodes
      simpa using hrun
    case isFalse htype2 =>
      simp only [if_neg htype2]
      unfold layout2 cbDecodeVvAdd
      dsimp only
      rw [decodeInterleaved_eq_decodeRun]
      have hrun := Plays.decodeRun (g := g) (T := T) (start := p.offset i / p.chlist.length * p.chlist.length)
        (stop := (p.offset i + p.record.grouping) / p.chlist.length * p.chlist.length)
        (put := addInterleaved p.chlist)
        (place := fun j => .bundle p.chlist (p.offset i / p.chlist.length * p.chlist.length + j * dim)) hb (by simp)
        (fun t e j => rfl) es 0 _ le_rfl (by simpa using hlen) hcodes
      simpa using hrun

end

/-! ## Groups -/

section

variable (s : State) (p : ResiduePlan) (phrases : List (List Nat)) (entries : Nat → Nat → Nat → List Nat)

/-- The classes of group `m`, vector by vector (R262). -/
def ResiduePlan.groupClasses (m : Nat) : List (List Nat) := (phrases.getD m []).map fun t => p.table.decodemap.getD t []

/-- The classes of the groups from `m` on, as many as `fuel` rounds reach. -/
def ResiduePlan.groupsFrom : Nat → Nat → List (List (List Nat))
  | 0, _ => []
  | fuel + 1, m =>
    if m * p.pdim < p.nparts then p.groupClasses phrases m :: groupsFrom fuel (m + 1) else []

/-- The phrase symbols of group `m` as they are sent. -/
def ResiduePlan.phraseWords (m : Nat) : List ResidueWord :=
  (phrases.getD m []).map fun t => { book := p.record.groupbook, entry := t, place := .phrase }

/-- The codewords of partition `i` at a stage, vector by vector. -/
def State.vectorWords (stage i : Nat) : List ResidueWord :=
  (List.range p.vecs).flatMap (s.partitionWords p phrases entries stage i)

/-- The same with the phrase symbols that come before it. -/
def State.stepWords (stage i : Nat) : List ResidueWord :=
  (if stage = 0 ∧ i % p.pdim = 0 then p.phraseWords phrases (i / p.pdim) else []) ++ s.vectorWords p phrases entries stage i

theorem State.residueWords_eq : s.residueWords p phrases entries =
    (List.range p.table.stages).flatMap fun stage =>
      (List.range p.nparts).flatMap (s.stepWords p phrases entries stage) := rfl

variable {s p phrases entries}

theorem ResiduePlan.classAt_group {m k v : Nat} (hk : k < p.pdim) (hv : v < (phrases.getD m []).length) :
    ((p.groupClasses phrases m).getD v []).getD k 0 = p.classAt phrases (m * p.pdim + k) v := by
  have hdiv : (m * p.pdim + k) / p.pdim = m := by
    rw [Nat.mul_comm, Nat.mul_add_div (by omega), Nat.div_eq_of_lt hk, Nat.add_zero]
  have hmod : (m * p.pdim + k) % p.pdim = k := by
    rw [Nat.mul_comm, Nat.mul_add_mod, Nat.mod_eq_of_lt hk]
  have hword : (p.groupClasses phrases m).getD v [] =
      p.table.decodemap.getD ((phrases.getD m []).getD v 0) [] := by
    rw [ResiduePlan.groupClasses, List.getD_eq_getElem (hn := by simpa using hv), List.getElem_map,
      List.getD_eq_getElem (hn := hv)]
  rw [ResiduePlan.classAt, hdiv, hmod, hword]

theorem State.stepWords_inner {stage m k : Nat} (hk : k < p.pdim) (h : stage ≠ 0 ∨ k ≠ 0) :
    s.stepWords p phrases entries stage (m * p.pdim + k) = s.vectorWords p phrases entries stage (m * p.pdim + k) := by
  have hmod : (m * p.pdim + k) % p.pdim = k := by
    rw [Nat.mul_comm, Nat.mul_add_mod, Nat.mod_eq_of_lt hk]
  unfold State.stepWords
  rw [if_neg (by rw [hmod]; tauto), List.nil_append]

theorem State.stepWords_first {m : Nat} (hpdim : 1 ≤ p.pdim) :
    s.stepWords p phrases entries 0 (m * p.pdim) =
      p.phraseWords phrases m ++ s.vectorWords p phrases entries 0 (m * p.pdim) := by
  unfold State.stepWords
  rw [if_pos ⟨rfl, Nat.mul_mod_left m p.pdim⟩, Nat.mul_div_cancel _ hpdim]

/-- A group's codewords and then those of the groups after it. -/
theorem State.stepWords_group (stage : Nat) {m : Nat} (hpdim : 1 ≤ p.pdim) (hm : m * p.pdim < p.nparts) :
    (List.range' (m * p.pdim) (p.nparts - m * p.pdim)).flatMap (s.stepWords p phrases entries stage) =
      (if stage = 0 then p.phraseWords phrases m else []) ++
      ((List.range' (m * p.pdim) (min p.pdim (p.nparts - m * p.pdim))).flatMap (s.vectorWords p phrases entries stage) ++
      (List.range' ((m + 1) * p.pdim) (p.nparts - (m + 1) * p.pdim)).flatMap (s.stepWords p phrases entries stage)) := by
  have hnext : (m + 1) * p.pdim = m * p.pdim + p.pdim := Nat.succ_mul m p.pdim
  obtain ⟨n, hn⟩ : ∃ n, min p.pdim (p.nparts - m * p.pdim) = n + 1 :=
    ⟨min p.pdim (p.nparts - m * p.pdim) - 1, by omega⟩
  have hsplit : List.range' (m * p.pdim) (p.nparts - m * p.pdim) =
      List.range' (m * p.pdim) (n + 1) ++ List.range' ((m + 1) * p.pdim) (p.nparts - (m + 1) * p.pdim) := by
    rcases Nat.le_total p.pdim (p.nparts - m * p.pdim) with hle | hle
    · rw [show n + 1 = p.pdim by omega, hnext, List.range'_append_1]
      congr 1
      omega
    · rw [show p.nparts - (m + 1) * p.pdim = 0 by omega, show n + 1 = p.nparts - m * p.pdim by omega]
      simp
  have hinner : ∀ k, 1 ≤ k → k < n + 1 → s.stepWords p phrases entries stage (m * p.pdim + k) =
      s.vectorWords p phrases entries stage (m * p.pdim + k) := fun k h1 hk =>
    State.stepWords_inner (by omega) (.inr (by omega))
  have hrest : (List.range' (m * p.pdim + 1) n).flatMap (s.stepWords p phrases entries stage) =
      (List.range' (m * p.pdim + 1) n).flatMap (s.vectorWords p phrases entries stage) := by
    refine List.flatMap_congr fun i hi => ?_
    obtain ⟨hge, hlt⟩ := List.mem_range'_1.1 hi
    have := hinner (i - m * p.pdim) (by omega) (by omega)
    rwa [show m * p.pdim + (i - m * p.pdim) = i by omega] at this
  rw [hsplit, hn, List.flatMap_append, List.range'_succ, List.flatMap_cons, List.flatMap_cons, hrest]
  by_cases hstage : stage = 0
  · subst hstage
    rw [State.stepWords_first hpdim, if_pos rfl]
    simp only [List.append_assoc]
  · have hfirst := State.stepWords_inner (s := s) (p := p) (phrases := phrases) (entries := entries) (m := m) (k := 0)
      hpdim (.inl hstage)
    rw [Nat.add_zero] at hfirst
    rw [hfirst, if_neg hstage, List.nil_append, List.append_assoc]

/-! ## The loops -/

section

variable {g : Nat} {T : ResTable} (h : s.ResidueSendable p phrases entries)
include h

/-- One partition of one vector at a stage. -/
theorem Plays.decodeOne {stage i v : Nat} (hstage : stage < p.table.stages) (hi : i < p.nparts) (hv : v < p.vecs) :
    Plays s g T (Machine.decodeOne p.record p.table p.layout stage i v (p.classAt phrases i v))
      (s.partitionWords p phrases entries stage i v) () := by
  unfold Machine.decodeOne
  by_cases hbit : (p.record.secondstages.getD (p.classAt phrases i v) 0).testBit stage = true
  · obtain ⟨b, dim, hbook, hb, hlen, hcodes⟩ := h.book stage hstage i hi v hv hbit
    have hneed := hbook
    rw [ResiduePlan.bookAt, if_pos hbit] at hneed
    rw [if_pos hbit, hneed]
    unfold State.partitionWords
    rw [hbook]
    dsimp only
    rw [hb.dimOf_eq]
    exact Plays.layout p hb hlen hcodes
  · have hnone : p.bookAt phrases stage i v = none := by rw [ResiduePlan.bookAt, if_neg hbit]
    rw [if_neg hbit]
    unfold State.partitionWords
    rw [hnone]
    exact Plays.pure ()

/-- The partitions of group `m` from its `k`-th on. -/
theorem Plays.decodeGroup {stage m : Nat} (hstage : stage < p.table.stages) : ∀ left k i : Nat, i = m * p.pdim + k →
    k + left ≤ p.pdim → i + left ≤ p.nparts →
    Plays s g T (Machine.decodeGroup p.record p.table p.layout stage (p.groupClasses phrases m) left k i)
      ((List.range' i left).flatMap (s.vectorWords p phrases entries stage)) ()
  | 0, _, _, _, _, _ => Plays.pure ()
  | left + 1, k, i, hi, hk, hn => by
    have hdiv : i / p.pdim = m := by
      rw [hi, Nat.mul_comm, Nat.mul_add_div (by omega), Nat.div_eq_of_lt (by omega), Nat.add_zero]
    have hvecs : (phrases.getD m []).length = p.vecs := hdiv ▸ (h.phrase i (by omega)).1
    have hwords : (p.groupClasses phrases m).length = p.vecs := by
      rw [ResiduePlan.groupClasses, List.length_map, hvecs]
    rw [List.range'_succ, List.flatMap_cons]
    refine Plays.bind (v := ()) ?_ (Plays.decodeGroup hstage left (k + 1) (i + 1) (by omega) (by omega) (by omega))
    rw [hwords]
    refine Plays.forEach _ fun v hv => ?_
    have hv := List.mem_range.1 hv
    rw [ResiduePlan.classAt_group (by omega) (by omega), ← hi]
    exact Plays.decodeOne h hstage (by omega) hv

/-- Stage 0 from group `m` on. -/
theorem Plays.decodeFirstStage (hpdim : 1 ≤ p.pdim) (hstage : 0 < p.table.stages) : ∀ fuel m : Nat,
    p.nparts - m * p.pdim ≤ fuel →
    Plays s p.record.groupbook p.table
      (Machine.decodeFirstStage p.record p.table p.layout p.pdim p.vecs p.nparts fuel (m * p.pdim))
      ((List.range' (m * p.pdim) (p.nparts - m * p.pdim)).flatMap (s.stepWords p phrases entries 0))
      (p.groupsFrom phrases fuel m)
  | 0, m, hfuel => by
    rw [show p.nparts - m * p.pdim = 0 by omega]
    exact Plays.pure []
  | fuel + 1, m, hfuel => by
    unfold Machine.decodeFirstStage ResiduePlan.groupsFrom
    by_cases hm : m * p.pdim < p.nparts
    · have hnext : m * p.pdim + p.pdim = (m + 1) * p.pdim := (Nat.succ_mul m p.pdim).symm
      have hphrase := h.phrase (m * p.pdim) hm
      rw [Nat.mul_div_cancel _ hpdim] at hphrase
      obtain ⟨hlen, hsent⟩ := hphrase
      rw [if_pos hm, if_pos hm, State.stepWords_group 0 hpdim hm, if_pos rfl, hnext]
      refine Plays.bind (Plays.collect _ _ (by rw [List.length_range, hlen]) fun t ht _ =>
        Plays.readPhrase (hsent t ht).1 (hsent t ht).2) ?_
      refine Plays.bind (Plays.decodeGroup h hstage _ 0 _ (by omega) (by omega) (by omega)) ?_
      exact (Plays.decodeFirstStage hpdim hstage fuel (m + 1) (by omega)).bind_pure
    · rw [if_neg hm, if_neg hm, show p.nparts - m * p.pdim = 0 by omega]
      exact Plays.pure []

/-- A later stage from group `m` on. -/
theorem Plays.decodeLaterStage (hpdim : 1 ≤ p.pdim) {stage : Nat} (hstage : stage < p.table.stages) (hlater : stage ≠ 0) :
    ∀ fuel m : Nat, p.nparts - m * p.pdim ≤ fuel →
    Plays s g T (Machine.decodeLaterStage p.record p.table p.layout p.pdim p.nparts stage (p.groupsFrom phrases fuel m)
        (m * p.pdim))
      ((List.range' (m * p.pdim) (p.nparts - m * p.pdim)).flatMap (s.stepWords p phrases entries stage)) ()
  | 0, m, hfuel => by
    rw [show p.nparts - m * p.pdim = 0 by omega]
    exact Plays.pure ()
  | fuel + 1, m, hfuel => by
    unfold ResiduePlan.groupsFrom
    by_cases hm : m * p.pdim < p.nparts
    · have hnext : m * p.pdim + p.pdim = (m + 1) * p.pdim := (Nat.succ_mul m p.pdim).symm
      rw [if_pos hm, State.stepWords_group stage hpdim hm, if_neg hlater, List.nil_append]
      unfold Machine.decodeLaterStage
      rw [hnext]
      exact Plays.bind (Plays.decodeGroup h hstage _ 0 _ (by omega) (by omega) (by omega))
        (Plays.decodeLaterStage hpdim hstage hlater fuel (m + 1) (by omega))
    · rw [if_neg hm, show p.nparts - m * p.pdim = 0 by omega]
      exact Plays.pure ()

/-- Without a partition, a vector or a stage no codeword is sent. -/
theorem State.ResidueSendable.words_nil (hempty : p.nparts = 0 ∨ p.vecs = 0 ∨ p.table.stages = 0) :
    s.residueWords p phrases entries = [] := by
  rw [State.residueWords_eq]
  rcases hempty with h0 | h0 | h0
  · simp [h0]
  · refine List.flatMap_eq_nil_iff.2 fun stage _ => List.flatMap_eq_nil_iff.2 fun i hi => ?_
    have hlen := (h.phrase i (List.mem_range.1 hi)).1
    rw [h0, List.length_eq_zero_iff] at hlen
    rw [State.stepWords, State.vectorWords, ResiduePlan.phraseWords, h0, hlen]
    simp
  · simp [h0]

/-- R265, R272: the stages of a residue decode read its codewords in order. -/
theorem Plays.decodeStages (hpdim : 1 ≤ p.pdim) : Plays s p.record.groupbook p.table
    (Machine.decodeStages p.record p.table p.layout p.pdim p.vecs p.nparts) (s.residueWords p phrases entries) false := by
  unfold Machine.decodeStages
  by_cases hempty : p.nparts = 0 ∨ p.vecs = 0 ∨ p.table.stages = 0
  · rw [if_pos hempty, h.words_nil hempty]
    exact Plays.pure false
  · obtain ⟨n, hn⟩ : ∃ n, p.table.stages = n + 1 := ⟨p.table.stages - 1, by omega⟩
    have hfirst := Plays.decodeFirstStage h hpdim (by omega) p.nparts 0 (by omega)
    have hlater := Plays.forEach (s := s) (g := p.record.groupbook) (T := p.table) ((List.range n).map (· + 1))
      (body := fun stage => Machine.decodeLaterStage p.record p.table p.layout p.pdim p.nparts stage
        (p.groupsFrom phrases p.nparts 0) 0)
      (words := fun stage => (List.range p.nparts).flatMap (s.stepWords p phrases entries stage)) fun stage hst => by
        obtain ⟨j, hj, rfl⟩ := List.mem_map.1 hst
        have hj := List.mem_range.1 hj
        have := Plays.decodeLaterStage (g := p.record.groupbook) (T := p.table) h hpdim (stage := j + 1) (by omega)
          (by omega) p.nparts 0 (by omega)
        simpa [List.range_eq_range'] using this
    rw [Nat.zero_mul, Nat.sub_zero, ← List.range_eq_range'] at hfirst
    rw [if_neg hempty, State.residueWords_eq, hn, List.range_succ_eq_map, List.flatMap_cons, Nat.add_sub_cancel]
    exact Plays.bind hfirst hlater.bind_pure

end

end

/-! ## The instruction -/

/-- A stop is what the residue operation absorbs. -/
theorem State.StopsAt.absorbed {α : Type} {s t u : State} {g : Nat} {T : ResTable} {w : ResidueWord} {e : Failure}
    (h : s.StopsAt g T w t e u) {op handler : Op α} {t0 : State} (hop : op t0 = .error e u) :
    absorb op handler t0 = handler u := by
  cases h <;> simp [absorb, hop]

/-- Settles O43: the decode plays its codewords (`Plays.decodeStages`), and what stops it is absorbed. -/
theorem residueAddsItsCodewords : Obligations.ResidueAddsItsCodewords := by
  intro s r first count residues channels type R T phrase phrases entries hr hres hlt hch hcount hfit htype hty hR hT
    hphrase hpdim p ws hplan hws hsend
  have hj := judgeResidue_ok hr hres hlt htype hch hcount hfit
  have hdecode := residueDecode_eq hty (channelRun first.toNat count.toNat) hR hT hphrase hplan
  obtain ⟨hrecord, htable, hdim⟩ : p.record = R ∧ p.table = T ∧ p.pdim = phrase.dim := by subst hplan; exact ⟨rfl, rfl, rfl⟩
  have hplays := Plays.decodeStages hsend (by omega)
  rw [hrecord, htable, hdim, ← hws] at hplays
  have hread : s.Sends (s.wordsFields ws) → exec (residueInstr type r first count) s =
      .next ((s.play ws s).completeOk 0) := fun hs =>
    exec_residueInstr hty hj (hdecode.trans (absorb_ok (hplays.reads s s.has_self hs)))
  have hstop : ∀ k w, ws[k]? = some w → s.Sends (s.wordsFields (ws.take k)) → ∀ e u,
      s.StopsAt R.groupbook T w (s.play (ws.take k) s) e u →
      exec (residueInstr type r first count) s = .next (u.completeOk 1) := fun k w hk hs e u hat =>
    exec_residueInstr hty hj (hdecode.trans (hat.absorbed (hplays.stops s s.has_self k w hk hs e u hat)))
  refine ⟨hread, fun k w hk => ⟨fun hs hend => ?ended, fun t hplace hout hcode hs => ?unmapped⟩⟩
  case ended =>
    obtain ⟨rows, l, hwords⟩ := State.foldl_addWord_eq (ws.take k) s
    have hpos : (s.play (ws.take k) s).pos = 8 * (s.play (ws.take k) s).len.toNat := by
      unfold State.play
      rw [hwords]
      exact hend
    rw [hstop k w hk hs _ _ (.ended hpos), State.play, State.advance_advance]
  case unmapped =>
    rw [hstop k w hk hs.left _ _ (.unmapped hplace hout hcode hs.play), State.play, State.advance_advance,
      fieldBits_append]

end Sys2Proof.Machine
end

section
/-! SUPPORT. `MAP0.INVERSE` as the chain of states of Steps.lean (45_mapping.md R283, 44_residue.md R270): each loop is a fold of
its steps, whatever the parameter `EOF_IN_RESIDUE` is. -/

namespace Sys2Proof.Machine

/-! ## Loops of steps -/

section

variable {α β : Type} {R : State → State → Prop}

/-- What every outcome of an operation keeps, the state it leaves keeps. -/
theorem Keeps.leftBy {op : Op α} (h : Keeps R op) (s : State) : R s (s.leftBy op) := by
  unfold State.leftBy
  cases hrun : op s with
  | ok a t => exact (h s).ok hrun
  | error e t => exact (h s).error hrun

/-- What every step keeps, all of them together keep. -/
theorem FrameRel.foldl (hR : FrameRel R) {step : State → β → State} (h : ∀ t y, R t (step t y)) :
    ∀ (l : List β) (s : State), R s (l.foldl step s)
  | [], s => hR.refl s
  | y :: l, s => hR.trans (h s y) (FrameRel.foldl hR h l (step s y))

/-- Two folds whose steps agree wherever the frame of decoding reaches are one. -/
theorem foldl_congr_of_keeps (hR : FrameRel R) {s : State} {step step' : State → β → State} : ∀ (l : List β) (t : State),
    R s t → (∀ t y, R t (step t y)) → (∀ y ∈ l, ∀ t, R s t → step t y = step' t y) → l.foldl step t = l.foldl step' t
  | [], _, _, _, _ => rfl
  | y :: l, t, ht, hk, h => by
    rw [List.foldl_cons, List.foldl_cons, ← h y List.mem_cons_self t ht]
    exact foldl_congr_of_keeps hR l _ (hR.trans ht (hk t y)) hk fun z hz => h z (List.mem_cons_of_mem y hz)

/-- A loop whose body takes one step each round, and sees nothing of the parameter, is a fold of its steps. -/
theorem forEach_steps {s : State} {x : EofInResidue} {body : β → Op Unit} {step : State → β → State}
    (hblind : ∀ y, Blind (body y)) (hkeeps : ∀ y, Keeps DecodeFrame (body y)) : ∀ (l : List β) (t : State), DecodeFrame s t →
    (∀ y ∈ l, ∀ u, DecodeFrame s u → body y u = .ok () (step u y)) →
    forEach l body (t.withEofInResidue x) = .ok () ((l.foldl step t).withEofInResidue x) ∧ DecodeFrame s (l.foldl step t)
  | [], _, ht, _ => ⟨rfl, ht⟩
  | y :: l, t, ht, h => by
    have hy := h y List.mem_cons_self t ht
    have hyx : body y (t.withEofInResidue x) = .ok () ((step t y).withEofInResidue x) := by rw [hblind y x t, hy]; rfl
    obtain ⟨hrest, hframe⟩ := forEach_steps hblind hkeeps l (step t y) (ht.trans ((hkeeps y t).ok hy)) fun z hz =>
      h z (List.mem_cons_of_mem y hz)
    exact ⟨(bind_ok hyx).trans hrest, hframe⟩

end

/-! ## Floors -/

section

variable {s : State} {M : Mapping}

/-- R283 steps 1 and 5: the floor's type chooses between its two operations. -/
theorem floorInverse1_eq {f : Nat} (h : FloorUsable s.cfg s.tab f) (c : Nat) : floorInverse1 f c s =
    (if fieldAt s.cfg.floorType f = some 0 then f0Inverse1 f c else f1Inverse1 f c) s := by
  refine get_bind.trans ?_
  obtain ⟨hty, -⟩ | ⟨hty, -⟩ := h <;> rw [hty] <;> rfl

theorem floorInverse2_eq (P : Params) {f : Nat} (h : FloorUsable s.cfg s.tab f) (c : Nat) : floorInverse2 P f c s =
    (if fieldAt s.cfg.floorType f = some 0 then f0Inverse2 P f c else f1Inverse2 P f c) s := by
  refine get_bind.trans ?_
  obtain ⟨hty, -⟩ | ⟨hty, -⟩ := h <;> rw [hty] <;> rfl

/-- An operation that raises nothing under this configuration returns. -/
theorem Within.returns {α : Type} {op : Op α} (h : Within s.cfg s.tab s.eofInResidue Never op) : ∃ a t, op s = .ok a t := by
  have hs := h s ⟨rfl, rfl, rfl⟩
  cases hrun : op s with
  | ok a t => exact ⟨a, t, rfl⟩
  | error e t => exact (hs.error hrun).2.elim

/-- R284: pass 1 of a channel returns, and its flag and `TRUNC` say how. -/
theorem mapFloorPass1_eq {c : Nat} (h : FloorUsable s.cfg s.tab (floorOf M c)) :
    mapFloorPass1 M c s = .ok () (s.floorStep M c) := by
  obtain ⟨r, t, hrun⟩ := (floorInverse1_within (x := s.eofInResidue) (ch := c) h).returns
  refine (bind_ok hrun).trans ?_
  rw [floorInverse1_eq h] at hrun
  unfold State.floorStep
  rw [hrun]
  cases r <;> rfl

/-- R283 step 5: pass 2 of a channel returns. -/
theorem mapFloorPass2_eq (P : Params) {c : Nat} (h : FloorUsable s.cfg s.tab (floorOf M c)) : mapFloorPass2 P M c s =
    .ok () (s.leftBy (if fieldAt s.cfg.floorType (floorOf M c) = some 0 then f0Inverse2 P (floorOf M c) c
      else f1Inverse2 P (floorOf M c) c)) := by
  obtain ⟨r, t, hrun⟩ := (floorInverse2_within (x := s.eofInResidue) (P := P) (ch := c) h).returns
  refine (bind_ok hrun).trans ?_
  rw [floorInverse2_eq P h] at hrun
  unfold State.leftBy
  rw [hrun]
  rfl

end

/-! ## Residues -/

section

variable {s : State} (M : Mapping) (channels : Nat)

/-- R283 step 3: the residue's type chooses between its three operations. -/
theorem resInverse_eq {r : Nat} (h : ResidueUsable s.cfg s.tab r) (chlist : List Nat) : resInverse r chlist s =
    (if fieldAt s.cfg.residueType r = some 0 then res0Inverse r chlist
      else if fieldAt s.cfg.residueType r = some 1 then res1Inverse r chlist
      else res2Inverse r chlist) s := by
  obtain ⟨R, Q, ⟨type, hty, -⟩, -⟩ := h
  refine get_bind.trans ?_
  rw [hty]
  simp only [Option.some.injEq] <;> rfl

/-- A relation that the residue operations on a bundle and the setting of `TRUNC` keep, a submap keeps. -/
theorem State.submapStep_keeps {R : State → State → Prop} (hR : FrameRel R)
    (h0 : ∀ r chlist, chlist ≠ [] → Keeps R (res0Inverse r chlist))
    (h1 : ∀ r chlist, chlist ≠ [] → Keeps R (res1Inverse r chlist))
    (h2 : ∀ r chlist, chlist ≠ [] → Keeps R (res2Inverse r chlist)) (ht : ∀ t : State, R t (t.setTrunc true))
    (s : State) (k : Nat) : R s (s.submapStep M channels k).2 := by
  unfold State.submapStep
  dsimp only
  split
  case isTrue => exact hR.refl s
  case isFalse hne =>
    have hkeeps := Keeps.ite (p := fieldAt s.cfg.residueType (M.residuesubmap.getD k 0) = some 0)
      (h0 (M.residuesubmap.getD k 0) _ hne)
      (Keeps.ite (p := fieldAt s.cfg.residueType (M.residuesubmap.getD k 0) = some 1)
        (h1 (M.residuesubmap.getD k 0) _ hne) (h2 (M.residuesubmap.getD k 0) _ hne)) s
    split
    case h_1 t hrun => exact hR.trans (hkeeps.ok hrun) (ht t)
    case h_2 hrun => exact hkeeps.ok hrun
    case h_3 hrun => exact hkeeps.error hrun

/-- The walk stops at a submap that stops early, and goes on after one that does not. -/
theorem State.submapsUntilStop_cons (k : Nat) (l : List Nat) (s : State) : s.submapsUntilStop M channels (k :: l) =
    if (s.submapStep M channels k).1 then (true, (s.submapStep M channels k).2)
    else (s.submapStep M channels k).2.submapsUntilStop M channels l := by
  rw [State.submapsUntilStop]
  rcases s.submapStep M channels k with ⟨_ | _, t⟩ <;> rfl

theorem State.submapsUntilStop_keeps {R : State → State → Prop} (hR : FrameRel R)
    (h : ∀ (t : State) k, R t (t.submapStep M channels k).2) :
    ∀ (l : List Nat) (s : State), R s (s.submapsUntilStop M channels l).2
  | [], s => hR.refl s
  | k :: l, s => by
    rw [State.submapsUntilStop_cons]
    split
    · exact h s k
    · exact hR.trans (h s k) (State.submapsUntilStop_keeps hR h l _)

theorem State.submapStep_frame (s : State) (k : Nat) : DecodeFrame s (s.submapStep M channels k).2 :=
  State.submapStep_keeps M channels DecodeFrame.rel (fun r l _ => res0Inverse_frame r l)
    (fun r l _ => res1Inverse_frame r l) (fun r l _ => res2Inverse_frame r l) DecodeFrame.setTrunc s k

/-- R284: a submap whose residue stops early leaves `TRUNC` set. -/
theorem State.submapStep_trunc {k : Nat} (h : (s.submapStep M channels k).1 = true) :
    (s.submapStep M channels k).2.trunc = true := by
  revert h
  unfold State.submapStep
  dsimp only
  split
  · simp
  · split <;> simp

theorem State.submapsUntilStop_trunc : ∀ (l : List Nat) (s : State), (s.submapsUntilStop M channels l).1 = true →
    (s.submapsUntilStop M channels l).2.trunc = true
  | [], _, h => by cases h
  | k :: l, s, h => by
    rw [State.submapsUntilStop_cons] at h ⊢
    by_cases hk : (s.submapStep M channels k).1 = true
    · rw [if_pos hk]
      exact State.submapStep_trunc M channels hk
    · rw [if_neg hk] at h ⊢
      exact State.submapsUntilStop_trunc l _ h

/-- With an early stop on the way, all submaps together leave `TRUNC` set. -/
theorem State.foldl_submapStep_trunc : ∀ (l : List Nat) (s : State), (s.submapsUntilStop M channels l).1 = true →
    (l.foldl (fun t k => (t.submapStep M channels k).2) s).trunc = true
  | [], _, h => by cases h
  | k :: l, s, h => by
    rw [State.submapsUntilStop_cons] at h
    by_cases hk : (s.submapStep M channels k).1 = true
    · exact (DecodeFrame.rel.foldl (State.submapStep_frame M channels) l _).trunc (State.submapStep_trunc M channels hk)
    · rw [if_neg hk] at h
      exact State.foldl_submapStep_trunc l _ h

/-- With no early stop the walk to the first one is the walk over all submaps. -/
theorem State.submapsUntilStop_of_not_stops : ∀ (l : List Nat) (s : State), ¬ (s.submapsUntilStop M channels l).1 = true →
    (s.submapsUntilStop M channels l).2 = l.foldl (fun t k => (t.submapStep M channels k).2) s
  | [], _, _ => rfl
  | k :: l, s, h => by
    rw [State.submapsUntilStop_cons] at h ⊢
    by_cases hk : (s.submapStep M channels k).1 = true
    · exact absurd (by rw [if_pos hk]) h
    · rw [if_neg hk] at h ⊢
      exact State.submapsUntilStop_of_not_stops l _ h

/-- What step 3 leaves over the submaps listed, under each value of `EOF_IN_RESIDUE` (R270). -/
def State.residuesLeave (x : EofInResidue) (l : List Nat) (s : State) : State :=
  let reached := s.submapsUntilStop M channels l
  if reached.1 then
    match x with
    | .stopAndKeep => l.foldl (fun t k => (t.submapStep M channels k).2) s
    | .silenceBlock => reached.2.silenceAll channels
    | .failPacket => reached.2
  else reached.2

theorem State.residuesLeave_cons (x : EofInResidue) (k : Nat) (l : List Nat) (s : State) :
    s.residuesLeave M channels x (k :: l) =
      if (s.submapStep M channels k).1 then
        match x with
        | .stopAndKeep => l.foldl (fun t k => (t.submapStep M channels k).2) (s.submapStep M channels k).2
        | .silenceBlock => (s.submapStep M channels k).2.silenceAll channels
        | .failPacket => (s.submapStep M channels k).2
      else (s.submapStep M channels k).2.residuesLeave M channels x l := by
  unfold State.residuesLeave
  rw [State.submapsUntilStop_cons]
  by_cases hk : (s.submapStep M channels k).1 = true
  · rw [if_pos hk, if_pos hk]
    rfl
  · rw [if_neg hk, if_neg hk]
    rfl

theorem State.residuesLeave_frame (x : EofInResidue) (l : List Nat) (s : State) :
    DecodeFrame s (s.residuesLeave M channels x l) := by
  have hreached := State.submapsUntilStop_keeps M channels DecodeFrame.rel (State.submapStep_frame M channels) l s
  unfold State.residuesLeave
  dsimp only
  split
  · cases x
    · exact DecodeFrame.rel.foldl (State.submapStep_frame M channels) l s
    · exact hreached.trans (DecodeFrame.silenceAll _ _)
    · exact hreached
  · exact hreached

/-- Under `stop_and_keep` step 3 is the walk over all submaps. -/
theorem State.residuesLeave_stopAndKeep (l : List Nat) (s : State) :
    s.residuesLeave M channels .stopAndKeep l = l.foldl (fun t k => (t.submapStep M channels k).2) s := by
  unfold State.residuesLeave
  dsimp only
  split
  · rfl
  · exact State.submapsUntilStop_of_not_stops M channels l s ‹_›

/-- How step 3 ends: with `Eof` when a residue stops early under `fail_packet`, else `OK` (R270). -/
def residuesEnd (stops : Bool) (x : EofInResidue) (t : State) : EStateM.Result Failure State Unit :=
  if stops = true ∧ x = .failPacket then .error .eof (t.withEofInResidue x) else .ok () (t.withEofInResidue x)

/-- A submap without channels is passed over. -/
theorem mapResidues_of_bundle_nil {k : Nat} (l : List Nat) (h : bundleOf M channels k = []) :
    mapResidues M channels (k :: l) = mapResidues M channels l := by
  rw [mapResidues]
  exact if_pos h

theorem State.submapStep_of_bundle_nil {k : Nat} (s : State) (h : bundleOf M channels k = []) :
    s.submapStep M channels k = (false, s) := if_pos h

/-- A submap whose residue returns. -/
theorem State.submapStep_of_returns {k : Nat} {e : Bool} {t : State} (hne : bundleOf M channels k ≠ [])
    (h : ResidueUsable s.cfg s.tab (M.residuesubmap.getD k 0))
    (hrun : resInverse (M.residuesubmap.getD k 0) (bundleOf M channels k) s = .ok e t) :
    s.submapStep M channels k = (e, if e then t.setTrunc true else t) := by
  rw [resInverse_eq h] at hrun
  refine (if_neg hne).trans ?_
  simp only [bundleOf] at hrun
  rw [hrun]
  cases e <;> rfl

/-- How one submap of step 3 goes on, under the parameter `x` (R270). -/
theorem mapResidues_cons {x : EofInResidue} {k : Nat} (l : List Nat) {t : State}
    (h : ResidueUsable t.cfg t.tab (M.residuesubmap.getD k 0)) :
    mapResidues M channels (k :: l) (t.withEofInResidue x) =
      if (t.submapStep M channels k).1 then
        match x with
        | .stopAndKeep => mapResidues M channels l ((t.submapStep M channels k).2.withEofInResidue x)
        | .silenceBlock => .ok () (((t.submapStep M channels k).2.silenceAll channels).withEofInResidue x)
        | .failPacket => .error .eof ((t.submapStep M channels k).2.withEofInResidue x)
      else mapResidues M channels l ((t.submapStep M channels k).2.withEofInResidue x) := by
  by_cases hnil : bundleOf M channels k = []
  · rw [mapResidues_of_bundle_nil M channels l hnil, State.submapStep_of_bundle_nil M channels t hnil]
    rfl
  · obtain ⟨e, u, hrun⟩ := (resInverse_within (x := t.eofInResidue) h (bundleOf M channels k)).returns
    have hrunx : resInverse (M.residuesubmap.getD k 0) (bundleOf M channels k) (t.withEofInResidue x) =
        .ok e (u.withEofInResidue x) := by rw [resInverse_blind, hrun]; rfl
    rw [State.submapStep_of_returns M channels hnil h hrun, mapResidues]
    refine ((congrFun (if_neg hnil) _).trans (bind_ok hrunx)).trans ?_
    cases e
    · rfl
    · cases x <;> rfl

/-- Step 3 over the submaps listed (R283, R270). -/
theorem mapResidues_eq {s : State} (h : ∀ i, ResidueUsable s.cfg s.tab (M.residuesubmap.getD i 0)) (x : EofInResidue) :
    ∀ (l : List Nat) (t : State), DecodeFrame s t → mapResidues M channels l (t.withEofInResidue x) =
      residuesEnd (t.submapsUntilStop M channels l).1 x (t.residuesLeave M channels x l)
  | [], t, _ => by simp [mapResidues, residuesEnd, State.submapsUntilStop, State.residuesLeave]; rfl
  | k :: l, t, ht => by
    have hk : ResidueUsable t.cfg t.tab (M.residuesubmap.getD k 0) := by rw [ht.cfg, ht.tab]; exact h k
    have hrest := mapResidues_eq h x l _ (ht.trans (State.submapStep_frame M channels t k))
    rw [mapResidues_cons M channels l hk, State.residuesLeave_cons, State.submapsUntilStop_cons, hrest]
    by_cases hstop : (t.submapStep M channels k).1 = true
    · simp only [if_pos hstop]
      cases x <;> simp [residuesEnd, State.residuesLeave_stopAndKeep]
    · simp only [if_neg hstop]

end

end Sys2Proof.Machine
end

section
/-! SUPPORT. The whole of `MAP0.INVERSE` (45_mapping.md R283, R290, 44_residue.md R270): its seven steps run as Steps.lean has
them, and what an early stop leaves. -/

namespace Sys2Proof.Machine

/-! ## What the mapping starts from -/

/-- The conditions of MappingAlwaysCompletes: a valid configuration, a mode of it with its mapping, and a block of its size. -/
structure State.MappingReady (s : State) (channels : Nat) (r : Mode) (M : Mapping) : Prop where
  phase : s.phase = .ready
  conf : s.Configured
  modes : ∃ n, s.cfg.modes = some n ∧ s.mode.toNat < n
  channels : s.cfg.channels = some channels
  mode : fieldAt s.cfg.mode s.mode.toNat = some r
  map : fieldAt s.cfg.map r.mapping = some M
  flag : s.w = r.blockflag
  size : s.blocksize s.w = some s.pcmend.toNat
  short : s.w = false → s.lw = false ∧ s.nw = false

section

variable {s : State} {channels : Nat} {r : Mode} {M : Mapping}

/-- The floors, residues and pairs of the mapping are usable (48_header.md R361). -/
theorem State.MappingReady.usable (h : s.MappingReady channels r M) : (∀ c, FloorUsable s.cfg s.tab (floorOf M c)) ∧
    (∀ i, ResidueUsable s.cfg s.tab (M.residuesubmap.getD i 0)) ∧
    ∀ pair ∈ M.coupling, pair.1 < channels ∧ pair.2 < channels := by
  obtain ⟨modes, hmodes, hlt⟩ := h.modes
  obtain ⟨_, ⟨M', hM', hfloors, hresidues⟩, -, -⟩ := h.conf.decodable hmodes hlt h.mode
  obtain rfl : M = M' := Option.some.inj (h.map.symm.trans hM')
  refine ⟨hfloors, hresidues, ?_⟩
  obtain ⟨n, hn, hmaps⟩ := h.conf.maps
  obtain ⟨n', hn', -, -, -, hmode⟩ := h.conf.modes
  obtain rfl : modes = n' := Option.some.inj (hmodes.symm.trans hn')
  obtain ⟨r', hr', hmapping⟩ := hmode _ hlt
  obtain rfl : r = r' := Option.some.inj (h.mode.symm.trans hr')
  rw [hn] at hmapping
  obtain ⟨M', hM', -, -, hpairs⟩ := hmaps _ hmapping
  obtain rfl : M = M' := Option.some.inj (h.map.symm.trans hM')
  intro pair hpair
  obtain ⟨h1, h2, -⟩ := hpairs pair hpair
  rw [h.channels] at h1 h2
  exact ⟨h1, h2⟩

/-- A ready mapping is let through (R290). -/
theorem State.MappingReady.judge_ok (h : s.MappingReady channels r M) (x : EofInResidue) :
    judgeMapping (s.withEofInResidue x) = .ok () := by
  obtain ⟨modes, hmodes, hlt⟩ := h.modes
  have hsize : (s.withEofInResidue x).blocksize r.blockflag = some s.pcmend.toNat := h.flag ▸ h.size
  exact (judge_passes (judgeReady_ok h.phase)).trans <| (judge_passes (judgeField_ok hmodes)).trans <|
    (judge_passes (judgeThat_ok (decide_eq_true hlt))).trans <| (judge_passes (judgeField_ok h.mode)).trans <|
      (judge_passes (judgeField_ok hsize)).trans (judgeThat_ok (by simp [h.flag]))

end

/-! ## Steps 4 to 7 -/

section

variable {s t : State} {channels : Nat} {r : Mode} {M : Mapping}

/-- Steps 4 to 6: what the window is applied to. -/
def State.transformedBlock (M : Mapping) (channels : Nat) (s : State) : State :=
  let undone := M.coupling.reverse.foldl (fun t pair => t.decouple (s.pcmend.toNat / 2) pair) s
  let shaped := (List.range channels).foldl (fun t c => t.leftBy
    (if fieldAt t.cfg.floorType (floorOf M c) = some 0 then f0Inverse2 defaultParams (floorOf M c) c
      else f1Inverse2 defaultParams (floorOf M c) c)) undone
  (List.range channels).foldl (fun t c => t.leftBy (mdctBackward (bitValue s.w) c)) shaped

theorem State.blockSteps_eq (M : Mapping) (channels : Nat) (s : State) : s.blockSteps M channels =
    (List.range channels).foldl (fun t c => t.leftBy (winApply c)) (s.transformedBlock M channels) := rfl

/-- What the undoing of a pair, floor pass 2 and the transform keep, steps 4 to 6 keep. -/
theorem State.transformedBlock_keeps {R : State → State → Prop} (hR : FrameRel R)
    (hpair : ∀ h pair (t : State), R t (t.decouple h pair)) (h0 : ∀ f c, Keeps R (f0Inverse2 defaultParams f c))
    (h1 : ∀ f c, Keeps R (f1Inverse2 defaultParams f c)) (hm : ∀ w c, Keeps R (mdctBackward w c))
    (M : Mapping) (channels : Nat) (s : State) : R s (s.transformedBlock M channels) :=
  hR.trans (hR.foldl (fun t pair => hpair _ pair t) _ s) <|
    hR.trans (hR.foldl (fun t _ => (Keeps.ite (h0 _ _) (h1 _ _)).leftBy t) _ _) <|
      hR.foldl (fun t _ => (hm _ _).leftBy t) _ _

theorem State.transformedBlock_frame (M : Mapping) (channels : Nat) (s : State) :
    DecodeFrame s (s.transformedBlock M channels) :=
  State.transformedBlock_keeps DecodeFrame.rel DecodeFrame.decouple (f0Inverse2_frame _) (f1Inverse2_frame _)
    mdctBackward_frame M channels s

theorem State.blockSteps_frame (M : Mapping) (channels : Nat) (s : State) : DecodeFrame s (s.blockSteps M channels) :=
  (State.transformedBlock_frame M channels s).trans
    (DecodeFrame.rel.foldl (fun t c => (winApply_frame c).leftBy t) (List.range channels) _)

/-- A store into a row does not see the parameter. -/
theorem State.decouple_withEofInResidue (h : Nat) (pair : Nat × Nat) (x : EofInResidue) (s : State) :
    (s.withEofInResidue x).decouple h pair = (s.decouple h pair).withEofInResidue x := rfl

theorem State.widenPair_withEofInResidue (pair : Nat × Nat) (x : EofInResidue) (s : State) :
    (s.withEofInResidue x).widenPair pair = (s.widenPair pair).withEofInResidue x := by
  unfold State.widenPair
  by_cases h : (s.isNonzero pair.1 || s.isNonzero pair.2) = true
  · rw [if_pos h]; exact if_pos h
  · rw [if_neg h]; exact if_neg h

/-- With the tables of a valid configuration the transform of the block's size returns. -/
theorem State.MappingReady.mdctBackward_returns (h : s.MappingReady channels r M) (ht : DecodeFrame s t) (c : Nat) :
    mdctBackward (bitValue t.w) c t = .ok () (t.leftBy (mdctBackward (bitValue t.w) c)) := by
  obtain ⟨⟨T0, h0⟩, T1, h1⟩ := h.conf.transforms
  have htable : ∃ T, t.mdctTableAt (bitValue t.w) = some T := by
    unfold State.mdctTableAt
    rw [ht.tab]
    cases t.w
    · exact ⟨T0, h0⟩
    · exact ⟨T1, h1⟩
  obtain ⟨T, hT⟩ := htable
  exact ok_leftBy (Q := fun _ _ => True) (Sat.of_ok (mdctBackward_eq hT) trivial)

theorem State.MappingReady.window (h : s.MappingReady channels r M) (ht : DecodeFrame s t) :
    ∃ win, t.windowAt t.w t.lw t.nw = some win := by
  obtain ⟨win, hwin⟩ := h.conf.windows s.w s.lw s.nw h.short
  refine ⟨win, ?_⟩
  unfold State.windowAt at *
  rw [ht.tab, ht.w, ht.lw, ht.nw]
  exact hwin

/-- So does the window. -/
theorem State.MappingReady.winApply_returns (h : s.MappingReady channels r M) (ht : DecodeFrame s t) (c : Nat) :
    winApply c t = .ok () (t.leftBy (winApply c)) := by
  obtain ⟨win, hwin⟩ := h.window ht
  exact ok_leftBy (Q := fun _ _ => True) (Sat.of_ok (winApply_eq hwin) trivial)

/-- Steps 4 to 7 as `MAP0.INVERSE` runs them. -/
def mapBlockSteps (M : Mapping) (channels h : Nat) : Op Unit := do
  forEach M.coupling.reverse fun pair => modify (State.decouple h pair)
  forEach (List.range channels) (mapFloorPass2 defaultParams M)
  forEach (List.range channels) fun c => do mdctBackward (bitValue (← get).w) c
  forEach (List.range channels) winApply

/-- Steps 4 to 7 return, and leave what Steps.lean says. -/
theorem State.MappingReady.mapBlockSteps_eq (h : s.MappingReady channels r M) (ht : DecodeFrame s t) (x : EofInResidue) :
    mapBlockSteps M channels (s.pcmend.toNat / 2) (t.withEofInResidue x) =
      .ok () ((t.blockSteps M channels).withEofInResidue x) := by
  obtain ⟨hfloors, -, -⟩ := h.usable
  have hundone := forEach_steps (s := s) (x := x) (step := fun t pair => t.decouple (s.pcmend.toNat / 2) pair)
    (fun pair => Blind.modify (State.decouple_withEofInResidue (s.pcmend.toNat / 2) pair))
    (fun pair => Keeps.modify (DecodeFrame.decouple _ pair)) M.coupling.reverse t ht fun _ _ _ _ => rfl
  obtain ⟨hundone, hu⟩ := hundone
  have hshaped := forEach_steps (s := s) (x := x) (mapFloorPass2_blind defaultParams M) (mapFloorPass2_frame defaultParams M)
    (List.range channels) _ hu fun c _ u hf => mapFloorPass2_eq defaultParams (by rw [hf.cfg, hf.tab]; exact hfloors c)
  obtain ⟨hshaped, hv⟩ := hshaped
  have htransformed := forEach_steps (s := s) (x := x)
    (body := fun c => (MonadStateOf.get : Op State) >>= fun u => mdctBackward (bitValue u.w) c)
    (step := fun u c => u.leftBy (mdctBackward (bitValue t.w) c))
    (fun c => Blind.get_bind (fun _ _ => rfl) fun _ => mdctBackward_blind _ c)
    (fun c => Keeps.bind DecodeFrame.rel (Keeps.get DecodeFrame.rel) fun _ => mdctBackward_frame _ c)
    (List.range channels) _ hv fun c _ u hf => by
      rw [show t.w = u.w by rw [ht.w, hf.w]]
      exact get_bind.trans (h.mdctBackward_returns hf c)
  obtain ⟨htransformed, hy⟩ := htransformed
  have hwindowed := forEach_steps (s := s) (x := x) winApply_blind winApply_frame (List.range channels) _ hy
    fun c _ u hf => h.winApply_returns hf c
  refine (bind_ok hundone).trans <| (bind_ok hshaped).trans <| (bind_ok htransformed).trans <| hwindowed.1.trans ?_
  unfold State.blockSteps
  rw [ht.pcmend]

end

/-! ## The seven steps -/

section

variable {s : State} {channels : Nat} {r : Mode} {M : Mapping}

/-- What `MAP0.INVERSE` leaves, by what step 3 leaves: steps 4 to 7 follow, unless a residue stops early under `fail_packet`. -/
theorem State.mapped_eq (M : Mapping) (channels : Nat) (x : EofInResidue) (s : State) : s.mapped M channels x =
    if s.residueStops M channels = true ∧ x = .failPacket
      then (s.spectrumReady M channels).residuesLeave M channels x (List.range M.submaps)
      else ((s.spectrumReady M channels).residuesLeave M channels x (List.range M.submaps)).blockSteps M channels := by
  unfold State.mapped State.residuesLeave State.residueStops
  dsimp only
  split
  · rename_i hstop
    cases x <;> simp [hstop, State.allSubmaps]
  · rename_i hstop
    simp [hstop]

/-- Steps 1 to 2 return, whatever the parameter is. -/
theorem State.MappingReady.spectrum (h : s.MappingReady channels r M) (x : EofInResidue) :
    DecodeFrame s (s.spectrumReady M channels) ∧ ∀ {α : Type} (rest : Op α),
      (do
        forEach (List.range channels) (mapFloorPass1 M)
        forEach M.coupling fun pair => modify (State.widenPair pair)
        forEach (List.range channels) fun c => modify (State.storeRow c (List.replicate (s.pcmend.toNat / 2) 0))
        rest) (s.withEofInResidue x) = rest ((s.spectrumReady M channels).withEofInResidue x) := by
  obtain ⟨hfloors, -, -⟩ := h.usable
  have hpass1 := forEach_steps (s := s) (x := x) (mapFloorPass1_blind M) (mapFloorPass1_frame M) (List.range channels) s
    (.refl s) fun c _ u hf => mapFloorPass1_eq (by rw [hf.cfg, hf.tab]; exact hfloors c)
  obtain ⟨hpass1, hu⟩ := hpass1
  have hwidened := forEach_steps (s := s) (x := x) (step := fun t pair => t.widenPair pair)
    (fun pair => Blind.modify (State.widenPair_withEofInResidue pair))
    (fun pair => Keeps.modify (DecodeFrame.widenPair pair)) M.coupling _ hu fun _ _ _ _ => rfl
  obtain ⟨hwidened, hv⟩ := hwidened
  have hzeroed := forEach_steps (s := s) (x := x)
    (step := fun t c => t.storeRow c (List.replicate (s.pcmend.toNat / 2) 0))
    (fun c => Blind.modify fun _ _ => rfl) (fun c => Keeps.modify (DecodeFrame.storeRow c _)) (List.range channels) _ hv
    fun _ _ _ _ => rfl
  obtain ⟨hzeroed, hw⟩ := hzeroed
  exact ⟨hw, fun _ => (bind_ok hpass1).trans <| (bind_ok hwidened).trans (bind_ok hzeroed)⟩

/-- R283: `MAP0.INVERSE` of a ready mapping runs its steps to the end, or ends with `Eof` after the residue that stops early
under `fail_packet` (R270). -/
theorem State.MappingReady.map0Inverse_eq (h : s.MappingReady channels r M) (x : EofInResidue) :
    map0Inverse defaultParams (s.withEofInResidue x) = residuesEnd (s.residueStops M channels) x (s.mapped M channels x) := by
  obtain ⟨-, hresidues, -⟩ := h.usable
  obtain ⟨hready, hspectrum⟩ := h.spectrum x
  have hmapping : currentMapping (s.withEofInResidue x) = .ok M (s.withEofInResidue x) := by
    refine get_bind.trans ?_
    rw [show fieldAt (s.withEofInResidue x).cfg.mode (s.withEofInResidue x).mode.toNat = some r from h.mode]
    show need (fieldAt s.cfg.map r.mapping) _ = _
    rw [h.map]
    rfl
  have hopen : map0Inverse defaultParams (s.withEofInResidue x) =
      (mapResidues M channels (List.range M.submaps) >>= fun _ => mapBlockSteps M channels (s.pcmend.toNat / 2))
        ((s.spectrumReady M channels).withEofInResidue x) :=
    (bind_ok hmapping).trans <|
      (lookup_bind (g := fun t => t.cfg.channels) (s := s.withEofInResidue x) h.channels).trans (hspectrum _)
  have hleft := State.residuesLeave_frame M channels x (List.range M.submaps) (s.spectrumReady M channels)
  have hstep3 := mapResidues_eq M channels hresidues x (List.range M.submaps) _ hready
  rw [hopen, State.mapped_eq]
  by_cases hstop : s.residueStops M channels = true ∧ x = .failPacket
  · rw [if_pos hstop, residuesEnd, if_pos hstop]
    exact bind_error (hstep3.trans (if_pos hstop))
  · rw [if_neg hstop, residuesEnd, if_neg hstop]
    exact (bind_ok (hstep3.trans (if_neg hstop))).trans (h.mapBlockSteps_eq (hready.trans hleft) x)

/-- The instruction reports how the mapping ended. -/
theorem State.MappingReady.exec_map0Inverse (h : s.MappingReady channels r M) (x : EofInResidue) :
    exec .map0Inverse (s.withEofInResidue x) = .next
      (if s.residueStops M channels = true ∧ x = .failPacket
        then ((s.mapped M channels x).withEofInResidue x).completeFail .eof
        else ((s.mapped M channels x).withEofInResidue x).completeOk 0) := by
  have hrun := h.map0Inverse_eq x
  rw [exec_accepted (i := .map0Inverse) (h.judge_ok x)]
  unfold residuesEnd at hrun
  split
  case isTrue hstop =>
    rw [if_pos hstop] at hrun
    exact finish_error (bind_error hrun)
  case isFalse hstop =>
    rw [if_neg hstop] at hrun
    exact finish_ok (bind_ok hrun)

theorem State.MappingReady.mapped_frame (h : s.MappingReady channels r M) (x : EofInResidue) :
    DecodeFrame s (s.mapped M channels x) := by
  obtain ⟨hready, -⟩ := h.spectrum x
  have hleft := hready.trans (State.residuesLeave_frame M channels x (List.range M.submaps) _)
  rw [State.mapped_eq]
  split
  · exact hleft
  · exact hleft.trans (State.blockSteps_frame M channels _)

/-! ## An early stop -/

/-- R284: an early stop sets `TRUNC`, whatever the parameter is. -/
theorem State.mapped_trunc (hstop : s.residueStops M channels = true) (x : EofInResidue) :
    (s.mapped M channels x).trunc = true := by
  have hreached := State.submapsUntilStop_trunc M channels (List.range M.submaps) _ hstop
  have hleft : ((s.spectrumReady M channels).residuesLeave M channels x (List.range M.submaps)).trunc = true := by
    unfold State.residuesLeave
    unfold State.residueStops at hstop
    dsimp only
    rw [if_pos hstop]
    cases x
    · exact State.foldl_submapStep_trunc M channels _ _ hstop
    · exact hreached
    · exact hreached
  rw [State.mapped_eq]
  split
  · exact hleft
  · exact (State.blockSteps_frame M channels _).trunc hleft

/-- R270: without an early stop the parameter makes no difference. -/
theorem State.mapped_of_not_stops (hstop : s.residueStops M channels = false) (x y : EofInResidue) :
    s.mapped M channels x = s.mapped M channels y := by
  unfold State.mapped
  unfold State.residueStops at hstop
  simp only [hstop] <;> rfl

end

end Sys2Proof.Machine
end

section
/-! SUPPORT. Flags, memos and silence in `MAP0.INVERSE` (45_mapping.md R284, R285, 44_residue.md R270). -/

namespace Sys2Proof.Machine

/-! ## What keeps the flags and memos -/

/-- The flags and memos of every channel are as before. -/
def FlagFrame (s t : State) : Prop := t.nonzero = s.nonzero ∧ t.memo = s.memo

theorem FlagFrame.rel : FrameRel FlagFrame where
  refl _ := ⟨rfl, rfl⟩
  trans h k := ⟨k.1.trans h.1, k.2.trans h.2⟩

/-- What residue decode and the rewriting of rows may change. -/
def Reach.decoding : Reach := { cursor := True, rows := fun _ => True }

theorem StaysIn.flagFrame {s t : State} (h : StaysIn .decoding s t) : FlagFrame s t := by
  obtain ⟨hnonzero, hmemo, -⟩ := h.sameFlags fun _ => id
  exact ⟨hnonzero, hmemo⟩

section

variable (M : Mapping) (channels : Nat)

/-- R284: a submap changes no flag and no memo. -/
theorem State.submapStep_flagFrame (s : State) (k : Nat) : FlagFrame s (s.submapStep M channels k).2 :=
  State.submapStep_keeps M channels FlagFrame.rel
    (fun r _ _ => (res0Inverse_staysIn (P := .decoding) (fun _ _ => trivial) trivial r).mono fun _ _ => StaysIn.flagFrame)
    (fun r _ _ => (res1Inverse_staysIn (P := .decoding) (fun _ _ => trivial) trivial r).mono fun _ _ => StaysIn.flagFrame)
    (fun r _ hne => (res2Inverse_staysIn (P := .decoding) (fun _ _ => trivial) trivial hne r).mono fun _ _ =>
      StaysIn.flagFrame)
    (fun _ => ⟨rfl, rfl⟩) s k

/-- R284: steps 4 to 6 change no flag and no memo. -/
theorem State.transformedBlock_flagFrame (s : State) : FlagFrame s (s.transformedBlock M channels) :=
  State.transformedBlock_keeps FlagFrame.rel (fun _ _ _ => ⟨rfl, rfl⟩)
    (fun f _ => (f0Inverse2_staysIn (P := .decoding) trivial defaultParams f).mono fun _ _ => StaysIn.flagFrame)
    (fun f _ => (f1Inverse2_staysIn (P := .decoding) trivial defaultParams f).mono fun _ _ => StaysIn.flagFrame)
    (fun w _ => (mdctBackward_staysIn (P := .decoding) trivial w).mono fun _ _ => StaysIn.flagFrame) M channels s

/-- Nor does the window of a channel. -/
theorem winApply_flagFrame (c : Nat) : Keeps FlagFrame (winApply c) :=
  (winApply_staysIn (P := .decoding) trivial).mono fun _ _ => StaysIn.flagFrame

theorem State.blockSteps_flagFrame (s : State) : FlagFrame s (s.blockSteps M channels) :=
  FlagFrame.rel.trans (State.transformedBlock_flagFrame M channels s)
    (FlagFrame.rel.foldl (fun t c => (winApply_flagFrame c).leftBy t) (List.range channels) _)

/-- R270: step 3 changes no memo, and no flag unless `silence_block` marks every channel silent after an early stop. -/
theorem State.residuesLeave_flags (x : EofInResidue) (l : List Nat) (s : State) :
    (s.residuesLeave M channels x l).memo = s.memo ∧ (s.residuesLeave M channels x l).nonzero =
      if (s.submapsUntilStop M channels l).1 = true ∧ x = .silenceBlock then fillFirst channels false s.nonzero
      else s.nonzero := by
  obtain ⟨hnonzero, hmemo⟩ := State.submapsUntilStop_keeps M channels FlagFrame.rel (State.submapStep_flagFrame M channels) l s
  obtain ⟨hnonzero', hmemo'⟩ := FlagFrame.rel.foldl (State.submapStep_flagFrame M channels) l s
  unfold State.residuesLeave
  dsimp only
  by_cases hstop : (s.submapsUntilStop M channels l).1 = true
  · rw [if_pos hstop]
    cases x
    · exact ⟨hmemo', by simpa using hnonzero'⟩
    · exact ⟨hmemo, by simp [hstop, hnonzero]⟩
    · exact ⟨hmemo, by simpa using hnonzero⟩
  · rw [if_neg hstop, if_neg fun h => hstop h.1]
    exact ⟨hmemo, hnonzero⟩

end

/-! ## Flags after the mapping -/

section

variable {s : State} {channels : Nat} {M : Mapping}

/-- Step 2 changes no flag and no memo. -/
theorem State.spectrumReady_flags (M : Mapping) (channels : Nat) (s : State) : FlagFrame
    (M.coupling.foldl (fun t pair => t.widenPair pair) ((List.range channels).foldl (State.floorStep M) s))
    (s.spectrumReady M channels) :=
  FlagFrame.rel.foldl (step := fun t c => t.storeRow c (List.replicate (s.pcmend.toNat / 2) 0)) (fun _ _ => ⟨rfl, rfl⟩)
    (List.range channels) _

/-- The flags and memos that `MAP0.INVERSE` leaves are those of step 3. -/
theorem State.mapped_flags (M : Mapping) (channels : Nat) (x : EofInResidue) (s : State) :
    (s.mapped M channels x).memo = (s.spectrumReady M channels).memo ∧ (s.mapped M channels x).nonzero =
      if s.residueStops M channels = true ∧ x = .silenceBlock
        then fillFirst channels false (s.spectrumReady M channels).nonzero
        else (s.spectrumReady M channels).nonzero := by
  have hleft := State.residuesLeave_flags M channels x (List.range M.submaps) (s.spectrumReady M channels)
  obtain ⟨hnonzero, hmemo⟩ := State.blockSteps_flagFrame M channels
    ((s.spectrumReady M channels).residuesLeave M channels x (List.range M.submaps))
  rw [State.mapped_eq]
  split
  · exact hleft
  · rw [hmemo, hnonzero]
    exact hleft

/-- The first flags filled with 0 read 0. -/
theorem fillFirst_false_getD {n c : Nat} (hc : c < n) (l : List Bool) : (fillFirst n false l).getD c false = false := by
  unfold fillFirst
  rcases Nat.lt_or_ge c l.length with hlt | hge
  · rw [List.getD_append _ _ _ _ (by simp; omega)]
    simp
  · rw [List.getD_eq_default _ _ (by simp; omega)]

/-- R270: after an early stop under `silence_block` every channel is silent. -/
theorem State.mapped_silent (hstop : s.residueStops M channels = true) {c : Nat} (hc : c < channels) :
    (s.mapped M channels .silenceBlock).hostReadNonzero c = false := by
  obtain ⟨-, hnonzero⟩ := State.mapped_flags M channels .silenceBlock s
  unfold State.hostReadNonzero State.isNonzero
  rw [hnonzero, if_pos ⟨hstop, rfl⟩]
  exact fillFirst_false_getD hc _

/-! ## A silent block -/

/-- Decoding keeps the lengths of the rows. -/
theorem DecodeFrame.row_lengths {t u : State} {n : Nat} (h : DecodeFrame t u) (hrows : ∀ row ∈ t.pcm, row.length = n) :
    ∀ row ∈ u.pcm, row.length = n := by
  intro row hrow
  have hlen : row.length ∈ t.pcm.map List.length := by
    rw [← h.pcm]
    exact List.mem_map_of_mem hrow
  obtain ⟨row', hrow', heq⟩ := List.mem_map.1 hlen
  rw [← heq, hrows row' hrow']

theorem DecodeFrame.row_count {t u : State} (h : DecodeFrame t u) : u.pcm.length = t.pcm.length := by
  simpa using congrArg List.length h.pcm

/-- A row of the block overwritten with zeros. -/
theorem State.storeRow_zeros_getElem? {n : Nat} {t : State} (hrows : ∀ row ∈ t.pcm, row.length = n) (c i : Nat) :
    (t.storeRow c (List.replicate n 0)).pcm[i]? =
      if c = i then t.pcm[i]?.map fun _ => List.replicate n 0 else t.pcm[i]? := by
  show (t.pcm.set c (overwrite (List.replicate n 0) (t.pcmRow c)))[i]? = _
  rw [List.getElem?_set']
  by_cases hci : c = i
  · subst hci
    rw [if_pos rfl, if_pos rfl]
    cases hrow : t.pcm[c]? with
    | none => rfl
    | some row =>
      have hlen : row.length = n := hrows row (List.mem_of_getElem? hrow)
      simp [State.pcmRow, hrow, overwrite, hlen]
  · rw [if_neg hci, if_neg hci]

/-- Every row of the block overwritten with zeros. -/
theorem State.foldl_storeRow_zeros {n : Nat} (i : Nat) : ∀ (l : List Nat) (t : State), (∀ row ∈ t.pcm, row.length = n) →
    (l.foldl (fun t c => t.storeRow c (List.replicate n 0)) t).pcm[i]? =
      if i ∈ l then t.pcm[i]?.map fun _ => List.replicate n 0 else t.pcm[i]?
  | [], t, _ => by simp
  | c :: l, t, hrows => by
    have hstored := (DecodeFrame.storeRow c (List.replicate n 0) t).row_lengths hrows
    rw [List.foldl_cons, State.foldl_storeRow_zeros i l _ hstored, State.storeRow_zeros_getElem? hrows]
    by_cases hci : c = i
    · subst hci
      cases t.pcm[c]? <;> simp
    · simp [hci, Ne.symm hci]

/-- R329: windowing a block of silent channels leaves zeros. -/
theorem State.MappingReady.windowed_silent {r : Mode} (h : s.MappingReady channels r M) {t : State}
    (ht : DecodeFrame s t) (hsilent : ∀ c < channels, t.isNonzero c = false) (hlen : t.pcm.length = channels)
    (hrows : ∀ row ∈ t.pcm, row.length = s.pcmend.toNat) :
    ((List.range channels).foldl (fun t c => t.leftBy (winApply c)) t).pcm =
      List.replicate channels (List.replicate s.pcmend.toNat 0) := by
  have hfold : (List.range channels).foldl (fun t c => t.leftBy (winApply c)) t =
      (List.range channels).foldl (fun t c => t.storeRow c (List.replicate s.pcmend.toNat 0)) t := by
    have hrel : FrameRel fun t u => DecodeFrame t u ∧ FlagFrame t u :=
      ⟨fun t => ⟨.refl t, FlagFrame.rel.refl t⟩, fun h k => ⟨h.1.trans k.1, FlagFrame.rel.trans h.2 k.2⟩⟩
    refine foldl_congr_of_keeps hrel (s := t) _ t (hrel.refl t) (fun u c => ?_) fun c hc u hu => ?_
    · exact ⟨(winApply_frame c).leftBy u, (winApply_flagFrame c).leftBy u⟩
    · obtain ⟨hframe, hnonzero, -⟩ := hu
      obtain ⟨win, hwin⟩ := h.window (ht.trans hframe)
      have hc0 : u.isNonzero c = false := by
        unfold State.isNonzero at hsilent ⊢
        rw [hnonzero]
        exact hsilent c (List.mem_range.1 hc)
      unfold State.leftBy
      rw [winApply_eq hwin, hc0, (ht.trans hframe).pcmend]
      rfl
  refine List.ext_getElem? fun i => ?_
  rw [hfold, State.foldl_storeRow_zeros i _ t hrows, List.getElem?_replicate]
  by_cases hi : i < channels
  · rw [if_pos (List.mem_range.2 hi), if_pos hi, List.getElem?_eq_getElem (by omega)]
    rfl
  · rw [if_neg (hi ∘ List.mem_range.1), if_neg hi, List.getElem?_eq_none (by omega)]

/-- A block of a configured size is no empty block: it has a row of its size for each channel. -/
theorem State.MappingReady.rows {r : Mode} (h : s.MappingReady channels r M) (hshape : s.pcmShape) :
    s.pcm.length = channels ∧ ∀ row ∈ s.pcm, row.length = s.pcmend.toNat := by
  rcases hshape with ⟨-, hend⟩ | ⟨hch, hrows⟩
  · obtain ⟨e0, e1, h0, h1, -⟩ := h.conf.blocksizes
    have hsize := h.size
    unfold State.blocksize at hsize
    rw [hend, h0, h1] at hsize
    split at hsize <;> simp at hsize
  · exact ⟨Option.some.inj (hch.symm.trans h.channels), hrows⟩

/-- R270: under `silence_block` an early stop leaves a block of zeros. -/
theorem State.MappingReady.mapped_silentBlock {r : Mode} (h : s.MappingReady channels r M)
    (hstop : s.residueStops M channels = true) (hshape : s.pcmShape) :
    (s.mapped M channels .silenceBlock).pcm = List.replicate channels (List.replicate s.pcmend.toNat 0) := by
  obtain ⟨hlen, hrows⟩ := h.rows hshape
  obtain ⟨hready, -⟩ := h.spectrum .silenceBlock
  have hleft := hready.trans (State.residuesLeave_frame M channels .silenceBlock (List.range M.submaps) _)
  have hbefore := hleft.trans (State.transformedBlock_frame M channels _)
  obtain ⟨hnonzero, -⟩ := State.transformedBlock_flagFrame M channels
    ((s.spectrumReady M channels).residuesLeave M channels .silenceBlock (List.range M.submaps))
  obtain ⟨-, hsilenced⟩ := State.residuesLeave_flags M channels .silenceBlock (List.range M.submaps)
    (s.spectrumReady M channels)
  rw [State.mapped_eq, if_neg (by simp), State.blockSteps_eq]
  refine h.windowed_silent hbefore (fun c hc => ?_) (hbefore.row_count.trans hlen) (hbefore.row_lengths hrows)
  unfold State.isNonzero
  rw [hnonzero, hsilenced, if_pos ⟨hstop, rfl⟩]
  exact fillFirst_false_getD hc _

/-- Settles O45: the steps run as Steps.lean has them; what an early stop leaves is read off step 3. -/
theorem mappingAlwaysCompletes : Obligations.MappingAlwaysCompletes := by
  intro s modes channels r M hr hconf hmodes hch hlt hmode hmap hflag hsize hshort
  have h : s.MappingReady channels r M := ⟨hr, hconf, ⟨modes, hmodes, hlt⟩, hch, hmode, hmap, hflag, hsize, hshort⟩
  exact ⟨h.exec_map0Inverse, fun hstop => ⟨State.mapped_trunc hstop, fun _ => State.mapped_silent hstop,
    h.mapped_silentBlock hstop⟩, State.mapped_of_not_stops⟩

end

end Sys2Proof.Machine
end

section
/-! SUPPORT. What floor pass 1 says of silence, and what the pairs make of it (45_mapping.md R284, R285). -/

namespace Sys2Proof.Machine

/-! ## Floor pass 1 -/

section

variable {s t : State} {M : Mapping}

/-- Pass 1 of a usable floor returns that it stored a memo exactly when the channel has one after. -/
theorem floorInverse1_present {f c : Nat} (h : FloorUsable s.cfg s.tab f) (hc : c < s.memo.length) {p : PassOne}
    (hrun : floorInverse1 f c s = .ok p t) : p.present = (t.hostReadMemo c).isSome := by
  have hseen : ∀ {own : Memo → Prop} {pass : Op PassOne}, StoresOwn c own pass →
      absorb pass (pure .starved) (s.setMemo c none) = .ok p t → p.present = (t.hostReadMemo c).isSome := by
    intro own pass hown hpass
    rcases ((hown.absorb (s.setMemo c none)).ok hpass).seen hc with ⟨hp, hm⟩ | ⟨hp, m, -, hm⟩ <;> rw [hp, hm] <;> rfl
  rw [floorInverse1_eq h] at hrun
  rcases h with ⟨hty, F, hF, -⟩ | ⟨hty, F, hF, ⟨T, hT⟩, -⟩
  · rw [if_pos hty, f0Inverse1_eq (F := F) (by simp [State.floor0At, hF])] at hrun
    exact hseen (f0Pass1_storesOwn f c F) hrun
  · rw [if_neg (by simp [hty]), f1Inverse1_eq (F := F) (by simp [State.floor1At, hF]) hT] at hrun
    exact hseen (f1Pass1_storesOwn f c F T) hrun

/-- Pass 1 of a channel writes its memo, the scratch and the cursor. -/
theorem floorInverse1_staysIn (f c : Nat) :
    Keeps (StaysIn { cursor := True, scratch := True, memos := (· = c) }) (floorInverse1 f c) :=
  StaysIn.lookup fun _ => Keeps.ite (f0Inverse1_staysIn trivial trivial rfl f) (f1Inverse1_staysIn trivial rfl f)

/-- R284: step 1 sets the flag of its channel and leaves those of the others, and so the memos. -/
theorem State.floorStep_flags {c : Nat} (h : FloorUsable s.cfg s.tab (floorOf M c)) (hc : c < s.memo.length)
    (hcn : c < s.nonzero.length) :
    (s.floorStep M c).hostReadNonzero c = ((s.floorStep M c).hostReadMemo c).isSome ∧
    ∀ k, k ≠ c → (s.floorStep M c).hostReadNonzero k = s.hostReadNonzero k ∧
      (s.floorStep M c).hostReadMemo k = s.hostReadMemo k := by
  obtain ⟨p, t, hrun⟩ := (floorInverse1_within (x := s.eofInResidue) (ch := c) h).returns
  have hpresent := floorInverse1_present h hc hrun
  have hstays := (floorInverse1_staysIn (floorOf M c) c s).ok hrun
  have hstep : (s.floorStep M c).nonzero = t.nonzero.set c p.present ∧ (s.floorStep M c).memo = t.memo := by
    rw [floorInverse1_eq h] at hrun
    unfold State.floorStep
    rw [hrun]
    cases p <;> exact ⟨rfl, rfl⟩
  obtain ⟨hnonzero, hmemo⟩ := hstep
  have hmemos : ∀ k, (s.floorStep M c).hostReadMemo k = t.hostReadMemo k := fun k => by
    unfold State.hostReadMemo
    rw [hmemo]
  refine ⟨?_, fun k hk => ⟨?_, (hmemos k).trans (hstays.hostReadMemo hk)⟩⟩
  · rw [hmemos, ← hpresent, State.hostReadNonzero, State.isNonzero, hnonzero, hstays.nonzero]
    simp [hcn]
  · rw [State.hostReadNonzero, State.hostReadNonzero, State.isNonzero, State.isNonzero, hnonzero, hstays.nonzero]
    simp [List.getElem?_set_ne (Ne.symm hk)]

/-- R284: after pass 1 of the first `n` channels, each has its flag set exactly when it has a memo. -/
theorem State.floorSteps_flags (h : ∀ c, FloorUsable s.cfg s.tab (floorOf M c)) : ∀ n : Nat, n ≤ s.memo.length →
    n ≤ s.nonzero.length → DecodeFrame s ((List.range n).foldl (State.floorStep M) s) ∧
    ∀ c < n, ((List.range n).foldl (State.floorStep M) s).hostReadNonzero c =
      (((List.range n).foldl (State.floorStep M) s).hostReadMemo c).isSome
  | 0, _, _ => ⟨.refl s, by simp⟩
  | n + 1, hm, hn => by
    obtain ⟨hframe, hflags⟩ := State.floorSteps_flags h n (by omega) (by omega)
    have husable : FloorUsable ((List.range n).foldl (State.floorStep M) s).cfg
        ((List.range n).foldl (State.floorStep M) s).tab (floorOf M n) := by rw [hframe.cfg, hframe.tab]; exact h n
    obtain ⟨hown, hothers⟩ := State.floorStep_flags husable (by rw [hframe.memo]; omega) (by rw [hframe.nonzero]; omega)
    rw [List.range_succ, List.foldl_append, List.foldl_cons, List.foldl_nil]
    refine ⟨hframe.trans ((mapFloorPass1_frame M n _).ok (mapFloorPass1_eq husable)), fun c hc => ?_⟩
    by_cases hcn : c = n
    · rw [hcn]
      exact hown
    · obtain ⟨hz, hk⟩ := hothers c hcn
      rw [hz, hk]
      exact hflags c (by omega)

end

/-! ## The pairs -/

/-- R285: one pair widens both its flags when either is raised. -/
theorem State.widenPair_isNonzero {a b c : Nat} {t : State} (ha : a < t.nonzero.length) (hb : b < t.nonzero.length) :
    (t.widenPair (a, b)).isNonzero c =
      if c = a ∨ c = b then t.isNonzero a || t.isNonzero b else t.isNonzero c := by
  unfold State.widenPair
  split
  case isTrue h =>
    rw [h]
    simp only [State.isNonzero, State.setNonzero, List.getD_eq_getElem?_getD, List.getElem?_set, List.length_set]
    by_cases hcb : b = c
    · subst hcb; simp [hb]
    · by_cases hca : a = c
      · subst hca; simp [hcb, ha]
      · simp [hca, hcb, Ne.symm hca, Ne.symm hcb]
  case isFalse h =>
    obtain ⟨h1, h2⟩ : t.isNonzero a = false ∧ t.isNonzero b = false := by simpa using h
    rw [h1, h2]
    split
    case isTrue hc => rcases hc with rfl | rfl <;> simp [h1, h2]
    case isFalse => rfl

/-- R285: the pairs in declaration order widen the flags of the channels as `widenFlags` says. -/
theorem State.foldl_widenPair_isNonzero {n : Nat} : ∀ (pairs : List (Nat × Nat)) (t : State) (flags : Nat → Bool),
    (∀ pair ∈ pairs, pair.1 < n ∧ pair.2 < n) → n ≤ t.nonzero.length → (∀ c < n, t.isNonzero c = flags c) →
    ∀ c < n, (pairs.foldl (fun t pair => t.widenPair pair) t).isNonzero c = widenFlags pairs flags c
  | [], _, _, _, _, hflags, c, hc => hflags c hc
  | (a, b) :: pairs, t, flags, hpairs, hn, hflags, c, hc => by
    obtain ⟨⟨ha, hb⟩, hrest⟩ := List.forall_mem_cons.1 hpairs
    have ha : a < n := ha
    have hb : b < n := hb
    rw [List.foldl_cons, widenFlags]
    refine State.foldl_widenPair_isNonzero pairs _ _ hrest ?_ (fun k hk => ?_) c hc
    · rw [(DecodeFrame.widenPair (a, b) t).nonzero]
      exact hn
    · rw [State.widenPair_isNonzero (by omega) (by omega), hflags a ha, hflags b hb, hflags k hk]

theorem State.foldl_widenPair_memo : ∀ (pairs : List (Nat × Nat)) (t : State),
    (pairs.foldl (fun t pair => t.widenPair pair) t).memo = t.memo
  | [], _ => rfl
  | pair :: pairs, t => by
    rw [List.foldl_cons, State.foldl_widenPair_memo pairs, State.widenPair]
    split <;> rfl

/-- Settles O46: the flags after pass 1, widened, are what the rest of the mapping leaves, but for `silence_block`. -/
theorem mappingMarksSilence : Obligations.MappingMarksSilence := by
  intro s modes channels r M hr hconf harrays hmodes hch hlt hmode hmap hflag hsize hshort
  have h : s.MappingReady channels r M := ⟨hr, hconf, ⟨modes, hmodes, hlt⟩, hch, hmode, hmap, hflag, hsize, hshort⟩
  obtain ⟨hfloors, -, hpairs⟩ := h.usable
  obtain ⟨hnonzero, hmemo, -⟩ := harrays
  obtain ⟨n, hn, -, h255⟩ := hconf.channels
  obtain rfl : channels = n := Option.some.inj (hch.symm.trans hn)
  obtain ⟨hframe, hflags⟩ := State.floorSteps_flags hfloors channels (by omega) (by omega)
  refine ⟨hflags, fun x => ?_⟩
  obtain ⟨hready0, hready1⟩ := State.spectrumReady_flags M channels s
  obtain ⟨hmapped1, hmapped0⟩ := State.mapped_flags M channels x s
  rw [hready1, State.foldl_widenPair_memo] at hmapped1
  have hreport : ∃ t, exec .map0Inverse (s.withEofInResidue x) = .next t ∧ t.memo = (s.mapped M channels x).memo ∧
      t.nonzero = (s.mapped M channels x).nonzero := by
    refine ⟨_, h.exec_map0Inverse x, ?_⟩
    split <;> exact ⟨rfl, rfl⟩
  obtain ⟨t, hexec, ht1, ht0⟩ := hreport
  have hmemos := ht1.trans hmapped1
  refine ⟨t, hexec, hmemos, fun c hc => ?_⟩
  have hwidened := State.foldl_widenPair_isNonzero M.coupling _ (fun k => (t.hostReadMemo k).isSome) hpairs
    (by rw [hframe.nonzero]; omega) (fun k hk => (hflags k hk).trans (by rw [State.hostReadMemo, State.hostReadMemo, hmemos])) c hc
  unfold State.hostReadNonzero State.isNonzero
  unfold State.isNonzero at hwidened
  rw [ht0, hmapped0]
  by_cases hsilence : s.residueStops M channels = true ∧ x = .silenceBlock
  · rw [if_pos hsilence, fillFirst_false_getD hc]
    simp [hsilence]
  · have hkept : (s.residueStops M channels && x == .silenceBlock) = false := by simpa using hsilence
    rw [if_neg hsilence, hready0, hwidened, hkept]
    rfl

end Sys2Proof.Machine
end

section
/-! SUPPORT. `SYNTHESIS` of a payload with a good head (47_block.md R322 to R327): the head read back, the block it opens, and
what the mapping leaves of that block. -/

namespace Sys2Proof.Machine

/-! ## The head -/

theorem headRead_sends {t : State} {n v : Nat} (h : t.Sends [(n, v)]) : headRead n t = .ok v (t.advance n) :=
  absorb_ok (readBits_sends h)

/-- R322 to R324: a good head is read back, and nothing but the cursor changes. -/
theorem readHead_sends {t : State} {modes modebits m : Nat} {r : Mode} {lw nw : Bool} (hbits : t.tab.modebits = some modebits)
    (hmodes : t.cfg.modes = some modes) (hlt : m < modes) (hr : fieldAt t.cfg.mode m = some r)
    (hshort : r.blockflag = false → lw = false ∧ nw = false)
    (hs : t.Sends (headFields modebits 0 m r.blockflag lw nw)) :
    readHead t = .ok (m, r, lw, nw) (t.advance (fieldBits (headFields modebits 0 m r.blockflag lw nw))) := by
  have hs : t.Sends ([(1, 0)] ++ ([(modebits, m)] ++
    if r.blockflag then [(1, bitValue lw), (1, bitValue nw)] else [])) := hs
  refine (bind_ok (headRead_sends hs.left)).trans ?_
  refine (lookup_bind (g := fun t => t.tab.modebits) (s := t.advance 1) hbits).trans ?_
  have hs := hs.right
  refine (bind_ok (headRead_sends hs.left)).trans ?_
  refine (lookup_bind (g := fun t => t.cfg.modes) (s := (t.advance 1).advance modebits) hmodes).trans ?_
  have hs := hs.right
  rw [if_neg (Nat.not_le.2 hlt)]
  refine (lookup_bind (g := fun t => fieldAt t.cfg.mode m) (s := (t.advance 1).advance modebits) hr).trans ?_
  cases hlong : r.blockflag with
  | false =>
    obtain ⟨rfl, rfl⟩ := hshort hlong
    simp [headFields] <;> rfl
  | true =>
    rw [hlong] at hs
    have hs : State.Sends _ ([(1, bitValue lw)] ++ [(1, bitValue nw)]) := hs
    refine (bind_ok (headRead_sends hs.left)).trans ((bind_ok (headRead_sends hs.right)).trans ?_)
    cases lw <;> cases nw <;> simp [headFields, bitValue] <;> rfl

/-! ## The block -/

section

variable {s b : State} {eos bos : Bool} {modes modebits m n channels : Nat} {r : Mode} {M : Mapping} {lw nw : Bool}

/-- A block size fits `PCMEND` (48_header.md R361). -/
theorem State.Configured.blocksize_lt (h : s.Configured) {w : Bool} (hn : s.blocksize w = some n) : n < 2 ^ 16 := by
  obtain ⟨e0, e1, h0, h1, -, hle, h15⟩ := h.blocksizes
  have hpow : ∀ e, e ≤ 15 → 2 ^ e < 2 ^ 16 := fun e he => Nat.pow_lt_pow_right (by omega) (by omega)
  unfold State.blocksize at hn
  rw [h0, h1] at hn
  cases w <;> cases hn
  · exact hpow e0 (by omega)
  · exact hpow e1 (by omega)

theorem State.openedBlock_mode {bits : Nat} (hm : m < 64) (hb : b = s.openedBlock eos bos bits m r lw nw n channels) :
    b.mode.toNat = m := by
  subst hb
  exact (BitVec.toNat_ofNat m 6).trans (Nat.mod_eq_of_lt hm)

theorem State.openedBlock_pcmend {bits : Nat} (hn : n < 2 ^ 16)
    (hb : b = s.openedBlock eos bos bits m r lw nw n channels) : b.pcmend.toNat = n := by
  subst hb
  exact (BitVec.toNat_ofNat n 16).trans (Nat.mod_eq_of_lt hn)

/-- The block that a good head opens meets the conditions of the mapping. -/
theorem State.openedBlock_ready (hready : s.phase = .ready) (hconf : s.Configured) (hmodes : s.cfg.modes = some modes)
    (hch : s.cfg.channels = some channels) (hlt : m < modes) (hr : fieldAt s.cfg.mode m = some r)
    (hM : fieldAt s.cfg.map r.mapping = some M) (hn : s.blocksize r.blockflag = some n)
    (hshort : r.blockflag = false → lw = false ∧ nw = false) (bits : Nat)
    (hb : b = s.openedBlock eos bos bits m r lw nw n channels) : b.MappingReady channels r M := by
  obtain ⟨modes', hmodes', -, h64, -⟩ := hconf.modes
  obtain rfl : modes = modes' := Option.some.inj (hmodes.symm.trans hmodes')
  have hmode := State.openedBlock_mode (by omega) hb
  have hend := State.openedBlock_pcmend (hconf.blocksize_lt hn) hb
  have hcfg : b.cfg = s.cfg := by subst hb; rfl
  have hw : b.w = r.blockflag := by subst hb; rfl
  refine ⟨by subst hb; exact hready, hconf.congr hcfg (by subst hb; rfl), ⟨modes, ?_, ?_⟩, ?_, ?_, ?_, hw, ?_, ?_⟩
  · rw [hcfg, hmodes]
  · rw [hmode]
    exact hlt
  · rw [hcfg, hch]
  · rw [hmode, hcfg, hr]
  · rw [hcfg, hM]
  · unfold State.blocksize at *
    rw [hw, hcfg, hend, hn]
  · subst hb
    exact hshort

/-- R322: `SYNTHESIS` of a payload with a good head opens its block, runs the mapping on it, and reports the block, or the packet
failed. -/
theorem synthesis_eq (hconf : s.Configured) (hmodes : s.cfg.modes = some modes) (hbits : s.tab.modebits = some modebits)
    (hch : s.cfg.channels = some channels) (hlt : m < modes) (hr : fieldAt s.cfg.mode m = some r)
    (hn : s.blocksize r.blockflag = some n) (hshort : r.blockflag = false → lw = false ∧ nw = false)
    (hs : (s.initCursor s.arg0 s.arg1).Sends (headFields modebits 0 m r.blockflag lw nw))
    (hb : b = s.openedBlock eos bos (fieldBits (headFields modebits 0 m r.blockflag lw nw)) m r lw nw n channels)
    (hready : b.MappingReady channels r M) (x : EofInResidue) :
    synthesis defaultParams eos bos (s.withEofInResidue x) =
      if b.residueStops M channels = true ∧ x = .failPacket
        then .error .eof (((b.mapped M channels x).setBState .failed).withEofInResidue x)
        else .ok (BitVec.ofNat 32 n)
          ((((b.mapped M channels x).setSamples (BitVec.ofNat 16 n)).setBState .emitted).withEofInResidue x) := by
  have hn16 := hconf.blocksize_lt hn
  have hopen : openPacket eos bos (s.withEofInResidue x) = .ok () ((s.opened eos bos channels).withEofInResidue x) :=
    openPacket_eq hch
  have hhead : readHead ((s.opened eos bos channels).withEofInResidue x) = .ok (m, r, lw, nw)
      (((s.opened eos bos channels).advance (fieldBits (headFields modebits 0 m r.blockflag lw nw))).withEofInResidue x) :=
    readHead_sends (t := (s.opened eos bos channels).withEofInResidue x) hbits hmodes hlt hr hshort
      (hs.congr rfl rfl rfl rfl)
  have hblock : openBlock m r lw nw
      (((s.opened eos bos channels).advance (fieldBits (headFields modebits 0 m r.blockflag lw nw))).withEofInResidue x) =
      .ok () (b.withEofInResidue x) := by
    rw [hb, openedBlock_eq hn16]
    exact openBlock_eq (s := ((s.opened eos bos channels).advance
      (fieldBits (headFields modebits 0 m r.blockflag lw nw))).withEofInResidue x) hn hch
  have hpcmend : (b.mapped M channels x).pcmend = BitVec.ofNat 16 n := by
    rw [(hready.mapped_frame x).pcmend, hb]
    rfl
  have hrun := hready.map0Inverse_eq x
  unfold residuesEnd at hrun
  unfold synthesis
  rw [bind_ok hopen, bind_ok hhead]
  dsimp only
  rw [bind_ok hblock]
  split
  case isTrue hstop =>
    rw [if_pos hstop] at hrun
    exact bind_error (by rw [absorb, hrun]; rfl)
  case isFalse hstop =>
    rw [if_neg hstop] at hrun
    refine (bind_ok (absorb_ok hrun)).trans ?_
    show EStateM.Result.ok (BitVec.ofNat 32 (b.mapped M channels x).pcmend.toNat)
      ((((b.mapped M channels x).setSamples (b.mapped M channels x).pcmend).setBState .emitted).withEofInResidue x) = _
    rw [hpcmend, BitVec.toNat_ofNat, Nat.mod_eq_of_lt hn16]

/-- What `SYNTHESIS` sets before the mapping runs. -/
theorem State.openedBlock_blockFrame (bits : Nat) (hb : b = s.openedBlock eos bos bits m r lw nw n channels) :
    BlockFrame eos bos s b := by
  subst hb
  constructor
  case nonzero => exact fillFirst_length _ _ _
  case memo => exact fillFirst_length _ _ _
  all_goals rfl

/-- The words of the block a head opens. -/
theorem State.openedBlock_pcm (bits : Nat) (hb : b = s.openedBlock eos bos bits m r lw nw n channels) :
    b.pcm.length = channels ∧ ∀ row ∈ b.pcm, row.length = n := by
  have hpcm : b.pcm = List.replicate channels (List.replicate n 0) := by subst hb; rfl
  rw [hpcm]
  exact ⟨List.length_replicate, fun row hrow => by rw [List.eq_of_mem_replicate hrow, List.length_replicate]⟩

end

/-- Settles O58: the head is read back and opens its block (`synthesis_eq`); what the mapping makes of it is MappingAlwaysCompletes,
and the frame of decoding keeps the registers. -/
theorem synthesisGivesABlock : Obligations.SynthesisGivesABlock := by
  intro s eos bos modes modebits m n channels r M lw nw hphase hconf hmodes hbits hch hlt hr hM hn hshort hs b hb
  have hready := State.openedBlock_ready hphase hconf hmodes hch hlt hr hM hn hshort _ hb
  have hn16 := hconf.blocksize_lt hn
  have hend := State.openedBlock_pcmend hn16 hb
  obtain ⟨hlen, hrows⟩ := State.openedBlock_pcm _ hb
  have hexec : ∀ x, exec (.synthesis eos bos) (s.withEofInResidue x) = .next
      (if b.residueStops M channels = true ∧ x = .failPacket
        then (((b.mapped M channels x).setBState .failed).withEofInResidue x).completeFail .eof
        else ((((b.mapped M channels x).setSamples (BitVec.ofNat 16 n)).setBState .emitted).withEofInResidue x).completeOk
          (BitVec.ofNat 32 n)) := fun x => by
    have hrun := synthesis_eq hconf hmodes hbits hch hlt hr hn hshort hs hb hready x
    rw [exec_accepted (i := .synthesis eos bos) (judgeReady_ok (s := s.withEofInResidue x) hphase)]
    show finish (synthesis defaultParams eos bos (s.withEofInResidue x)) = _
    split
    case isTrue hstop => rw [if_pos hstop] at hrun; exact finish_error hrun
    case isFalse hstop => rw [if_neg hstop] at hrun; exact finish_ok hrun
  refine ⟨hexec, fun hstop => ⟨State.mapped_trunc hstop, fun _ => State.mapped_silent hstop, ?silent⟩, fun x hx => ?emitted,
    ?failed⟩
  case silent =>
    rw [hready.mapped_silentBlock hstop (.inr ⟨hready.channels.trans (by rw [hlen]), by rw [hend]; exact hrows⟩), hend]
  case emitted =>
    have hframe := hready.mapped_frame x
    have hblock := hframe.blockFrame (State.openedBlock_blockFrame _ hb)
    obtain ⟨modes', hmodes', -, h64, -⟩ := hconf.modes
    obtain rfl : modes = modes' := Option.some.inj (hmodes.symm.trans hmodes')
    have hrun := hexec x
    rw [if_neg fun h => hx h.2] at hrun
    have hw : b.w = r.blockflag ∧ b.lw = lw ∧ b.nw = nw := by subst hb; exact ⟨rfl, rfl, rfl⟩
    obtain ⟨hw, hlw, hnw⟩ := hw
    generalize b.mapped M channels x = u at hrun hframe hblock
    have hres : (BitVec.ofNat 32 n).toNat = n := (BitVec.toNat_ofNat n 32).trans (Nat.mod_eq_of_lt (by omega))
    have hsamples : (BitVec.ofNat 16 n).toNat = n := (BitVec.toNat_ofNat n 16).trans (Nat.mod_eq_of_lt hn16)
    have hpcmend : u.pcmend.toNat = n := (congrArg BitVec.toNat hframe.pcmend).trans hend
    have hmode : u.mode.toNat = m :=
      (congrArg BitVec.toNat hframe.mode).trans (State.openedBlock_mode (by omega) hb)
    have hgranule : u.granule = s.arg3 ++ s.arg2 := hblock.granule
    refine ⟨_, hrun, ?_⟩
    simpa [hres, hsamples, hpcmend, hmode, hframe.w, hw, hframe.lw, hlw, hframe.nw, hnw, hblock.base, hblock.len,
      hgranule, hblock.eos, hblock.bos, hframe.row_count, hlen, hblock.cfg, hblock.tab, hblock.phase, hphase]
      using hframe.row_lengths hrows
  case failed =>
    by_cases hstop : b.residueStops M channels = true
    · have hrun := hexec .failPacket
      rw [if_pos ⟨hstop, rfl⟩] at hrun
      have hsamples : (b.mapped M channels .failPacket).samples = 0 :=
        (hready.mapped_frame .failPacket).samples.trans (by rw [hb]; rfl)
      generalize b.mapped M channels .failPacket = u at hrun hsamples
      exact ⟨_, hrun, fun h => absurd (hstop.symm.trans h) (by decide), fun _ => ⟨rfl, rfl, rfl, rfl, hsamples⟩⟩
    · have hrun : ∀ x, exec (.synthesis eos bos) (s.withEofInResidue x) = _ := fun x =>
        (hexec x).trans (congrArg Host.Outcome.next (if_neg fun h => hstop h.1))
      refine ⟨_, hrun .failPacket, fun hnot => ⟨rfl, fun x => (hrun x).trans ?_⟩, fun h => absurd h hstop⟩
      rw [State.mapped_of_not_stops hnot x .failPacket]
      rfl

end Sys2Proof.Machine
end

section
/-! SUPPORT. The undoing of a coupling pair, word by word (45_mapping.md R286). -/

namespace Sys2Proof.Machine

theorem overwrite_getElem? {α : Type} (new l : List α) (i : Nat) :
    (overwrite new l)[i]? = l[i]?.map fun w => new.getD i w := by
  unfold overwrite
  rcases Nat.lt_or_ge i l.length with hl | hl
  · rcases Nat.lt_or_ge i new.length with hn | hn
    · simp [List.getElem?_append, hl, hn]
    · have hpos : new.length + (i - min l.length new.length) = i := by omega
      rw [List.getElem?_append_right (by simp; omega)]
      simp [hl, hn, hpos]
  · simp [List.getElem?_append, hl]; omega

/-- R71: a row store changes the words of its row that it has a word for. -/
theorem State.storeRow_hostReadPcm (c : Nat) (words : List F32) (s : State) (c' i : Nat) :
    (s.storeRow c words).hostReadPcm c' i =
      (s.hostReadPcm c' i).map fun w => if c' = c then words.getD i w else w := by
  by_cases hc : c' = c
  · subst hc
    cases hrow : s.pcm[c']? with
    | none => simp [State.hostReadPcm, State.storeRow, State.setPcmRow, List.getElem?_set', hrow]
    | some row =>
      simp [State.hostReadPcm, State.storeRow, State.setPcmRow, State.pcmRow, List.getElem?_set', hrow, overwrite_getElem?]
  · simp [State.hostReadPcm, State.storeRow, State.setPcmRow, hc, Ne.symm hc]

/-- The new magnitude and angle words of a pair, sample by sample. -/
def State.decoupled (h cm ca : Nat) (s : State) : List (F32 × F32) :=
  ((List.zip (s.pcmRow cm) (s.pcmRow ca)).take h).map fun x => decoupleSample x.1 x.2

theorem State.decoupled_length_le (h cm ca : Nat) (s : State) : (s.decoupled h cm ca).length ≤ h := by
  simp [State.decoupled]

theorem State.decoupled_getElem? {s : State} {h cm ca j : Nat} {mag ang : F32} (hj : j < h)
    (hmag : s.hostReadPcm cm j = some mag) (hang : s.hostReadPcm ca j = some ang) :
    (s.decoupled h cm ca)[j]? = some (decoupleSample mag ang) := by
  obtain ⟨mags, hmags, hmag⟩ := Option.bind_eq_some_iff.1 hmag
  obtain ⟨angs, hangs, hang⟩ := Option.bind_eq_some_iff.1 hang
  simp [State.decoupled, State.pcmRow, List.getElem?_zip_eq_some, hmags, hangs, hj, hmag, hang]

/-- R286: the magnitude row takes the first words, the angle row the second; every other word stays. -/
theorem State.decouple_hostReadPcm {cm ca : Nat} (hne : cm ≠ ca) (h : Nat) (s : State) (c i : Nat) :
    (s.decouple h (cm, ca)).hostReadPcm c i = (s.hostReadPcm c i).map fun w =>
      if c = cm then ((s.decoupled h cm ca).map Prod.fst).getD i w
      else if c = ca then ((s.decoupled h cm ca).map Prod.snd).getD i w
      else w := by
  show ((s.storeRow cm ((s.decoupled h cm ca).map Prod.fst)).storeRow ca
    ((s.decoupled h cm ca).map Prod.snd)).hostReadPcm c i = _
  rw [State.storeRow_hostReadPcm, State.storeRow_hostReadPcm, Option.map_map]
  congr 1
  funext w
  by_cases hcm : c = cm
  · simp [hcm, hne]
  · simp [hcm]

/-- The four assignments of R286, by the signs of the old words. -/
theorem decoupleSample_eq (mag ang : F32) : decoupleSample mag ang =
    match f32Gt0 mag, f32Gt0 ang with
    | true, true => (mag, f32Sub mag ang)
    | true, false => (f32Add mag ang, mag)
    | false, true => (mag, f32Add mag ang)
    | false, false => (f32Sub mag ang, mag) := by
  unfold decoupleSample
  cases f32Gt0 mag <;> cases f32Gt0 ang <;> rfl

/-- Settles O47: the rows are written in turn, each word of the half by `decoupleSample`, and no other word. -/
theorem decouplingIsSampleBySample : Obligations.DecouplingIsSampleBySample := by
  intro s cm ca h hne mags angs hmags hangs _
  refine ⟨fun j mag ang hj hmag hang => ?_, fun c i hout => ?_⟩
  · have hmag : s.hostReadPcm cm j = some mag := Option.bind_eq_some_iff.2 ⟨mags, hmags, hmag⟩
    have hang : s.hostReadPcm ca j = some ang := Option.bind_eq_some_iff.2 ⟨angs, hangs, hang⟩
    have hpair := State.decoupled_getElem? hj hmag hang
    have hwords : ((s.decouple h (cm, ca)).hostReadPcm cm j, (s.decouple h (cm, ca)).hostReadPcm ca j) =
        (some (decoupleSample mag ang).1, some (decoupleSample mag ang).2) := by
      simp [State.decouple_hostReadPcm hne, hmag, hang, hne.symm, hpair]
    rw [hwords, decoupleSample_eq]
    cases f32Gt0 mag <;> cases f32Gt0 ang <;> rfl
  · rw [State.decouple_hostReadPcm hne]
    rcases hout with ⟨hcm, hca⟩ | hi
    · simp [hcm, hca]
    · have hlen := s.decoupled_length_le h cm ca
      have hnone : (s.decoupled h cm ca)[i]? = none := List.getElem?_eq_none (hlen.trans hi)
      simp [hnone]

end Sys2Proof.Machine
end

section
/-! SUPPORT. A packet whose channels are all silent: what the mapping reads, and what it leaves (45_mapping.md R284, R289,
47_block.md R331). -/

namespace Sys2Proof.Machine

/-! ## What a silent packet keeps -/

/-- The cursor has read `bits` bits and met no end, `TRUNC` is as before, and a silent channel is silent still. -/
structure QuietFrame (bits : Nat) (s t : State) : Prop where
  pos : t.pos = s.pos + bits
  eoff : t.eoff = s.eoff
  trunc : t.trunc = s.trunc
  silent : ∀ c, s.isNonzero c = false → t.isNonzero c = false

theorem QuietFrame.refl (s : State) : QuietFrame 0 s s := ⟨rfl, rfl, rfl, fun _ h => h⟩

theorem QuietFrame.trans {m n : Nat} {s t u : State} (h : QuietFrame m s t) (k : QuietFrame n t u) :
    QuietFrame (m + n) s u where
  pos := by rw [k.pos, h.pos, Nat.add_assoc]
  eoff := k.eoff.trans h.eoff
  trunc := k.trunc.trans h.trunc
  silent c hc := k.silent c (h.silent c hc)

/-- What steps 2 and 4 to 7 may change: the rows of the block. -/
def Reach.rewriting : Reach := { rows := fun _ => True }

theorem StaysIn.quietFrame {s t : State} (h : StaysIn .rewriting s t) : QuietFrame 0 s t := by
  obtain ⟨hpos, heoff⟩ := h.cursor id
  refine ⟨hpos, heoff, h.trunc, fun c hc => ?_⟩
  rw [State.isNonzero, h.nonzero]
  exact hc

/-! ## Floor pass 1 -/

section

variable {M : Mapping}

/-- R234, R284: pass 1 of a floor-1 channel that sends `nonzero = 0` reads that bit and leaves the channel silent. -/
theorem State.floorStep_of_zero {s : State} {c : Nat} (h : FloorUsable s.cfg s.tab (floorOf M c))
    (htype : fieldAt s.cfg.floorType (floorOf M c) = some 1) (hs : s.Sends [(1, 0)]) :
    s.floorStep M c = ((s.setMemo c none).advance 1).setNonzero c false := by
  obtain ⟨hty, -⟩ | ⟨-, F, hF, ⟨T, hT⟩, -⟩ := h
  · simp [htype] at hty
  · have hbit : readBit (s.setMemo c none) = .ok false ((s.setMemo c none).advance 1) := readBit_sends (hs.setMemo c none)
    have hrun : f1Inverse1 (floorOf M c) c s = .ok .silent ((s.setMemo c none).advance 1) :=
      (f1Inverse1_eq (F := F) (by simp [State.floor1At, hF]) hT).trans (absorb_ok (bind_ok hbit))
    unfold State.floorStep
    rw [if_neg (by simp [htype]), hrun]

theorem QuietFrame.silentFloor (s : State) (c : Nat) :
    QuietFrame 1 s (((s.setMemo c none).advance 1).setNonzero c false) where
  pos := rfl
  eoff := rfl
  trunc := rfl
  silent k hk := by
    simp only [State.isNonzero, List.getD_eq_getElem?_getD] at hk
    by_cases hck : c = k
    · by_cases hc : k < s.nonzero.length <;> simp [State.isNonzero, hck, hc]
    · simp [State.isNonzero, List.getElem?_set_ne hck, hk]

/-- R284: pass 1 of channels that all send `nonzero = 0` reads one bit a channel. -/
theorem State.floorSteps_of_zeros : ∀ (l : List Nat) (s : State), (∀ c, FloorUsable s.cfg s.tab (floorOf M c)) →
    (∀ c, fieldAt s.cfg.floorType (floorOf M c) = some 1) → s.Sends (List.replicate l.length (1, 0)) →
    QuietFrame l.length s (l.foldl (State.floorStep M) s)
  | [], s, _, _, _ => .refl s
  | c :: l, s, husable, htype, hs => by
    have hs : s.Sends ([(1, 0)] ++ List.replicate l.length (1, 0)) := hs
    have hrest := State.floorSteps_of_zeros l (((s.setMemo c none).advance 1).setNonzero c false) husable htype
      (hs.right.congr rfl rfl rfl rfl)
    rw [List.foldl_cons, State.floorStep_of_zero (husable c) (htype c) hs.left, List.length_cons, Nat.add_comm]
    exact (QuietFrame.silentFloor s c).trans hrest

end

/-! ## The pairs and the residues of silent channels -/

/-- R285: pairs of silent channels widen nothing. -/
theorem State.foldl_widenPair_of_silent {s : State} : ∀ pairs : List (Nat × Nat),
    (∀ pair ∈ pairs, s.isNonzero pair.1 = false ∧ s.isNonzero pair.2 = false) →
    pairs.foldl (fun t pair => t.widenPair pair) s = s
  | [], _ => rfl
  | pair :: pairs, h => by
    obtain ⟨⟨h1, h2⟩, hrest⟩ := List.forall_mem_cons.1 h
    have hpair : s.widenPair pair = s := if_neg (by simp [h1, h2])
    rw [List.foldl_cons, hpair]
    exact State.foldl_widenPair_of_silent pairs hrest

section

variable {s : State} {M : Mapping} {channels : Nat}

/-- R264: the residue of a bundle of silent channels reads nothing. -/
theorem resInverse_of_silent {r : Nat} {chlist : List Nat} (h : ResidueUsable s.cfg s.tab r)
    (hsilent : ∀ c ∈ chlist, s.isNonzero c = false) : resInverse r chlist s = .ok false s := by
  rw [resInverse_eq h]
  obtain ⟨R, T, ⟨type, hty, hle⟩, hR, hT, -, ⟨phrase, hp⟩, -⟩ := h
  have hempty : (s.residuePlan type R T phrase.dim chlist).vecs = 0 :=
    ResiduePlan.vecs_of_used_nil (State.activeChannels_eq_nil hsilent)
  have hrun := residueDecode_empty hle chlist hR hT hp rfl (.inr hempty)
  simpa only [hty, Option.some.injEq, residueDecode] using hrun

variable (h : ∀ i, ResidueUsable s.cfg s.tab (M.residuesubmap.getD i 0)) (hsilent : ∀ c < channels, s.isNonzero c = false)
include h hsilent

/-- R289: a submap of silent channels changes nothing. -/
theorem State.submapStep_of_silent (k : Nat) : s.submapStep M channels k = (false, s) := by
  by_cases hnil : bundleOf M channels k = []
  · exact State.submapStep_of_bundle_nil M channels s hnil
  · refine State.submapStep_of_returns M channels hnil (h k) (resInverse_of_silent (h k) fun c hc => ?_)
    exact hsilent c (List.mem_range.1 (List.mem_of_mem_filter hc))

theorem State.submapsUntilStop_of_silent : ∀ l : List Nat, s.submapsUntilStop M channels l = (false, s)
  | [] => rfl
  | k :: l => by
    rw [State.submapsUntilStop_cons, State.submapStep_of_silent h hsilent]
    exact State.submapsUntilStop_of_silent l

end

/-! ## The whole mapping -/

theorem State.blockSteps_staysIn (M : Mapping) (channels : Nat) (s : State) :
    StaysIn .rewriting s (s.transformedBlock M channels) ∧ StaysIn .rewriting s (s.blockSteps M channels) := by
  have htransformed : StaysIn .rewriting s (s.transformedBlock M channels) :=
    State.transformedBlock_keeps StaysIn.rel
      (fun _ _ _ => (StaysIn.storeRow trivial _ _).trans (StaysIn.storeRow trivial _ _))
      (fun f _ => f0Inverse2_staysIn trivial defaultParams f) (fun f _ => f1Inverse2_staysIn trivial defaultParams f)
      (fun w _ => mdctBackward_staysIn trivial w) M channels s
  exact ⟨htransformed, htransformed.trans <|
    StaysIn.rel.foldl (fun t _ => (winApply_staysIn trivial).leftBy t) (List.range channels) _⟩

section

variable {s : State} {channels : Nat} {r : Mode} {M : Mapping}

/-- R284: when every channel sends `nonzero = 0`, steps 1 to 2 read those bits, and every channel stays silent. -/
theorem State.MappingReady.spectrumReady_of_zeros (h : s.MappingReady channels r M)
    (htype : ∀ c, fieldAt s.cfg.floorType (floorOf M c) = some 1) (hs : s.Sends (List.replicate channels (1, 0)))
    (hsilent : ∀ c < channels, s.isNonzero c = false) : QuietFrame channels s (s.spectrumReady M channels) := by
  obtain ⟨hfloors, -, hpairs⟩ := h.usable
  have hread := State.floorSteps_of_zeros (List.range channels) s hfloors htype (by rwa [List.length_range])
  have hwidened := State.foldl_widenPair_of_silent (s := (List.range channels).foldl (State.floorStep M) s) M.coupling
    fun pair hpair => ⟨hread.silent _ (hsilent _ (hpairs pair hpair).1), hread.silent _ (hsilent _ (hpairs pair hpair).2)⟩
  have hzeroed : StaysIn .rewriting _ (s.spectrumReady M channels) :=
    StaysIn.rel.foldl (fun t c => StaysIn.storeRow (c := c) trivial (List.replicate (s.pcmend.toNat / 2) 0) t)
      (List.range channels) _
  rw [hwidened] at hzeroed
  simpa using hread.trans hzeroed.quietFrame

/-- R289, R331: when every channel sends `nonzero = 0`, no residue stops early, and the mapping reads those bits and leaves
zeros. -/
theorem State.MappingReady.mapped_of_zeros (h : s.MappingReady channels r M)
    (htype : ∀ c, fieldAt s.cfg.floorType (floorOf M c) = some 1) (hs : s.Sends (List.replicate channels (1, 0)))
    (hsilent : ∀ c < channels, s.isNonzero c = false) (hlen : s.pcm.length = channels)
    (hrows : ∀ row ∈ s.pcm, row.length = s.pcmend.toNat) (x : EofInResidue) :
    s.residueStops M channels = false ∧ QuietFrame channels s (s.mapped M channels x) ∧
    (s.mapped M channels x).pcm = List.replicate channels (List.replicate s.pcmend.toNat 0) := by
  obtain ⟨-, hresidues, -⟩ := h.usable
  obtain ⟨hframe, -⟩ := h.spectrum x
  have hquiet := h.spectrumReady_of_zeros htype hs hsilent
  have hsubmaps := State.submapsUntilStop_of_silent (s := s.spectrumReady M channels) (channels := channels)
    (by rw [hframe.cfg, hframe.tab]; exact hresidues) (fun c hc => hquiet.silent c (hsilent c hc)) (List.range M.submaps)
  have hmapped : s.mapped M channels x = (s.spectrumReady M channels).blockSteps M channels := by
    simp [State.mapped, hsubmaps]
  obtain ⟨htransformed, hblock⟩ := State.blockSteps_staysIn M channels (s.spectrumReady M channels)
  have hbefore := hframe.trans (State.transformedBlock_frame M channels _)
  refine ⟨by rw [State.residueStops, hsubmaps], by rw [hmapped]; exact hquiet.trans hblock.quietFrame, ?_⟩
  rw [hmapped, State.blockSteps_eq]
  exact h.windowed_silent hbefore (fun c hc => (hquiet.trans htransformed.quietFrame).silent c (hsilent c hc))
    (hbefore.row_count.trans hlen) (hbefore.row_lengths hrows)

end

/-- The block that a head of `bits` bits opens: the cursor past the head, no truncation, every channel silent. -/
theorem State.openedBlock_quiet {s b : State} {eos bos : Bool} {bits m n channels : Nat} {r : Mode} {lw nw : Bool}
    (hb : b = s.openedBlock eos bos bits m r lw nw n channels) :
    b.pos = bits ∧ b.eoff = false ∧ b.trunc = false ∧ (∀ c < channels, b.isNonzero c = false) ∧
    ∀ fs, ((s.initCursor s.arg0 s.arg1).advance bits).Sends fs → b.Sends fs := by
  subst hb
  exact ⟨Nat.zero_add bits, rfl, rfl, fun c hc => fillFirst_false_getD hc _, fun fs hs => hs.congr rfl rfl rfl rfl⟩

/-- Settles O60: the head opens a block of silent channels, the mapping reads one bit a channel and leaves zeros. -/
theorem silentPacketGivesZeros : Obligations.SilentPacketGivesZeros := by
  intro s eos bos modes modebits m n channels r M lw nw hphase hconf _ hmodes hbits hch hlt hr hM hn htype hshort hs
  obtain ⟨b, hb⟩ : ∃ b, b = s.openedBlock eos bos (fieldBits (headFields modebits 0 m r.blockflag lw nw)) m r lw nw n
    channels := ⟨_, rfl⟩
  have hready := State.openedBlock_ready hphase hconf hmodes hch hlt hr hM hn hshort _ hb
  have hn16 := hconf.blocksize_lt hn
  have hend := State.openedBlock_pcmend hn16 hb
  have hcfg : b.cfg = s.cfg := (State.openedBlock_blockFrame _ hb).cfg
  obtain ⟨hlen, hrows⟩ := State.openedBlock_pcm _ hb
  obtain ⟨hpos, heoff, htrunc, hsilent, hsends⟩ := State.openedBlock_quiet hb
  obtain ⟨hstops, hquiet, hpcm⟩ := hready.mapped_of_zeros (by rwa [hcfg]) (hsends _ hs.right) hsilent hlen
    (by rwa [hend]) s.eofInResidue
  obtain ⟨hexec, -⟩ := synthesisGivesABlock s eos bos modes modebits m n channels r M lw nw hphase hconf hmodes hbits hch
    hlt hr hM hn hshort hs.left b hb
  have hrun := hexec s.eofInResidue
  have hself : s.withEofInResidue s.eofInResidue = s := rfl
  rw [hself, if_neg (by simp [hstops])] at hrun
  generalize b.mapped M channels s.eofInResidue = u at hrun hquiet hpcm
  have hres : (BitVec.ofNat 32 n).toNat = n := (BitVec.toNat_ofNat n 32).trans (Nat.mod_eq_of_lt (by omega))
  have hu : u.trunc = false ∧ u.eoff = false ∧
      u.pos = fieldBits (headFields modebits 0 m r.blockflag lw nw) + channels ∧
      u.pcm = List.replicate channels (List.replicate n 0) ∧ ∀ c < 255, c < channels → u.hostReadNonzero c = false :=
    ⟨hquiet.trunc.trans htrunc, hquiet.eoff.trans heoff, by rw [hquiet.pos, hpos], by rw [hpcm, hend],
      fun c _ hc => hquiet.silent c (hsilent c hc)⟩
  refine ⟨_, hrun, ?_⟩
  simpa [hres, State.hostReadNonzero, State.isNonzero] using hu

end Sys2Proof.Machine
end

section
/-! SUPPORT. The work arrays of the transform, and the words its last stage stores (46_mdct.md R303 to R305). -/

namespace Sys2Proof.Machine

/-! ## Work arrays -/

theorem wordAt_set_self {a : List F32} {i : Nat} (hi : i < a.length) (v : F32) : wordAt (a.set i v) i = v := by
  simp [wordAt, List.getD, hi]

theorem wordAt_set_ne {i j : Nat} (hne : j ≠ i) (a : List F32) (v : F32) : wordAt (a.set j v) i = wordAt a i := by
  simp [wordAt, List.getD, hne]

@[simp] theorem length_storeAll : ∀ (stores : List (Nat × F32)) (a : List F32), (storeAll stores a).length = a.length
  | [], _ => rfl
  | (i, v) :: rest, a => (length_storeAll rest (a.set i v)).trans List.length_set

@[simp] theorem length_workArray (n : Nat) (stores : List (Nat × F32)) : (workArray n stores).length = n := by
  simp [workArray]

/-- When the stores to one word agree on `v`, the word ends as `v` if one of them is made or if it held `v` before. -/
theorem wordAt_storeAll {i : Nat} {v : F32} : ∀ {stores : List (Nat × F32)} {a : List F32}, i < a.length →
    (∀ u, (i, u) ∈ stores → u = v) → (i, v) ∈ stores ∨ wordAt a i = v → wordAt (storeAll stores a) i = v
  | [], _, _, _, h => h.resolve_left List.not_mem_nil
  | (j, u) :: rest, a, hi, hagree, h => by
    refine wordAt_storeAll (a := a.set j u) (hi.trans_eq List.length_set.symm)
      (fun x hx => hagree x (List.mem_cons_of_mem _ hx)) ?_
    rcases eq_or_ne j i with rfl | hne
    · exact .inr ((wordAt_set_self hi u).trans (hagree u List.mem_cons_self))
    · rw [wordAt_set_ne hne]
      exact h.imp_left fun hmem => (List.mem_cons.1 hmem).resolve_left fun heq => hne (Prod.ext_iff.1 heq).1.symm

/-- Stores that all write the values of one function leave its value in every word they reach. -/
theorem wordAt_workArray {n k : Nat} {v : F32} {stores : List (Nat × F32)} (g : Nat → F32) (hk : k < n)
    (hg : ∀ q ∈ stores, q.2 = g q.1) (hp : (k, v) ∈ stores) : wordAt (workArray n stores) k = v :=
  wordAt_storeAll (by simpa using hk) (fun _ hu => (hg _ hu).trans (hg _ hp).symm) (.inl hp)

/-! ## The last stage -/

/-- `t1` of round `i` of stage 5. -/
def unfoldOdd (n : Nat) (T D : List F32) (i : Nat) : F32 :=
  f32Sub (f32Mul (wordAt D (2 * i)) (wordAt T (n / 2 + 2 * i + 1)))
    (f32Mul (wordAt D (2 * i + 1)) (wordAt T (n / 2 + 2 * i)))

/-- `t2` of round `i` of stage 5. -/
def unfoldEven (n : Nat) (T D : List F32) (i : Nat) : F32 :=
  f32Neg (f32Add (f32Mul (wordAt D (2 * i)) (wordAt T (n / 2 + 2 * i)))
    (f32Mul (wordAt D (2 * i + 1)) (wordAt T (n / 2 + 2 * i + 1))))

/-- The four stores of round `i` of stage 5. -/
def unfoldRound (n : Nat) (T D : List F32) (i : Nat) : List (Nat × F32) :=
  [(n / 4 + i, f32Neg (unfoldOdd n T D i)), (n / 4 - 1 - i, unfoldOdd n T D i),
   (n / 4 + n / 2 + i, unfoldEven n T D i), (n / 4 + n / 2 - 1 - i, unfoldEven n T D i)]

theorem mdctUnfold_eq (n : Nat) (T D : List F32) :
    mdctUnfold n T D = workArray n ((List.range (n / 4)).flatMap (unfoldRound n T D)) := rfl

/-- The word stage 5 leaves at `k`, read off the quarter of the block that `k` lies in. -/
def unfoldedWord (n : Nat) (T D : List F32) (k : Nat) : F32 :=
  if k < n / 4 then unfoldOdd n T D (n / 4 - 1 - k)
  else if k < n / 2 then f32Neg (unfoldOdd n T D (k - n / 4))
  else if k < n / 4 + n / 2 then unfoldEven n T D (n / 4 + n / 2 - 1 - k)
  else unfoldEven n T D (k - (n / 4 + n / 2))

section

variable {n i k : Nat} {T D : List F32} {v : F32}

/-- The stores of a round go to the four quarters of the block, so no two stores differ on a word. -/
theorem unfoldedWord_of_mem (hi : i < n / 4) (hp : (k, v) ∈ unfoldRound n T D i) : k < n ∧ v = unfoldedWord n T D k := by
  simp only [unfoldRound, List.mem_cons, List.not_mem_nil, or_false, Prod.mk.injEq] at hp
  obtain ⟨rfl, rfl⟩ | ⟨rfl, rfl⟩ | ⟨rfl, rfl⟩ | ⟨rfl, rfl⟩ := hp
  · refine ⟨by omega, ?_⟩
    rw [unfoldedWord, if_neg (by omega), if_pos (by omega), Nat.add_sub_cancel_left]
  · refine ⟨by omega, ?_⟩
    rw [unfoldedWord, if_pos (by omega), Nat.sub_sub_self (by omega)]
  · refine ⟨by omega, ?_⟩
    rw [unfoldedWord, if_neg (by omega), if_neg (by omega), if_neg (by omega), Nat.add_sub_cancel_left]
  · refine ⟨by omega, ?_⟩
    rw [unfoldedWord, if_neg (by omega), if_neg (by omega), if_pos (by omega), Nat.sub_sub_self (by omega)]

/-- Every store of stage 5 is in its output. -/
theorem wordAt_mdctUnfold (hi : i < n / 4) (hp : (k, v) ∈ unfoldRound n T D i) : wordAt (mdctUnfold n T D) k = v := by
  refine wordAt_workArray (unfoldedWord n T D) (unfoldedWord_of_mem hi hp).1 (fun q hq => ?_)
    (List.mem_flatMap.2 ⟨i, List.mem_range.2 hi, hp⟩)
  obtain ⟨j, hj, hq⟩ := List.mem_flatMap.1 hq
  exact (unfoldedWord_of_mem (List.mem_range.1 hj) hq).2

end

@[simp] theorem length_mdctUnfold (n : Nat) (T D : List F32) : (mdctUnfold n T D).length = n := by
  simp [mdctUnfold_eq]

/-- R304: the scale keeps the number of words. -/
theorem length_mdctTransform (M : MdctTable) (input : List F32) : (mdctTransform M input).length = M.n := by
  simp [mdctTransform]

/-- Settles O48: one round of stage 5 stores a value with its inverse around `n/4`, and another one twice around `3n/4`. -/
theorem transformHasItsSymmetries : Obligations.TransformHasItsSymmetries := by
  refine ⟨length_mdctTransform, fun n T D _ i hi => ?_⟩
  have hup : wordAt (mdctUnfold n T D) (n / 4 + i) = f32Neg (unfoldOdd n T D i) :=
    wordAt_mdctUnfold hi (by simp [unfoldRound])
  have hdown : wordAt (mdctUnfold n T D) (n / 4 - 1 - i) = unfoldOdd n T D i :=
    wordAt_mdctUnfold hi (by simp [unfoldRound])
  have hupper : wordAt (mdctUnfold n T D) (n / 4 + n / 2 + i) = unfoldEven n T D i :=
    wordAt_mdctUnfold hi (by simp [unfoldRound])
  have hlower : wordAt (mdctUnfold n T D) (n / 4 + n / 2 - 1 - i) = unfoldEven n T D i :=
    wordAt_mdctUnfold hi (by simp [unfoldRound])
  exact ⟨hup.trans (congrArg f32Neg hdown.symm), hupper.trans hlower.symm⟩

end Sys2Proof.Machine
end

section
/-! SUPPORT. The configuration of each phase (48_header.md R350, R361): where it holds at once, and that no instruction breaks it. -/

namespace Sys2Proof.Machine

/-! ## What it depends on -/

/-- What a phase says of the configuration is a matter of `PHASE`, `cfg` and `tab`. -/
theorem State.ConfigOk.congr {s t : State} (h : s.ConfigOk) (hp : t.phase = s.phase) (hc : t.cfg = s.cfg)
    (ht : t.tab = s.tab) : t.ConfigOk where
  identified hn := by
    unfold State.identified
    rw [hc]
    exact h.identified (hp ▸ hn)
  ready hr := (h.ready (hp ▸ hr)).congr hc ht
  inRange hr := (h.inRange (hp ▸ hr)).congr hc ht

/-- `State.ConfigOk.fits` the other way. -/
theorem State.ConfigOk.of_fits {s : State} (h : Loaded.fits s.phase (s.cfg, s.tab)) : s.ConfigOk where
  identified := h.1
  ready hr := (h.2 hr s s.has_self).1
  inRange hr := (h.2 hr s s.has_self).2

/-- Before the identification header nothing is asked. -/
theorem State.ConfigOk.of_needId {s : State} (h : s.phase = .needId) : s.ConfigOk where
  identified hn := absurd h hn
  ready hr := by rw [h] at hr; cases hr
  inRange hr := by rw [h] at hr; cases hr

/-! ## Reset -/

/-- Settles O7: reset has no block and asks nothing of the configuration. -/
theorem resetMeetsTheInvariants : Obligations.ResetMeetsTheInvariants := by
  have h : State.reset.InvButStatus := State.cleared_invButStatus (s := State.reset) rfl rfl
  exact ⟨{ h with status := ⟨Nat.zero_le 7, fun _ => rfl, fun hn => absurd rfl hn⟩ }, .of_needId rfl⟩

/-- Settles O6: each register by its reset value; `RESET` is `State.cleared`. -/
theorem resetValues : Obligations.ResetValues := by
  refine ⟨by decide, fun c hc => ⟨?_, ?_⟩, fun c i => rfl, rfl, rfl, rfl, rfl, rfl, fun s => ?_⟩
  · show (List.replicate 255 false).getD c false = false
    rw [List.getD_eq_getElem?_getD, List.getElem?_replicate, if_pos hc, Option.getD_some]
  · show ((List.replicate 255 none)[c]?).join = none
    rw [List.getElem?_replicate, if_pos hc, Option.join_some]
  · exact exec_accepted (i := .reset) rfl

/-! ## Every step -/

/-- An accepted header has loaded what its new phase says; any other tears the stream down (48_header.md R341). -/
theorem exec_headerin_configOk {eos bos : Bool} {s t : State} (hc : s.ConfigOk)
    (he : exec (.headerin eos bos) s = .next t) : t.ConfigOk := by
  rw [exec_eq] at he
  refine issue_next he ((headerin_sat hc).mono (fun v u ⟨haccepted, _⟩ => ?_) fun e u ⟨k, v, _, htorn, _⟩ => ?_)
    fun f hj => by cases hj
  · exact (State.ConfigOk.of_fits haccepted.fits).congr rfl rfl rfl
  · exact .of_needId (by rw [htorn]; rfl)

theorem exec_keeps_configOk {i : Instr} {s t : State} (hs : s.issuer = .host) (hc : s.ConfigOk)
    (he : exec i s = .next t) : t.ConfigOk := by
  by_cases hreset : i = .reset
  · subst hreset
    rw [exec_accepted (i := .reset) rfl] at he
    cases he
    exact .of_needId rfl
  · by_cases hhdr : ∃ eos bos, i = .headerin eos bos
    · obtain ⟨eos, bos, rfl⟩ := hhdr
      exact exec_headerin_configOk hc he
    · have k := exec_packet hs (fun eos bos h => hhdr ⟨eos, bos, h⟩) hreset he
      exact hc.congr k.phase k.cfg k.tab

/-- Settles O9: only `RESET` and `HEADERIN` write what it depends on, and a write of the host reaches none of it. -/
theorem stepKeepsAValidConfiguration : Obligations.StepKeepsAValidConfiguration := by
  rintro s t h hc (hs | hw)
  · rcases step_cases hs with ⟨-, rfl⟩ | ⟨w, i, -, -, he⟩ | ⟨w, e, -, -, rfl⟩
    · exact hc
    · exact exec_keeps_configOk h.issuer hc he
    · exact hc.congr rfl rfl rfl
  · obtain ⟨heq, -⟩ := hw.frame
    rw [heq]
    exact hc.congr rfl rfl rfl

end Sys2Proof.Machine
end

section
/-! SUPPORT. How a command ends (60_exceptions.md R370 to R374): its report is in range, and `Illegal` is the judge's only. -/

namespace Sys2Proof.Machine

/-! ## The report -/

theorem HeaderCause.code_range (k : HeaderCause) : 1 ≤ k.code.toNat ∧ k.code.toNat ≤ 27 := by
  cases k <;> decide

theorem Phase.code_le (p : Phase) : p.code.toNat ≤ 3 := by
  cases p <;> decide

theorem IllegalCause.code_range (k : IllegalCause) : 1 ≤ k.code.toNat ∧ k.code.toNat ≤ 4 := by
  cases k <;> decide

/-- R371: the status registers agree, and each status has its cause in its range; the decoder is idle. -/
structure State.ReportInRange (t : State) : Prop where
  idle : t.cmd = none
  consistent : t.statusConsistent
  noCause : t.status = 1 ∨ t.status = 2 ∨ t.status = 7 → t.cause = 0
  header : t.status = 4 → 1 ≤ t.cause.toNat ∧ t.cause.toNat ≤ 27
  phase : t.status = 5 → t.cause.toNat ≤ 3
  illegal : t.status = 6 → 1 ≤ t.cause.toNat ∧ t.cause.toNat ≤ 4

theorem State.completeOk_reportInRange (v : BitVec 32) (s : State) : (s.completeOk v).ReportInRange where
  idle := rfl
  consistent := ⟨Nat.zero_le 7, fun _ => rfl, fun h => absurd rfl h⟩
  noCause _ := rfl
  header h := absurd (show (0 : BitVec 8) = 4 from h) (by decide)
  phase h := absurd (show (0 : BitVec 8) = 5 from h) (by decide)
  illegal h := absurd (show (0 : BitVec 8) = 6 from h) (by decide)

theorem State.completeFail_reportInRange (f : Failure) (s : State) : (s.completeFail f).ReportInRange where
  idle := rfl
  consistent := ⟨f.code_range.1, fun h => absurd h f.code_range.2, fun _ => rfl⟩
  noCause h := by
    cases f with
    | eof | badType | badCode => rfl
    | _ => exact absurd h (by simp [Failure.code])
  header h := by
    cases f with
    | badHeader k => exact k.code_range
    | _ => exact absurd h (by simp [Failure.code])
  phase h := by
    cases f with
    | notReady p => exact p.code_le
    | _ => exact absurd h (by simp [Failure.code])
  illegal h := by
    cases f with
    | illegal k => exact k.code_range
    | _ => exact absurd h (by simp [Failure.code])

theorem finish_reports (r : EStateM.Result Failure State (BitVec 32)) : ∃ t, finish r = .next t ∧ t.ReportInRange := by
  rcases finish_cases r with ⟨v, u, -, h⟩ | ⟨f, u, -, h⟩
  · exact ⟨_, h, u.completeOk_reportInRange v⟩
  · exact ⟨_, h, u.completeFail_reportInRange f⟩

/-- R370: every instruction answers a next state with its report. -/
theorem exec_reports (i : Instr) (s : State) : ∃ t, exec i s = .next t ∧ t.ReportInRange := by
  rw [exec_eq]
  rcases issue_cases (judge := judgeOf i) (op := opOf i s) (s := s) with h | ⟨f, -, -, h⟩
  · rw [h]
    exact finish_reports _
  · exact ⟨_, h, s.completeFail_reportInRange f⟩

/-- Every word in `CMD` does, be it a legal command or not. -/
theorem step_reports {s : State} {w : BitVec 32} (hw : s.cmd = some w) : ∃ t, step s = .next t ∧ t.ReportInRange := by
  cases hd : decode w with
  | ok i =>
    rw [step_legal hw hd]
    exact exec_reports i s
  | error e => exact ⟨_, step_rejected hw hd, s.completeFail_reportInRange _⟩

/-- Settles O11: by what `CMD` holds. -/
theorem everyStepCompletes : Obligations.EveryStepCompletes := by
  intro s
  cases hw : s.cmd with
  | none => exact ⟨s, step_idle hw, fun _ => rfl, fun h => absurd rfl h⟩
  | some w =>
    obtain ⟨t, hs, hidle, hconsistent, hnone, hheader, hphase, hillegal⟩ := step_reports hw
    exact ⟨t, hs, fun h => absurd h (by simp), fun _ => ⟨hidle, hconsistent, hnone, hheader, hphase, hillegal⟩⟩

/-! ## Operations never end `Illegal` -/

/-- The operation, run anywhere, does not end `Illegal`. -/
def NeverIllegal {α : Type} (op : Op α) : Prop :=
  ∀ s : State, Sat op s (fun _ _ => True) fun e _ => ∀ k, e ≠ .illegal k

section

variable {α β : Type}

theorem NeverIllegal.pure (a : α) : NeverIllegal (Pure.pure a : Op α) := fun _ => trivial

theorem NeverIllegal.result (v : Nat) : NeverIllegal (Machine.result v) := fun _ => trivial

theorem NeverIllegal.modify (f : State → State) : NeverIllegal (modify f : Op Unit) := fun _ => trivial

theorem NeverIllegal.raise {f : Failure} (h : ∀ k, f ≠ .illegal k) : NeverIllegal (Machine.raise f : Op α) := fun _ => h

theorem NeverIllegal.need (o : Option α) : NeverIllegal (Machine.need o) := fun _ =>
  sat_need.2 ⟨fun _ _ => trivial, fun _ => nofun⟩

theorem NeverIllegal.bind {x : Op α} {f : α → Op β} (hx : NeverIllegal x) (hf : ∀ a, NeverIllegal (f a)) :
    NeverIllegal (x >>= f) := fun s => Sat.bind (hx s) fun a t _ => hf a t

theorem NeverIllegal.get_bind {f : State → Op β} (hf : ∀ s, NeverIllegal (f s)) :
    NeverIllegal ((MonadStateOf.get : Op State) >>= f) := fun s => hf s s

/-- A field of the state looked up, then the rest. -/
theorem NeverIllegal.lookup {g : State → Option α} {f : α → Op β} (hf : ∀ a, NeverIllegal (f a)) :
    NeverIllegal ((MonadStateOf.get : Op State) >>= fun s => Machine.need (g s) >>= f) :=
  .get_bind fun _ => .bind (.need _) hf

theorem NeverIllegal.ite {p : Prop} [Decidable p] {x y : Op α} (hx : NeverIllegal x) (hy : NeverIllegal y) :
    NeverIllegal (if p then x else y) := by split <;> assumption

theorem NeverIllegal.absorb {op handler : Op α} (ho : NeverIllegal op) (hh : NeverIllegal handler) :
    NeverIllegal (Machine.absorb op handler) := fun s =>
  sat_absorb.2 <| (ho s).mono (fun _ _ h => h) fun _ t h => ⟨fun _ => hh t, fun _ => h⟩

theorem NeverIllegal.forEach {body : β → Op Unit} (hb : ∀ x, NeverIllegal (body x)) :
    ∀ l : List β, NeverIllegal (Machine.forEach l body)
  | [] => .pure ()
  | x :: l => .bind (hb x) fun _ => .forEach hb l

theorem NeverIllegal.collect {body : β → Op α} (hb : ∀ x, NeverIllegal (body x)) :
    ∀ l : List β, NeverIllegal (Machine.collect l body)
  | [] => .pure []
  | x :: l => .bind (hb x) fun _ => .bind (.collect hb l) fun _ => .pure _

/-! ### The cursor -/

theorem NeverIllegal.readBits (n : Nat) : NeverIllegal (Machine.readBits n) := fun _ =>
  sat_readBits.2 ⟨fun _ => trivial, fun _ => nofun⟩

theorem NeverIllegal.lookBits (n : Nat) : NeverIllegal (Machine.lookBits n) := fun _ =>
  sat_lookBits.2 ⟨fun _ => trivial, fun _ => nofun⟩

theorem NeverIllegal.headerRead (n : Nat) : NeverIllegal (Machine.headerRead n) := fun _ =>
  sat_headerRead.2 ⟨fun _ => trivial, fun _ => nofun⟩

theorem NeverIllegal.headerCheck (p : Bool) (k : HeaderCause) : NeverIllegal (Machine.headerCheck p k) := fun _ =>
  sat_headerCheck.2 ⟨fun _ => trivial, fun _ => nofun⟩

theorem NeverIllegal.loadCfg (f : Cfg → Cfg) : NeverIllegal (Machine.loadCfg f) := .modify _

/-- A header's read, then the rest. -/
theorem NeverIllegal.read {n : Nat} {f : Nat → Op β} (hf : ∀ v, NeverIllegal (f v)) :
    NeverIllegal (Machine.headerRead n >>= f) := .bind (.headerRead n) hf

/-- A header's check, then the rest. -/
theorem NeverIllegal.check {p : Bool} {k : HeaderCause} {f : Unit → Op β} (hf : ∀ u, NeverIllegal (f u)) :
    NeverIllegal (Machine.headerCheck p k >>= f) := .bind (.headerCheck p k) hf

/-- A field of the configuration loaded, then the rest. -/
theorem NeverIllegal.load {g : Cfg → Cfg} {f : Unit → Op β} (hf : ∀ u, NeverIllegal (f u)) :
    NeverIllegal (Machine.loadCfg g >>= f) := .bind (.loadCfg g) hf

/-- The teardown reports what it tears down for. -/
theorem NeverIllegal.tearDown {op : Op α} (h : NeverIllegal op) : NeverIllegal (tearDownOnBadHeader op) := by
  intro s
  have hs := h s
  unfold Sat tearDownOnBadHeader at *
  cases hop : op s with
  | ok v t => trivial
  | error e t =>
    rw [hop] at hs
    cases e with
    | badHeader k => nofun
    | _ => exact hs

end

/-! ### Decoding -/

theorem cbDecode_neverIllegal (b : Nat) : NeverIllegal (cbDecode b) := by
  have hfrom : ∀ (words : List (Option Codeword)) (fuel : Nat) (w : Codeword),
      NeverIllegal (decodeFrom words fuel w) := by
    intro words fuel
    induction fuel with
    | zero => exact fun _ => .raise nofun
    | succ fuel ih =>
      refine fun w => .bind (.bind (.readBits 1) fun _ => .pure _) fun bit => ?_
      dsimp only
      split
      · exact .pure _
      · exact .ite (ih _) (.raise nofun)
  exact .lookup fun _ => hfrom _ _ _

theorem decodeValues_neverIllegal (b : Nat) : NeverIllegal (decodeValues b) :=
  .lookup fun _ => .lookup fun _ => .bind (cbDecode_neverIllegal b) fun _ => .pure _

theorem decodeFill_neverIllegal (b : Nat) (d : Target) (m : CombineMode) (offset n : Nat) : ∀ fuel i : Nat,
    NeverIllegal (decodeFill b d m offset n fuel i)
  | 0, _ => .pure ()
  | fuel + 1, i => by
    unfold decodeFill
    exact .ite (.bind (decodeValues_neverIllegal b) fun _ => .bind (.modify _) fun _ =>
      decodeFill_neverIllegal b d m offset n fuel _) (.pure ())

theorem decodeInterleaved_neverIllegal (b : Nat) (chlist : List Nat) (stop : Nat) : ∀ fuel p : Nat,
    NeverIllegal (decodeInterleaved b chlist stop fuel p)
  | 0, _ => .pure ()
  | fuel + 1, p => by
    unfold decodeInterleaved
    exact .ite (.bind (decodeValues_neverIllegal b) fun _ => .bind (.modify _) fun _ =>
      decodeInterleaved_neverIllegal b chlist stop fuel _) (.pure ())

theorem cbDecodeVs_neverIllegal (b : Nat) (d : Target) (m : CombineMode) (index step : Nat) :
    NeverIllegal (cbDecodeVs b d m index step) :=
  .bind (decodeValues_neverIllegal b) fun _ => .bind (.modify _) fun _ => .pure _

theorem readCoefficients_neverIllegal (b m dim : Nat) : ∀ fuel j : Nat, NeverIllegal (readCoefficients b m dim fuel j)
  | 0, _ => .pure ()
  | fuel + 1, j => by
    unfold readCoefficients
    exact .ite (.bind (cbDecodeVs_neverIllegal _ _ _ _ _) fun _ => readCoefficients_neverIllegal b m dim fuel _) (.pure ())

theorem f0Inverse1_neverIllegal (f c : Nat) : NeverIllegal (f0Inverse1 f c) := by
  refine .bind (.modify _) fun _ => .lookup fun F => .absorb ?_ (.pure _)
  unfold f0Pass1
  refine .bind (.readBits _) fun _ => .ite (.pure _) (.bind (.readBits _) fun _ => .ite (.pure _) ?_)
  exact .bind (.need _) fun _ => .lookup fun _ => .bind (readCoefficients_neverIllegal _ _ _ _ _) fun _ =>
    .bind (.modify _) fun _ => .bind (.modify _) fun _ => .pure _

theorem f0Inverse2_neverIllegal (P : Params) (f c : Nat) : NeverIllegal (f0Inverse2 P f c) := by
  refine .get_bind fun s => ?_
  dsimp only
  split
  · exact .bind (.modify _) fun _ => .pure _
  · exact .bind (.need _) fun _ => .bind (.need _) fun _ => .bind (.modify _) fun _ => .pure _

theorem readPartitions_neverIllegal (F : Floor1) : ∀ l : List Nat, NeverIllegal (readPartitions F l)
  | [] => .pure _
  | cl :: l => by
    have hpost : ∀ (cls : FloorClass) (cval : Nat), NeverIllegal (readPost cls cval) := by
      intro cls cval
      unfold readPost
      split
      · exact cbDecode_neverIllegal _
      · exact .pure _
    have hposts : ∀ (cls : FloorClass) (left cval : Nat), NeverIllegal (readPosts cls left cval) := by
      intro cls left
      induction left with
      | zero => exact fun _ => .pure _
      | succ left ih => exact fun cval => .bind (hpost cls cval) fun _ => .bind (ih _) fun _ => .pure _
    have hclass : ∀ cls : FloorClass, NeverIllegal (readClassValue cls) := by
      intro cls
      unfold readClassValue
      exact .ite (.pure _) (.bind (.need _) fun _ => cbDecode_neverIllegal _)
    exact .bind (.need _) fun _ => .bind (hclass _) fun _ => .bind (hposts _ _ _) fun _ =>
      .bind (readPartitions_neverIllegal F l) fun _ => .pure _

theorem f1Inverse1_neverIllegal (f c : Nat) : NeverIllegal (f1Inverse1 f c) := by
  refine .bind (.modify _) fun _ => .lookup fun F => .lookup fun T => .absorb ?_ (.pure _)
  unfold f1Pass1
  refine .bind (.bind (.readBits 1) fun _ => .pure _) fun _ => .ite (.pure _) ?_
  exact .bind (.readBits _) fun _ => .bind (.readBits _) fun _ => .bind (readPartitions_neverIllegal _ _) fun _ =>
    .bind (.modify _) fun _ => .pure _

theorem f1Inverse2_neverIllegal (P : Params) (f c : Nat) : NeverIllegal (f1Inverse2 P f c) := by
  refine .get_bind fun s => ?_
  dsimp only
  split
  · exact .bind (.modify _) fun _ => .pure _
  · exact .bind (.need _) fun _ => .bind (.need _) fun _ => .bind (.modify _) fun _ => .pure _

/-! ### Residues -/

section

variable {layout : Nat → Nat → Nat → Op Unit} (hl : ∀ v o b, NeverIllegal (layout v o b))
include hl

theorem decodeGroup_neverIllegal (R : Residue) (T : ResTable) (stage : Nat) (words : List (List Nat)) :
    ∀ left k i : Nat, NeverIllegal (decodeGroup R T layout stage words left k i)
  | 0, _, _ => .pure _
  | left + 1, k, i => by
    have hone : ∀ v cls, NeverIllegal (decodeOne R T layout stage i v cls) := by
      intro v cls
      unfold decodeOne
      exact .ite (.bind (.need _) fun _ => hl _ _ _) (.pure _)
    exact .bind (.forEach (fun _ => hone _ _) _) fun _ => decodeGroup_neverIllegal R T stage words left (k + 1) (i + 1)

theorem decodeFirstStage_neverIllegal (R : Residue) (T : ResTable) (pdim vecs nparts : Nat) :
    ∀ fuel i : Nat, NeverIllegal (decodeFirstStage R T layout pdim vecs nparts fuel i)
  | 0, _ => .pure _
  | fuel + 1, i => by
    have hphrase : NeverIllegal (readPhrase R.groupbook T) :=
      .bind (cbDecode_neverIllegal _) fun _ => .ite (.pure _) (.raise nofun)
    unfold decodeFirstStage
    exact .ite (.bind (.collect (fun _ => hphrase) _) fun _ => .bind (decodeGroup_neverIllegal hl R T _ _ _ _ _) fun _ =>
      .bind (decodeFirstStage_neverIllegal R T pdim vecs nparts fuel _) fun _ => .pure _) (.pure _)

theorem decodeLaterStage_neverIllegal (R : Residue) (T : ResTable) (pdim nparts stage : Nat) :
    ∀ (l : List (List (List Nat))) (i : Nat), NeverIllegal (decodeLaterStage R T layout pdim nparts stage l i)
  | [], _ => .pure _
  | _ :: l, _ => .bind (decodeGroup_neverIllegal hl R T _ _ _ _ _) fun _ =>
      decodeLaterStage_neverIllegal R T pdim nparts stage l _

end

theorem resDecode_neverIllegal {layout : Residue → Nat → Nat → Nat → Op Unit}
    (hl : ∀ R v o b, NeverIllegal (layout R v o b)) (r vecs limit : Nat) : NeverIllegal (resDecode r layout vecs limit) := by
  refine .lookup fun R => .lookup fun T => .lookup fun _ => .absorb ?_ (.pure _)
  unfold decodeStages
  exact .ite (.pure _) (.bind (decodeFirstStage_neverIllegal (hl R) R T _ _ _ _ _) fun _ =>
    .bind (.forEach (fun _ => decodeLaterStage_neverIllegal (hl R) R T _ _ _ _ _) _) fun _ => .pure _)

theorem res0Inverse_neverIllegal (r : Nat) (chlist : List Nat) : NeverIllegal (res0Inverse r chlist) :=
  .get_bind fun _ => resDecode_neverIllegal (fun _ _ _ _ => .lookup fun _ =>
    .forEach (fun _ => .bind (cbDecodeVs_neverIllegal _ _ _ _ _) fun _ => .pure _) _) _ _ _

theorem res1Inverse_neverIllegal (r : Nat) (chlist : List Nat) : NeverIllegal (res1Inverse r chlist) :=
  .get_bind fun _ => resDecode_neverIllegal (fun _ _ _ _ => decodeFill_neverIllegal _ _ _ _ _ _ _) _ _ _

theorem res2Inverse_neverIllegal (r : Nat) (chlist : List Nat) : NeverIllegal (res2Inverse r chlist) :=
  .get_bind fun _ => resDecode_neverIllegal (fun _ _ _ _ => decodeInterleaved_neverIllegal _ _ _ _ _) _ _ _

/-! ### The mapping and the packet -/

theorem mdctBackward_neverIllegal (w c : Nat) : NeverIllegal (mdctBackward w c) := .lookup fun _ => .modify _

theorem winApply_neverIllegal (c : Nat) : NeverIllegal (winApply c) :=
  .get_bind fun _ => .bind (.need _) fun _ => .ite (.modify _) (.modify _)

theorem mapResidues_neverIllegal (M : Mapping) (channels : Nat) : ∀ l : List Nat,
    NeverIllegal (mapResidues M channels l)
  | [] => .pure _
  | s :: l => by
    have ih := mapResidues_neverIllegal M channels l
    have hres : ∀ r chlist, NeverIllegal (resInverse r chlist) := fun r chlist => .lookup fun _ =>
      .ite (res0Inverse_neverIllegal _ _) (.ite (res1Inverse_neverIllegal _ _) (res2Inverse_neverIllegal _ _))
    unfold mapResidues
    refine .ite ih (.bind (hres _ _) fun e => .ite (.bind (.modify _) fun _ => .get_bind fun t => ?_) ih)
    split
    · exact .raise nofun
    · exact .modify _
    · exact ih

theorem map0Inverse_neverIllegal (P : Params) : NeverIllegal (map0Inverse P) := by
  have hfirst : ∀ M c, NeverIllegal (mapFloorPass1 M c) := fun M c =>
    .bind (.lookup fun _ => .ite (f0Inverse1_neverIllegal _ _) (f1Inverse1_neverIllegal _ _)) fun _ =>
      .bind (.modify _) fun _ => .ite (.modify _) (.pure _)
  have hsecond : ∀ M c, NeverIllegal (mapFloorPass2 P M c) := fun M c =>
    .bind (.lookup fun _ => .ite (f0Inverse2_neverIllegal _ _ _) (f1Inverse2_neverIllegal _ _ _)) fun _ => .pure _
  unfold map0Inverse
  refine .bind (.get_bind fun _ => .bind (.need _) fun _ => .need _) fun M => .lookup fun channels => .get_bind fun _ => ?_
  exact .bind (.forEach (hfirst M) _) fun _ => .bind (.forEach (fun _ => .modify _) _) fun _ =>
    .bind (.forEach (fun _ => .modify _) _) fun _ => .bind (mapResidues_neverIllegal _ _ _) fun _ =>
    .bind (.forEach (fun _ => .modify _) _) fun _ => .bind (.forEach (hsecond M) _) fun _ =>
    .bind (.forEach (fun _ => .get_bind fun _ => mdctBackward_neverIllegal _ _) _) fun _ =>
    .forEach winApply_neverIllegal _

theorem synthesis_neverIllegal (P : Params) (eos bos : Bool) : NeverIllegal (synthesis P eos bos) := by
  have hfail : ∀ {α : Type} {f : Failure}, (∀ k, f ≠ .illegal k) → NeverIllegal (failPacket f : Op α) := fun h =>
    .bind (.modify _) fun _ => .raise h
  have hread : ∀ n, NeverIllegal (headRead n) := fun n => .absorb (.readBits n) (hfail nofun)
  have hopen : NeverIllegal (openPacket eos bos) := .get_bind fun _ => .bind (.need _) fun _ =>
    .bind (.modify _) fun _ => .bind (.modify _) fun _ => .bind (.modify _) fun _ => .bind (.modify _) fun _ =>
    .bind (.modify _) fun _ => .modify _
  have hhead : NeverIllegal readHead := .bind (hread _) fun _ => .ite (hfail nofun) <| .lookup fun _ =>
    .bind (hread _) fun _ => .lookup fun _ => .ite (hfail nofun) <| .lookup fun _ =>
    .ite (.bind (hread _) fun _ => .bind (hread _) fun _ => .pure _) (.pure _)
  have hblock : ∀ m mode lw nw, NeverIllegal (openBlock m mode lw nw) := fun _ _ _ _ => .lookup fun _ => .lookup fun _ =>
    .bind (.modify _) fun _ => .bind (.modify _) fun _ => .bind (.modify _) fun _ => .modify _
  exact .bind hopen fun _ => .bind hhead fun _ => .bind (hblock _ _ _ _) fun _ =>
    .bind (.absorb (map0Inverse_neverIllegal P) (hfail nofun)) fun _ => .bind (.modify _) fun _ =>
    .bind (.modify _) fun _ => .get_bind fun _ => .result _

/-! ### The header parser -/

theorem hdrIdent_neverIllegal : NeverIllegal hdrIdent :=
  .read fun _ => .load fun _ => .check fun _ => .read fun _ => .load fun _ => .check fun _ => .read fun _ => .load fun _ =>
  .check fun _ => .read fun _ => .load fun _ => .read fun _ => .load fun _ => .read fun _ => .load fun _ => .read fun _ =>
  .read fun _ => .load fun _ => .check fun _ => .check fun _ => .read fun _ => .headerCheck _ _

theorem hdrComment_neverIllegal : NeverIllegal hdrComment := by
  have hskip : ∀ n, NeverIllegal (skipComments n) := by
    intro n
    induction n with
    | zero => exact .pure _
    | succ n ih => exact .read fun _ => .bind (.modify _) fun _ => ih
  exact .read fun _ => .bind (.modify _) fun _ => .read fun _ => .bind (hskip _) fun _ => .read fun _ => .headerCheck _ _

theorem cbMakeWords_neverIllegal (b : Nat) : NeverIllegal (cbMakeWords b) := by
  refine .lookup fun book => ?_
  split
  · exact .raise nofun
  · exact .modify _

theorem optionalRead_neverIllegal (p : Bool) (n d : Nat) : NeverIllegal (optionalRead p n d) := by
  unfold optionalRead
  exact .ite (.headerRead n) (.pure d)

theorem readLengths_neverIllegal (entries : Nat) : NeverIllegal (readLengths entries) := by
  have hlength : ∀ sparse, NeverIllegal (readLength sparse) := fun _ =>
    .bind (optionalRead_neverIllegal _ _ _) fun _ => .ite (.pure _) (.read fun _ => .pure _)
  have hruns : ∀ fuel len e, NeverIllegal (readRuns entries fuel len e) := by
    intro fuel
    induction fuel with
    | zero => exact fun _ _ => .pure _
    | succ fuel ih =>
      intro len e
      unfold readRuns
      exact .ite (.read fun _ => .check fun _ => .bind (ih _ _) fun _ => .pure _) (.pure _)
  exact .read fun _ => .ite (.read fun _ => .collect (fun _ => hlength _) _) (.read fun _ => hruns _ _ _)

theorem hdrBook_neverIllegal (b : Nat) : NeverIllegal (hdrBook b) := by
  have hquant : ∀ maptype dim entries, NeverIllegal (readQuant maptype dim entries) := by
    intro maptype dim entries
    unfold readQuant
    exact .ite (.pure _) (.read fun _ => .read fun _ => .read fun _ => .read fun _ =>
      .bind (.collect (fun _ => .headerRead _) _) fun _ => .pure _)
  exact .read fun _ => .check fun _ => .read fun _ => .read fun _ => .check fun _ => .bind (readLengths_neverIllegal _) fun _ =>
    .read fun _ => .check fun _ => .bind (hquant _ _ _) fun _ => .load fun _ => cbMakeWords_neverIllegal _

theorem hdrTime_neverIllegal (t : Nat) : NeverIllegal (hdrTime t) :=
  .read fun _ => .load fun _ => .headerCheck _ _

theorem hdrMode_neverIllegal (k : Nat) : NeverIllegal (hdrMode k) :=
  .read fun _ => .read fun _ => .check fun _ => .read fun _ => .check fun _ => .read fun _ => .lookup fun _ =>
  .check fun _ => .loadCfg _

theorem checkBook_neverIllegal (b : Nat) : NeverIllegal (checkBook b) := .lookup fun _ => .headerCheck _ _

/-- A codebook number of a vector decode, checked. -/
theorem readValueBook_neverIllegal :
    NeverIllegal (do let b ← headerRead 8; checkValueBook b; pure b) :=
  .read fun b => .bind (.bind (checkBook_neverIllegal b) fun _ => .lookup fun _ => .headerCheck _ _) fun _ => .pure _

theorem f0Unpack_neverIllegal (f : Nat) : NeverIllegal (f0Unpack f) :=
  .read fun _ => .check fun _ => .read fun _ => .check fun _ => .read fun _ => .check fun _ => .read fun _ =>
  .check fun _ => .read fun _ => .read fun _ => .bind (.collect (fun _ => readValueBook_neverIllegal) _) fun _ => .modify _

theorem f1ReadClass_neverIllegal : NeverIllegal f1ReadClass := by
  have hbook : ∀ subs, NeverIllegal (f1ReadClassBook subs) := by
    intro subs
    unfold f1ReadClassBook
    exact .ite (.pure _) (.read fun _ => .bind (checkBook_neverIllegal _) fun _ => .pure _)
  have hsub : NeverIllegal f1ReadSubbook :=
    .read fun _ => .ite (.pure _) (.bind (checkBook_neverIllegal _) fun _ => .pure _)
  exact .read fun _ => .read fun _ => .bind (hbook _) fun _ => .bind (.collect (fun _ => hsub) _) fun _ => .pure _

theorem f1Unpack_neverIllegal (f : Nat) : NeverIllegal (f1Unpack f) :=
  .read fun _ => .bind (.collect (fun _ => .headerRead 4) _) fun _ =>
  .bind (.collect (fun _ => f1ReadClass_neverIllegal) _) fun _ => .read fun _ => .read fun _ =>
  .bind (.collect (fun _ => .read fun _ => .check fun _ => .pure _) _) fun _ => .check fun _ => .check fun _ => .modify _

theorem resUnpack_neverIllegal (r : Nat) : NeverIllegal (resUnpack r) :=
  .read fun _ => .read fun _ => .read fun _ => .read fun _ => .read fun _ => .bind (checkBook_neverIllegal _) fun _ =>
  .lookup fun _ => .check fun _ => .bind (.collect (fun _ => .read fun _ => .read fun _ =>
    .bind (optionalRead_neverIllegal _ _ _) fun _ => .pure _) _) fun _ =>
  .bind (.collect (fun _ => readValueBook_neverIllegal) _) fun _ => .modify _

theorem map0Unpack_neverIllegal (m : Nat) : NeverIllegal (map0Unpack m) := by
  have hcount : ∀ n d, NeverIllegal (readCount n d) := fun _ _ => .read fun _ => .ite (.read fun _ => .pure _) (.pure _)
  have hmux : ∀ submaps channels, NeverIllegal (readMuxList submaps channels) := by
    intro submaps channels
    unfold readMuxList
    exact .ite (.collect (fun _ => .read fun _ => .check fun _ => .pure _) _) (.pure _)
  have hsubmap : NeverIllegal readSubmap := .lookup fun _ => .lookup fun _ => .lookup fun _ =>
    .read fun _ => .check fun _ => .read fun _ => .check fun _ => .read fun _ => .check fun _ => .pure _
  exact .lookup fun _ => .bind (hcount _ _) fun _ => .bind (hcount _ _) fun _ =>
    .bind (.collect (fun _ => .read fun _ => .read fun _ => .check fun _ => .pure _) _) fun _ =>
    .read fun _ => .check fun _ => .bind (hmux _ _) fun _ => .bind (.collect (fun _ => hsubmap) _) fun _ => .modify _

theorem hdrSetup_neverIllegal : NeverIllegal hdrSetup := by
  have hfloor : ∀ f, NeverIllegal (readFloor f) := fun f => .read fun _ => .load fun _ =>
    .ite (f0Unpack_neverIllegal f) (.ite (f1Unpack_neverIllegal f) (.raise nofun))
  have hresidue : ∀ r, NeverIllegal (readResidue r) := fun r => .read fun _ => .load fun _ => .check fun _ =>
    resUnpack_neverIllegal r
  have hmapping : ∀ m, NeverIllegal (readMapping m) := fun m => .read fun _ => .load fun _ => .check fun _ =>
    map0Unpack_neverIllegal m
  exact .read fun _ => .load fun _ => .bind (.forEach hdrBook_neverIllegal _) fun _ =>
    .read fun _ => .load fun _ => .bind (.forEach hdrTime_neverIllegal _) fun _ =>
    .read fun _ => .load fun _ => .bind (.forEach hfloor _) fun _ =>
    .read fun _ => .load fun _ => .bind (.forEach hresidue _) fun _ =>
    .read fun _ => .load fun _ => .bind (.forEach hmapping _) fun _ =>
    .read fun _ => .load fun _ => .bind (.forEach hdrMode_neverIllegal _) fun _ => .read fun _ => .headerCheck _ _

theorem cbUnquantize_neverIllegal (b : Nat) : NeverIllegal (cbUnquantize b) := by
  refine .lookup fun book => ?_
  split
  · exact .pure _
  · exact .modify _

theorem f0Look_neverIllegal (P : Params) (f w : Nat) : NeverIllegal (f0Look P f w) :=
  .lookup fun _ => .lookup fun _ => .modify _

theorem f1Look_neverIllegal (f : Nat) : NeverIllegal (f1Look f) := .lookup fun _ => .modify _

theorem resLook_neverIllegal (r : Nat) : NeverIllegal (resLook r) := .lookup fun _ => .lookup fun _ => .modify _

theorem mdctInit_neverIllegal (P : Params) (w : Nat) : NeverIllegal (mdctInit P w) := .lookup fun _ => .modify _

theorem winInit_neverIllegal (P : Params) : NeverIllegal (winInit P) := .lookup fun _ => .lookup fun _ => .modify _

theorem headerin_neverIllegal (P : Params) (eos bos : Bool) : NeverIllegal (headerin P eos bos) := by
  have hfloor : ∀ f, NeverIllegal (lookFloor P f) := fun f => .lookup fun _ =>
    .ite (.bind (f0Look_neverIllegal P f 0) fun _ => f0Look_neverIllegal P f 1) (f1Look_neverIllegal f)
  have htables : NeverIllegal (buildTables P) := .get_bind fun _ => .bind (.need _) fun _ => .bind (.need _) fun _ =>
    .bind (.need _) fun _ => .bind (.need _) fun _ => .bind (.forEach cbUnquantize_neverIllegal _) fun _ =>
    .bind (.forEach hfloor _) fun _ => .bind (.forEach resLook_neverIllegal _) fun _ =>
    .bind (mdctInit_neverIllegal P 0) fun _ => .bind (mdctInit_neverIllegal P 1) fun _ =>
    .bind (winInit_neverIllegal P) fun _ => .modify _
  have hbody : ∀ t, NeverIllegal (headerBody P t) := fun t => .get_bind fun _ =>
    .ite (.check fun _ => .bind hdrIdent_neverIllegal fun _ => .modify _) <|
    .ite (.check fun _ => .bind hdrComment_neverIllegal fun _ => .modify _) <|
    .check fun _ => .bind hdrSetup_neverIllegal fun _ => .bind htables fun _ => .modify _
  exact .tearDown <| .get_bind fun _ => .bind (.modify _) fun _ => .bind (.modify _) fun _ => .read fun t =>
    .check fun _ => .bind (.forEach (fun _ => .read fun _ => .headerCheck _ _) _) fun _ =>
    .bind (hbody t) fun _ => .get_bind fun _ => .result _

/-! ### Every instruction -/

/-- R374: only the judge answers `Illegal`. -/
theorem opOf_neverIllegal (i : Instr) (s : State) : NeverIllegal (opOf i s) := by
  have fin : ∀ {α : Type} {op : Op α} {f : α → Nat}, NeverIllegal op → NeverIllegal (op >>= fun v => result (f v)) :=
    fun h => .bind h fun _ => .result _
  cases i with
  | reset => exact .bind (.modify _) fun _ => .result _
  | headerin eos bos => exact headerin_neverIllegal _ _ _
  | synthesis eos bos => exact synthesis_neverIllegal _ _ _
  | bcInit => exact fin (f := fun _ => 0) (.modify _)
  | bcRead n => exact fin (f := id) (.readBits _)
  | bcLook n => exact fin (f := id) (.lookBits _)
  | bcAdv n => exact fin (f := fun _ => 0) (.modify _)
  | bcRead1 => exact fin (f := id) (.readBits _)
  | cbUnquantize b => exact fin (cbUnquantize_neverIllegal _)
  | cbMakeWords b => exact fin (cbMakeWords_neverIllegal _)
  | cbMakeTree b => exact .result _
  | cbDecode b => exact fin (f := id) (cbDecode_neverIllegal _)
  | cbDecodeSet b d => exact fin (decodeFill_neverIllegal _ _ _ _ _ _ _)
  | cbDecodeAdd b d => exact fin (decodeFill_neverIllegal _ _ _ _ _ _ _)
  | cbDecodeVvAdd b x y => exact fin (decodeInterleaved_neverIllegal _ _ _ _ _)
  | cbDecodeVs b d m => exact fin (f := id) (cbDecodeVs_neverIllegal _ _ _ _ _)
  | f0Unpack f => exact fin (f0Unpack_neverIllegal _)
  | f0Look f w => exact fin (f0Look_neverIllegal _ _ _)
  | f0Inverse1 f c => exact fin (f0Inverse1_neverIllegal _ _)
  | f0Inverse2 f c => exact fin (f0Inverse2_neverIllegal _ _ _)
  | f1Unpack f => exact fin (f1Unpack_neverIllegal _)
  | f1Look f => exact fin (f1Look_neverIllegal _)
  | f1Inverse1 f c => exact fin (f1Inverse1_neverIllegal _ _)
  | f1Inverse2 f c => exact fin (f1Inverse2_neverIllegal _ _ _)
  | resUnpack r => exact fin (resUnpack_neverIllegal _)
  | resLook r => exact fin (resLook_neverIllegal _)
  | res0Inverse r x y => exact fin (res0Inverse_neverIllegal _ _)
  | res1Inverse r x y => exact fin (res1Inverse_neverIllegal _ _)
  | res2Inverse r x y => exact fin (res2Inverse_neverIllegal _ _)
  | map0Unpack m => exact fin (map0Unpack_neverIllegal _)
  | map0Look m => exact .result _
  | map0Inverse => exact fin (map0Inverse_neverIllegal _)
  | mdctInit w => exact fin (mdctInit_neverIllegal _ _)
  | mdctBackward w c => exact fin (mdctBackward_neverIllegal _ _)
  | winInit => exact fin (winInit_neverIllegal _)
  | winApply c => exact fin (winApply_neverIllegal _)
  | hdrIdent => exact fin hdrIdent_neverIllegal
  | hdrComment => exact fin hdrComment_neverIllegal
  | hdrSetup => exact fin hdrSetup_neverIllegal
  | hdrBook b => exact fin (hdrBook_neverIllegal _)
  | hdrTime t => exact fin (hdrTime_neverIllegal _)
  | hdrMode k => exact fin (hdrMode_neverIllegal _)

theorem Failure.eq_illegal {f : Failure} (h : f.code = 6) : ∃ k, f = .illegal k := by
  cases f with
  | illegal k => exact ⟨k, rfl⟩
  | _ => exact absurd h (by simp [Failure.code])

/-- Settles O14: the operation itself never ends `Illegal`, so the judge has turned the word away. -/
theorem illegalChangesNothingElse : Obligations.IllegalChangesNothingElse := by
  intro i s t he
  rw [exec_eq] at he
  refine issue_next (P := fun t => t.status = 6 → ∃ k, t = s.completeFail (.illegal k)) he
    ((opOf_neverIllegal i s s).mono (fun v u _ h => ?_) fun f u hf h => ?_) fun f _ h => ?_
  · exact absurd (show (0 : BitVec 8) = 6 from h) (by decide)
  · obtain ⟨k, rfl⟩ := Failure.eq_illegal h
    exact absurd rfl (hf k)
  · obtain ⟨k, rfl⟩ := Failure.eq_illegal h
    exact ⟨k, rfl⟩

end Sys2Proof.Machine
end

section
/-! SUPPORT. The five parts of a window (50_transform_and_overlap.md R328). -/

namespace Sys2Proof.Machine

/-- A word of a run of computed words followed by another list. -/
theorem getElem?_map_range_append {n i : Nat} (f : Nat → F32) (rest : List F32) :
    ((List.range n).map f ++ rest)[i]? = if i < n then some (f i) else rest[i - n]? := by
  by_cases h : i < n <;> simp [List.getElem?_append, h]

/-- A word of a constant run followed by another list. -/
theorem getElem?_replicate_append {n i : Nat} (c : F32) (rest : List F32) :
    (List.replicate n c ++ rest)[i]? = if i < n then some c else rest[i - n]? := by
  by_cases h : i < n <;> simp [List.getElem?_append, h]

/-- Settles O49: each index lies in one of the five runs, whose bounds are in order. -/
theorem windowTiles : Obligations.WindowTiles := by
  intro P wn left right hwn hleft hright hl hr
  unfold windowArray
  refine ⟨?_, fun i hi => ?_⟩
  · simp only [List.length_append, List.length_replicate, List.length_map, List.length_range]
    omega
  have hordered : wn / 4 + left / 2 ≤ wn - wn / 4 - right / 2 := by omega
  simp only [List.append_assoc, getElem?_replicate_append, getElem?_map_range_append, List.getElem?_replicate, f32One]
  by_cases hzeros : i < wn / 4 - left / 2
  · simp [hzeros]
  by_cases hrising : i < wn / 4 + left / 2
  · have hin : i - (wn / 4 - left / 2) < left := by omega
    simp [hzeros, hrising, hin]
  have hpastLeft : ¬ i - (wn / 4 - left / 2) < left := by omega
  by_cases hones : i < wn - wn / 4 - right / 2
  · have hin : i - (wn / 4 - left / 2) - left < wn - wn / 4 - right / 2 - (wn / 4 - left / 2 + left) := by omega
    simp [hzeros, hrising, hpastLeft, hones, hin]
  have hpastOnes : ¬ i - (wn / 4 - left / 2) - left < wn - wn / 4 - right / 2 - (wn / 4 - left / 2 + left) := by omega
  have hplace : i - (wn / 4 - left / 2) - left - (wn - wn / 4 - right / 2 - (wn / 4 - left / 2 + left)) =
      i - (wn - wn / 4 - right / 2) := by omega
  by_cases hfalling : i < wn - wn / 4 + right / 2
  · have hin : i - (wn - wn / 4 - right / 2) < right := by omega
    simp [hzeros, hrising, hpastLeft, hones, hpastOnes, hplace, hfalling, hin]
  · have hpastRight : ¬ i - (wn - wn / 4 - right / 2) < right := by omega
    have hin : i - (wn - wn / 4 - right / 2) - right < wn - (wn - wn / 4 - right / 2 + right) := by omega
    simp [hzeros, hrising, hpastLeft, hones, hpastOnes, hplace, hfalling, hpastRight, hin]

end Sys2Proof.Machine
end

section
/-! SUPPORT. `SYNTHESIS` of a payload with a bad head (47_block.md R322 to R326): how the reading of the head ends, and what the
failed packet leaves. -/

namespace Sys2Proof.Machine

/-! ## The head -/

theorem headRead_ok {n : Nat} {t : State} (h : t.avail n = true) : headRead n t = .ok (t.cursorField n) (t.advance n) :=
  absorb_ok (readBits_ok h)

/-- A read of the head that the payload cannot serve fails the packet. -/
theorem headRead_eof {n : Nat} {t : State} (h : t.avail n = false) :
    headRead n t = .error .eof ((t.advance n).setEoff.setBState .failed) := by
  unfold headRead absorb
  rw [readBits_eof h]
  rfl

/-- What `readHead` does after a mode number in range: the flags of a long block (R324). -/
def headFlags (m : Nat) : Op (Nat × Mode × Bool × Bool) := do
  let mode ← need (fieldAt (← get).cfg.mode m)
  if mode.blockflag then do
    let lw ← headRead 1
    let nw ← headRead 1
    pure (m, mode, lw == 1, nw == 1)
  else pure (m, mode, false, false)

/-- The two flags of a long block past the end of the payload. -/
theorem headFlags_eof {u : State} {m : Nat} {r : Mode} (hr : fieldAt u.cfg.mode m = some r) (hlong : r.blockflag = true)
    (hend : u.avail 2 = false) : ∃ v, headFlags m u = .error .eof v := by
  have hmode : headFlags m u = (do
      let lw ← headRead 1
      let nw ← headRead 1
      pure (m, r, lw == 1, nw == 1) : Op (Nat × Mode × Bool × Bool)) u :=
    (lookup_bind (g := fun u => fieldAt u.cfg.mode m) hr).trans (by rw [if_pos hlong])
  rw [hmode]
  cases hfirst : u.avail 1 with
  | false => exact ⟨_, bind_error (headRead_eof hfirst)⟩
  | true =>
    have hsecond : (u.advance 1).avail 1 = false := by
      simpa [State.avail, State.advance, Nat.add_assoc] using hend
    exact ⟨_, (bind_ok (headRead_ok hfirst)).trans (bind_error (headRead_eof hsecond))⟩

section

variable {t : State} {modes modebits m : Nat}

/-- R323: the type bit of a packet that is no audio packet is set. -/
theorem readHead_badType (hs : t.Sends [(1, 1)]) :
    readHead t = .error .badType ((t.advance 1).setBState .failed) :=
  bind_ok (headRead_sends hs)

/-- The head after a good type bit and the mode number: the number is turned away, or the mode's flags are read. -/
theorem readHead_mode (hbits : t.tab.modebits = some modebits) (hmodes : t.cfg.modes = some modes)
    (hs : t.Sends [(1, 0), (modebits, m)]) :
    readHead t = (if modes ≤ m then failPacket (.badMode m) else headFlags m) (t.advance (1 + modebits)) := by
  have hs : t.Sends ([(1, 0)] ++ [(modebits, m)]) := hs
  refine (bind_ok (headRead_sends hs.left)).trans ?_
  refine (lookup_bind (g := fun t => t.tab.modebits) (s := t.advance 1) hbits).trans ?_
  refine (bind_ok (headRead_sends hs.right)).trans ?_
  refine (lookup_bind (g := fun t => t.cfg.modes) (s := (t.advance 1).advance modebits) hmodes).trans ?_
  rw [State.advance_advance]
  rfl

/-- R323: a mode number past the modes of the stream. -/
theorem readHead_badMode (hbits : t.tab.modebits = some modebits) (hmodes : t.cfg.modes = some modes) (hge : modes ≤ m)
    (hs : t.Sends [(1, 0), (modebits, m)]) :
    readHead t = .error (.badMode m) ((t.advance (1 + modebits)).setBState .failed) := by
  rw [readHead_mode hbits hmodes hs, if_pos hge]
  rfl

/-- An empty payload has no type bit. -/
theorem readHead_empty (h : t.avail 1 = false) :
    readHead t = .error .eof ((t.advance 1).setEoff.setBState .failed) :=
  bind_error (headRead_eof h)

/-- R323: the payload ends in the two flags of a long block. -/
theorem readHead_flags_eof {r : Mode} (hbits : t.tab.modebits = some modebits) (hmodes : t.cfg.modes = some modes)
    (hlt : m < modes) (hr : fieldAt t.cfg.mode m = some r) (hlong : r.blockflag = true)
    (hs : t.Sends [(1, 0), (modebits, m)]) (hend : t.avail (1 + modebits + 2) = false) :
    ∃ u, readHead t = .error .eof u := by
  rw [readHead_mode hbits hmodes hs, if_neg (Nat.not_le.2 hlt)]
  exact headFlags_eof hr hlong (by simpa [State.avail, State.advance, Nat.add_assoc] using hend)

end

/-! ## The packet -/

/-- R322: a packet whose head fails fails with that status, and all that it has written is its own state. -/
theorem exec_synthesis_badHead {s u : State} {eos bos : Bool} {channels : Nat} {f : Failure} (hphase : s.phase = .ready)
    (hch : s.cfg.channels = some channels) (hhead : readHead (s.opened eos bos channels) = .error f u) :
    exec (.synthesis eos bos) s = .next (u.completeFail f) :=
  (exec_accepted (i := .synthesis eos bos) (judgeReady_ok hphase)).trans
    (finish_error ((bind_ok (openPacket_eq hch)).trans (bind_error hhead)))

/-- Settles O59: each of the four payloads ends the reading of the head with its failure, and a head that ends so leaves the
registers of the last block. -/
theorem synthesisFailsInTheHead : Obligations.SynthesisFailsInTheHead := by
  intro s eos bos modes modebits hphase hconf hmodes hbits f hcases
  obtain ⟨channels, hch, -⟩ := hconf.channels
  obtain ⟨modes', hmodes', -, -, -, hmode⟩ := hconf.modes
  obtain rfl : modes = modes' := Option.some.inj (hmodes.symm.trans hmodes')
  have hsends : ∀ {fs}, (s.initCursor s.arg0 s.arg1).Sends fs → (s.opened eos bos channels).Sends fs :=
    fun h => h.congr rfl rfl rfl rfl
  have hends : ∃ u, readHead (s.opened eos bos channels) = .error f u := by
    rcases hcases with ⟨rfl, hs⟩ | ⟨m, rfl, hge, hs⟩ | ⟨rfl, hempty⟩ | ⟨m, r, rfl, hs, hlt, hr, hlong, hend⟩
    · exact ⟨_, readHead_badType (hsends hs)⟩
    · exact ⟨_, readHead_badMode hbits hmodes hge (hsends hs)⟩
    · exact ⟨_, readHead_empty (State.avail_eq_false_iff.2 (by simp [State.opened, hempty]))⟩
    · exact readHead_flags_eof hbits hmodes hlt hr hlong (hsends hs)
        (State.avail_eq_false_iff.2 (by simpa [State.opened] using hend))
  obtain ⟨u, hhead⟩ := hends
  have hfit := readHead_sat (s := s.opened eos bos channels) hbits hmodes fun m hm => (hmode m hm).imp fun _ h => h.1
  obtain ⟨hsame, hfailed, -⟩ := hfit.error hhead
  obtain ⟨frame, kept, hsamples⟩ := BlockFrame.of_opened hsame
  exact ⟨_, exec_synthesis_badHead hphase hch hhead, rfl, rfl, rfl, hfailed, hsamples, kept.mode, kept.w, kept.lw, kept.nw,
    kept.pcmend, kept.pcm, frame.cfg, frame.tab, frame.phase.trans hphase⟩

end Sys2Proof.Machine
end

section
/-! SUPPORT. The tables built after a setup header (48_header.md R349): each is the one its building operation computes. -/

namespace Sys2Proof.Machine

theorem fieldAt_map {α β : Type} (f : α → Option β) (l : List α) (i : Nat) : fieldAt (l.map f) i = (l[i]?).bind f := by
  cases h : l[i]? <;> simp [fieldAt, h]

/-! ## The rules -/

/-- An operation that ends well in every case has an outcome. -/
theorem Sat.exists_ok {α : Type} {op : Op α} {s : State} {Q : α → State → Prop} (h : Sat op s Q fun _ _ => False) :
    ∃ a t, op s = .ok a t ∧ Q a t := by
  cases hrun : op s with
  | ok a t => exact ⟨a, t, rfl, h.ok hrun⟩
  | error e t => exact (h.error hrun).elim

section

variable {c : Cfg} {T T' : Tab} {k : Loaded} {Q R : Loaded → Prop}

/-- An operation whose outcome is known: it sets the tables. -/
theorem Builds.of_eq {op : Op Unit} (h : ∀ s : State, s.has (c, T) → op s = .ok () (s.setTab T')) (hq : Q (c, T')) :
    Builds (c, T) op Q := fun s hs =>
  .of_ok (h s hs) ⟨(c, T'), by obtain ⟨rfl, -⟩ : s.cfg = c ∧ s.tab = T := hs; rfl, hq⟩

/-- Two claims about one outcome are claims about the same tables. -/
theorem Builds.and {op : Op Unit} (h : Builds k op Q) (h' : Builds k op R) : Builds k op fun k' => Q k' ∧ R k' := by
  intro s hs
  refine ((h s hs).and (h' s hs)).mono (fun _ t ht => ?_) fun _ _ hf => hf.1
  obtain ⟨⟨k₁, rfl, hq⟩, k₂, hk, hr⟩ := ht
  obtain rfl : k₁ = k₂ := Prod.ext (congrArg State.cfg hk) (congrArg State.tab hk)
  exact ⟨k₁, rfl, hq, hr⟩

/-- A lookup in the configuration, then the rest. -/
theorem Builds.lookup {α : Type} {g : State → Option α} {v : α} {f : α → Op Unit}
    (hg : ∀ s : State, s.has k → g s = some v) (hf : Builds k (f v) R) : Builds k ((MonadStateOf.get : Op State) >>= fun s => need (g s) >>= f) R :=
  Builds.get_bind fun s hs => Builds.need_bind (hg s hs) hf

/-! ## One table each -/

/-- R184: the values of book `b`, or none. -/
theorem cbUnquantize_builds {b : Nat} {x : Book} (hx : fieldAt c.book b = some x)
    (hsome : ∀ vs, bookValues x = some vs → Q (c, { T with bookValues := putAt T.bookValues b vs }))
    (hnone : bookValues x = none → Q (c, T)) : Builds (c, T) (cbUnquantize b) Q := by
  have hrun : ∀ s : State, s.has (c, T) → cbUnquantize b s = .ok () (match bookValues x with
      | some vs => s.setTab { s.tab with bookValues := putAt s.tab.bookValues b vs }
      | none => s) := fun s hs => cbUnquantize_eq (by rw [hs.1]; exact hx)
  cases hv : bookValues x with
  | some vs =>
    refine Builds.of_eq (fun s hs => ?_) (hsome vs hv)
    rw [hrun s hs, hv, hs.2]
  | none =>
    refine Builds.of_eq (fun s hs => ?_) (hnone hv)
    rw [hrun s hs, hv, ← show s.tab = T from hs.2]
    rfl

/-- R212: the maps of floor-0 record `f` for both block sizes. -/
theorem f0Look_builds {P : Params} {f n0 n1 : Nat} {F : Floor0} (h0 : c.blocksize0 = some n0) (h1 : c.blocksize1 = some n1)
    (hF : fieldAt c.floor f = some (.type0 F))
    (hq : Q (c, { T with floor0Short := putAt T.floor0Short f (floor0Table P F n0)
                         floor0Long := putAt T.floor0Long f (floor0Table P F n1) })) :
    Builds (c, T) (f0Look P f 0 >>= fun _ => f0Look P f 1) Q := by
  have hfloor : ∀ {T : Tab} {s : State}, s.has (c, T) → s.floor0At f = some F := fun hs => by
    simp [State.floor0At, hs.1, hF]
  refine Builds.bind (Q := (· = (c, { T with floor0Short := putAt T.floor0Short f (floor0Table P F n0) })))
    (Builds.of_eq (fun s hs => ?_) rfl) fun _ hk => hk ▸ Builds.of_eq (fun s hs => ?_) hq
  · rw [f0Look_eq P (w := 0) (n := n0) (by rw [← h0, ← show s.cfg = c from hs.1]; rfl)
      (hfloor hs), if_pos rfl, hs.2]
  · rw [f0Look_eq P (w := 1) (n := n1) (by rw [← h1, ← show s.cfg = c from hs.1]; rfl)
      (hfloor hs), if_neg Nat.one_ne_zero, hs.2]

/-- R232: the table of floor-1 record `f`. -/
theorem f1Look_builds {f : Nat} {F : Floor1} (hF : fieldAt c.floor f = some (.type1 F))
    (hq : Q (c, { T with floor1 := putAt T.floor1 f (floor1Table F) })) : Builds (c, T) (f1Look f) Q :=
  Builds.of_eq (fun s hs => by rw [f1Look_eq (F := F) (by simp [State.floor1At, hs.1, hF]), hs.2]) hq

/-- R262: the table of residue `r`. -/
theorem resLook_builds {r : Nat} {x : Residue} {phrase : Book} (hx : fieldAt c.residue r = some x)
    (hphrase : fieldAt c.book x.groupbook = some phrase)
    (hq : Q (c, { T with res := putAt T.res r (resTable x phrase.dim) })) : Builds (c, T) (resLook r) Q :=
  Builds.of_eq (fun s hs => by rw [resLook_eq (R := x) (by rw [hs.1]; exact hx) (by rw [hs.1]; exact hphrase), hs.2]) hq

/-! ## The loops -/

/-- The tables with these values of the books. -/
def Tab.withBooks (values : List (Option (List F32))) (T : Tab) : Tab := { T with bookValues := values }

/-- The tables with these tables of the floors. -/
def Tab.withFloors (short long : List (Option Floor0Table)) (floor1 : List (Option Floor1Table)) (T : Tab) : Tab :=
  { T with floor0Short := short, floor0Long := long, floor1 := floor1 }

/-- The tables with these tables of the residues. -/
def Tab.withResidues (res : List (Option ResTable)) (T : Tab) : Tab := { T with res := res }

/-- The tables with the transforms and windows of two block sizes and the width of the mode field (R301, R328, R349). -/
def Tab.withFixed (P : Params) (n0 n1 modes : Nat) (T : Tab) : Tab :=
  { T with
    mdct0 := some (mdctTable P n0)
    mdct1 := some (mdctTable P n1)
    win000 := some (windowArray P n0 (n0 / 2) (n0 / 2))
    win100 := some (windowArray P n1 (n0 / 2) (n0 / 2))
    win101 := some (windowArray P n1 (n0 / 2) (n1 / 2))
    win110 := some (windowArray P n1 (n1 / 2) (n0 / 2))
    win111 := some (windowArray P n1 (n1 / 2) (n1 / 2))
    modebits := some (ilog (modes - 1)) }

/-- The values of the books before `n` are the computed ones, and no later book has any. -/
structure BookValuesTo (c : Cfg) (n : Nat) (values : List (Option (List F32))) : Prop where
  done : ∀ b < n, fieldAt values b = (fieldAt c.book b).bind bookValues
  rest : ∀ b, n ≤ b → fieldAt values b = none

theorem BookValuesTo.put {n : Nat} {values : List (Option (List F32))} {x : Book} {vs : List F32} (h : BookValuesTo c n values)
    (hx : fieldAt c.book n = some x) (hvs : bookValues x = some vs) : BookValuesTo c (n + 1) (putAt values n vs) := by
  refine ⟨fun b hb => ?_, fun b hb => ?_⟩
  · rw [fieldAt_putAt]
    split
    case isTrue hbn => rw [hbn, hx]; exact hvs.symm
    case isFalse hbn => exact h.done b (by omega)
  · rw [fieldAt_putAt, if_neg (by omega)]
    exact h.rest b (by omega)

theorem BookValuesTo.skip {n : Nat} {values : List (Option (List F32))} {x : Book} (h : BookValuesTo c n values)
    (hx : fieldAt c.book n = some x) (hnone : bookValues x = none) : BookValuesTo c (n + 1) values := by
  refine ⟨fun b hb => ?_, fun b hb => h.rest b (by omega)⟩
  rcases Nat.lt_succ_iff_lt_or_eq.1 hb with hlt | rfl
  · exact h.done b hlt
  · rw [h.rest b le_rfl, hx]
    exact hnone.symm

/-- The values of every book. -/
theorem bookValues_builds {n : Nat} (hT : T.bookValues = []) (hbook : ∀ b < n, ∃ x, fieldAt c.book b = some x) :
    Builds (c, T) (forEach (List.range n) cbUnquantize) fun k' =>
      ∃ values, k' = (c, T.withBooks values) ∧ BookValuesTo c n values := by
  refine Builds.forEach (I := fun i k => ∃ values, k = (c, T.withBooks values) ∧ BookValuesTo c i values) n
    ⟨[], by rw [← hT]; rfl, nofun, fun b _ => fieldAt_nil b⟩ fun i hi k hk => ?_
  obtain ⟨values, rfl, h⟩ := hk
  obtain ⟨x, hx⟩ := hbook i hi
  exact cbUnquantize_builds hx (fun vs hvs => ⟨_, rfl, h.put hx hvs⟩) fun hnone => ⟨_, rfl, h.skip hx hnone⟩

/-- The tables of floor `f` are the computed ones. -/
structure FloorTablesAre (P : Params) (c : Cfg) (n0 n1 : Nat) (short long : List (Option Floor0Table))
    (floor1 : List (Option Floor1Table)) (f : Nat) : Prop where
  short : ∀ F, fieldAt c.floor f = some (.type0 F) → fieldAt short f = some (floor0Table P F n0)
  long : ∀ F, fieldAt c.floor f = some (.type0 F) → fieldAt long f = some (floor0Table P F n1)
  floor1 : ∀ F, fieldAt c.floor f = some (.type1 F) → fieldAt floor1 f = some (floor1Table F)

section

variable {P : Params} {n0 n1 i f : Nat} {short long : List (Option Floor0Table)} {floor1 : List (Option Floor1Table)}

theorem FloorTablesAre.put_type0 {F : Floor0} (hF : fieldAt c.floor i = some (.type0 F)) (hf : f < i + 1)
    (h : ∀ f < i, FloorTablesAre P c n0 n1 short long floor1 f) :
    FloorTablesAre P c n0 n1 (putAt short i (floor0Table P F n0)) (putAt long i (floor0Table P F n1)) floor1 f := by
  rcases Nat.lt_succ_iff_lt_or_eq.1 hf with hlt | rfl
  · obtain ⟨hshort, hlong, hfloor1⟩ := h f hlt
    constructor <;> simpa [fieldAt_putAt, hlt.ne]
  · constructor <;> simp [fieldAt_putAt, hF]

theorem FloorTablesAre.put_type1 {F : Floor1} (hF : fieldAt c.floor i = some (.type1 F)) (hf : f < i + 1)
    (h : ∀ f < i, FloorTablesAre P c n0 n1 short long floor1 f) :
    FloorTablesAre P c n0 n1 short long (putAt floor1 i (floor1Table F)) f := by
  rcases Nat.lt_succ_iff_lt_or_eq.1 hf with hlt | rfl
  · obtain ⟨hshort, hlong, hfloor1⟩ := h f hlt
    constructor <;> simpa [fieldAt_putAt, hlt.ne]
  · constructor <;> simp [fieldAt_putAt, hF]

/-- The tables of every floor. -/
theorem floorTables_builds {n : Nat} (h0 : c.blocksize0 = some n0) (h1 : c.blocksize1 = some n1)
    (hfloor : ∀ f < n, ∃ F, fieldAt c.floor f = some F ∧ fieldAt c.floorType f = some F.typeNumber) :
    Builds (c, T) (forEach (List.range n) (lookFloor P)) fun k' => ∃ short long floor1,
      k' = (c, T.withFloors short long floor1) ∧
      ∀ f < n, FloorTablesAre P c n0 n1 short long floor1 f := by
  refine Builds.forEach (I := fun i k => ∃ short long floor1,
    k = (c, T.withFloors short long floor1) ∧
    ∀ f < i, FloorTablesAre P c n0 n1 short long floor1 f) n ⟨_, _, _, rfl, nofun⟩ fun i hi k hk => ?_
  obtain ⟨short, long, floor1, rfl, h⟩ := hk
  obtain ⟨F, hF, htype⟩ := hfloor i hi
  refine Builds.lookup (g := fun s => fieldAt s.cfg.floorType i) (fun s hs => by rw [hs.1]; exact htype) ?_
  cases F with
  | type0 F => exact f0Look_builds h0 h1 hF ⟨_, _, _, rfl, fun f hf => .put_type0 hF hf h⟩
  | type1 F => exact f1Look_builds hF ⟨_, _, _, rfl, fun f hf => .put_type1 hF hf h⟩

end

/-- The table of residue `r` is the computed one, for the dimension of its phrase book. -/
def ResidueTableIs (c : Cfg) (res : List (Option ResTable)) (r : Nat) : Prop :=
  ∀ x phrase, fieldAt c.residue r = some x → fieldAt c.book x.groupbook = some phrase →
    fieldAt res r = some (resTable x phrase.dim)

theorem ResidueTableIs.put {i r : Nat} {res : List (Option ResTable)} {x : Residue} {phrase : Book}
    (hx : fieldAt c.residue i = some x) (hphrase : fieldAt c.book x.groupbook = some phrase) (hr : r < i + 1)
    (h : ∀ r < i, ResidueTableIs c res r) : ResidueTableIs c (putAt res i (resTable x phrase.dim)) r := by
  intro x' phrase' hx' hphrase'
  rcases Nat.lt_succ_iff_lt_or_eq.1 hr with hlt | rfl
  · simpa [fieldAt_putAt, hlt.ne] using h r hlt x' phrase' hx' hphrase'
  · obtain rfl : x = x' := Option.some.inj (hx.symm.trans hx')
    obtain rfl : phrase = phrase' := Option.some.inj (hphrase.symm.trans hphrase')
    rw [fieldAt_putAt, if_pos rfl]

/-- The table of every residue. -/
theorem residueTables_builds {n : Nat}
    (hres : ∀ r < n, ∃ x phrase, fieldAt c.residue r = some x ∧ fieldAt c.book x.groupbook = some phrase) :
    Builds (c, T) (forEach (List.range n) resLook) fun k' =>
      ∃ res, k' = (c, T.withResidues res) ∧ ∀ r < n, ResidueTableIs c res r := by
  refine Builds.forEach (I := fun i k => ∃ res, k = (c, T.withResidues res) ∧ ∀ r < i, ResidueTableIs c res r) n
    ⟨_, rfl, nofun⟩ fun i hi k hk => ?_
  obtain ⟨res, rfl, h⟩ := hk
  obtain ⟨x, phrase, hx, hphrase⟩ := hres i hi
  exact resLook_builds hx hphrase ⟨_, rfl, fun r hr => .put hx hphrase hr h⟩

/-- R301, R328, R349: the transforms, the windows and the width of the mode field. -/
theorem fixedTables_builds {n0 n1 modes : Nat} (h0 : c.blocksize0 = some n0) (h1 : c.blocksize1 = some n1) (P : Params) :
    Builds (c, T) (do
      mdctInit P 0
      mdctInit P 1
      winInit P
      modify fun s => s.setTab { s.tab with modebits := some (ilog (modes - 1)) })
      (· = (c, T.withFixed P n0 n1 modes)) := by
  intro s hs
  obtain ⟨rfl, rfl⟩ : s.cfg = c ∧ s.tab = T := hs
  refine Sat.step (mdctInit_eq P (w := 0) h0) (Sat.step (mdctInit_eq P (w := 1) h1) ?_)
  exact Sat.step (winInit_eq P h0 h1) ⟨(s.cfg, s.tab.withFixed P n0 n1 modes), rfl, rfl⟩

end

/-! ## All the tables of a legal setup header -/

section

variable {c : Cfg} {channels : Nat} {S : SetupLayout}

theorem SetupLayout.load_book (b : Nat) : fieldAt (S.load c).book b = (S.books[b]?).map Prod.snd := by
  simp only [SetupLayout.load, fieldAt_map]
  cases S.books[b]? <;> rfl

theorem SetupLayout.load_floor (f : Nat) : fieldAt (S.load c).floor f = S.floors[f]? := fieldAt_map_some _ _

theorem SetupLayout.load_floorType (f : Nat) : fieldAt (S.load c).floorType f = (S.floors[f]?).map Floor.typeNumber := by
  simp only [SetupLayout.load, fieldAt_map]
  cases S.floors[f]? <;> rfl

theorem SetupLayout.load_residue (r : Nat) : fieldAt (S.load c).residue r = (S.residues[r]?).map fun x => x.2.2 := by
  simp only [SetupLayout.load, fieldAt_map]
  cases S.residues[r]? <;> rfl

/-- A legal residue has its record and its phrase book. -/
theorem SetupLegal.residue_phrase (h : SetupLegal S c channels) {r : Nat} (hr : r < S.residues.length) :
    ∃ x phrase, fieldAt (S.load c).residue r = some x ∧ fieldAt (S.load c).book x.groupbook = some phrase := by
  obtain ⟨phrase, hphrase, -⟩ := (h.residue _ (List.getElem_mem hr)).2.phrase
  exact ⟨_, phrase, by rw [SetupLayout.load_residue, List.getElem?_eq_getElem hr]; rfl, hphrase⟩

/-- R349: from the codewords of a legal setup header alone, all its tables are built. -/
theorem SetupLegal.buildTables_builds (h : SetupLegal S c channels) {n0 n1 : Nat} {T : Tab} (h0 : c.blocksize0 = some n0)
    (h1 : c.blocksize1 = some n1) (hvalues : T.bookValues = [])
    (hwords : T.bookWords = S.books.map fun x => makeWords x.2.lengthlist) :
    Builds (S.load c, T) (buildTables defaultParams) fun k' => S.Builds n0 n1 k'.2 := by
  unfold buildTables
  refine Builds.get_bind fun s hs => ?_
  rw [show s.cfg = S.load c from hs.1]
  refine Builds.need_bind rfl (Builds.need_bind rfl (Builds.need_bind rfl (Builds.need_bind rfl ?_)))
  refine Builds.bind (bookValues_builds hvalues fun b hb => ?_) fun _ hk => ?_
  · exact ⟨_, by rw [SetupLayout.load_book, List.getElem?_eq_getElem hb]; rfl⟩
  obtain ⟨values, rfl, hvalues⟩ := hk
  refine Builds.bind (floorTables_builds h0 h1 fun f hf => ?_) fun _ hk => ?_
  · exact ⟨S.floors[f], by rw [SetupLayout.load_floor, List.getElem?_eq_getElem hf],
      by rw [SetupLayout.load_floorType, List.getElem?_eq_getElem hf]; rfl⟩
  obtain ⟨short, long, floor1, rfl, hfloors⟩ := hk
  refine Builds.bind (residueTables_builds fun r hr => h.residue_phrase hr) fun _ hk => ?_
  obtain ⟨res, rfl, hres⟩ := hk
  refine (fixedTables_builds (modes := S.modes.length) (c := S.load c) h0 h1 defaultParams).mono fun _ hk => ?_
  subst hk
  have inRange : ∀ {α : Type} {l : List α} {i : Nat} {x : α}, l[i]? = some x → i < l.length :=
    fun hx => (List.getElem?_eq_some_iff.1 hx).1
  exact {
    bookWords := fun b x hx => by
      show fieldAt T.bookWords b = _
      rw [hwords, fieldAt_map, hx]
      rfl
    bookValues := fun b x hx => (hvalues.done b (inRange hx)).trans (by rw [SetupLayout.load_book, hx]; rfl)
    floor0Short := fun f F hF => (hfloors f (inRange hF)).short F (by rw [SetupLayout.load_floor, hF])
    floor0Long := fun f F hF => (hfloors f (inRange hF)).long F (by rw [SetupLayout.load_floor, hF])
    floor1 := fun f F hF => (hfloors f (inRange hF)).floor1 F (by rw [SetupLayout.load_floor, hF])
    res := fun r x phrase hx hphrase => hres r (inRange hx) x.2.2 phrase.2
      (by rw [SetupLayout.load_residue, hx]; rfl) (by rw [SetupLayout.load_book, hphrase]; rfl)
    modebits := rfl
    mdct0 := rfl
    mdct1 := rfl
    win000 := rfl
    win100 := rfl
    win101 := rfl
    win110 := rfl
    win111 := rfl }

end

/-! ## The packet -/

/-- R340: the body of a setup packet, in its phase. -/
theorem headerBody_setup {P : Params} {s t : State} (hp : s.phase = .needSetup) (hb : s.bos = false)
    (hrun : (hdrSetup >>= fun _ => buildTables P : Op Unit) s = .ok () t) :
    headerBody P 5 s = .ok () (t.setPhase .ready) := by
  have hbody : headerBody P 5 s =
      (hdrSetup >>= fun _ => buildTables P >>= fun _ => modify (State.setPhase .ready) : Op Unit) s := by
    show (headerCheck (s.phase == .needSetup && !s.bos) .order >>= _ : Op Unit) s = _
    rw [hp, hb]
    rfl
  rw [hbody, ← bind_assoc, bind_ok hrun]
  rfl

/-- R340: a packet whose head is good and whose body runs through is accepted, and the result is the new phase. -/
theorem exec_headerin_of_body {s v : State} {eos bos : Bool} {t : Nat} {fs : List (Nat × Nat)} (ht : t = 1 ∨ t = 3 ∨ t = 5)
    (hsent : (s.initCursor s.arg0 s.arg1).Sends ((8, t) :: magicFields ++ fs))
    (hbody : headerBody defaultParams t ((s.openHeader eos bos).advance 56) = .ok () v) :
    exec (.headerin eos bos) s = .next (v.completeOk (BitVec.ofNat 32 v.phase.code.toNat)) := by
  have hpacket := (headerPacket_body (P := defaultParams) (eos := eos) (bos := bos) ht hsent).1
  rw [bind_ok hbody] at hpacket
  have hrun : headerin defaultParams eos bos s = .ok (BitVec.ofNat 32 v.phase.code.toNat) v := by
    unfold headerin tearDownOnBadHeader
    rw [hpacket]
    rfl
  exact (exec_accepted (i := .headerin eos bos) rfl).trans (finish_ok hrun)

/-- What is loaded last is what stays. -/
theorem State.with_with (k k' : Loaded) (s : State) : (s.with k).with k' = s.with k' := rfl

/-- The tables once a setup header is read: the codewords of its books (R185, R349). -/
def SetupLayout.withWords (S : SetupLayout) (T : Tab) : Tab :=
  { T with bookWords := S.books.map fun x => makeWords x.2.lengthlist }

/-- What a legal setup header reads to is a valid configuration. -/
theorem SetupLegal.valid {S : SetupLayout} {channels : Nat} {u : State} (h : SetupLegal S u.cfg channels)
    (hident : u.cfg.identOnly) (hch : u.cfg.channels = some channels) (hwords : u.tab.bookWords = [])
    (hs : u.Sends (S.fields channels)) :
    (S.load u.cfg).Valid (S.withWords u.tab) := by
  have hread := hdrSetup_reads hident hwords h u u.has_self hs
  obtain ⟨k', ⟨hc, hT⟩, -, hvalid⟩ := (hdrSetup_parses hch u u.has_self).ok hread
  obtain ⟨c', T'⟩ := k'
  obtain rfl : _ = c' := hc
  obtain rfl : _ = T' := hT
  exact hvalid

/-- A legal setup header loads its configuration and all its tables, and a decoder with these is ready. -/
theorem setup_builds {S : SetupLayout} {channels n0 n1 : Nat} {u : State} (h : SetupLegal S u.cfg channels)
    (hid : u.identified) (hident : u.cfg.identOnly) (hch : u.cfg.channels = some channels) (h0 : u.cfg.blocksize0 = some n0)
    (h1 : u.cfg.blocksize1 = some n1) (htab : u.tab = Tab.absent) (hs : u.Sends (S.fields channels)) :
    ∃ T, (hdrSetup >>= fun _ => buildTables defaultParams : Op Unit) u =
        .ok () ((u.advance (fieldBits (S.fields channels))).with (S.load u.cfg, T)) ∧
      S.Builds n0 n1 T ∧ ∀ t : State, t.has (S.load u.cfg, T) → t.Configured ∧ t.IndicesInRange := by
  have hwords : u.tab.bookWords = [] := by rw [htab]; rfl
  have hvalues : u.tab.bookValues = [] := by rw [htab]; rfl
  have hbuilds := (h.buildTables_builds h0 h1 (T := S.withWords u.tab) hvalues rfl).and
    (buildTables_builds (P := defaultParams) hid (h.valid hident hch hwords hs))
  obtain ⟨_, _, hrun, ⟨c, T⟩, rfl, htables, hc, -, hready⟩ := (hbuilds
    ((u.advance (fieldBits (S.fields channels))).with (S.load u.cfg, S.withWords u.tab)) ⟨rfl, rfl⟩).exists_ok
  obtain rfl : c = S.load u.cfg := hc
  rw [State.with_with] at hrun
  exact ⟨T, (bind_ok (hdrSetup_reads hident hwords h u u.has_self hs)).trans hrun, htables, hready⟩

/-- Settles O56: the head of the packet, the setup record read back, and the tables built from it. -/
theorem setupHeaderMakesReady : Obligations.SetupHeaderMakesReady := by
  intro s eos channels n0 n1 S hphase hid hch h0 h1 hident htab hlegal hsent
  have hfs := (headerPacket_body (P := defaultParams) (eos := eos) (bos := false) (.inr (.inr rfl)) hsent).2
  obtain ⟨T, hrun, htables, hready⟩ := setup_builds (u := (s.openHeader eos false).advance 56) hlegal hid hident hch h0 h1
    htab hfs
  obtain ⟨hconf, hrange⟩ := hready (s.with (S.load s.cfg, T)) ⟨rfl, rfl⟩
  exact ⟨_, exec_headerin_of_body (.inr (.inr rfl)) hsent (headerBody_setup hphase rfl hrun), rfl, rfl, rfl, rfl, htables,
    hconf.congr rfl rfl, hrange.congr rfl rfl, rfl⟩

end Sys2Proof.Machine
end
